-- ==== Sys2Proof/Word.lean ====
section
/-! DEFINITION. The block's three bit-vector types (00_scope R10, R14): command and register words, framebuffer and
tile cells, text and bitmask bytes. -/

namespace Sys2Proof

/-- A 32-bit word: command words (R140), registers (R44), binary32 patterns (R18). -/
abbrev Word := BitVec 32

/-- A 16-bit cell of the framebuffer (R60) or of the tile font (R66), also a colour (R23). -/
abbrev Cell := BitVec 16

/-- A byte of text RAM (R65), of the bitmask font (R67) or on the display port (R69). -/
abbrev Byte := BitVec 8

end Sys2Proof
end

