-- ==== Sys2Proof/Config.lean ====
section
/-! DEFINITION. What an implementation fixes (00_scope R8, R9): the constants the spec gives, the open parameters as
plain data, and the free values, which are constants without a body. -/

namespace Sys2Proof.Config

/-- `WIDTH` (R8). -/
@[simp] abbrev width : Nat := 240

/-- `HEIGHT` (R8). -/
@[simp] abbrev height : Nat := 240

/-- `NPIX = WIDTH*HEIGHT` (R8, R60). -/
@[simp] abbrev npix : Nat := 57600

/-- `SIN_N` (R8). -/
@[simp] abbrev sinN : Nat := 360

/-- `SEL_MAX` (R8). -/
@[simp] abbrev selMax : Nat := 3

/-- `SPEED_STEP`, binary32 0.2 (R8). -/
def speedStep : Word := 0x3E4CCCCD#32

/-- `LETTER_SPACING`, degrees (R8). -/
@[simp] abbrev letterSpacing : Nat := 10

/-- `ROW_TAPER`, pixels (R8). -/
@[simp] abbrev rowTaper : Nat := 2

/-- `COL_SKEW`, binary32 0.1 (R8). -/
def colSkew : Word := 0x3DCCCCCD#32

/-- `BM_GW` and `BM_GH` (R8). -/
@[simp] abbrev bmSide : Nat := 8

/-- `BM_COLS` (R8). -/
@[simp] abbrev bmCols : Nat := 10

/-- `BM_STRIDE` (R8). -/
@[simp] abbrev bmStride : Nat := bmCols

/-- `BM_CENTER_X` (R8). -/
@[simp] abbrev bmCenterX : Nat := 120

/-- `TILE_SKIP` (R8). -/
@[simp] abbrev tileSkip : Nat := 0x20

/-- `CMD_WORDS` (R8). -/
@[simp] abbrev cmdWords : Nat := 1024

/-- `TEXT_BYTES` (R8). -/
@[simp] abbrev textBytes : Nat := 1024

/-- `MATRIX_COLS` (R8). -/
@[simp] abbrev matrixCols : Nat := 8

/-- `JOY_PINS` (R8). -/
@[simp] abbrev joyPins : Nat := 5

/-- The position of a control in the two row masks: its row and its bit (R8). -/
structure Spot where
  row : Nat
  bit : Nat
deriving DecidableEq, Repr

/-- `BTN_UP` (R8). -/
def btnUp : Spot := ⟨1, 0⟩

/-- `BTN_DOWN` (R8). -/
def btnDown : Spot := ⟨1, 1⟩

/-- `BTN_LEFT` (R8). -/
def btnLeft : Spot := ⟨1, 2⟩

/-- `BTN_RIGHT` (R8). -/
def btnRight : Spot := ⟨1, 3⟩

/-- `BTN_MENU` (R8). -/
def btnMenu : Spot := ⟨1, 4⟩

/-- The parameters that R8 calls OPEN (92_eei_decisions section 6), as plain data: the window's base address, the
lookup string (`BM_NCHARS` is its length), the two font images and the tile font's sizes. -/
structure Params where
  base       : Nat
  bmLookup   : List Byte
  bmRom      : List Byte
  tileW      : Nat
  tileH      : Nat
  tileStart  : Nat
  tileCols   : Nat
  tileCount  : Nat
  tileStride : Nat
  tileRom    : List Cell
deriving DecidableEq, Repr, Inhabited

/-- `ceil(a/b)` for the image sizes of R8. -/
def ceilDiv (a b : Nat) : Nat := (a + b - 1) / b

/-- The well-formed configurations: R9, the ranges of R8 and the alignment of `BASE` (R100, 90_conflicts C5). -/
def Params.wf (p : Params) : Bool :=
  p.base % 0x40000 == 0
    && 1 ≤ p.bmLookup.length
    && ceilDiv p.bmLookup.length bmCols * 8 * bmStride ≤ p.bmRom.length
    && 1 ≤ p.tileW && 1 ≤ p.tileH && p.tileStart ≤ 255 && 1 ≤ p.tileCols && 1 ≤ p.tileCount
    && p.tileCols * p.tileW ≤ p.tileStride
    && ceilDiv p.tileCount p.tileCols * p.tileH * p.tileStride ≤ p.tileRom.length

/-- The smallest well-formed configuration, used only to make `board` well formed by construction. -/
def smallest : Params :=
  { base := 0, bmLookup := [0#8], bmRom := List.replicate 80 0#8, tileW := 1, tileH := 1, tileStart := 0, tileCols := 1,
    tileCount := 1, tileStride := 1, tileRom := [0#16] }

/-- FREE VALUE: the parameters of this block, which no source gives (R8 `OPEN`, 93 I15; log 6). -/
opaque drawnBoard : Params

/-- The parameters of the block after reset: any well-formed configuration and nothing else is known of it (R9; log 6). -/
def board : Params := if drawnBoard.wf then drawnBoard else smallest

/-- FREE VALUE: the byte at a window offset of command RAM, text RAM or framebuffer as the reset of the given number
left it (R361, 93 I5; log 4). -/
opaque ramAtReset : Nat → Nat → Byte

/-- FREE VALUE: the level of the input pin at the draw of the given number, true for 1 (R271, 93 I6; log 5). -/
opaque pinLevel : Nat → Bool

end Sys2Proof.Config
end

