-- ==== Sys2Proof/Syntax.lean ====
section
/-! DEFINITION. The nine commands of VSGR-CMD (30_encoding R147), one constructor per row of spec/opcode_table.json, with
their operands as R141 to R145 name them. -/

namespace Sys2Proof

/-- The operands of `TILE_TEXT` and `BM_TEXT` (R141 to R143): coordinates are 16-bit two's-complement patterns, the text
is `tlen` bytes from text-RAM address `taddr`. -/
structure LineText where
  x     : BitVec 16
  y     : BitVec 16
  taddr : BitVec 16
  tlen  : BitVec 8
  color : Cell
  cen   : Bool
deriving DecidableEq, Repr

/-- The operands of `CURVED_TEXT` (R141 to R145): `angle` is a binary32 pattern in degrees, `radius` a 16-bit
two's-complement pattern. -/
structure ArcText where
  cx     : BitVec 16
  cy     : BitVec 16
  taddr  : BitVec 16
  tlen   : BitVec 8
  color  : Cell
  angle  : Word
  radius : BitVec 16
deriving DecidableEq, Repr

/-- A command (R147). -/
inductive Instr where
  /-- `NOP` (R175). -/
  | nop
  /-- `END` (R176). -/
  | endList
  /-- `CLEAR color` (R190). -/
  | clear (color : Cell)
  /-- `SCAN` (R270). -/
  | scan
  /-- `FLUSH` (R300). -/
  | flush
  /-- `DMA_WAIT` (R306). -/
  | dmaWait
  /-- `TILE_TEXT x, y, text, color [, CENTER]` (R200). -/
  | tileText (o : LineText)
  /-- `BM_TEXT x, y, text, color [, CENTER]` (R220). -/
  | bmText (o : LineText)
  /-- `CURVED_TEXT cx, cy, text, color, angle, radius` (R240). -/
  | curvedText (o : ArcText)
deriving DecidableEq, Repr

end Sys2Proof
end

