-- ==== Sys2Proof/WellFormed.lean ====
section
/-! DEFINITION. Which commands are well formed: the one check on operands that the encoding leaves is the text range
(30_encoding R146). -/

namespace Sys2Proof

/-- The text operand lies inside text RAM: `TADDR + TLEN ≤ TEXT_BYTES` (R146). -/
def textFits (taddr : BitVec 16) (tlen : BitVec 8) : Bool :=
  taddr.toNat + tlen.toNat ≤ Config.textBytes

/-- A command that passes decode (R146, R171). -/
def Instr.wf (i : Instr) : Bool :=
  match i with
  | .nop => true
  | .endList => true
  | .clear _ => true
  | .scan => true
  | .flush => true
  | .dmaWait => true
  | .tileText o => textFits o.taddr o.tlen
  | .bmText o => textFits o.taddr o.tlen
  | .curvedText o => textFits o.taddr o.tlen

end Sys2Proof
end

