-- ==== Sys2Proof/Decode.lean ====
section
/-! DEFINITION. Decode (30_encoding R140 to R150, 40_engine R171) and, after it, the encoder. The decoder reads the words
that stand from the header on, at most as many as command RAM still holds, and rejects by name. -/

namespace Sys2Proof

/-- Why decode rejects (40_engine R171, in the order of its checks). -/
inductive Reject where
  /-- No header word: `CP ≥ CMD_WORDS`. -/
  | headerOverrun
  /-- `OP` is not in the opcode map. -/
  | illegalOpcode
  /-- The operand words run past the end of command RAM. -/
  | operandOverrun
  /-- A bit that must be 0 is 1. -/
  | reservedField
  /-- `TADDR + TLEN > TEXT_BYTES`. -/
  | textRange
deriving DecidableEq, Repr

/-- The nine values of the `OP` field (R147). -/
inductive Op where
  | nop
  | endList
  | clear
  | scan
  | flush
  | dmaWait
  | tileText
  | bmText
  | curvedText
deriving DecidableEq, Repr

/-- One row of the opcode map (R147, R148): `code` is the `OP` value, `len` the length in words, and a header selects
the row when `h & mask = match`, where `match` is `code` with every reserved bit 0. -/
structure OpRow where
  op   : Op
  code : Byte
  len  : Nat
  mask : Word
deriving DecidableEq, Repr

/-- The opcode map (R147, R148). -/
def opcodeMap : List OpRow :=
  [ ⟨.nop,        0x00#8, 1, 0xFFFFFFFF#32⟩,
    ⟨.endList,    0x01#8, 1, 0xFFFFFFFF#32⟩,
    ⟨.clear,      0x02#8, 1, 0x0000FFFF#32⟩,
    ⟨.scan,       0x03#8, 1, 0xFFFFFFFF#32⟩,
    ⟨.flush,      0x04#8, 1, 0xFFFFFFFF#32⟩,
    ⟨.dmaWait,    0x05#8, 1, 0xFFFFFFFF#32⟩,
    ⟨.tileText,   0x10#8, 3, 0x0000FEFF#32⟩,
    ⟨.bmText,     0x11#8, 3, 0x0000FEFF#32⟩,
    ⟨.curvedText, 0x12#8, 5, 0x0000FFFF#32⟩ ]

/-- The row whose code is the header's `OP` field (R141, R147). -/
def opRow? (h : Word) : Option OpRow :=
  opcodeMap.find? fun row => row.code == h.extractLsb' 0 8

/-- The reserved bits of the header are 0: the header passes its mask (R148). -/
def headerClean (row : OpRow) (h : Word) : Bool :=
  h &&& row.mask == row.code.setWidth 32

/-- `COLOR = h[31:16]` (R141). -/
def colorOf (h : Word) : Cell := h.extractLsb' 16 16

/-- `CEN = h[8]` (R141). -/
def cenOf (h : Word) : Bool := h.getLsbD 8

/-- The low halfword: `X` of `w1` (R142), `TADDR` of `w2` (R143), `RADIUS` of `w4` (R145). -/
def lowHalf (w : Word) : BitVec 16 := w.extractLsb' 0 16

/-- The high halfword: `Y` of `w1` (R142). -/
def highHalf (w : Word) : BitVec 16 := w.extractLsb' 16 16

/-- `TLEN = w2[23:16]` (R143). -/
def tlenOf (w : Word) : BitVec 8 := w.extractLsb' 16 8

/-- `w2[31:24]` is 0 (R143). -/
def textWordClean (w2 : Word) : Bool := w2.extractLsb' 24 8 == 0#8

/-- `w4[31:16]` is 0 (R145). -/
def radiusWordClean (w4 : Word) : Bool := w4.extractLsb' 16 16 == 0#16

/-- The operands of a three-word text command (R142, R143). -/
def lineTextOf (h w1 w2 : Word) : LineText :=
  { x := lowHalf w1, y := highHalf w1, taddr := lowHalf w2, tlen := tlenOf w2, color := colorOf h, cen := cenOf h }

/-- The operands of `CURVED_TEXT` (R142 to R145). -/
def arcTextOf (h w1 w2 w3 w4 : Word) : ArcText :=
  { cx := lowHalf w1, cy := highHalf w1, taddr := lowHalf w2, tlen := tlenOf w2, color := colorOf h, angle := w3,
    radius := lowHalf w4 }

/-- The last two checks of R171 on a command whose words are all there: reserved bits, then the text range. -/
def accept (clean : Bool) (i : Instr) : Except Reject Instr :=
  if clean then (if i.wf then .ok i else .error .textRange) else .error .reservedField

/-- The command of a row whose operand words all stand in `ws` (R147). -/
def decodeRow (row : OpRow) (h : Word) (ws : List Word) : Except Reject Instr :=
  match row.op, ws with
  | .nop, _ => accept (headerClean row h) .nop
  | .endList, _ => accept (headerClean row h) .endList
  | .clear, _ => accept (headerClean row h) (.clear (colorOf h))
  | .scan, _ => accept (headerClean row h) .scan
  | .flush, _ => accept (headerClean row h) .flush
  | .dmaWait, _ => accept (headerClean row h) .dmaWait
  | .tileText, w1 :: w2 :: _ => accept (headerClean row h && textWordClean w2) (.tileText (lineTextOf h w1 w2))
  | .bmText, w1 :: w2 :: _ => accept (headerClean row h && textWordClean w2) (.bmText (lineTextOf h w1 w2))
  | .curvedText, w1 :: w2 :: w3 :: w4 :: _ =>
    accept (headerClean row h && textWordClean w2 && radiusWordClean w4) (.curvedText (arcTextOf h w1 w2 w3 w4))
  | .tileText, _ => .error .operandOverrun
  | .bmText, _ => .error .operandOverrun
  | .curvedText, _ => .error .operandOverrun

/-- Decode of the words from the header on, in the order of checks of 40_engine R171. -/
def decode (ws : List Word) : Except Reject Instr :=
  match ws with
  | [] => .error .headerOverrun
  | h :: rest =>
    match opRow? h with
    | none => .error .illegalOpcode
    | some row => if rest.length + 1 < row.len then .error .operandOverrun else decodeRow row h rest

/-- A word from its four bytes, the first at the lowest address (20_memory R103). -/
def wordOfBytes (b0 b1 b2 b3 : Byte) : Word := b3 ++ b2 ++ b1 ++ b0

/-- Command words from the bytes of command RAM in address order (R100, R103); fewer than four bytes make no word. -/
def wordsOfBytes : List Byte → List Word
  | b0 :: b1 :: b2 :: b3 :: rest => wordOfBytes b0 b1 b2 b3 :: wordsOfBytes rest
  | _ => []

/-- Decode of any bytes, as they lie in command RAM. -/
def decodeBytes (bs : List Byte) : Except Reject Instr := decode (wordsOfBytes bs)

/-! ### The encoder (30_encoding R141 to R149) -/

/-- `{COLOR, 0000000, CEN, OP}` (R141). -/
def headerWord (code : Byte) (cen : Bool) (color : Cell) : Word := color ++ 0#7 ++ BitVec.ofBool cen ++ code

/-- `w1 = {Y, X}` (R142). -/
def coordWord (x y : BitVec 16) : Word := y ++ x

/-- `w2 = {00000000, TLEN, TADDR}` (R143). -/
def textWord (taddr : BitVec 16) (tlen : BitVec 8) : Word := 0#8 ++ tlen ++ taddr

/-- `w4 = {0000000000000000, RADIUS}` (R145). -/
def radiusWord (radius : BitVec 16) : Word := 0#16 ++ radius

/-- The words of a command, header first. -/
def encode (i : Instr) : List Word :=
  match i with
  | .nop => [headerWord 0x00#8 false 0#16]
  | .endList => [headerWord 0x01#8 false 0#16]
  | .clear color => [headerWord 0x02#8 false color]
  | .scan => [headerWord 0x03#8 false 0#16]
  | .flush => [headerWord 0x04#8 false 0#16]
  | .dmaWait => [headerWord 0x05#8 false 0#16]
  | .tileText o => [headerWord 0x10#8 o.cen o.color, coordWord o.x o.y, textWord o.taddr o.tlen]
  | .bmText o => [headerWord 0x11#8 o.cen o.color, coordWord o.x o.y, textWord o.taddr o.tlen]
  | .curvedText o =>
    [headerWord 0x12#8 false o.color, coordWord o.cx o.cy, textWord o.taddr o.tlen, o.angle, radiusWord o.radius]

/-- `LEN(OP)`: the length of a command in words (R140, R147). -/
def Instr.len (i : Instr) : Nat :=
  match i with
  | .nop => 1
  | .endList => 1
  | .clear _ => 1
  | .scan => 1
  | .flush => 1
  | .dmaWait => 1
  | .tileText _ => 3
  | .bmText _ => 3
  | .curvedText _ => 5

/-! ### The host's question about the opcode table -/

/-- The number of words of the longest command. -/
def maxLen : Nat := 5

/-- The bytes of a command whose bits are numbered as the opcode table numbers them: bit 0 is the least significant bit
of the first word, and every bit from `nbits` on is 0. Byte `k` in memory order holds bits `8k+7..8k` (R103). -/
def tableBytes (nbits w : Nat) : List Byte :=
  (List.range (4 * maxLen)).map fun k => BitVec.ofNat 8 ((w % 2 ^ nbits) >>> (8 * k))

/-- The command the decoder reads from an opcode-table word, `none` where it rejects. -/
def decodeTableWord (nbits w : Nat) : Option Instr :=
  match decodeBytes (tableBytes nbits w) with
  | .ok i => some i
  | .error _ => none

end Sys2Proof
end

