-- ==== Sys2Proof/Machine/State.lean ====
section
/-! DEFINITION. The state of the block (10_state) as plain data: the host-visible registers, the DMA agent, the RAMs, the
ports and their output sequences, the engine's position inside a command, the ROM parameters, and the model's own fields
(the coming turns of the other agents, the settled pin levels, two counters and the host's read results). -/

namespace Sys2Proof.Machine

/-- `RUN` (R40). -/
inductive Run where
  | idle
  | running
deriving DecidableEq, Repr

/-- `LAST`, the debounce latch (R52). -/
inductive Control where
  | none
  | up
  | down
  | menu
deriving DecidableEq, Repr

/-- The value of `FAULT_CAUSE` (R49, R320); codes 5 to 7 are never written. -/
inductive Cause where
  | none
  | clOverrun
  | illegalOpcode
  | reservedField
  | textRange
deriving DecidableEq, Repr

/-- An event on the display port (R69). -/
inductive DispEvent where
  | win (x0 y0 x1 y1 : Nat)
  | byte (b : Byte)
deriving DecidableEq, Repr

/-- The scanner's output pins (R69). -/
inductive Pin where
  | srData
  | srClk
  | srLoad
deriving DecidableEq, Repr

/-- A scanner output pin driven to a level, true for 1 (R17, R70). -/
structure PinEvent where
  pin   : Pin
  level : Bool
deriving DecidableEq, Repr

/-- What a host read returned (R105): the model's own record (log 9). -/
structure BusRead where
  addr  : Nat
  width : Nat
  value : Word
deriving DecidableEq, Repr

/-- One atomic engine step that remains of the command being executed (R71, R110, R172): it carries the character,
glyph row and column, framebuffer index or working angle that the position holds. -/
inductive Micro where
  /-- The step of a command that only advances `CP` (R175; an empty text; R240 for a NaN or infinite angle). -/
  | advance
  /-- The step of `END` (R176). -/
  | stop
  /-- The write of cell `i` by `CLEAR` and of every cell after it (R191). -/
  | fill (color : Cell) (i : Nat)
  /-- One `FBWrite` that passed the check of `PlotFlat` (R15). -/
  | plot (off : Nat) (v : Cell)
  /-- `TILE_TEXT` reads character `i` (R202). -/
  | tileChar (o : LineText) (i : Nat)
  /-- `TILE_TEXT` reads tile pixel `(k, j)` of glyph `g` for character `i` (R202). -/
  | tilePixel (o : LineText) (i g j k : Nat)
  /-- `BM_TEXT` reads character `i`, `n` characters having matched (R222). -/
  | bmChar (o : LineText) (i n : Nat)
  /-- `BM_TEXT` reads row `r` of glyph `g`, the `n`-th matched character (R222). -/
  | bmRow (o : LineText) (n g r : Nat)
  /-- `CURVED_TEXT` reads character `i`, `k` characters having matched; `start` is the angle `S` (R242). -/
  | arcChar (o : ArcText) (start : Word) (i k : Nat)
  /-- `CURVED_TEXT` reads row `r` of glyph `g`, the `k`-th matched character (R242). -/
  | arcRow (o : ArcText) (start : Word) (k g r : Nat)
  /-- `CURVED_TEXT` reads the sine of the set bit at row `r`, column `c`, working angle `cur` (R242). -/
  | arcSin (o : ArcText) (k r c : Nat) (cur : Word)
  /-- `CURVED_TEXT` reads the cosine of the same bit (R242, R246). -/
  | arcCos (o : ArcText) (k r c : Nat) (cur : Word)
  /-- `SCAN` reads `CTRL.SCAN_MODE` (R272). -/
  | scanMode
  /-- `SCAN` drives an output pin (R272). -/
  | pin (e : PinEvent)
  /-- `SCAN` samples `SR_IN` for row `row` of column `c` (R272). -/
  | sampleMatrix (row c : Nat)
  /-- `SCAN` samples `JOY_IN<k>` (R272). -/
  | sampleJoy (k : Nat)
  /-- The commit of `SCAN` (R272, R278). -/
  | commit
  /-- `FLUSH`, held while a transfer is in progress (R301). -/
  | flush
  /-- `DMA_WAIT`, held while a transfer is in progress (R306). -/
  | dmaWait
deriving DecidableEq, Repr

/-- The engine's position inside a command (R71): the command with its operands as decode read them (R115), the steps
that remain, and the row masks a `SCAN` has gathered so far (`r0`, `r1` of R272). -/
structure Position where
  cmd  : Instr
  todo : List Micro
  r0   : Byte
  r1   : Byte
deriving DecidableEq, Repr

/-- A step of an agent other than the engine (R6, R105, R302, R360). -/
inductive Act where
  /-- `MemRead(addr, n)` by the host (R105). -/
  | hostRead (addr n : Nat)
  /-- `MemWrite(addr, n, v)` by the host (R105). -/
  | hostWrite (addr n : Nat) (v : Word)
  /-- A step of the DMA agent taken before the engine's next one (R302). -/
  | dma
  /-- The reset level (R360). -/
  | reset
deriving DecidableEq, Repr

/-- A coming turn of another agent: it acts once `after` more steps of the engine or the DMA have been taken, or at once
when neither can move (the model's own; log 1). -/
structure Turn where
  after : Nat
  act   : Act
deriving DecidableEq, Repr

/-- The state of the block. -/
@[ext]
structure State where
  /-- `RUN` (R40). -/
  run        : Run
  /-- `CP` (R41). -/
  cp         : BitVec 11
  /-- `CL_BASE` (R42). -/
  clBase     : BitVec 10
  /-- `CTRL.SCAN_MODE`, true for the joystick (R46). -/
  scanMode   : Bool
  /-- `STATUS.DONE` (R47). -/
  done       : Bool
  /-- `STATUS.DMA_DONE` (R47). -/
  dmaDone    : Bool
  /-- `STATUS.FAULT` (R47). -/
  fault      : Bool
  /-- `IE[2]` (R48). -/
  doneIe     : Bool
  /-- `IE[3]` (R48). -/
  dmaDoneIe  : Bool
  /-- `IE[4]` (R48). -/
  faultIe    : Bool
  /-- `FAULT_CAUSE` (R49). -/
  faultCause : Cause
  /-- `FAULT_CP` (R50). -/
  faultCp    : BitVec 11
  /-- `FAULT_WORD` (R51). -/
  faultWord  : Word
  /-- `BTN.ROW0` (R53). -/
  row0       : Byte
  /-- `BTN.ROW1` (R53). -/
  row1       : Byte
  /-- `LED` (R54). -/
  led        : Byte
  /-- `SEL` (R55). -/
  sel        : BitVec 2
  /-- `LAST` (R52). -/
  last       : Control
  /-- `EVENTS.UP_EDGE` (R56). -/
  upEdge     : Bool
  /-- `EVENTS.DOWN_EDGE` (R56). -/
  downEdge   : Bool
  /-- `EVENTS.MENU_EDGE` (R56). -/
  menuEdge   : Bool
  /-- `SPEED0` (R57). -/
  speed0     : Word
  /-- `SPEED1` (R57). -/
  speed1     : Word
  /-- `SPEED2` (R57). -/
  speed2     : Word
  /-- `SPEED3` (R57). -/
  speed3     : Word
  /-- `DMA_ACTIVE` (R58). -/
  dmaActive  : Bool
  /-- `DMA_IDX` (R58). -/
  dmaIdx     : BitVec 17
  /-- The bytes of command RAM, text RAM and framebuffer written since reset, by window offset, addresses strictly
  rising (R60, R64, R65, R100; log 4). -/
  mem        : List Host.Cell
  /-- The level of `SR_DATA` (R69). -/
  srData     : Bool
  /-- The level of `SR_CLK` (R69). -/
  srClk      : Bool
  /-- The level of `SR_LOAD` (R69). -/
  srLoad     : Bool
  /-- `DISP_OUT`, newest event first (R70; log 14). -/
  dispOut    : List DispEvent
  /-- `PIN_OUT`, newest event first (R70; log 14). -/
  pinOut     : List PinEvent
  /-- The engine's position inside a command, `none` between commands (R71). -/
  inside     : Option Position
  /-- The ROMs and open parameters, which no step changes (R8, R66 to R68, R362; log 6). -/
  cfg        : Config.Params
  /-- MODEL'S OWN: the coming turns of the other agents, the next first (log 1). -/
  plan       : List Turn
  /-- MODEL'S OWN: input levels already settled, the next first (log 5). -/
  pins       : List Bool
  /-- MODEL'S OWN: the number of free pin draws so far (log 5). -/
  drawn      : Nat
  /-- MODEL'S OWN: the number of resets so far, which index the free RAM contents (log 4). -/
  resets     : Nat
  /-- MODEL'S OWN: what the host's reads returned, newest first (log 9). -/
  busOut     : List BusRead
deriving DecidableEq, Repr

/-- Why a step of the machine stops. -/
inductive Fault where
  /-- Raised by `step` when the host's next turn is a bus error (R102): an unmapped offset, a width the region does not
  allow, a misaligned access, or an address outside the block's window. The block has no step for it. SAFE (log 7). -/
  | hostBusError (addr n : Nat)
deriving DecidableEq, Repr

/-- Why a step has no meaning. -/
inductive Refusal where
  /-- Raised by `exec` for an instruction that has no meaning yet. SAFE. No arm of this model raises it. -/
  | notModelled (mnemonic : String)
deriving DecidableEq, Repr

/-- The state right after reset (R360, R363). The RAMs hold nothing written, so every byte of theirs reads as the free
value of reset number 0 (R361; log 4); the ROM parameters are the block's open ones (log 6). The model's own fields
`plan`, `pins`, `drawn`, `resets` and `busOut` are DESIGN CHOICEs (log 1, 4, 5, 9). -/
def State.reset : State :=
  { run := .idle, cp := 0#11, clBase := 0#10, scanMode := false,
    done := false, dmaDone := false, fault := false,
    doneIe := false, dmaDoneIe := false, faultIe := false,
    faultCause := .none, faultCp := 0#11, faultWord := 0#32,
    row0 := 0#8, row1 := 0#8, led := 0#8, sel := 0#2, last := .none,
    upEdge := false, downEdge := false, menuEdge := false,
    speed0 := 0xC1200000#32, speed1 := 0xC1000000#32, speed2 := 0xC0C00000#32, speed3 := 0x41200000#32,
    dmaActive := false, dmaIdx := 0#17, mem := [],
    srData := false, srClk := false, srLoad := false,
    dispOut := [], pinOut := [], inside := none, cfg := Config.board,
    plan := [], pins := [], drawn := 0, resets := 0, busOut := [] }

end Sys2Proof.Machine
end

