-- ==== Sys2Proof/Machine/Ops.lean ====
section
/-! DEFINITION. The named operations over memory, ports and control: reads and writes of the RAMs, the turns of the other
agents, fetching, fault entry (60_exceptions R322), the start that follows it (R170, R329) and reset (R360). -/

namespace Sys2Proof.Machine

/-! ### The memory list (log 4) -/

/-- The byte listed at an address. -/
def memFind : List Host.Cell → Nat → Option Byte
  | [], _ => none
  | (x, b) :: m, a => if x = a then some b else memFind m a

/-- The list with a byte at an address, addresses still strictly rising. -/
def memPut : List Host.Cell → Nat → Byte → List Host.Cell
  | [], a, b => [(a, b)]
  | (x, c) :: m, a, b =>
    if a < x then (a, b) :: (x, c) :: m else if x = a then (a, b) :: m else (x, c) :: memPut m a b

/-- The low byte of a cell (R103). -/
def cellLo (v : Cell) : Byte := v.extractLsb' 0 8

/-- The high byte of a cell (R103). -/
def cellHi (v : Cell) : Byte := v.extractLsb' 8 8

/-- The entries of `n` cells of one value from address `lo` on. -/
def cellRun (lo : Nat) (v : Cell) : Nat → List Host.Cell
  | 0 => []
  | n + 1 => (lo, cellLo v) :: (lo + 1, cellHi v) :: cellRun (lo + 2) v n

/-- The list with `n` cells of one value from address `lo` on: `n` successive cell writes at once. -/
def memFill (m : List Host.Cell) (lo n : Nat) (v : Cell) : List Host.Cell :=
  m.filter (fun e => e.1 < lo) ++ cellRun lo v n ++ m.filter (fun e => lo + 2 * n ≤ e.1)

/-- The canonical form of memory: addresses strictly rising, so that a byte is listed once and exactly when it has been
written since reset (log 4). -/
abbrev memSorted (m : List Host.Cell) : Prop := m.Pairwise fun x y => x.1 < y.1

/-! ### The regions of the window (20_memory R100) -/

/-- The window's size (R100). -/
@[simp] abbrev windowSize : Nat := 0x40000

/-- The offset of command RAM (R100). -/
@[simp] abbrev cmdBase : Nat := 0x01000

/-- The offset of text RAM (R100). -/
@[simp] abbrev textBase : Nat := 0x02000

/-- The offset of the sine ROM (R100). -/
@[simp] abbrev sinBase : Nat := 0x03000

/-- The offset of the framebuffer (R100). -/
@[simp] abbrev fbBase : Nat := 0x10000

/-- A window offset of command RAM, text RAM or framebuffer (R100). -/
def isRam (a : Nat) : Bool :=
  (cmdBase ≤ a && a < cmdBase + 4 * Config.cmdWords) || (textBase ≤ a && a < textBase + Config.textBytes)
    || (fbBase ≤ a && a < fbBase + 2 * Config.npix)

/-- The form of the memory field: canonical, and every listed address is a RAM byte of the window. -/
abbrev memWf (m : List Host.Cell) : Prop := memSorted m ∧ ∀ e ∈ m, isRam e.1 = true

/-! ### Reads and writes of the RAMs (R14, R103, R104) -/

/-- The byte at a window offset of the RAMs: the one written last, or what the last reset left there (R109, R361). -/
def State.ramByte (s : State) (a : Nat) : Byte :=
  match memFind s.mem a with
  | some b => b
  | none => Config.ramAtReset s.resets a

/-- A byte write at a window offset. -/
def State.putByte (s : State) (a : Nat) (b : Byte) : State := { s with mem := memPut s.mem a b }

/-- `CmdRead(w)` (R14). -/
def State.cmdRead (s : State) (w : Nat) : Word :=
  wordOfBytes (s.ramByte (cmdBase + 4 * w)) (s.ramByte (cmdBase + 4 * w + 1)) (s.ramByte (cmdBase + 4 * w + 2))
    (s.ramByte (cmdBase + 4 * w + 3))

/-- `TextRead(a)` (R14). -/
def State.textRead (s : State) (a : Nat) : Byte := s.ramByte (textBase + a)

/-- `FBRead(i)` (R14, R103). -/
def State.fbRead (s : State) (i : Nat) : Cell :=
  s.ramByte (fbBase + 2 * i + 1) ++ s.ramByte (fbBase + 2 * i)

/-- `FBWrite(i, v)` (R14, R103). -/
def State.fbWrite (s : State) (i : Nat) (v : Cell) : State :=
  (s.putByte (fbBase + 2 * i) (cellLo v)).putByte (fbBase + 2 * i + 1) (cellHi v)

/-- `n` successive `FBWrite`s of one value from cell `i` on (R191). -/
def State.fbFill (s : State) (i n : Nat) (v : Cell) : State :=
  { s with mem := memFill s.mem (fbBase + 2 * i) n v }

/-- The bytes of a word, lowest address first (R103). -/
def bytesOfWord (w : Word) : List Byte :=
  [w.extractLsb' 0 8, w.extractLsb' 8 8, w.extractLsb' 16 8, w.extractLsb' 24 8]

/-- Successive byte writes from a window offset on. -/
def State.putBytes (s : State) (a : Nat) : List Byte → State
  | [] => s
  | b :: bs => (s.putByte a b).putBytes (a + 1) bs

/-- Successive writes of command words from word index `w` on. -/
def State.putWords (s : State) (w : Nat) : List Word → State
  | [] => s
  | v :: vs => (s.putBytes (cmdBase + 4 * w) (bytesOfWord v)).putWords (w + 1) vs

/-! ### The coming turns of the other agents (log 1) -/

/-- The next turn is due: another agent acts before the engine or the DMA moves again. -/
def State.turnDue (s : State) : Bool :=
  match s.plan with
  | [] => false
  | t :: _ => t.after == 0

/-- How many of `n` steps the block takes before the next turn is due. -/
def State.burst (s : State) (n : Nat) : Nat :=
  match s.plan with
  | [] => n
  | t :: _ => min n t.after

/-- The plan after `n` steps of the engine or the DMA. -/
def spendPlan (plan : List Turn) (n : Nat) : List Turn :=
  match plan with
  | [] => []
  | t :: ts => { t with after := t.after - n } :: ts

/-- The state after `n` steps of the engine or the DMA are counted off. -/
def State.spend (s : State) (n : Nat) : State := { s with plan := spendPlan s.plan n }

/-- The engine's position inside a command, or between commands (R71). -/
def State.setInside (s : State) (p : Option Position) : State := { s with inside := p }

/-! ### Ports (R17, R70) -/

/-- `emit(e)` (R17). -/
def State.emit (s : State) (e : DispEvent) : State := { s with dispOut := e :: s.dispOut }

/-- `DISP_OUT` in the order of its events (R70). -/
def State.dispSeq (s : State) : List DispEvent := s.dispOut.reverse

/-- `PIN_OUT` in the order of its events (R70). -/
def State.pinSeq (s : State) : List PinEvent := s.pinOut.reverse

/-- `pins_out(e)` (R17): the pin takes the level and the event is recorded. -/
def State.pinsOut (s : State) (e : PinEvent) : State :=
  match e.pin with
  | .srData => { s with srData := e.level, pinOut := e :: s.pinOut }
  | .srClk => { s with srClk := e.level, pinOut := e :: s.pinOut }
  | .srLoad => { s with srLoad := e.level, pinOut := e :: s.pinOut }

/-- The level `sample(p)` returns (R17, R271): the next settled one, or else a free draw (log 5). -/
def State.sampleLevel (s : State) : Bool :=
  match s.pins with
  | [] => Config.pinLevel s.drawn
  | l :: _ => l

/-- The state after `sample(p)`. -/
def State.sampled (s : State) : State :=
  match s.pins with
  | [] => { s with drawn := s.drawn + 1 }
  | _ :: ls => { s with pins := ls }

/-! ### Fetching (R140, R171) -/

/-- How many words, at most `maxLen`, command RAM holds from `CP` on. -/
def State.wordsLeft (s : State) : Nat := min maxLen (Config.cmdWords - s.cp.toNat)

/-- The words decode reads: from `CP` on, never past the end of command RAM. -/
def State.fetchWords (s : State) : List Word := (List.range s.wordsLeft).map fun k => s.cmdRead (s.cp.toNat + k)

/-- Decode of the command at `CP` (R171). -/
def State.fetch (s : State) : Except Reject Instr := decode s.fetchWords

/-! ### Faults, start and reset -/

/-- The cause a rejection raises (R171, R320). -/
def causeOf (r : Reject) : Cause :=
  match r with
  | .headerOverrun => .clOverrun
  | .illegalOpcode => .illegalOpcode
  | .operandOverrun => .clOverrun
  | .reservedField => .reservedField
  | .textRange => .textRange

/-- The value `FAULT_WORD` takes (R51, R320): the header word, or 0 when there is no header. -/
def State.faultWordFor (s : State) (r : Reject) : Word :=
  match r with
  | .headerOverrun => 0#32
  | .illegalOpcode => s.cmdRead s.cp.toNat
  | .operandOverrun => s.cmdRead s.cp.toNat
  | .reservedField => s.cmdRead s.cp.toNat
  | .textRange => s.cmdRead s.cp.toNat

/-- Fault entry, `raise Fault(cause, word)` (R16, R322): one atomic step, `CP` unchanged, nothing else saved. -/
def State.takeFault (s : State) (cause : Cause) (word : Word) : State :=
  { s with run := .idle, fault := true, faultCause := cause, faultCp := s.cp, faultWord := word }

/-- The start of a run, also the only way on after a fault (R46, R170, R329): ignored while running. -/
def State.start (s : State) : State :=
  match s.run with
  | .idle => { s with run := .running, cp := s.clBase.setWidth 11 }
  | .running => s

/-- Reset (R360, R363): every piece of the block's state takes its reset value and the RAMs take new free contents
(R361). The ROM parameters (R362) and what stands outside the block stay: the coming turns, the settled pin levels, the
draws counted and the values the host has read (log 15). -/
def State.resetStep (s : State) : State :=
  { State.reset with
    cfg := s.cfg, plan := s.plan, pins := s.pins, drawn := s.drawn, resets := s.resets + 1, busOut := s.busOut }

end Sys2Proof.Machine
end

