-- ==== Sys2Proof/Machine/Display.lean ====
section
/-! DEFINITION. The display transfer (46_display_dma): the step of `FLUSH` that starts it, the hold, and the DMA agent's
own step. -/

namespace Sys2Proof.Machine

/-- The step of `FLUSH` once it is not held: a new transfer begins with the full-screen window (R301). -/
def beginTransfer (s : State) : State :=
  { s with dmaActive := true, dmaIdx := 0#17 }.emit (.win 0 0 (Config.width - 1) (Config.height - 1))

/-- The index moves on, and the step that read the last cell ends the transfer (R302). -/
def advanceTransfer (s : State) : State :=
  if s.dmaIdx.toNat + 1 = Config.npix then { s with dmaIdx := s.dmaIdx + 1#17, dmaActive := false, dmaDone := true }
  else { s with dmaIdx := s.dmaIdx + 1#17 }

/-- The two bytes of the cell at `DMA_IDX`, low byte first (R302, R304). -/
def emitCell (s : State) : State :=
  (s.emit (.byte (cellLo (s.fbRead s.dmaIdx.toNat)))).emit (.byte (cellHi (s.fbRead s.dmaIdx.toNat)))

/-- `DMA_STEP()`, enabled only while a transfer is in progress (R302). -/
def dmaStep (s : State) : State := if s.dmaActive then advanceTransfer (emitCell s) else s

/-- The step waits for the end of a transfer: `FLUSH` and `DMA_WAIT` take it only when `DMA_ACTIVE` is false (R300,
R306). -/
def waitsForDma (m : Micro) : Bool :=
  match m with
  | .flush => true
  | .dmaWait => true
  | _ => false

end Sys2Proof.Machine
end

