-- ==== Sys2Proof/Machine/Binary32.lean ====
section
/-! DEFINITION. The binary32 primitives (00_scope R18 to R22). Every finite pattern is an exact integer multiple of
2^-149; a result is computed exactly in integers and rounded once, to nearest with ties to even (log 22). -/

namespace Sys2Proof.Machine

/-- The sign bit. -/
def fsign (a : Word) : Bool := a.getLsbD 31

/-- The exponent field `a[30:23]`. -/
def fexp (a : Word) : Nat := (a.extractLsb' 23 8).toNat

/-- The fraction field `a[22:0]`. -/
def ffrac (a : Word) : Nat := (a.extractLsb' 0 23).toNat

/-- `isNaN(a)` (R19). -/
def isNaN (a : Word) : Bool := fexp a == 0xFF && ffrac a != 0

/-- `isInf(a)` (R19). -/
def isInf (a : Word) : Bool := fexp a == 0xFF && ffrac a == 0

/-- The canonical quiet NaN (R19). -/
def canonicalNaN : Word := 0x7FC00000#32

/-- The number of units of 2^-149 in 1. -/
def unitsPerOne : Nat := 2 ^ 149

/-- The magnitude of a finite pattern in units of 2^-149: a subnormal is its fraction, a normal its 24-bit significand
scaled by its exponent. -/
def fmag (a : Word) : Nat :=
  if fexp a = 0 then ffrac a else (2 ^ 23 + ffrac a) * 2 ^ (fexp a - 1)

/-- The value of a finite pattern in units of 2^-149. -/
def fval (a : Word) : Int := if fsign a then -(fmag a : Int) else (fmag a : Int)

/-- `m / 2^d` rounded to the nearest integer, ties to even. -/
def roundShift (m d : Nat) : Nat :=
  let q := m / 2 ^ d
  let twice := 2 * (m % 2 ^ d)
  if 2 ^ d < twice then q + 1 else if twice = 2 ^ d ∧ q % 2 = 1 then q + 1 else q

/-- The pattern, sign bit 0, of the magnitude `m / 2^k` units of 2^-149, rounded to nearest even (R18): `d` low bits of
`m` are dropped so that at most 24 remain; the exponent and fraction fields are one sum, in which a carry out of the
significand and the step from subnormal to normal come out right; beyond the largest finite value it is infinity. -/
def roundMag (m k : Nat) : Nat :=
  let d := max k (Nat.log2 m - 23)
  min ((d - k) * 2 ^ 23 + roundShift m d) 0x7F800000

/-- A pattern from its sign and its other 31 bits. -/
def signed (neg : Bool) (mag : Nat) : Word := BitVec.ofBool neg ++ BitVec.ofNat 31 mag

/-- `f32(n)` (R19): the binary32 value of an integer, exact for `|n| < 2^24`. -/
def f32 (n : Int) : Word := signed (decide (n < 0)) (roundMag (n.natAbs * unitsPerOne) 0)

/-- `fneg(a)` (R19): bit 31 flipped and nothing else. -/
def fneg (a : Word) : Word := a ^^^ 0x80000000#32

/-- `fadd(a, b)` (R19). An exact zero sum is `-0.0` only when both operands are. -/
def fadd (a b : Word) : Word :=
  if isNaN a || isNaN b then canonicalNaN
  else if isInf a then (if isInf b && fsign a != fsign b then canonicalNaN else a)
  else if isInf b then b
  else
    let v := fval a + fval b
    if v = 0 then signed (fsign a && fsign b) 0 else signed (decide (v < 0)) (roundMag v.natAbs 0)

/-- `fsub(a, b)` (R19). -/
def fsub (a b : Word) : Word := if isNaN a || isNaN b then canonicalNaN else fadd a (fneg b)

/-- `fmul(a, b)` (R19). -/
def fmul (a b : Word) : Word :=
  let neg := fsign a != fsign b
  if isNaN a || isNaN b then canonicalNaN
  else if isInf a then (if isInf b || fmag b != 0 then signed neg 0x7F800000 else canonicalNaN)
  else if isInf b then (if fmag a != 0 then signed neg 0x7F800000 else canonicalNaN)
  else signed neg (roundMag (fmag a * fmag b) 149)

/-- `ffmod(a, b)` for finite operands, `b` not zero (R20): the exact remainder, with the sign of `a`. -/
def ffmod (a b : Word) : Word := signed (fsign a) (roundMag (fmag a % fmag b) 0)

/-- `ffloor(a)` for finite `a` (R21). -/
def ffloor (a : Word) : Int := fval a / (unitsPerOne : Int)

/-- `fround(a)` for finite `a` (R21): to the nearest integer, halves away from zero. -/
def fround (a : Word) : Int :=
  let n : Int := ((2 * fmag a + unitsPerOne) / (2 * unitsPerOne) : Nat)
  if fsign a then -n else n

/-- `fcmp_lt0(a)` (R22). -/
def fltZero (a : Word) : Bool := fsign a && fmag a != 0 && !isNaN a

end Sys2Proof.Machine
end

