-- ==== Sys2Proof/Machine/SineRom.lean ====
section
/-! DEFINITION. The sine ROM (10_state R61 to R63): the 360 words of R62, in pieces of 40 entries. -/

namespace Sys2Proof.Machine

/-- Entries 0 to 39 of `SIN` (R62). -/
def sinRows0 : List Word :=
  [ 0x00000000#32, 0x3C8EF859#32, 0x3D0EF2C6#32, 0x3D565E3A#32, 0x3D8EDC7B#32, 0x3DB27EB6#32, 0x3DD61305#32, 0x3DF996A2#32,
    0x3E0E8365#32, 0x3E20305B#32, 0x3E31D0D4#32, 0x3E43636F#32, 0x3E54E6CD#32, 0x3E665992#32, 0x3E77BA60#32, 0x3E8483EE#32,
    0x3E8D2057#32, 0x3E95B1BE#32, 0x3E9E377A#32, 0x3EA6B0DF#32, 0x3EAF1D44#32, 0x3EB77C01#32, 0x3EBFCC6F#32, 0x3EC80DE9#32,
    0x3ED03FC9#32, 0x3ED8616C#32, 0x3EE0722F#32, 0x3EE87171#32, 0x3EF05E94#32, 0x3EF838F7#32, 0x3F000000#32, 0x3F03D989#32,
    0x3F07A8CA#32, 0x3F0B6D77#32, 0x3F0F2744#32, 0x3F12D5E8#32, 0x3F167918#32, 0x3F1A108D#32, 0x3F1D9BFE#32, 0x3F211B24#32 ]

/-- Entries 40 to 79 of `SIN` (R62). -/
def sinRows40 : List Word :=
  [ 0x3F248DBB#32, 0x3F27F37C#32, 0x3F2B4C25#32, 0x3F2E9772#32, 0x3F31D522#32, 0x3F3504F3#32, 0x3F3826A7#32, 0x3F3B39FF#32,
    0x3F3E3EBD#32, 0x3F4134A6#32, 0x3F441B7D#32, 0x3F46F30A#32, 0x3F49BB13#32, 0x3F4C7360#32, 0x3F4F1BBD#32, 0x3F51B3F3#32,
    0x3F543BCE#32, 0x3F56B31D#32, 0x3F5919AE#32, 0x3F5B6F51#32, 0x3F5DB3D7#32, 0x3F5FE714#32, 0x3F6208DA#32, 0x3F641901#32,
    0x3F66175E#32, 0x3F6803CA#32, 0x3F69DE1D#32, 0x3F6BA635#32, 0x3F6D5BEC#32, 0x3F6EFF20#32, 0x3F708FB2#32, 0x3F720D81#32,
    0x3F737871#32, 0x3F74D063#32, 0x3F76153F#32, 0x3F7746EA#32, 0x3F78654D#32, 0x3F797051#32, 0x3F7A67E2#32, 0x3F7B4BEB#32 ]

/-- Entries 80 to 119 of `SIN` (R62). -/
def sinRows80 : List Word :=
  [ 0x3F7C1C5C#32, 0x3F7CD925#32, 0x3F7D8235#32, 0x3F7E1781#32, 0x3F7E98FD#32, 0x3F7F069E#32, 0x3F7F605C#32, 0x3F7FA62F#32,
    0x3F7FD814#32, 0x3F7FF605#32, 0x3F800000#32, 0x3F7FF605#32, 0x3F7FD814#32, 0x3F7FA62F#32, 0x3F7F605C#32, 0x3F7F069E#32,
    0x3F7E98FD#32, 0x3F7E1781#32, 0x3F7D8235#32, 0x3F7CD925#32, 0x3F7C1C5C#32, 0x3F7B4BEB#32, 0x3F7A67E2#32, 0x3F797051#32,
    0x3F78654D#32, 0x3F7746EA#32, 0x3F76153F#32, 0x3F74D063#32, 0x3F737871#32, 0x3F720D81#32, 0x3F708FB2#32, 0x3F6EFF20#32,
    0x3F6D5BEC#32, 0x3F6BA635#32, 0x3F69DE1D#32, 0x3F6803CA#32, 0x3F66175E#32, 0x3F641901#32, 0x3F6208DA#32, 0x3F5FE714#32 ]

/-- Entries 120 to 159 of `SIN` (R62). -/
def sinRows120 : List Word :=
  [ 0x3F5DB3D7#32, 0x3F5B6F51#32, 0x3F5919AE#32, 0x3F56B31D#32, 0x3F543BCE#32, 0x3F51B3F3#32, 0x3F4F1BBD#32, 0x3F4C7360#32,
    0x3F49BB13#32, 0x3F46F30A#32, 0x3F441B7D#32, 0x3F4134A6#32, 0x3F3E3EBD#32, 0x3F3B39FF#32, 0x3F3826A7#32, 0x3F3504F3#32,
    0x3F31D522#32, 0x3F2E9772#32, 0x3F2B4C25#32, 0x3F27F37C#32, 0x3F248DBB#32, 0x3F211B24#32, 0x3F1D9BFE#32, 0x3F1A108D#32,
    0x3F167918#32, 0x3F12D5E8#32, 0x3F0F2744#32, 0x3F0B6D77#32, 0x3F07A8CA#32, 0x3F03D989#32, 0x3F000000#32, 0x3EF838F7#32,
    0x3EF05E94#32, 0x3EE87171#32, 0x3EE0722F#32, 0x3ED8616C#32, 0x3ED03FC9#32, 0x3EC80DE9#32, 0x3EBFCC6F#32, 0x3EB77C01#32 ]

/-- Entries 160 to 199 of `SIN` (R62). -/
def sinRows160 : List Word :=
  [ 0x3EAF1D44#32, 0x3EA6B0DF#32, 0x3E9E377A#32, 0x3E95B1BE#32, 0x3E8D2057#32, 0x3E8483EE#32, 0x3E77BA60#32, 0x3E665992#32,
    0x3E54E6CD#32, 0x3E43636F#32, 0x3E31D0D4#32, 0x3E20305B#32, 0x3E0E8365#32, 0x3DF996A2#32, 0x3DD61305#32, 0x3DB27EB6#32,
    0x3D8EDC7B#32, 0x3D565E3A#32, 0x3D0EF2C6#32, 0x3C8EF859#32, 0x00000000#32, 0xBC8EF859#32, 0xBD0EF2C6#32, 0xBD565E3A#32,
    0xBD8EDC7B#32, 0xBDB27EB6#32, 0xBDD61305#32, 0xBDF996A2#32, 0xBE0E8365#32, 0xBE20305B#32, 0xBE31D0D4#32, 0xBE43636F#32,
    0xBE54E6CD#32, 0xBE665992#32, 0xBE77BA60#32, 0xBE8483EE#32, 0xBE8D2057#32, 0xBE95B1BE#32, 0xBE9E377A#32, 0xBEA6B0DF#32 ]

/-- Entries 200 to 239 of `SIN` (R62). -/
def sinRows200 : List Word :=
  [ 0xBEAF1D44#32, 0xBEB77C01#32, 0xBEBFCC6F#32, 0xBEC80DE9#32, 0xBED03FC9#32, 0xBED8616C#32, 0xBEE0722F#32, 0xBEE87171#32,
    0xBEF05E94#32, 0xBEF838F7#32, 0xBF000000#32, 0xBF03D989#32, 0xBF07A8CA#32, 0xBF0B6D77#32, 0xBF0F2744#32, 0xBF12D5E8#32,
    0xBF167918#32, 0xBF1A108D#32, 0xBF1D9BFE#32, 0xBF211B24#32, 0xBF248DBB#32, 0xBF27F37C#32, 0xBF2B4C25#32, 0xBF2E9772#32,
    0xBF31D522#32, 0xBF3504F3#32, 0xBF3826A7#32, 0xBF3B39FF#32, 0xBF3E3EBD#32, 0xBF4134A6#32, 0xBF441B7D#32, 0xBF46F30A#32,
    0xBF49BB13#32, 0xBF4C7360#32, 0xBF4F1BBD#32, 0xBF51B3F3#32, 0xBF543BCE#32, 0xBF56B31D#32, 0xBF5919AE#32, 0xBF5B6F51#32 ]

/-- Entries 240 to 279 of `SIN` (R62). -/
def sinRows240 : List Word :=
  [ 0xBF5DB3D7#32, 0xBF5FE714#32, 0xBF6208DA#32, 0xBF641901#32, 0xBF66175E#32, 0xBF6803CA#32, 0xBF69DE1D#32, 0xBF6BA635#32,
    0xBF6D5BEC#32, 0xBF6EFF20#32, 0xBF708FB2#32, 0xBF720D81#32, 0xBF737871#32, 0xBF74D063#32, 0xBF76153F#32, 0xBF7746EA#32,
    0xBF78654D#32, 0xBF797051#32, 0xBF7A67E2#32, 0xBF7B4BEB#32, 0xBF7C1C5C#32, 0xBF7CD925#32, 0xBF7D8235#32, 0xBF7E1781#32,
    0xBF7E98FD#32, 0xBF7F069E#32, 0xBF7F605C#32, 0xBF7FA62F#32, 0xBF7FD814#32, 0xBF7FF605#32, 0xBF800000#32, 0xBF7FF605#32,
    0xBF7FD814#32, 0xBF7FA62F#32, 0xBF7F605C#32, 0xBF7F069E#32, 0xBF7E98FD#32, 0xBF7E1781#32, 0xBF7D8235#32, 0xBF7CD925#32 ]

/-- Entries 280 to 319 of `SIN` (R62). -/
def sinRows280 : List Word :=
  [ 0xBF7C1C5C#32, 0xBF7B4BEB#32, 0xBF7A67E2#32, 0xBF797051#32, 0xBF78654D#32, 0xBF7746EA#32, 0xBF76153F#32, 0xBF74D063#32,
    0xBF737871#32, 0xBF720D81#32, 0xBF708FB2#32, 0xBF6EFF20#32, 0xBF6D5BEC#32, 0xBF6BA635#32, 0xBF69DE1D#32, 0xBF6803CA#32,
    0xBF66175E#32, 0xBF641901#32, 0xBF6208DA#32, 0xBF5FE714#32, 0xBF5DB3D7#32, 0xBF5B6F51#32, 0xBF5919AE#32, 0xBF56B31D#32,
    0xBF543BCE#32, 0xBF51B3F3#32, 0xBF4F1BBD#32, 0xBF4C7360#32, 0xBF49BB13#32, 0xBF46F30A#32, 0xBF441B7D#32, 0xBF4134A6#32,
    0xBF3E3EBD#32, 0xBF3B39FF#32, 0xBF3826A7#32, 0xBF3504F3#32, 0xBF31D522#32, 0xBF2E9772#32, 0xBF2B4C25#32, 0xBF27F37C#32 ]

/-- Entries 320 to 359 of `SIN` (R62). -/
def sinRows320 : List Word :=
  [ 0xBF248DBB#32, 0xBF211B24#32, 0xBF1D9BFE#32, 0xBF1A108D#32, 0xBF167918#32, 0xBF12D5E8#32, 0xBF0F2744#32, 0xBF0B6D77#32,
    0xBF07A8CA#32, 0xBF03D989#32, 0xBF000000#32, 0xBEF838F7#32, 0xBEF05E94#32, 0xBEE87171#32, 0xBEE0722F#32, 0xBED8616C#32,
    0xBED03FC9#32, 0xBEC80DE9#32, 0xBEBFCC6F#32, 0xBEB77C01#32, 0xBEAF1D44#32, 0xBEA6B0DF#32, 0xBE9E377A#32, 0xBE95B1BE#32,
    0xBE8D2057#32, 0xBE8483EE#32, 0xBE77BA60#32, 0xBE665992#32, 0xBE54E6CD#32, 0xBE43636F#32, 0xBE31D0D4#32, 0xBE20305B#32,
    0xBE0E8365#32, 0xBDF996A2#32, 0xBDD61305#32, 0xBDB27EB6#32, 0xBD8EDC7B#32, 0xBD565E3A#32, 0xBD0EF2C6#32, 0xBC8EF859#32 ]

/-- The contents of `SIN` (R62). -/
def sinTable : List Word :=
  sinRows0 ++ sinRows40 ++ sinRows80 ++ sinRows120 ++ sinRows160
    ++ sinRows200 ++ sinRows240 ++ sinRows280 ++ sinRows320

/-- `Sin(i)` for `0 ≤ i < 360` (R14). -/
def sinRom (i : Nat) : Word := sinTable.getD i 0#32

/-- `cos_lookup(θ) = SIN[(θ+90) emod 360]` (R63). -/
def cosLookup (i : Nat) : Word := sinRom ((i + 90) % 360)

end Sys2Proof.Machine
end

