-- ==== Sys2Proof/Machine/Operands.lean ====
section
/-! DEFINITION. What the operands of the commands name: coordinates, glyphs, ink, the flat offset of a pixel, the angle and
position of a curved pixel, and the colour and centring rules (00_scope R15, R23; 10_state R66 to R68; files 42 to 44). -/

namespace Sys2Proof.Machine

/-! ### Pixels and colours -/

/-- The flat offset `px + py*WIDTH` (R15). -/
def flatOffset (px py : Int) : Int := px + py * Config.width

/-- The cell that `PlotFlat(px, py, v)` writes, `none` when the flat offset is outside the framebuffer (R15). -/
def plotCell (px py : Int) : Option Nat :=
  if 0 ≤ flatOffset px py ∧ flatOffset px py < Config.npix then some (flatOffset px py).toNat else none

/-- The steps of `PlotFlat(px, py, v)`: one `FBWrite`, or none at all (R15). -/
def plotFlat (px py : Int) (v : Cell) : List Micro :=
  match plotCell px py with
  | some off => [.plot off v]
  | none => []

/-- `rgb565(r, g, b)` (R23, R152). -/
def rgb565 (r g b : Byte) : Cell := (r.extractLsb' 3 5) ++ (g.extractLsb' 2 6) ++ (b.extractLsb' 3 5)

/-- `swap16(v)` (R23). -/
def swap16 (v : Cell) : Cell := v.extractLsb' 0 8 ++ v.extractLsb' 8 8

/-- `rgb565s(r, g, b)`, the pre-swapped colour (R23, R152). -/
def rgb565s (r g b : Byte) : Cell := swap16 (rgb565 r g b)

/-! ### The tile font (42_tile_text) -/

/-- `TileIdx(g, i, j)` (R66, R205). -/
def tileIdx (p : Config.Params) (g i j : Nat) : Nat :=
  ((g / p.tileCols) * p.tileH + j) * p.tileStride + (g % p.tileCols) * p.tileW + i

/-- The stored value of pixel `(i, j)` of tile `g` (R66). -/
def tilePixelOf (p : Config.Params) (g i j : Nat) : Cell := p.tileRom.getD (tileIdx p g i j) 0#16

/-- The tile a character code names, `none` when it draws nothing (R203, R204). -/
def tileGlyph (p : Config.Params) (ch : Byte) : Option Nat :=
  if Config.tileSkip < ch.toNat ∧ p.tileStart ≤ ch.toNat ∧ ch.toNat - p.tileStart < p.tileCount then
    some (ch.toNat - p.tileStart)
  else none

/-- The x of the first character of `TILE_TEXT` (R201). -/
def tileStartX (p : Config.Params) (o : LineText) : Int :=
  if o.cen then o.x.toInt - ((o.tlen.toNat * p.tileW / 2 : Nat) : Int) else o.x.toInt

/-- The colour of a tile pixel: the override when it is not 0, else the stored value (R206). -/
def tileColor (color s : Cell) : Cell := if color = 0#16 then s else color

/-! ### The bitmask font (43_bitmask_text) -/

/-- `BmIdx(g, r)` (R67, R224). -/
def bmIdx (g r : Nat) : Nat := ((g / Config.bmCols) * 8 + r) * Config.bmStride + g % Config.bmCols

/-- Row `r` of bitmask glyph `g` (R67). -/
def bmRowByte (p : Config.Params) (g r : Nat) : Byte := p.bmRom.getD (bmIdx g r) 0#8

/-- Column `c` of a glyph row is ink: `b & (0x80 >> c)` is not 0 (R67, R225). -/
def bmInk (b : Byte) (c : Nat) : Bool := b &&& (0x80#8 >>> c) != 0#8

/-- The position of the first byte equal to `ch`, counted from `n` on. -/
def lookupFrom (n : Nat) : List Byte → Byte → Option Nat
  | [], _ => none
  | b :: bs, ch => if b = ch then some n else lookupFrom (n + 1) bs ch

/-- `Lookup(ch)` (R68, R223). -/
def lookup (p : Config.Params) (ch : Byte) : Option Nat := lookupFrom 0 p.bmLookup ch

/-- The x of the first character of `BM_TEXT` (R221). -/
def bmStartX (o : LineText) : Int :=
  if o.cen then (Config.bmCenterX : Int) - ((o.tlen.toNat * 8 / 2 : Nat) : Int) else o.x.toInt

/-! ### The arc (44_curved_text) -/

/-- The command draws nothing: its base angle is NaN or an infinity (R240). -/
def angleless (o : ArcText) : Bool := isNaN o.angle || isInf o.angle

/-- The start angle `S` (R241). -/
def startAngle (o : ArcText) : Word :=
  let s0 := fsub o.angle (f32 ((Config.letterSpacing * (o.tlen.toNat / 2) : Nat) : Int))
  let s := ffmod s0 (f32 360)
  if fltZero s then fadd s (f32 360) else s

/-- The working angle `cur` at column `c` of a glyph row (R244, R249). -/
def workingAngle (start : Word) : Nat → Word
  | 0 => start
  | c + 1 => fadd (workingAngle start c) (f32 1)

/-- The floored angle `F` of a set bit (R242, R245). -/
def flooredAngle (cur : Word) (k c : Nat) : Int :=
  ffloor (fsub (fadd cur (f32 ((Config.letterSpacing * k : Nat) : Int))) (fmul (f32 c) Config.colSkew))

/-- The sine index `sti` (R246). -/
def sineIndex (f : Int) : Nat := ((360 - f) % 360).toNat

/-- The cosine index `cti` (R246). -/
def cosineIndex (f : Int) : Nat := (sineIndex f + 90) % 360

/-- `Rr = RADIUS - 2*r` (R247). -/
def rowRadius (o : ArcText) (r : Nat) : Int := o.radius.toInt - ((Config.rowTaper * r : Nat) : Int)

/-- The x of a curved pixel (R247). -/
def arcX (o : ArcText) (r : Nat) (f : Int) : Int :=
  o.cx.toInt + fround (fmul (sinRom (sineIndex f)) (f32 (rowRadius o r)))

/-- The y of a curved pixel (R247). -/
def arcY (o : ArcText) (r : Nat) (f : Int) : Int :=
  o.cy.toInt + fround (fmul (sinRom (cosineIndex f)) (f32 (rowRadius o r)))

/-! ### Controls (45_input_scan) -/

/-- `pressed((row, bit))` (R272). -/
def pressed (spot : Config.Spot) (r0 r1 : Byte) : Bool := if spot.row = 0 then r0.getLsbD spot.bit else r1.getLsbD spot.bit

end Sys2Proof.Machine
end

