-- ==== Sys2Proof/Machine/Raster.lean ====
section
/-! DEFINITION. The engine steps of the renderers: what each step of `TILE_TEXT` (R202), `BM_TEXT` (R222) and
`CURVED_TEXT` (R242) reads and which steps it opens, in the order of the rules' pseudocode. -/

namespace Sys2Proof.Machine

/-- Character `i` of a text operand (R146, R202, R222). -/
def lineChar (s : State) (o : LineText) (i : Nat) : Byte := s.textRead (o.taddr.toNat + i)

/-- Character `i` of an arc's text operand (R146, R242). -/
def arcCharAt (s : State) (o : ArcText) (i : Nat) : Byte := s.textRead (o.taddr.toNat + i)

/-! ### TILE_TEXT -/

/-- The character after `i`, if the string has one (R202). -/
def tileNext (o : LineText) (i : Nat) : List Micro := if i + 1 < o.tlen.toNat then [.tileChar o (i + 1)] else []

/-- The pixels of tile `g` for character `i`: scanlines top first, pixels left first (R202). -/
def tileScan (p : Config.Params) (o : LineText) (i g : Nat) : List Micro :=
  (List.range p.tileH).flatMap fun j => (List.range p.tileW).map fun k => .tilePixel o i g j k

/-- `TILE_TEXT` at character `i`: the tile's pixels if the code is drawn, and the next character either way (R202, R203,
R204, R208). -/
def tileCharSteps (s : State) (o : LineText) (i : Nat) : List Micro :=
  match tileGlyph s.cfg (lineChar s o i) with
  | some g => tileScan s.cfg o i g ++ tileNext o i
  | none => tileNext o i

/-- The screen x of pixel column `k` of character `i` (R201, R202). -/
def tileX (p : Config.Params) (o : LineText) (i k : Nat) : Int := tileStartX p o + ((i * p.tileW + k : Nat) : Int)

/-- The screen y of scanline `j` (R202). -/
def tileY (o : LineText) (j : Nat) : Int := o.y.toInt + (j : Int)

/-- `TILE_TEXT` at one tile pixel: ink is plotted, a stored 0 writes nothing (R202, R206, R207). -/
def tilePixelSteps (p : Config.Params) (o : LineText) (i g j k : Nat) : List Micro :=
  if tilePixelOf p g k j = 0#16 then []
  else plotFlat (tileX p o i k) (tileY o j) (tileColor o.color (tilePixelOf p g k j))

/-! ### BM_TEXT -/

/-- The character after `i`, if the string has one, `n` characters having matched (R222). -/
def bmNext (o : LineText) (i n : Nat) : List Micro := if i + 1 < o.tlen.toNat then [.bmChar o (i + 1) n] else []

/-- `BM_TEXT` at character `i`: the glyph's rows if the character is matched; an unmatched one writes nothing and does
not advance (R222, R223, R227). -/
def bmCharSteps (s : State) (o : LineText) (i n : Nat) : List Micro :=
  match lookup s.cfg (lineChar s o i) with
  | some g => ((List.range 8).map fun r => .bmRow o n g r) ++ bmNext o i (n + 1)
  | none => bmNext o i n

/-- The screen x of bit column `c` of the `n`-th matched character (R221, R222). -/
def bmX (o : LineText) (n c : Nat) : Int := bmStartX o + ((8 * n + c : Nat) : Int)

/-- The screen y of glyph row `r` (R222). -/
def bmY (o : LineText) (r : Nat) : Int := o.y.toInt + (r : Int)

/-- `BM_TEXT` at glyph row `r`: every set bit is plotted, left first (R222, R225, R226). -/
def bmRowSteps (p : Config.Params) (o : LineText) (n g r : Nat) : List Micro :=
  (List.range 8).flatMap fun c =>
    if bmInk (bmRowByte p g r) c then plotFlat (bmX o n c) (bmY o r) o.color else []

/-! ### CURVED_TEXT -/

/-- The character after `i`, if the string has one, `k` characters having matched (R242). -/
def arcNext (o : ArcText) (start : Word) (i k : Nat) : List Micro :=
  if i + 1 < o.tlen.toNat then [.arcChar o start (i + 1) k] else []

/-- `CURVED_TEXT` at character `i`: an unmatched character takes no slot (R242, R243). -/
def arcCharSteps (s : State) (o : ArcText) (start : Word) (i k : Nat) : List Micro :=
  match lookup s.cfg (arcCharAt s o i) with
  | some g => ((List.range 8).map fun r => .arcRow o start k g r) ++ arcNext o start i (k + 1)
  | none => arcNext o start i k

/-- `CURVED_TEXT` at glyph row `r`: every set bit, with the working angle of its column (R242, R244, R249). -/
def arcRowSteps (p : Config.Params) (o : ArcText) (start : Word) (k g r : Nat) : List Micro :=
  (List.range 8).flatMap fun c =>
    if bmInk (bmRowByte p g r) c then [.arcSin o k r c (workingAngle start c)] else []

/-- `CURVED_TEXT` once both table words of a set bit are read: the pixel is plotted (R242, R247, R248). -/
def arcPixelSteps (o : ArcText) (k r c : Nat) (cur : Word) : List Micro :=
  plotFlat (arcX o r (flooredAngle cur k c)) (arcY o r (flooredAngle cur k c)) o.color

end Sys2Proof.Machine
end

