-- ==== Sys2Proof/Machine/Scanner.lean ====
section
/-! DEFINITION. The engine steps of `SCAN` (45_input_scan R270 to R281): the pin events and samples of the two wiring
modes and the commit. -/

namespace Sys2Proof.Machine

/-! ### The two wiring modes -/

/-- The word shifted out for column `c`: indicators, then the active-low column select (R272, R273). -/
def shiftWord (led : Byte) (c : Nat) : BitVec 16 := led ++ ~~~(1#8 <<< c)

/-- One bit shifted out: the data level and a clock pulse (R272). -/
def shiftBit (level : Bool) : List Micro :=
  [.pin ⟨.srData, level⟩, .pin ⟨.srClk, true⟩, .pin ⟨.srClk, false⟩]

/-- The steps of matrix column `c` (R272, R273): 16 bits out, most significant first, a load pulse, row 0, a clock pulse,
row 1. -/
def columnSteps (led : Byte) (c : Nat) : List Micro :=
  ((List.range 16).flatMap fun k => shiftBit ((shiftWord led c).getLsbD (15 - k)))
    ++ [.pin ⟨.srLoad, true⟩, .pin ⟨.srLoad, false⟩, .sampleMatrix 0 c, .pin ⟨.srClk, true⟩, .pin ⟨.srClk, false⟩,
        .sampleMatrix 1 c]

/-- What `SCAN` does once it has read its mode (R272, R278): the joystick's five samples (R274) or the matrix's eight
columns (R273), then the commit. -/
def scanSteps (s : State) : List Micro :=
  if s.scanMode then ((List.range Config.joyPins).map fun k => .sampleJoy k) ++ [.commit]
  else ((List.range Config.matrixCols).flatMap fun c => columnSteps s.led c) ++ [.commit]

/-- A row mask with the bit of column `c` set to the inverted level of its sample (R271, R272). -/
def withSample (mask : Byte) (c : Nat) (level : Bool) : Byte :=
  if level then mask &&& ~~~(1#8 <<< c) else mask ||| (1#8 <<< c)

/-- The gathered masks after a matrix sample of row `row`, column `c` (R272). -/
def gatherMatrix (b : Position) (row c : Nat) (level : Bool) : Position :=
  if row = 0 then { b with r0 := withSample b.r0 c level } else { b with r1 := withSample b.r1 c level }

/-- The gathered masks after the sample of `JOY_IN<k>`, which lands in row 1 (R272, R274). -/
def gatherJoy (b : Position) (k : Nat) (level : Bool) : Position := { b with r1 := withSample b.r1 k level }

/-! ### The commit -/

/-- `SPEED[n]` (R57). -/
def State.speed (s : State) (n : BitVec 2) : Word :=
  if n = 0#2 then s.speed0 else if n = 1#2 then s.speed1 else if n = 2#2 then s.speed2 else s.speed3

/-- `SPEED[n] <- v` (R57). -/
def State.setSpeed (s : State) (n : BitVec 2) (v : Word) : State :=
  if n = 0#2 then { s with speed0 := v }
  else if n = 1#2 then { s with speed1 := v }
  else if n = 2#2 then { s with speed2 := v }
  else { s with speed3 := v }

/-- Left held: `SPEED[SEL]` falls by the step (R275). -/
def slower (s : State) (r0 r1 : Byte) : State :=
  if pressed Config.btnLeft r0 r1 then s.setSpeed s.sel (fsub (s.speed s.sel) Config.speedStep) else s

/-- Right held: `SPEED[SEL]` rises by the step (R275). -/
def faster (s : State) (r0 r1 : Byte) : State :=
  if pressed Config.btnRight r0 r1 then s.setSpeed s.sel (fadd (s.speed s.sel) Config.speedStep) else s

/-- `max(s - 1, 0)` (R272). -/
def selUp (n : BitVec 2) : BitVec 2 := BitVec.ofNat 2 (n.toNat - 1)

/-- `min(s + 1, SEL_MAX)` (R272). -/
def selDown (n : BitVec 2) : BitVec 2 := BitVec.ofNat 2 (min (n.toNat + 1) Config.selMax)

/-- The debounced up (R276). -/
def fireUp (s : State) (r0 r1 : Byte) : State :=
  if pressed Config.btnUp r0 r1 ∧ s.last ≠ .up then { s with sel := selUp s.sel, last := .up, upEdge := true } else s

/-- The debounced down (R276). -/
def fireDown (s : State) (r0 r1 : Byte) : State :=
  if pressed Config.btnDown r0 r1 ∧ s.last ≠ .down then { s with sel := selDown s.sel, last := .down, downEdge := true }
  else s

/-- The debounced menu, which negates the speed of the index as it now stands (R276). -/
def fireMenu (s : State) (r0 r1 : Byte) : State :=
  if pressed Config.btnMenu r0 r1 ∧ s.last ≠ .menu then
    { s.setSpeed s.sel (fneg (s.speed s.sel)) with last := .menu, menuEdge := true }
  else s

/-- The latch clears when no control is pressed (R276). -/
def releaseLatch (s : State) (r0 r1 : Byte) : State := if r0 = 0#8 ∧ r1 = 0#8 then { s with last := .none } else s

/-- `LED <- 1 << SEL` (R277). -/
def showSelection (s : State) : State := { s with led := 1#8 <<< s.sel.toNat }

/-- `ROW0 <- r0; ROW1 <- r1` (R53, R272). -/
def latchRows (s : State) (r0 r1 : Byte) : State := { s with row0 := r0, row1 := r1 }

/-- The commit of a `SCAN`: one atomic step (R272, R278). -/
def commitScan (s : State) (r0 r1 : Byte) : State :=
  let edited := faster (slower (latchRows s r0 r1) r0 r1) r0 r1
  let fired := fireMenu (fireDown (fireUp edited r0 r1) r0 r1) r0 r1
  showSelection (releaseLatch fired r0 r1)

end Sys2Proof.Machine
end

