-- ==== Sys2Proof/Machine/Engine.lean ====
section
/-! DEFINITION. The engine inside a command (40_engine R171 to R173): one atomic step, the run of steps up to the next
turn of another agent, the hold, and the begin and completion of a command. -/

namespace Sys2Proof.Machine

/-! ### One step -/

/-- How many atomic steps the engine takes at once at `m`: the writes of `CLEAR` that come before the next turn of
another agent, else one (R110, R191; log 2). -/
def span (s : State) (m : Micro) : Nat :=
  match m with
  | .fill _ i => s.burst (Config.npix - i)
  | _ => 1

/-- The steps that `m` opens in front of those that remain (R191, R202, R222, R242, R272); `n` is its span. -/
def opened (s : State) (n : Nat) (m : Micro) : List Micro :=
  match m with
  | .advance => []
  | .stop => []
  | .fill color i => if i + n < Config.npix then [.fill color (i + n)] else []
  | .plot _ _ => []
  | .tileChar o i => tileCharSteps s o i
  | .tilePixel o i g j k => tilePixelSteps s.cfg o i g j k
  | .bmChar o i n => bmCharSteps s o i n
  | .bmRow o n g r => bmRowSteps s.cfg o n g r
  | .arcChar o start i k => arcCharSteps s o start i k
  | .arcRow o start k g r => arcRowSteps s.cfg o start k g r
  | .arcSin o k r c cur => [.arcCos o k r c cur]
  | .arcCos o k r c cur => arcPixelSteps o k r c cur
  | .scanMode => scanSteps s
  | .pin _ => []
  | .sampleMatrix _ _ => []
  | .sampleJoy _ => []
  | .commit => []
  | .flush => []
  | .dmaWait => []

/-- What `m` does to the state; `n` is its span and `b` the position it is taken at. -/
def effect (s : State) (n : Nat) (b : Position) (m : Micro) : State :=
  match m with
  | .advance => s
  | .stop => { s with run := .idle, done := true }
  | .fill color i => s.fbFill i n color
  | .plot off v => s.fbWrite off v
  | .tileChar _ _ => s
  | .tilePixel _ _ _ _ _ => s
  | .bmChar _ _ _ => s
  | .bmRow _ _ _ _ => s
  | .arcChar _ _ _ _ => s
  | .arcRow _ _ _ _ _ => s
  | .arcSin _ _ _ _ _ => s
  | .arcCos _ _ _ _ _ => s
  | .scanMode => s
  | .pin e => s.pinsOut e
  | .sampleMatrix _ _ => s.sampled
  | .sampleJoy _ => s.sampled
  | .commit => commitScan s b.r0 b.r1
  | .flush => beginTransfer s
  | .dmaWait => s

/-- The row masks gathered after `m` (R272). -/
def gathered (s : State) (b : Position) (m : Micro) : Position :=
  match m with
  | .sampleMatrix row c => gatherMatrix b row c s.sampleLevel
  | .sampleJoy k => gatherJoy b k s.sampleLevel
  | _ => b

/-- How far `CP` moves when the command completes (R173): its length, but `END` keeps `CP` (R176). -/
def cpAdvance (i : Instr) : Nat :=
  match i with
  | .nop => 1
  | .endList => 0
  | .clear _ => 1
  | .scan => 1
  | .flush => 1
  | .dmaWait => 1
  | .tileText _ => 3
  | .bmText _ => 3
  | .curvedText _ => 5

/-- The command completes: the engine is between commands and `CP` has moved on (R173). -/
def complete (s : State) (i : Instr) : State :=
  { s with inside := none, cp := s.cp + BitVec.ofNat 11 (cpAdvance i) }

/-- The position after a step; a command with no step left completes in that same step (R173). -/
def settle (s : State) (b : Position) : State :=
  match b.todo with
  | [] => complete s b.cmd
  | _ :: _ => s.setInside (some b)

/-- The engine's next step inside a command (`span` steps for `CLEAR`). A position without steps, which no run reaches,
completes. -/
def engineEvent (s : State) : State :=
  match s.inside with
  | none => s
  | some b =>
    match b.todo with
    | [] => complete (s.spend 1) b.cmd
    | m :: rest =>
      settle (effect (s.spend (span s m)) (span s m) b m)
        { gathered s b m with todo := opened s (span s m) m ++ rest }

/-! ### The run of a command -/

/-- The engine is held: its next step waits for a transfer in progress (R40, R300, R306). -/
def State.held (s : State) : Bool :=
  match s.inside with
  | none => false
  | some b =>
    match b.todo with
    | [] => false
    | m :: _ => waitsForDma m && s.dmaActive

/-- At most `fuel` engine steps inside the command, up to its completion, to a hold or to the next turn of another agent
(log 2). -/
def engineRun : Nat → State → State
  | 0, s => s
  | fuel + 1, s =>
    match s.inside with
    | none => s
    | some _ => if s.turnDue || s.held then s else engineRun fuel (engineEvent s)

/-- A bound on the engine steps of one tile character. -/
def tileWork (p : Config.Params) : Nat := 1 + 2 * (p.tileH * p.tileW)

/-- The characters from `i` on, `i` included. -/
def charsFrom (tlen : BitVec 8) (i : Nat) : Nat := tlen.toNat - (i + 1) + 1

/-- A bound on the engine steps that `m` and all it opens take: each step opens less than it weighs (R177). -/
def weight (p : Config.Params) (m : Micro) : Nat :=
  match m with
  | .advance => 1
  | .stop => 1
  | .fill _ _ => 1
  | .plot _ _ => 1
  | .tileChar o i => charsFrom o.tlen i * tileWork p
  | .tilePixel _ _ _ _ _ => 2
  | .bmChar o i _ => charsFrom o.tlen i * 73
  | .bmRow _ _ _ _ => 9
  | .arcChar o _ i _ => charsFrom o.tlen i * 201
  | .arcRow _ _ _ _ _ => 25
  | .arcSin _ _ _ _ _ => 3
  | .arcCos _ _ _ _ _ => 2
  | .scanMode => 434
  | .pin _ => 1
  | .sampleMatrix _ _ => 1
  | .sampleJoy _ => 1
  | .commit => 1
  | .flush => 1
  | .dmaWait => 1

/-- A bound on the engine steps of a list of steps (R177). -/
def work (p : Config.Params) (ms : List Micro) : Nat := (ms.map (weight p)).sum

/-- The engine goes on inside its command. -/
def resume (s : State) (b : Position) : State := engineRun (work s.cfg b.todo) s

/-- A command that passed decode begins (R171, R172): the decode step is counted off, the operands are latched (R115),
and its steps run up to the next turn of another agent. -/
def launch (i : Instr) (todo : List Micro) (s : State) : State :=
  resume ((s.spend 1).setInside (some { cmd := i, todo := todo, r0 := 0#8, r1 := 0#8 }))
    { cmd := i, todo := todo, r0 := 0#8, r1 := 0#8 }

end Sys2Proof.Machine
end

