-- ==== Sys2Proof/Machine/DisplayCommands.lean ====
section
/-! DEFINITION. The meanings of `FLUSH` and `DMA_WAIT` (46_display_dma R300, R301, R306). -/

namespace Sys2Proof.Machine

/-- `FLUSH` (R300, R301): held while a transfer is in progress. -/
def execFlush (s : State) : Host.Outcome State Fault Refusal := .next (launch .flush [.flush] s)

/-- `DMA_WAIT` (R306): held while a transfer is in progress. -/
def execDmaWait (s : State) : Host.Outcome State Fault Refusal := .next (launch .dmaWait [.dmaWait] s)

end Sys2Proof.Machine
end

