-- ==== Sys2Proof/Machine/EngineCommands.lean ====
section
/-! DEFINITION. The meanings of `NOP`, `END` and `CLEAR` (40_engine R175, R176; 41_clear R190, R191). -/

namespace Sys2Proof.Machine

/-- `NOP` (R175). -/
def execNop (s : State) : Host.Outcome State Fault Refusal := .next (launch .nop [.advance] s)

/-- `END` (R176): it does not wait for the DMA agent and does not stop it. -/
def execEnd (s : State) : Host.Outcome State Fault Refusal := .next (launch .endList [.stop] s)

/-- `CLEAR color` (R190, R191). -/
def execClear (color : Cell) (s : State) : Host.Outcome State Fault Refusal :=
  .next (launch (.clear color) [.fill color 0] s)

end Sys2Proof.Machine
end

