-- ==== Sys2Proof/Machine/ScanCommand.lean ====
section
/-! DEFINITION. The meaning of `SCAN` (45_input_scan R270, R272). -/

namespace Sys2Proof.Machine

/-- `SCAN` (R270). -/
def execScan (s : State) : Host.Outcome State Fault Refusal := .next (launch .scan [.scanMode] s)

end Sys2Proof.Machine
end

