-- ==== Sys2Proof/Machine/TextCommands.lean ====
section
/-! DEFINITION. The meanings of `TILE_TEXT`, `BM_TEXT` and `CURVED_TEXT` (42_tile_text R200, R202; 43_bitmask_text R220,
R222; 44_curved_text R240, R242). -/

namespace Sys2Proof.Machine

/-- `TILE_TEXT x, y, text, color [, CENTER]` (R200, R202); an empty text writes nothing (R209). -/
def execTileText (o : LineText) (s : State) : Host.Outcome State Fault Refusal :=
  .next (launch (.tileText o) (if o.tlen = 0#8 then [.advance] else [.tileChar o 0]) s)

/-- `BM_TEXT x, y, text, color [, CENTER]` (R220, R222); an empty text writes nothing (R228). -/
def execBmText (o : LineText) (s : State) : Host.Outcome State Fault Refusal :=
  .next (launch (.bmText o) (if o.tlen = 0#8 then [.advance] else [.bmChar o 0 0]) s)

/-- `CURVED_TEXT cx, cy, text, color, angle, radius` (R240, R242); an empty text, or a base angle that is NaN or an
infinity, writes nothing (R240, R252). -/
def execCurvedText (o : ArcText) (s : State) : Host.Outcome State Fault Refusal :=
  .next (launch (.curvedText o)
    (if angleless o ∨ o.tlen = 0#8 then [.advance] else [.arcChar o (startAngle o) 0 0]) s)

end Sys2Proof.Machine
end

