-- ==== Sys2Proof/Machine/Dispatch.lean ====
section
/-! DEFINITION. The meaning of each command, one arm per constructor (30_encoding R147). -/

namespace Sys2Proof.Machine

def exec (i : Instr) (s : State) : Host.Outcome State Fault Refusal :=
  match i with
  | .nop => Sys2Proof.Machine.execNop s
  | .endList => Sys2Proof.Machine.execEnd s
  | .clear color => Sys2Proof.Machine.execClear color s
  | .scan => Sys2Proof.Machine.execScan s
  | .flush => Sys2Proof.Machine.execFlush s
  | .dmaWait => Sys2Proof.Machine.execDmaWait s
  | .tileText o => Sys2Proof.Machine.execTileText o s
  | .bmText o => Sys2Proof.Machine.execBmText o s
  | .curvedText o => Sys2Proof.Machine.execCurvedText o s

end Sys2Proof.Machine
end

