-- ==== Sys2Proof/Machine/Flags.lean ====
section
/-! DEFINITION. The status bits (10_state R47, R48, R56, R59). The block has no arithmetic flags (R72): its only flags are
the sticky bits of `STATUS` and `EVENTS`, the enables of `IE`, and the interrupt level made of them. -/

namespace Sys2Proof.Machine

/-- A register value from its single bits, each at its position. -/
def bitAt (b : Bool) (pos : Nat) : Word := (BitVec.ofBool b).setWidth 32 <<< pos

/-- The read value of `STATUS` (R44, R47). -/
def State.statusWord (s : State) : Word :=
  bitAt (s.run == .running) 0 ||| bitAt s.dmaActive 1 ||| bitAt s.done 2 ||| bitAt s.dmaDone 3 ||| bitAt s.fault 4

/-- The read value of `IE` (R44, R48). -/
def State.ieWord (s : State) : Word := bitAt s.doneIe 2 ||| bitAt s.dmaDoneIe 3 ||| bitAt s.faultIe 4

/-- The read value of `EVENTS` (R44, R56). -/
def State.eventsWord (s : State) : Word := bitAt s.upEdge 0 ||| bitAt s.downEdge 1 ||| bitAt s.menuEdge 2

/-- The level of the interrupt output (R59, R327). -/
def State.irq (s : State) : Bool := s.done && s.doneIe || s.dmaDone && s.dmaDoneIe || s.fault && s.faultIe

/-- A write of `STATUS`: a 1 clears the sticky bit at its position (R44, R47). -/
def State.writeStatus (s : State) (v : Word) : State :=
  { s with done := s.done && !v.getLsbD 2, dmaDone := s.dmaDone && !v.getLsbD 3, fault := s.fault && !v.getLsbD 4 }

/-- A write of `IE` (R48). -/
def State.writeIe (s : State) (v : Word) : State :=
  { s with doneIe := v.getLsbD 2, dmaDoneIe := v.getLsbD 3, faultIe := v.getLsbD 4 }

/-- A write of `EVENTS`: a 1 clears the flag at its position (R56). -/
def State.writeEvents (s : State) (v : Word) : State :=
  { s with
    upEdge := s.upEdge && !v.getLsbD 0, downEdge := s.downEdge && !v.getLsbD 1, menuEdge := s.menuEdge && !v.getLsbD 2 }

/-- The code of a fault cause (R320). -/
def Cause.code (c : Cause) : BitVec 3 :=
  match c with
  | .none => 0#3
  | .clOverrun => 1#3
  | .illegalOpcode => 2#3
  | .reservedField => 3#3
  | .textRange => 4#3

/-- The code of the debounce latch (R52). -/
def Control.code (c : Control) : BitVec 2 :=
  match c with
  | .none => 0#2
  | .up => 1#2
  | .down => 2#2
  | .menu => 3#2

end Sys2Proof.Machine
end

