-- ==== Sys2Proof/Machine/HostPort.lean ====
section
/-! DEFINITION. The host's accesses to the window (10_state R44; 20_memory R100 to R108). -/

namespace Sys2Proof.Machine

/-! ### The register page (R44) -/

/-- The read value of the register at an offset of the register page; an unlisted offset reads 0 (R44 to R57). -/
def State.regRead (s : State) (off : Nat) : Word :=
  if off = 0x000 then 0x56534731#32
  else if off = 0x004 then bitAt s.scanMode 1
  else if off = 0x008 then s.statusWord
  else if off = 0x00C then s.ieWord
  else if off = 0x010 then s.clBase.setWidth 32
  else if off = 0x014 then s.cp.setWidth 32
  else if off = 0x018 then s.faultCause.code.setWidth 32
  else if off = 0x01C then s.faultCp.setWidth 32
  else if off = 0x020 then s.faultWord
  else if off = 0x030 then s.row0.setWidth 32 ||| (s.row1.setWidth 32 <<< 8)
  else if off = 0x034 then s.led.setWidth 32
  else if off = 0x038 then s.sel.setWidth 32
  else if off = 0x03C then s.last.code.setWidth 32
  else if off = 0x040 then s.eventsWord
  else if off = 0x050 then s.speed0
  else if off = 0x054 then s.speed1
  else if off = 0x058 then s.speed2
  else if off = 0x05C then s.speed3
  else 0#32

/-- `CTRL.SCAN_MODE` takes a value (R46). -/
def State.setScanMode (s : State) (m : Bool) : State := { s with scanMode := m }

/-- `CL_BASE` takes a value (R42). -/
def State.setClBase (s : State) (n : BitVec 10) : State := { s with clBase := n }

/-- `SEL` takes a value (R55). -/
def State.setSel (s : State) (n : BitVec 2) : State := { s with sel := n }

/-- A write of `CTRL`: `SCAN_MODE` takes bit 1 and bit 0 starts an idle engine, in one step (R46, R170). -/
def State.writeCtrl (s : State) (v : Word) : State :=
  if v.getLsbD 0 then (s.setScanMode (v.getLsbD 1)).start else s.setScanMode (v.getLsbD 1)

/-- A write of the register at an offset of the register page; read-only and unlisted offsets ignore it (R44). -/
def State.regWrite (s : State) (off : Nat) (v : Word) : State :=
  if off = 0x004 then s.writeCtrl v
  else if off = 0x008 then s.writeStatus v
  else if off = 0x00C then s.writeIe v
  else if off = 0x010 then s.setClBase (v.setWidth 10)
  else if off = 0x038 then s.setSel (v.setWidth 2)
  else if off = 0x040 then s.writeEvents v
  else if off = 0x050 then s.setSpeed 0#2 v
  else if off = 0x054 then s.setSpeed 1#2 v
  else if off = 0x058 then s.setSpeed 2#2 v
  else if off = 0x05C then s.setSpeed 3#2 v
  else s

/-! ### The regions (R100, R102) -/

/-- The offset lies in the register page (R100). -/
def inRegs (off : Nat) : Bool := off < 0x01000

/-- The offset lies in command RAM (R100). -/
def inCmd (off : Nat) : Bool := cmdBase ≤ off && off < cmdBase + 4 * Config.cmdWords

/-- The offset lies in text RAM (R100). -/
def inText (off : Nat) : Bool := textBase ≤ off && off < textBase + Config.textBytes

/-- The offset lies in the sine ROM (R100). -/
def inSin (off : Nat) : Bool := sinBase ≤ off && off < sinBase + 4 * Config.sinN

/-- The offset lies in the framebuffer (R100). -/
def inFb (off : Nat) : Bool := fbBase ≤ off && off < fbBase + 2 * Config.npix

/-- The RAM access of `n` bytes at an offset has a width its region lists and is aligned (R100, R102). -/
def ramAccess (off n : Nat) : Bool :=
  off % n == 0
    && (inCmd off && n == 4 || inText off && (n == 1 || n == 2 || n == 4) || inFb off && (n == 2 || n == 4))

/-- The access of `n` bytes at an offset is a 32-bit aligned one (R100, R102). -/
def wordAccess (off n : Nat) : Bool := n == 4 && off % 4 == 0

/-- A write of 1, 2 or 4 bytes that lies in the sine ROM, which ignores it (R100, R102; log 8). -/
def sinWrite (off n : Nat) : Bool := (n == 1 || n == 2 || n == 4) && inSin off && inSin (off + n - 1)

/-- The `n`-byte little-endian value at a RAM offset (R103, R105). -/
def State.ramRead (s : State) (off : Nat) : Nat → Word
  | 0 => 0#32
  | n + 1 => (s.ramRead (off + 1) n <<< 8) ||| (s.ramByte off).setWidth 32

/-- The low `n` bytes of a value written at a RAM offset, little-endian (R103, R105). -/
def State.ramWrite (s : State) (off n : Nat) (v : Word) : State := s.putBytes off ((bytesOfWord v).take n)

/-! ### The accesses (R105) -/

/-- The window offset of a host address, `none` outside the window (R100). -/
def State.windowOffset (s : State) (addr : Nat) : Option Nat :=
  if s.cfg.base ≤ addr ∧ addr < s.cfg.base + windowSize then some (addr - s.cfg.base) else none

/-- What a read at a window offset returns, `none` for a bus error (R102, R105). -/
def State.readAt (s : State) (off n : Nat) : Option Word :=
  if inRegs off && wordAccess off n then some (s.regRead off)
  else if inSin off && wordAccess off n then some (sinRom ((off - sinBase) / 4))
  else if ramAccess off n then some (s.ramRead off n)
  else none

/-- The state after a write at a window offset, `none` for a bus error (R102, R105). -/
def State.writeAt (s : State) (off n : Nat) (v : Word) : Option State :=
  if inRegs off && wordAccess off n then some (s.regWrite off v)
  else if sinWrite off n then some s
  else if ramAccess off n then some (s.ramWrite off n v)
  else none

/-- `MemRead(addr, n)`: no side effect in the block (R105, R108), `none` for a bus error (R102). -/
def State.memRead (s : State) (addr n : Nat) : Option Word :=
  match s.windowOffset addr with
  | some off => s.readAt off n
  | none => none

/-- `MemWrite(addr, n, v)` (R105), `none` for a bus error (R102). -/
def State.memWrite (s : State) (addr n : Nat) (v : Word) : Option State :=
  match s.windowOffset addr with
  | some off => s.writeAt off n v
  | none => none

end Sys2Proof.Machine
end

