-- ==== Sys2Proof/Machine/Agents.lean ====
section
/-! DEFINITION. The agents' moves (00_scope R6; 20_memory R109; log 1, 3): a turn of the host, the DMA or the reset that
is due, else the engine when it can move, else the DMA, else nothing. -/

namespace Sys2Proof.Machine

/-- A turn of another agent than the engine (R105, R302, R360). A host access that is a bus error has no step (R102;
log 7). -/
def actStep (s : State) (a : Act) : Host.Outcome State Fault Refusal :=
  match a with
  | .hostRead addr n =>
    match s.memRead addr n with
    | some v => .next { s with busOut := { addr := addr, width := n, value := v } :: s.busOut }
    | none => .fault (.hostBusError addr n)
  | .hostWrite addr n v =>
    match s.memWrite addr n v with
    | some s' => .next s'
    | none => .fault (.hostBusError addr n)
  | .dma => .next (dmaStep s)
  | .reset => .next s.resetStep

/-- The engine between commands decodes the command at `CP` (R171): it faults in that step (R322) or begins the
command. -/
def decodeStep (s : State) : Host.Outcome State Fault Refusal :=
  match s.fetch with
  | .ok i => exec i s
  | .error r => .next ((s.takeFault (causeOf r) (s.faultWordFor r)).spend 1)

/-- The engine moves while `RUN` is `RUNNING` (R40, R171); a held engine leaves the move to the DMA (R300, R306). -/
def engineMove (s : State) : Host.Outcome State Fault Refusal :=
  match s.inside with
  | none => decodeStep s
  | some b => if s.held then .next ((dmaStep s).spend 1) else .next (resume s b)

/-- The block's own move when no turn of another agent is due: the engine, else the DMA, else nothing (log 3, 13). -/
def blockMove (s : State) : Host.Outcome State Fault Refusal :=
  match s.run with
  | .running => engineMove s
  | .idle => if s.dmaActive then .next ((dmaStep s).spend 1) else .next s

/-- The engine or the DMA can move (R40, R302). -/
def State.canMove (s : State) : Bool := s.run == .running || s.dmaActive

/-- One move of the machine: the next turn when it is due, or when neither the engine nor the DMA can move; else the
block's own move (log 1). -/
def machineMove (s : State) : Host.Outcome State Fault Refusal :=
  match s.plan with
  | [] => blockMove s
  | t :: ts => if s.turnDue || !s.canMove then actStep { s with plan := ts } t.act else blockMove s

/-- The words of a table instruction, first word lowest (the host's question; log 12). -/
def tableWords (nbits w : Nat) : List Word := wordsOfBytes (tableBytes nbits w)

/-- The state in which the next step fetches and runs the given words (log 12): they stand at `CP` (at word 0 when
they would not fit there), the engine is running and between commands, and no other agent's turn comes first. -/
def State.loadWords (s : State) (ws : List Word) : State :=
  let at' : BitVec 11 := if s.cp.toNat + maxLen ≤ Config.cmdWords then s.cp else 0#11
  { s.putWords at'.toNat ws with run := .running, cp := at', inside := none, plan := [] }

end Sys2Proof.Machine
end

