-- ==== Sys2Proof/Machine/Step.lean ====
section
/-! DEFINITION. One step of the machine, and the host's way to place an instruction where the next step fetches it. -/

namespace Sys2Proof.Machine

/-- One step of the machine (log 1, 2, 3). -/
def step (s : State) : Host.Outcome State Fault Refusal := machineMove s

/-- `s` with the instruction whose bits are `w`, numbered as the opcode table numbers them, stored where `step` fetches
its next instruction, so that the very next step runs it (log 12). -/
def State.withFetchWord (s : State) (nbits w : Nat) : State := s.loadWords (tableWords nbits w)

end Sys2Proof.Machine
end

