-- ==== Sys2Proof/Safety.lean ====
section
/-! DEFINITION. The terms in which claims about the block are stated: when an instruction's effect is not cut short by
another agent, the strokes of the three text commands written straight from the pseudocode of R202, R222 and R242, the
levels and firings of a scan (R272), the shape of the display output (R303), and the invariants of the machine. -/

namespace Sys2Proof.Machine

/-! ### When nothing cuts in -/

/-- No turn of another agent is coming, so a command runs to its end in the step that begins it (log 1, 2). -/
abbrev State.quiet (s : State) : Prop := s.plan = []

/-- The engine is running and between commands: its next step is a decode (R171). -/
abbrev State.ready (s : State) : Prop := s.run = .running ∧ s.inside = none

/-- The turn of another agent that the next step takes: the first of the plan, when it is due or nothing else can move
(log 1). -/
def State.turnTaken (s : State) : Option Act :=
  match s.plan with
  | [] => none
  | u :: _ => if s.turnDue || !s.canMove then some u.act else none

/-! ### Decode checks -/

/-- `LEN(OP)`, `none` for an illegal opcode (R147). -/
def opLen (op : Byte) : Option Nat :=
  if op.toNat ≤ 0x05 then some 1
  else if op = 0x10#8 ∨ op = 0x11#8 then some 3
  else if op = 0x12#8 then some 5
  else none

/-- A bit that must be 0 is 1: header bits by opcode (R141, R147), `w2[31:24]` (R143), `w4[31:16]` (R145). -/
def reservedSet (h w2 w4 : Word) : Bool :=
  let op := h.extractLsb' 0 8
  if op = 0x02#8 then h.extractLsb' 8 8 != 0#8
  else if op = 0x10#8 ∨ op = 0x11#8 then h.extractLsb' 9 7 != 0#7 || w2.extractLsb' 24 8 != 0#8
  else if op = 0x12#8 then h.extractLsb' 8 8 != 0#8 || w2.extractLsb' 24 8 != 0#8 || w4.extractLsb' 16 16 != 0#16
  else h.extractLsb' 8 24 != 0#24

/-- The text operand of a text command runs past text RAM (R146). -/
def textOut (h w2 : Word) : Bool :=
  0x10 ≤ (h.extractLsb' 0 8).toNat && 1024 < (w2.extractLsb' 0 16).toNat + (w2.extractLsb' 16 8).toNat

/-- The fault that decode of the command at `CP` raises, with the value of `FAULT_WORD`: the checks of R171 in their order
(R320, R324). -/
def State.faultAt (s : State) : Option (Cause × Word) :=
  let h := s.cmdRead s.cp.toNat
  if 1024 ≤ s.cp.toNat then some (.clOverrun, 0#32)
  else
    match opLen (h.extractLsb' 0 8) with
    | none => some (.illegalOpcode, h)
    | some n =>
      if 1024 < s.cp.toNat + n then some (.clOverrun, h)
      else if reservedSet h (s.cmdRead (s.cp.toNat + 2)) (s.cmdRead (s.cp.toNat + 4)) then some (.reservedField, h)
      else if textOut h (s.cmdRead (s.cp.toNat + 2)) then some (.textRange, h)
      else none

/-! ### Rounding -/

/-- The least magnitude, in units of 2^-149, that rounds to an infinity: half a step above the largest finite value
`(2^24 - 1) * 2^253` (R18). -/
def overflowAt : Int := (2 ^ 25 - 1) * 2 ^ 252

/-- The pattern `x` is the exact value `v / 2^k` units of 2^-149 rounded to binary32 (R18, R19): from `overflowAt` on the
infinity of its sign; below it a finite pattern, than which none lies nearer, and of two equally near ones the one whose
last significand bit is 0. -/
def roundedFrom (x : Word) (v : Int) (k : Nat) : Prop :=
  (overflowAt * 2 ^ k ≤ |v| → x = if v < 0 then 0xFF800000#32 else 0x7F800000#32) ∧
  (|v| < overflowAt * 2 ^ k → isNaN x = false ∧ isInf x = false ∧
    ∀ c : Word, isNaN c = false → isInf c = false →
      |fval x * 2 ^ k - v| ≤ |fval c * 2 ^ k - v| ∧
      (|fval x * 2 ^ k - v| = |fval c * 2 ^ k - v| → fval c ≠ fval x → x.getLsbD 0 = false))

/-! ### Strokes -/

/-- One `PlotFlat(px, py, v)` of a text command (R15). -/
structure Stroke where
  px    : Int
  py    : Int
  color : Cell
deriving DecidableEq, Repr

/-- The flat offset of a stroke (R15). -/
def Stroke.offset (q : Stroke) : Int := q.px + q.py * 240

/-- The stroke lands in the framebuffer (R15). -/
abbrev Stroke.lands (q : Stroke) : Prop := 0 ≤ q.offset ∧ q.offset < 57600

/-- `PlotFlat` on the state: the write, or nothing (R15). -/
def State.plotStroke (s : State) (q : Stroke) : State := if q.lands then s.fbWrite q.offset.toNat q.color else s

/-- The strokes in their order. -/
def State.drawStrokes (s : State) (qs : List Stroke) : State := qs.foldl State.plotStroke s

/-- The byte address is one of the two bytes of a cell that a landing stroke of the list writes. -/
def strokesTouch (qs : List Stroke) (a : Nat) : Prop :=
  ∃ q ∈ qs, q.lands ∧ (a = 0x10000 + 2 * q.offset.toNat ∨ a = 0x10000 + 2 * q.offset.toNat + 1)

/-- Character `i` of a text operand as the text RAM holds it (R146). -/
def State.textOf (s : State) (taddr : BitVec 16) (i : Nat) : Byte := s.textRead (taddr.toNat + i)

/-- The x of the first character of `TILE_TEXT` (R201). -/
def tileFirstX (p : Config.Params) (o : LineText) : Int :=
  if o.cen then o.x.toInt - (o.tlen.toNat * p.tileW / 2 : Nat) else o.x.toInt

/-- The stroke of pixel `(k, j)` of tile `g` with its left edge at `gx`, none where the stored value is 0 (R202, R206). -/
def tilePixelStrokes (p : Config.Params) (o : LineText) (gx : Int) (g j k : Nat) : List Stroke :=
  let v := (p.tileRom[((g / p.tileCols) * p.tileH + j) * p.tileStride + (g % p.tileCols) * p.tileW + k]?).getD 0#16
  if v = 0#16 then [] else [⟨gx + k, o.y.toInt + j, if o.color ≠ 0#16 then o.color else v⟩]

/-- The strokes of one tile of `TILE_TEXT`: glyph `g` with its left edge at `gx` (R202). -/
def tileGlyphStrokes (p : Config.Params) (o : LineText) (gx : Int) (g : Nat) : List Stroke :=
  (List.range p.tileH).flatMap fun j => (List.range p.tileW).flatMap fun k => tilePixelStrokes p o gx g j k

/-- The strokes of character `i` of `TILE_TEXT` (R202, R203, R204, R208). -/
def tileCharStrokes (p : Config.Params) (o : LineText) (text : Nat → Byte) (i : Nat) : List Stroke :=
  let ch := (text i).toNat
  if 0x20 < ch ∧ p.tileStart ≤ ch ∧ ch - p.tileStart < p.tileCount then
    tileGlyphStrokes p o (tileFirstX p o + (i * p.tileW : Nat)) (ch - p.tileStart)
  else []

/-- The strokes of `TILE_TEXT` in the order of R202. -/
def tileStrokes (p : Config.Params) (o : LineText) (text : Nat → Byte) : List Stroke :=
  (List.range o.tlen.toNat).flatMap (tileCharStrokes p o text)

/-- How many of the first `i` characters occur in the lookup string: `n` of R222, `k` of R242. -/
def matchedBefore (p : Config.Params) (text : Nat → Byte) (i : Nat) : Nat :=
  ((List.range i).filter fun h => p.bmLookup.contains (text h)).length

/-- Bit column `c` of row `r` of bitmask glyph `g` is set (R67). -/
def glyphBit (p : Config.Params) (g r c : Nat) : Bool :=
  ((p.bmRom[((g / 10) * 8 + r) * 10 + g % 10]?).getD 0#8).getLsbD (7 - c)

/-- The x of the first character of `BM_TEXT` (R221). -/
def bmFirstX (o : LineText) : Int := if o.cen then 120 - (o.tlen.toNat * 8 / 2 : Nat) else o.x.toInt

/-- The strokes of row `r` of glyph `g` as the `n`-th matched character of `BM_TEXT` (R222, R225). -/
def bmRowStrokes (p : Config.Params) (o : LineText) (n g r : Nat) : List Stroke :=
  (List.range 8).flatMap fun c =>
    if glyphBit p g r c then [⟨bmFirstX o + (8 * n : Nat) + c, o.y.toInt + r, o.color⟩] else []

/-- The strokes of character `i` of `BM_TEXT`, `n` characters having matched before it (R222, R223). -/
def bmCharStrokes (p : Config.Params) (o : LineText) (text : Nat → Byte) (n i : Nat) : List Stroke :=
  match p.bmLookup.idxOf? (text i) with
  | none => []
  | some g => (List.range 8).flatMap (bmRowStrokes p o n g)

/-- The strokes of `BM_TEXT` in the order of R222. -/
def bmStrokes (p : Config.Params) (o : LineText) (text : Nat → Byte) : List Stroke :=
  (List.range o.tlen.toNat).flatMap fun i => bmCharStrokes p o text (matchedBefore p text i) i

/-- The start angle of `CURVED_TEXT` (R241, R242). -/
def arcStart (o : ArcText) : Word :=
  let s0 := fsub o.angle (f32 (10 * (o.tlen.toNat / 2) : Nat))
  let s := ffmod s0 (f32 360)
  if fltZero s then fadd s (f32 360) else s

/-- The working angle after `c` columns (R242, R249). -/
def arcCur (o : ArcText) (c : Nat) : Word := (List.range c).foldl (fun cur _ => fadd cur (f32 1)) (arcStart o)

/-- The floored angle of column `c` of the `k`-th matched character (R242). -/
def arcFloor (o : ArcText) (k c : Nat) : Int :=
  ffloor (fsub (fadd (arcCur o c) (f32 (10 * k : Nat))) (fmul (f32 c) 0x3DCCCCCD#32))

/-- The stroke of a set bit of `CURVED_TEXT` (R242). -/
def arcStroke (o : ArcText) (k r c : Nat) : Stroke :=
  let sti := (360 - arcFloor o k c) % 360
  let cti := (sti + 90) % 360
  let rr := f32 (o.radius.toInt - 2 * r)
  ⟨o.cx.toInt + fround (fmul (sinRom sti.toNat) rr), o.cy.toInt + fround (fmul (sinRom cti.toNat) rr), o.color⟩

/-- The strokes of row `r` of glyph `g` as the `k`-th matched character of `CURVED_TEXT` (R242). -/
def arcRowStrokes (p : Config.Params) (o : ArcText) (k g r : Nat) : List Stroke :=
  (List.range 8).flatMap fun c => if glyphBit p g r c then [arcStroke o k r c] else []

/-- The strokes of character `i` of `CURVED_TEXT`, `k` characters having matched before it (R242, R243). -/
def arcCharStrokes (p : Config.Params) (o : ArcText) (text : Nat → Byte) (k i : Nat) : List Stroke :=
  match p.bmLookup.idxOf? (text i) with
  | none => []
  | some g => (List.range 8).flatMap (arcRowStrokes p o k g)

/-- The strokes of `CURVED_TEXT` in the order of R242. -/
def arcStrokes (p : Config.Params) (o : ArcText) (text : Nat → Byte) : List Stroke :=
  if isNaN o.angle ∨ isInf o.angle then []
  else (List.range o.tlen.toNat).flatMap fun i => arcCharStrokes p o text (matchedBefore p text i) i

/-- What the three text commands draw, and nothing for the other commands. -/
def State.strokesOf (s : State) (i : Instr) : List Stroke :=
  match i with
  | .tileText o => tileStrokes s.cfg o (s.textOf o.taddr)
  | .bmText o => bmStrokes s.cfg o (s.textOf o.taddr)
  | .curvedText o => arcStrokes s.cfg o (s.textOf o.taddr)
  | .nop => []
  | .endList => []
  | .clear _ => []
  | .scan => []
  | .flush => []
  | .dmaWait => []

/-- What a step left of a command, and all it opens, draws: the text as it stands now, and as many matched characters as
the step has counted (R191, R202, R222, R242). -/
def State.stepStrokes (s : State) (m : Micro) : List Stroke :=
  match m with
  | .fill color i => (List.range' i (57600 - i)).map fun k : Nat => ⟨k, 0, color⟩
  | .plot off v => [⟨(off : Int), 0, v⟩]
  | .tileChar o i => (List.range' i (o.tlen.toNat - i)).flatMap (tileCharStrokes s.cfg o (s.textOf o.taddr))
  | .tilePixel o i g j k => tilePixelStrokes s.cfg o (tileFirstX s.cfg o + (i * s.cfg.tileW : Nat)) g j k
  | .bmChar o i n =>
    let text := s.textOf o.taddr
    (List.range' i (o.tlen.toNat - i)).flatMap fun h =>
      bmCharStrokes s.cfg o text (n + (matchedBefore s.cfg text h - matchedBefore s.cfg text i)) h
  | .bmRow o n g r => bmRowStrokes s.cfg o n g r
  | .arcChar o _ i k =>
    let text := s.textOf o.taddr
    (List.range' i (o.tlen.toNat - i)).flatMap fun h =>
      arcCharStrokes s.cfg o text (k + (matchedBefore s.cfg text h - matchedBefore s.cfg text i)) h
  | .arcRow o _ k g r => arcRowStrokes s.cfg o k g r
  | .arcSin o k r c _ => [arcStroke o k r c]
  | .arcCos o k r c _ => [arcStroke o k r c]
  | .advance => []
  | .stop => []
  | .scanMode => []
  | .pin _ => []
  | .sampleMatrix _ _ => []
  | .sampleJoy _ => []
  | .commit => []
  | .flush => []
  | .dmaWait => []

/-- What the steps left at a position draw. -/
def State.strokesAhead (s : State) (b : Position) : List Stroke := b.todo.flatMap s.stepStrokes

/-! ### Host accesses -/

/-- The widths in bytes that the address map lists for a host access at an offset (R100). -/
def hostWidths (off : Nat) : List Nat :=
  if off < 0x1000 then [4]
  else if 0x1000 ≤ off ∧ off < 0x2000 then [4]
  else if 0x2000 ≤ off ∧ off < 0x2400 then [1, 2, 4]
  else if 0x3000 ≤ off ∧ off < 0x35A0 then [4]
  else if 0x10000 ≤ off ∧ off < 0x2C200 then [2, 4]
  else []

/-- The host reads the register or RAM value at an offset of the window (R105). -/
def State.hostRead (s : State) (off n : Nat) : Option Word := s.memRead (s.cfg.base + off) n

/-- The host writes at an offset of the window (R105). -/
def State.hostWrite (s : State) (off n : Nat) (v : Word) : Option State := s.memWrite (s.cfg.base + off) n v

/-! ### Scans -/

/-- The level that the `k`-th sample from now on returns (R271; log 5). -/
def State.drawLevel (s : State) (k : Nat) : Bool :=
  (s.pins[k]?).getD (Config.pinLevel (s.drawn + (k - s.pins.length)))

/-- The pin events of a scan in matrix mode (R272, R273). -/
def matrixEvents (led : Byte) : List PinEvent :=
  (List.range 8).flatMap fun c =>
    ((List.range 16).flatMap fun k =>
        [⟨.srData, (led ++ ~~~(1#8 <<< c)).getLsbD (15 - k)⟩, ⟨.srClk, true⟩, ⟨.srClk, false⟩])
      ++ [⟨.srLoad, true⟩, ⟨.srLoad, false⟩, ⟨.srClk, true⟩, ⟨.srClk, false⟩]

/-- Up fires in the commit (R276). -/
def upFires (last : Control) (r1 : Byte) : Bool := r1.getLsbD 0 && last != .up

/-- The latch after the check of up (R272). -/
def lastAfterUp (last : Control) (r1 : Byte) : Control := if upFires last r1 then .up else last

/-- Down fires in the commit (R276). -/
def downFires (last : Control) (r1 : Byte) : Bool := r1.getLsbD 1 && lastAfterUp last r1 != .down

/-- The latch after the check of down (R272). -/
def lastAfterDown (last : Control) (r1 : Byte) : Control := if downFires last r1 then .down else lastAfterUp last r1

/-- Menu fires in the commit (R276). -/
def menuFires (last : Control) (r1 : Byte) : Bool := r1.getLsbD 4 && lastAfterDown last r1 != .menu

/-- The latch after the commit (R276). -/
def lastAfterScan (last : Control) (r0 r1 : Byte) : Control :=
  if r0 = 0#8 ∧ r1 = 0#8 then .none else if menuFires last r1 then .menu else lastAfterDown last r1

/-- The selection after the commit: up first, then down, clamped to 0..3 (R272, R276). -/
def selAfterScan (sel : BitVec 2) (last : Control) (r1 : Byte) : Nat :=
  let n := if upFires last r1 then sel.toNat - 1 else sel.toNat
  if downFires last r1 then min (n + 1) 3 else n

/-- The speed of the old selection after left and right (R275). -/
def speedAfterEdits (v : Word) (r1 : Byte) : Word :=
  let v1 := if r1.getLsbD 2 then fsub v 0x3E4CCCCD#32 else v
  if r1.getLsbD 3 then fadd v1 0x3E4CCCCD#32 else v1

/-- `SPEED[n]` after the commit (R275, R276). -/
def speedAfterScan (s : State) (r1 : Byte) (n : BitVec 2) : Word :=
  let v := if n = s.sel then speedAfterEdits (s.speed n) r1 else s.speed n
  if menuFires s.last r1 ∧ n.toNat = selAfterScan s.sel s.last r1 then v ^^^ 0x80000000#32 else v

/-! ### The display output -/

/-- The shape of a display output, newest event first: every transfer is the full-screen window and then bytes, a new
window comes only after the `115200` bytes of the one before (R300, R303). `none`: not of this shape; `some none`: no
transfer yet; `some (some n)`: `n` bytes have followed the last window. -/
def dispFrame : List DispEvent → Option (Option Nat)
  | [] => some none
  | .win x0 y0 x1 y1 :: es =>
    if x0 = 0 ∧ y0 = 0 ∧ x1 = 239 ∧ y1 = 239 then
      match dispFrame es with
      | some none => some (some 0)
      | some (some n) => if n = 115200 then some (some 0) else none
      | none => none
    else none
  | .byte _ :: es =>
    match dispFrame es with
    | some (some n) => if n < 115200 then some (some (n + 1)) else none
    | some none => none
    | none => none

/-- The DMA agent and the display output agree (R58, R302, R303): nothing was ever sent, or the last window is followed
by the two bytes of every cell below `DMA_IDX`, and a transfer is in progress exactly until all cells are out. -/
def DispInv (s : State) : Prop :=
  (dispFrame s.dispOut = some none ∧ s.dmaActive = false ∧ s.dmaIdx = 0#17) ∨
    (dispFrame s.dispOut = some (some (2 * s.dmaIdx.toNat)) ∧ s.dmaIdx.toNat ≤ 57600 ∧
      (s.dmaActive = true ↔ s.dmaIdx.toNat < 57600))

/-- The two bytes of each of the `n` cells from cell `lo` on, low byte first, in the order they go out (R302, R304). -/
def State.cellBytes (s : State) (lo n : Nat) : List DispEvent :=
  (List.range n).flatMap fun k =>
    [.byte ((s.fbRead (lo + k)).extractLsb' 0 8), .byte ((s.fbRead (lo + k)).extractLsb' 8 8)]

/-- The level of the last event of a pin in a pin output, newest first, and 0 when it never changed (R69, R70). -/
def pinLevelOf (q : Pin) : List PinEvent → Bool
  | [] => false
  | e :: es => if e.pin = q then e.level else pinLevelOf q es

/-- Each output pin has the level it was last driven to (R69, R70). -/
def PinInv (s : State) : Prop :=
  s.srData = pinLevelOf .srData s.pinOut ∧ s.srClk = pinLevelOf .srClk s.pinOut ∧ s.srLoad = pinLevelOf .srLoad s.pinOut

/-! ### The invariant of the machine -/

/-- The step belongs to the command: its operands are the command's, it names a character of the text and the angle the
rule gives, and it writes inside the framebuffer only. -/
def Micro.belongs (i : Instr) (m : Micro) : Bool :=
  match m, i with
  | .advance, .nop => true
  | .advance, .tileText _ => true
  | .advance, .bmText _ => true
  | .advance, .curvedText _ => true
  | .stop, .endList => true
  | .fill c k, .clear color => c == color && k < 57600
  | .plot off _, .tileText _ => off < 57600
  | .plot off _, .bmText _ => off < 57600
  | .plot off _, .curvedText _ => off < 57600
  | .tileChar o i, .tileText o' => o == o' && i < o'.tlen.toNat
  | .tilePixel o _ _ _ _, .tileText o' => o == o'
  | .bmChar o i _, .bmText o' => o == o' && i < o'.tlen.toNat
  | .bmRow o _ _ _, .bmText o' => o == o'
  | .arcChar o start i _, .curvedText o' => o == o' && start == startAngle o' && i < o'.tlen.toNat
  | .arcRow o start _ _ _, .curvedText o' => o == o' && start == startAngle o'
  | .arcSin o _ _ c cur, .curvedText o' => o == o' && cur == workingAngle (startAngle o') c
  | .arcCos o _ _ c cur, .curvedText o' => o == o' && cur == workingAngle (startAngle o') c
  | .scanMode, .scan => true
  | .pin _, .scan => true
  | .sampleMatrix _ _, .scan => true
  | .sampleJoy _, .scan => true
  | .commit, .scan => true
  | .flush, .flush => true
  | .dmaWait, .dmaWait => true
  | _, _ => false

/-- The steps left of a scan: the mode is still to be read, or no step but the last is the commit (R272, R278). -/
def scanTail (ms : List Micro) : Prop :=
  ms = [.scanMode] ∨ ∃ xs, ms = xs ++ [.commit] ∧ .commit ∉ xs ∧ .scanMode ∉ xs

/-- The position inside a command is one the engine can stand at. -/
structure Position.ok (b : Position) : Prop where
  wf      : b.cmd.wf = true
  todo    : b.todo ≠ []
  belongs : ∀ m ∈ b.todo, m.belongs b.cmd = true
  ending  : b.cmd = .endList → b.todo = [.stop]
  scan    : b.cmd = .scan → scanTail b.todo

/-- The invariant: the configuration is well formed (R9), memory is in canonical form and inside the RAMs (R100; log 4),
`CP` is at most `CMD_WORDS` and leaves room for the command being executed (R41, R171), an idle engine is between
commands (R40, R71), `DMA_IDX` is in range (R58), and `LED` is off or shows one selection (R54, R277). -/
structure Inv (s : State) : Prop where
  cfg      : s.cfg.wf = true
  mem      : memWf s.mem
  cp       : s.cp.toNat ≤ 1024
  room     : ∀ b, s.inside = some b → b.ok ∧ s.cp.toNat + b.cmd.len ≤ 1024
  idle     : s.run = .idle → s.inside = none
  dma      : s.dmaIdx.toNat ≤ 57600
  transfer : s.dmaActive = true → s.dmaIdx.toNat < 57600
  led      : s.led = 0#8 ∨ ∃ n < 4, s.led = 1#8 <<< n

/-! ### Carrying out a command -/

/-- In the next step the engine goes on inside a command that another agent's turn had cut short: it stands at a position,
is not held, and no other agent's turn is taken (R110, R172). -/
structure State.goesOn (s : State) (b : Position) : Prop where
  inv    : Inv s
  inside : s.inside = some b
  free   : s.held = false
  turn   : s.turnTaken = none

/-- From `s` the engine carries out `i`, up to its end or its next cut, and is then at `t`: it begins the command there, or
goes on inside it. -/
def State.carries (s : State) (i : Instr) (t : State) : Prop :=
  exec i s = .next t ∨ ∃ b, s.goesOn b ∧ b.cmd = i ∧ step s = .next t

end Sys2Proof.Machine
end

