-- ==== Sys2Proof/Certificates/Slice0/Obligations.lean ====
section
/-! DEFINITION. The statements for the provers, from the numbered rules of spec/: encoding, decode and faults, the nine
commands, the host's window, and the invariants of the machine. -/

open Sys2Proof Sys2Proof.Machine

/-! ### Encoding (30_encoding) -/

/-- R141 to R149: decode of the words of a well-formed command, whatever follows them, gives the command back with every
operand. -/
def Obligations.EncodingRoundTrip : Prop :=
  ∀ (i : Instr) (rest : List Word), i.wf = true → decode (encode i ++ rest) = .ok i

/-- R141 to R149, R171: a command that decode gives is well formed and the words it was read from are its encoding. -/
def Obligations.DecodedWordsAreTheEncoding : Prop :=
  ∀ (ws : List Word) (i : Instr), decode ws = .ok i → i.wf = true ∧ i.len ≤ ws.length ∧ ws.take i.len = encode i

/-- R154 and 95_test_vectors E1 to E13: words written out from the encoding tables decode to the command they stand for. -/
def Obligations.WrittenWordsDecode : Prop :=
  decode [0x00F80012#32, 0x00780078#32, 0x00050000#32, 0x43340000#32, 0x00000064#32]
      = .ok (.curvedText ⟨120#16, 120#16, 0#16, 5#8, 0x00F8#16, 0x43340000#32, 100#16⟩)
    ∧ encode (.curvedText ⟨120#16, 120#16, 0#16, 5#8, 0x00F8#16, 0x43340000#32, 100#16⟩)
      = [0x00F80012#32, 0x00780078#32, 0x00050000#32, 0x43340000#32, 0x00000064#32]
    ∧ decode [0x00F80002#32] = .ok (.clear 0x00F8#16)
    ∧ decode [0xFFFF0111#32, 0x0007FFFB#32, 0x00FF0301#32]
      = .ok (.bmText { x := 0xFFFB#16, y := 7#16, taddr := 0x301#16, tlen := 0xFF#8, color := 0xFFFF#16, cen := true })
    ∧ decode [0x00000010#32, 0x0000000A#32, 0x00010000#32]
      = .ok (.tileText { x := 10#16, y := 0#16, taddr := 0#16, tlen := 1#8, color := 0#16, cen := false })

/-! ### Decode, faults and start (40_engine, 60_exceptions) -/

/-- R171, R172: when the words at `CP` are the encoding of a well-formed command, all inside command RAM, and no other
agent's turn is due, the step of a running engine between commands is that command. (model: log 1, 2) -/
def Obligations.StepRunsTheDecodedCommand : Prop :=
  ∀ (s : State) (i : Instr), s.ready → s.turnDue = false → i.wf = true → s.cp.toNat + i.len ≤ 1024 →
    (∀ k < i.len, (encode i)[k]? = some (s.cmdRead (s.cp.toNat + k))) → step s = exec i s

/-- R171, R320, R322, R324: the first failing check of decode faults in that step: `RUN` is idle, `STATUS.FAULT` is set,
`FAULT_CAUSE`, `FAULT_CP` and `FAULT_WORD` are written, `CP` and everything else stay; when no check fails the step is the
command whose encoding stands at `CP`. (model: log 1) -/
def Obligations.DecodeFaultsOrRuns : Prop :=
  ∀ (s : State), s.ready → s.turnDue = false →
    (∀ c w, s.faultAt = some (c, w) →
      step s = .next { s with
        run := .idle, fault := true, faultCause := c, faultCp := s.cp, faultWord := w, plan := spendPlan s.plan 1 }) ∧
    (s.faultAt = none → ∃ i : Instr, i.wf = true ∧ s.cp.toNat + i.len ≤ 1024 ∧
      (∀ k < i.len, (encode i)[k]? = some (s.cmdRead (s.cp.toNat + k))) ∧ step s = exec i s)

/-- R49, R50, R51: the three fault registers change only in a step that is a reset, or the engine's and a decode that
fails. (model: log 1) -/
def Obligations.FaultRegistersOnlyByFaults : Prop :=
  ∀ (s t : State), step s = .next t →
    (t.faultCause, t.faultCp, t.faultWord) ≠ (s.faultCause, s.faultCp, s.faultWord) →
    s.turnTaken = some .reset ∨ (s.turnTaken = none ∧ s.ready ∧ ∃ r, s.fetch = .error r)

/-- R170, R46, R44: a host write of `CTRL` with bit 0 set starts an idle engine at `CL_BASE` in that one step, with every
sticky bit and fault register as before; a running engine ignores the start; `SCAN_MODE` takes bit 1 either way. -/
def Obligations.StartSetsCpAndRun : Prop :=
  ∀ (s : State) (v : Word), v.getLsbD 0 = true →
    (s.run = .idle →
      s.hostWrite 0x004 4 v
        = some { s with scanMode := v.getLsbD 1, cp := s.clBase.setWidth 11, run := .running }) ∧
    (s.run = .running → s.hostWrite 0x004 4 v = some { s with scanMode := v.getLsbD 1 })

/-! ### NOP and END -/

/-- R175: `NOP` moves `CP` on by 1 and changes nothing else. (model: log 1, 2) -/
def Obligations.NopOnlyAdvances : Prop :=
  ∀ (s : State), s.quiet → exec .nop s = .next { s with inside := none, cp := s.cp + 1#11 }

/-- R176: `END` stops the engine, sets `STATUS.DONE` and keeps `CP`; the DMA agent goes on. (model: log 1, 2) -/
def Obligations.EndStopsAndKeepsCp : Prop :=
  ∀ (s : State), s.quiet → exec .endList s = .next { s with inside := none, run := .idle, done := true }

/-- R175, R176, R301, R306: the frames of `NOP`, `END`, `FLUSH` and `DMA_WAIT`, carried out from their decode or from where
another agent's turn cut them short, to their end or the next cut: what each may change. (model: log 1, 2) -/
def Obligations.FrameOfControlCommands : Prop :=
  ∀ (s t : State),
    (s.carries .nop t → t = { s with inside := t.inside, cp := t.cp, plan := t.plan }) ∧
    (s.carries .endList t →
      t = { s with inside := t.inside, cp := t.cp, plan := t.plan, run := t.run, done := t.done }) ∧
    (s.carries .flush t →
      t = { s with
        inside := t.inside, cp := t.cp, plan := t.plan,
        dmaActive := t.dmaActive, dmaIdx := t.dmaIdx, dispOut := t.dispOut }) ∧
    (s.carries .dmaWait t → t = { s with inside := t.inside, cp := t.cp, plan := t.plan })

/-! ### CLEAR (41_clear) -/

/-- R190, R191: `CLEAR` leaves every cell of the framebuffer at its colour, every byte outside the framebuffer and all
other state as before, and moves `CP` on by 1. (model: log 1, 2) -/
def Obligations.ClearFillsTheFramebuffer : Prop :=
  ∀ (s : State) (color : Cell), s.quiet →
    ∃ t, exec (.clear color) s = .next t ∧ t = { s with inside := none, cp := s.cp + 1#11, mem := t.mem } ∧
      (∀ i < 57600, t.fbRead i = color) ∧
      (∀ a, a < 0x10000 ∨ 0x2C200 ≤ a → t.ramByte a = s.ramByte a)

/-- R191: the writes of `CLEAR` are separate events in rising order: when another agent's turn falls after the decode and
`k` writes, exactly the cells below `k` are written and `CP` still names the command. (model: log 1, 2) -/
def Obligations.ClearWritesInRisingOrder : Prop :=
  ∀ (s : State) (color : Cell) (k : Nat) (a : Act) (ts : List Turn), k < 57600 → s.plan = ⟨k + 1, a⟩ :: ts →
    ∃ t, exec (.clear color) s = .next t ∧ t.plan = ⟨0, a⟩ :: ts ∧ t.cp = s.cp ∧ t.inside ≠ none ∧
      (∀ i < k, t.fbRead i = color) ∧ (∀ i, k ≤ i → t.fbRead i = s.fbRead i)

/-! ### The text commands (42 to 44) -/

/-- R202: `TILE_TEXT` draws exactly the strokes of its pseudocode in their order, each through the flat-offset check, and
moves `CP` on by 3; nothing else changes. (model: log 1, 2) -/
def Obligations.TileTextDrawsItsStrokes : Prop :=
  ∀ (s : State) (o : LineText), s.quiet → (Instr.tileText o).wf = true →
    exec (.tileText o) s
      = .next { s with
          inside := none, cp := s.cp + 3#11, mem := (s.drawStrokes (tileStrokes s.cfg o (s.textOf o.taddr))).mem }

/-- R222: `BM_TEXT` draws exactly the strokes of its pseudocode in their order and moves `CP` on by 3. (model: log 1, 2) -/
def Obligations.BmTextDrawsItsStrokes : Prop :=
  ∀ (s : State) (o : LineText), s.quiet → (Instr.bmText o).wf = true →
    exec (.bmText o) s
      = .next { s with
          inside := none, cp := s.cp + 3#11, mem := (s.drawStrokes (bmStrokes s.cfg o (s.textOf o.taddr))).mem }

/-- R242: `CURVED_TEXT` draws exactly the strokes of its pseudocode in their order, none for a NaN or infinite angle, and
moves `CP` on by 5. (model: log 1, 2) -/
def Obligations.CurvedTextDrawsItsStrokes : Prop :=
  ∀ (s : State) (o : ArcText), s.quiet → (Instr.curvedText o).wf = true →
    exec (.curvedText o) s
      = .next { s with
          inside := none, cp := s.cp + 5#11, mem := (s.drawStrokes (arcStrokes s.cfg o (s.textOf o.taddr))).mem }

/-- R203, R204, R208, R209: a `TILE_TEXT` whose every character is at most 0x20 or names no tile only moves `CP`.
(model: log 1, 2) -/
def Obligations.TileTextSkipsSpacesAndUnknownCodes : Prop :=
  ∀ (s : State) (o : LineText), s.quiet → (Instr.tileText o).wf = true →
    (∀ i < o.tlen.toNat,
      (s.textOf o.taddr i).toNat ≤ 0x20 ∨ (s.textOf o.taddr i).toNat < s.cfg.tileStart ∨
        s.cfg.tileStart + s.cfg.tileCount ≤ (s.textOf o.taddr i).toNat) →
    exec (.tileText o) s = .next { s with inside := none, cp := s.cp + 3#11 }

/-- R223, R228, R240, R252: `BM_TEXT` and `CURVED_TEXT` over characters none of which is in the lookup string only move
`CP`. (model: log 1, 2) -/
def Obligations.UnmatchedCharactersDrawNothing : Prop :=
  ∀ (s : State), s.quiet →
    (∀ o : LineText, (Instr.bmText o).wf = true → (∀ i < o.tlen.toNat, s.textOf o.taddr i ∉ s.cfg.bmLookup) →
      exec (.bmText o) s = .next { s with inside := none, cp := s.cp + 3#11 }) ∧
    (∀ o : ArcText, (Instr.curvedText o).wf = true → (∀ i < o.tlen.toNat, s.textOf o.taddr i ∉ s.cfg.bmLookup) →
      exec (.curvedText o) s = .next { s with inside := none, cp := s.cp + 5#11 })

/-- R240: a `CURVED_TEXT` whose base angle is NaN or an infinity writes nothing and completes. (model: log 1, 2) -/
def Obligations.NanOrInfiniteAngleDrawsNothing : Prop :=
  ∀ (s : State) (o : ArcText), s.quiet → o.angle.extractLsb' 23 8 = 0xFF#8 →
    exec (.curvedText o) s = .next { s with inside := none, cp := s.cp + 5#11 }

/-- R253: with the table index 0 a curved pixel lands at `(CX, CY + Rr)` and with 180 at `(CX, CY - Rr)`, where
`Rr = RADIUS - 2r`. -/
def Obligations.CurvedOrientation : Prop :=
  ∀ (o : ArcText) (k r c : Nat), r < 8 →
    ((360 - arcFloor o k c) % 360 = 0 →
      arcStroke o k r c = ⟨o.cx.toInt, o.cy.toInt + (o.radius.toInt - 2 * r), o.color⟩) ∧
    ((360 - arcFloor o k c) % 360 = 180 →
      arcStroke o k r c = ⟨o.cx.toInt, o.cy.toInt - (o.radius.toInt - 2 * r), o.color⟩)

/-- R251 where the start angle is computed without rounding: for an integer base angle `b` with
`|b - 10*(TLEN div 2)| < 2^24`, the floored angle of column `c` of the `k`-th matched character is
`s + 10k + max(c - 1, 0)` with `s = (b - 10*(TLEN div 2)) mod 360`. -/
def Obligations.CurvedClosedForm : Prop :=
  ∀ (o : ArcText) (b : Int) (k c : Nat), b.natAbs < 2 ^ 24 → o.angle = f32 b →
    (b - 10 * ((o.tlen.toNat / 2 : Nat) : Int)).natAbs < 2 ^ 24 → k < 255 → c < 8 →
    arcFloor o k c = (b - 10 * ((o.tlen.toNat / 2 : Nat) : Int)) % 360 + 10 * k + max ((c : Int) - 1) 0

/-- R15, R190, R207, R226, R248: the frames of the four drawing commands, carried out from their decode or from where
another agent's turn cut them short: only memory, `CP`, the position and the plan change; `CLEAR` leaves every byte
outside the framebuffer, a text command every byte that none of its strokes touches, and a command that goes on behind a
cut every byte that none of the strokes still ahead touches. (model: log 1, 2) -/
def Obligations.FrameOfDrawingCommands : Prop :=
  ∀ (s t : State),
    (∀ color, s.carries (.clear color) t →
      t = { s with inside := t.inside, cp := t.cp, plan := t.plan, mem := t.mem } ∧
        ∀ a, a < 0x10000 ∨ 0x2C200 ≤ a → t.ramByte a = s.ramByte a) ∧
    (∀ i : Instr, ((∃ o, i = .tileText o) ∨ (∃ o, i = .bmText o) ∨ ∃ o, i = .curvedText o) → i.wf = true →
      (s.carries i t → t = { s with inside := t.inside, cp := t.cp, plan := t.plan, mem := t.mem }) ∧
      (exec i s = .next t → ∀ a, ¬ strokesTouch (s.strokesOf i) a → t.ramByte a = s.ramByte a)) ∧
    (∀ b, s.goesOn b → step s = .next t → ∀ a, ¬ strokesTouch (s.strokesAhead b) a → t.ramByte a = s.ramByte a)

/-! ### SCAN (45_input_scan) -/

/-- R272, R273: a scan in matrix mode appends the 416 pin events of the rule, takes 16 samples, and leaves in bit `c` of
`ROW0` and `ROW1` the inverted levels of samples `2c` and `2c + 1`. (model: log 1, 2, 5, 11, 14) -/
def Obligations.MatrixScanRowsAndPins : Prop :=
  (∀ led, (matrixEvents led).length = 416) ∧
  ∀ (s : State), s.quiet → s.scanMode = false →
    ∃ t, exec .scan s = .next t ∧ t.inside = none ∧ t.cp = s.cp + 1#11 ∧
      t.pinOut = (matrixEvents s.led).reverse ++ s.pinOut ∧
      t.pins = s.pins.drop 16 ∧ t.drawn = s.drawn + (16 - s.pins.length) ∧
      (∀ c < 8, t.row0.getLsbD c = !s.drawLevel (2 * c)) ∧
      (∀ c < 8, t.row1.getLsbD c = !s.drawLevel (2 * c + 1))

/-- R272, R274: a scan in joystick mode changes no output pin, takes 5 samples and leaves their inverted levels in bits 0 to
4 of `ROW1`, all other bits of both rows 0. (model: log 1, 2, 5) -/
def Obligations.JoystickScanRows : Prop :=
  ∀ (s : State), s.quiet → s.scanMode = true →
    ∃ t, exec .scan s = .next t ∧ t.inside = none ∧ t.cp = s.cp + 1#11 ∧
      t.pinOut = s.pinOut ∧ t.srData = s.srData ∧ t.srClk = s.srClk ∧ t.srLoad = s.srLoad ∧
      t.pins = s.pins.drop 5 ∧ t.drawn = s.drawn + (5 - s.pins.length) ∧ t.row0 = 0#8 ∧
      (∀ k < 5, t.row1.getLsbD k = !s.drawLevel k) ∧ (∀ k, 5 ≤ k → t.row1.getLsbD k = false)

/-- R275, R276: what a scan does to the four speeds, from the rows it latched: left subtracts and right adds the step at the
old selection, and menu flips the sign at the new one. (model: log 1, 2) -/
def Obligations.ScanEditsSpeeds : Prop :=
  ∀ (s : State), s.quiet →
    ∃ t, exec .scan s = .next t ∧ ∀ n, t.speed n = speedAfterScan s t.row1 n

/-- R276: the debounced edits of a scan, from the rows it latched: the selection, the latch and the three event flags.
(model: log 1, 2) -/
def Obligations.ScanDebouncesEdits : Prop :=
  ∀ (s : State), s.quiet →
    ∃ t, exec .scan s = .next t ∧ t.sel.toNat = selAfterScan s.sel s.last t.row1 ∧
      t.last = lastAfterScan s.last t.row0 t.row1 ∧
      t.upEdge = (s.upEdge || upFires s.last t.row1) ∧
      t.downEdge = (s.downEdge || downFires s.last t.row1) ∧
      t.menuEdge = (s.menuEdge || menuFires s.last t.row1)

/-- R277: after any scan `LED` is the one bit of the new selection. (model: log 1, 2) -/
def Obligations.ScanShowsTheSelection : Prop :=
  ∀ (s : State), s.quiet →
    ∃ t, exec .scan s = .next t ∧ t.led = 1#8 <<< t.sel.toNat ∧
      (t.led = 0x01#8 ∨ t.led = 0x02#8 ∨ t.led = 0x04#8 ∨ t.led = 0x08#8)

/-- R270, R278: the frame of `SCAN`, carried out from its decode or from where another agent's turn cut it short: the
registers it may write, its pins and draws, `CP`, the position and the plan; memory, the status bits and the DMA agent
stay, and so does every speed but those of the old and the new selection. A `SCAN` cut before its commit has written
its pins and draws only. (model: log 1, 2, 5) -/
def Obligations.FrameOfScan : Prop :=
  ∀ (s t : State), s.carries .scan t →
    t = { s with
      row0 := t.row0, row1 := t.row1, led := t.led, sel := t.sel, last := t.last,
      upEdge := t.upEdge, downEdge := t.downEdge, menuEdge := t.menuEdge,
      speed0 := t.speed0, speed1 := t.speed1, speed2 := t.speed2, speed3 := t.speed3,
      srData := t.srData, srClk := t.srClk, srLoad := t.srLoad, pinOut := t.pinOut,
      pins := t.pins, drawn := t.drawn, inside := t.inside, cp := t.cp, plan := t.plan } ∧
    (∀ n, n ≠ s.sel → n ≠ t.sel → t.speed n = s.speed n) ∧
    (t.inside ≠ none →
      t = { s with
        srData := t.srData, srClk := t.srClk, srLoad := t.srLoad, pinOut := t.pinOut,
        pins := t.pins, drawn := t.drawn, inside := t.inside, plan := t.plan })

/-- R52, R53, R54: `BTN`, `LAST` and `LED` change only in a step that is a reset, or the engine's and the end of a `SCAN`:
no turn of the host or the DMA agent changes them. (model: log 1, 2) -/
def Obligations.InputRegistersOnlyByScan : Prop :=
  ∀ (s t : State), Inv s → step s = .next t →
    (t.row0, t.row1, t.led, t.last) ≠ (s.row0, s.row1, s.led, s.last) →
    s.turnTaken = some .reset ∨
      (s.turnTaken = none ∧ t.inside = none ∧
        ((∃ b, s.inside = some b ∧ b.cmd = .scan) ∨ (s.ready ∧ s.fetch = .ok .scan)))

/-! ### FLUSH, DMA_WAIT and the transfer (46_display_dma) -/

/-- R301: `FLUSH` with no transfer in progress starts one and emits the full-screen window. (model: log 1, 2, 14) -/
def Obligations.FlushStartsATransfer : Prop :=
  ∀ (s : State), s.quiet → s.dmaActive = false →
    exec .flush s
      = .next { s with
          inside := none, cp := s.cp + 1#11, dmaActive := true, dmaIdx := 0#17,
          dispOut := .win 0 0 239 239 :: s.dispOut }

/-- R306: `DMA_WAIT` with no transfer in progress completes at once. (model: log 1, 2) -/
def Obligations.DmaWaitWithoutTransferAdvances : Prop :=
  ∀ (s : State), s.quiet → s.dmaActive = false → exec .dmaWait s = .next { s with inside := none, cp := s.cp + 1#11 }

/-- R300, R306: `FLUSH` and `DMA_WAIT` begun during a transfer are held: nothing changes but the position, and while the
transfer goes on the machine's step is the DMA agent's. (model: log 1, 2, 3, 14) -/
def Obligations.FlushAndWaitAreHeld : Prop :=
  ∀ (s : State), s.quiet → s.dmaActive = true → s.dmaIdx.toNat < 57600 →
    (exec .flush s = .next { s with inside := some ⟨.flush, [.flush], 0#8, 0#8⟩ }) ∧
    (exec .dmaWait s = .next { s with inside := some ⟨.dmaWait, [.dmaWait], 0#8, 0#8⟩ }) ∧
    (∀ m : Micro, m = .flush ∨ m = .dmaWait → ∀ cmd r0 r1, s.run = .running → s.inside = some ⟨cmd, [m], r0, r1⟩ →
      ∃ t, step s = .next t ∧ t.inside = s.inside ∧ t.cp = s.cp ∧ t.mem = s.mem ∧ t.dmaIdx = s.dmaIdx + 1#17 ∧
        t.dispOut = (s.cellBytes s.dmaIdx.toNat 1).reverse ++ s.dispOut)

/-- R302: one step of the DMA agent, alone or between engine steps: the two bytes of its cell go out, low byte first, the
index moves on, and the step that read the last cell ends the transfer and sets `STATUS.DMA_DONE`; without a transfer,
before the first one and after each, the agent has no step. (model: log 1, 14, 21) -/
def Obligations.DmaStepEmitsOneCell : Prop :=
  ∀ (s : State) (ts : List Turn),
    (s.dmaActive = true → s.dmaIdx.toNat < 57600 →
      s.plan = ⟨0, .dma⟩ :: ts ∨ (s.plan = [] ∧ ts = [] ∧ s.run = .idle) →
      step s = .next { s with
        plan := ts,
        dispOut := .byte ((s.fbRead s.dmaIdx.toNat).extractLsb' 8 8) ::
          .byte ((s.fbRead s.dmaIdx.toNat).extractLsb' 0 8) :: s.dispOut,
        dmaIdx := s.dmaIdx + 1#17,
        dmaActive := !decide (s.dmaIdx.toNat + 1 = 57600),
        dmaDone := s.dmaDone || decide (s.dmaIdx.toNat + 1 = 57600) }) ∧
    (s.dmaActive = false → s.plan = ⟨0, .dma⟩ :: ts → step s = .next { s with plan := ts })

/-- R302, R303, R308: with nothing else moving, the rest of a transfer from cell `DMA_IDX` on takes as many steps as cells,
sends the two bytes of each cell in index order, and leaves `DMA_DONE` set, `DMA_IDX` at 57600 and all else as it was.
(model: log 1, 3, 14) -/
def Obligations.TransferSendsEveryCell : Prop :=
  ∀ (s : State), s.quiet → s.run = .idle → s.dmaActive = true → s.dmaIdx.toNat < 57600 →
    Sys2Proof.core.run (57600 - s.dmaIdx.toNat) s
      = .next { s with
          dmaActive := false, dmaDone := true, dmaIdx := 57600#17,
          dispOut := (s.cellBytes s.dmaIdx.toNat (57600 - s.dmaIdx.toNat)).reverse ++ s.dispOut }

/-- R177, R300, R311: a held `FLUSH` waits for exactly the rest of the transfer in progress, all of which is sent, and then
starts its own. (model: log 1, 2, 3, 14) -/
def Obligations.HeldFlushStartsAfterTheTransfer : Prop :=
  ∀ (s : State) (r0 r1 : Byte), s.quiet → s.run = .running → s.inside = some ⟨.flush, [.flush], r0, r1⟩ →
    s.dmaActive = true → s.dmaIdx.toNat < 57600 →
    Sys2Proof.core.run (57600 - s.dmaIdx.toNat + 1) s
      = .next { s with
          inside := none, cp := s.cp + 1#11, dmaActive := true, dmaDone := true, dmaIdx := 0#17,
          dispOut := .win 0 0 239 239 ::
            ((s.cellBytes s.dmaIdx.toNat (57600 - s.dmaIdx.toNat)).reverse ++ s.dispOut) }

/-- R300, R303, R311: every step keeps the display output a sequence of full-screen windows, each followed by the bytes of a
whole transfer before the next window, and in agreement with the DMA agent. (model: log 1, 2, 14) -/
def Obligations.DisplayOutputStaysFramed : Prop :=
  ∀ (s t : State), Inv s → DispInv s → step s = .next t → DispInv t

/-! ### The host's window (10_state, 20_memory) -/

/-- R105, R107: a host turn that is due is one step that does the access and nothing else: a write its write action, a read
nothing in the block (the model keeps the value read, log 9). (model: log 1, 9) -/
def Obligations.HostTurnIsOneAccess : Prop :=
  ∀ (s : State) (addr n : Nat) (ts : List Turn),
    (∀ w, s.plan = ⟨0, .hostRead addr n⟩ :: ts → s.memRead addr n = some w →
      step s = .next { s with plan := ts, busOut := ⟨addr, n, w⟩ :: s.busOut }) ∧
    (∀ v t, s.plan = ⟨0, .hostWrite addr n v⟩ :: ts → s.memWrite addr n v = some t → step s = .next { t with plan := ts })

/-- R44 to R57, R105: what the host reads at each register offset, and 0 at every word offset the table does not list. -/
def Obligations.RegisterReadValues : Prop :=
  ∀ (s : State),
    s.hostRead 0x000 4 = some 0x56534731#32 ∧
    s.hostRead 0x004 4 = some (0#30 ++ BitVec.ofBool s.scanMode ++ 0#1) ∧
    s.hostRead 0x008 4
      = some (0#27 ++ BitVec.ofBool s.fault ++ BitVec.ofBool s.dmaDone ++ BitVec.ofBool s.done
          ++ BitVec.ofBool s.dmaActive ++ BitVec.ofBool (decide (s.run = .running))) ∧
    s.hostRead 0x00C 4
      = some (0#27 ++ BitVec.ofBool s.faultIe ++ BitVec.ofBool s.dmaDoneIe ++ BitVec.ofBool s.doneIe ++ 0#2) ∧
    s.hostRead 0x010 4 = some (0#22 ++ s.clBase) ∧
    s.hostRead 0x014 4 = some (0#21 ++ s.cp) ∧
    s.hostRead 0x018 4 = some (0#29 ++ s.faultCause.code) ∧
    s.hostRead 0x01C 4 = some (0#21 ++ s.faultCp) ∧
    s.hostRead 0x020 4 = some s.faultWord ∧
    s.hostRead 0x030 4 = some (0#16 ++ s.row1 ++ s.row0) ∧
    s.hostRead 0x034 4 = some (0#24 ++ s.led) ∧
    s.hostRead 0x038 4 = some (0#30 ++ s.sel) ∧
    s.hostRead 0x03C 4 = some (0#30 ++ s.last.code) ∧
    s.hostRead 0x040 4
      = some (0#29 ++ BitVec.ofBool s.menuEdge ++ BitVec.ofBool s.downEdge ++ BitVec.ofBool s.upEdge) ∧
    (∀ n : BitVec 2, s.hostRead (0x050 + 4 * n.toNat) 4 = some (s.speed n)) ∧
    (∀ w, w < 0x400 → 0x24 ≤ 4 * w → (4 * w < 0x30 ∨ 0x44 ≤ 4 * w) → (4 * w < 0x50 ∨ 0x60 ≤ 4 * w) →
      s.hostRead (4 * w) 4 = some 0#32)

/-- R44, R46, R48, R55, R57: what a host write of each storing register does: the written fields hold the value, all other
state stays. -/
def Obligations.RegisterWritesStore : Prop :=
  ∀ (s : State) (v : Word),
    (v.getLsbD 0 = false → s.hostWrite 0x004 4 v = some { s with scanMode := v.getLsbD 1 }) ∧
    s.hostWrite 0x00C 4 v
      = some { s with doneIe := v.getLsbD 2, dmaDoneIe := v.getLsbD 3, faultIe := v.getLsbD 4 } ∧
    s.hostWrite 0x010 4 v = some { s with clBase := v.extractLsb' 0 10 } ∧
    s.hostWrite 0x038 4 v = some { s with sel := v.extractLsb' 0 2 } ∧
    (∀ n : BitVec 2, s.hostWrite (0x050 + 4 * n.toNat) 4 v
      = some { s with
          speed0 := if n = 0#2 then v else s.speed0, speed1 := if n = 1#2 then v else s.speed1,
          speed2 := if n = 2#2 then v else s.speed2, speed3 := if n = 3#2 then v else s.speed3 })

/-- R44, R47, R56: a host write of `STATUS` or `EVENTS` clears exactly the sticky bits whose position holds a 1. -/
def Obligations.StickyBitsClearByOnes : Prop :=
  ∀ (s : State) (v : Word),
    s.hostWrite 0x008 4 v
      = some { s with
          done := if v.getLsbD 2 then false else s.done,
          dmaDone := if v.getLsbD 3 then false else s.dmaDone,
          fault := if v.getLsbD 4 then false else s.fault } ∧
    s.hostWrite 0x040 4 v
      = some { s with
          upEdge := if v.getLsbD 0 then false else s.upEdge,
          downEdge := if v.getLsbD 1 then false else s.downEdge,
          menuEdge := if v.getLsbD 2 then false else s.menuEdge }

/-- R44, R102: a host write of a read-only register, of an unlisted word offset of the register page, or into the sine ROM
changes nothing. -/
def Obligations.ReadOnlyWritesAreIgnored : Prop :=
  ∀ (s : State) (v : Word) (off : Nat), off % 4 = 0 →
    (off < 0x1000 → off ∉ [0x004, 0x008, 0x00C, 0x010, 0x038, 0x040, 0x050, 0x054, 0x058, 0x05C] →
      s.hostWrite off 4 v = some s) ∧
    (0x3000 ≤ off → off < 0x35A0 → s.hostWrite off 4 v = some s)

/-- R100, R102: inside the window a host read is a bus error exactly when its width is not listed for its offset or it is
misaligned, and so is a host write outside the sine ROM. (model: log 8) -/
def Obligations.BusErrors : Prop :=
  ∀ (s : State) (off n : Nat) (v : Word), off < 0x40000 →
    (s.hostRead off n = none ↔ ¬ (n ∈ hostWidths off ∧ off % n = 0)) ∧
    (off < 0x3000 ∨ 0x35A0 ≤ off → (s.hostWrite off n v = none ↔ ¬ (n ∈ hostWidths off ∧ off % n = 0)))

/-- R103, R105: a host access of `n` bytes to a RAM is little-endian and touches its `n` bytes only: a write stores byte `k`
of the value at offset `+k`, leaves every other byte and all other state, and a read returns the bytes that stand there,
zero above. (model: log 4) -/
def Obligations.RamAccessesAreLittleEndian : Prop :=
  ∀ (s : State) (off n : Nat) (v : Word), isRam off = true → n ∈ hostWidths off → off % n = 0 →
    (∃ t, s.hostWrite off n v = some t ∧ t = { s with mem := t.mem } ∧
      (∀ k < n, t.ramByte (off + k) = v.extractLsb' (8 * k) 8) ∧
      (∀ a, a < off ∨ off + n ≤ a → t.ramByte a = s.ramByte a)) ∧
    (∃ w, s.hostRead off n = some w ∧ (∀ k < n, w.extractLsb' (8 * k) 8 = s.ramByte (off + k)) ∧ w.toNat < 256 ^ n)

/-- R106: a 16-bit host write of `C` to a framebuffer cell followed by a 16-bit host read of it returns `C`, and so does a
read after any number of DMA steps in between. (model: log 4) -/
def Obligations.FramebufferWriteThenRead : Prop :=
  ∀ (s t : State) (i : Nat) (c : Cell), i < 57600 → s.hostWrite (0x10000 + 2 * i) 2 (c.setWidth 32) = some t →
    ∀ k, (dmaStep^[k] t).hostRead (0x10000 + 2 * i) 2 = some (c.setWidth 32)

/-- R62, R63: cosine is the sine a quarter turn on, and the two symmetries of the table. -/
def Obligations.SineTableSymmetry : Prop :=
  (∀ f : Int, cosineIndex f = (sineIndex f + 90) % 360) ∧
  (∀ a : Fin 181, sinRom a = sinRom (180 - a)) ∧
  (∀ a : Fin 180, 1 ≤ a.val → sinRom (360 - a) = fneg (sinRom a)) ∧
  sinRom 180 = 0x00000000#32 ∧ sinRom 0 = 0x00000000#32 ∧ sinRom 90 = 0x3F800000#32

/-- R59: the interrupt line is high exactly when a sticky bit of `STATUS` and the enable at its position are both 1. -/
def Obligations.InterruptLineLevel : Prop :=
  ∀ (s : State), s.irq = true ↔
    (s.done = true ∧ s.doneIe = true) ∨ (s.dmaDone = true ∧ s.dmaDoneIe = true) ∨ (s.fault = true ∧ s.faultIe = true)

/-- R47, R326: the sources of the three sticky status bits: a step sets `DONE` only as the engine's and an `END`, `DMA_DONE`
only as the DMA agent's and the last cell of a transfer, `FAULT` only as the engine's and a decode that fails.
(model: log 1, 2) -/
def Obligations.StickyStatusSources : Prop :=
  ∀ (s t : State), Inv s → step s = .next t →
    (t.done = true → s.done = false →
      s.turnTaken = none ∧ ((∃ b, s.inside = some b ∧ b.cmd = .endList) ∨ (s.ready ∧ s.fetch = .ok .endList))) ∧
    (t.dmaDone = true → s.dmaDone = false →
      (s.turnTaken = some .dma ∨ (s.turnTaken = none ∧ (s.run = .idle ∨ s.held = true))) ∧
        s.dmaActive = true ∧ s.dmaIdx.toNat + 1 = 57600 ∧ t.dmaActive = false) ∧
    (t.fault = true → s.fault = false → s.turnTaken = none ∧ s.ready ∧ ∃ r, s.fetch = .error r)

/-! ### Numerics (00_scope) -/

/-- R19: `fneg` flips bit 31 and nothing else, and an operation with a NaN operand or an invalid one gives the canonical
NaN. -/
def Obligations.CanonicalNan : Prop :=
  (∀ a : Word, fneg a = a ^^^ 0x80000000#32) ∧
  (∀ a b : Word, isNaN a = true ∨ isNaN b = true →
    fadd a b = 0x7FC00000#32 ∧ fsub a b = 0x7FC00000#32 ∧ fmul a b = 0x7FC00000#32) ∧
  (∀ a b : Word, isInf a = true → isInf b = true → fsign a = fsign b → fsub a b = 0x7FC00000#32) ∧
  (∀ a b : Word, isInf a = true → isInf b = true → fsign a ≠ fsign b → fadd a b = 0x7FC00000#32) ∧
  (∀ a b : Word, isInf a = true → b.extractLsb' 0 31 = 0#31 → fmul a b = 0x7FC00000#32 ∧ fmul b a = 0x7FC00000#32)

/-- R21: `ffloor` is the largest integer not above the exact value, `fround` the nearest one with halves away from zero. The
exact value of a finite pattern is `fval a / 2^149`. (model: log 22) -/
def Obligations.FloorAndRound : Prop :=
  ∀ a : Word, isNaN a = false → isInf a = false →
    (ffloor a * 2 ^ 149 ≤ fval a ∧ fval a < (ffloor a + 1) * 2 ^ 149) ∧
    |2 * (fround a * 2 ^ 149 - fval a)| ≤ 2 ^ 149 ∧
    (|2 * (fround a * 2 ^ 149 - fval a)| = 2 ^ 149 → |fval a| < |fround a * 2 ^ 149|)

/-- R18, R19: a sum, difference or product of finite values is the exact result rounded to binary32: nearest, ties to even,
and beyond the range an infinity of its sign, exactly from half a step above the largest finite value on. (model: log 22) -/
def Obligations.OperationsRoundToNearestEven : Prop :=
  ∀ a b : Word, isNaN a = false → isInf a = false → isNaN b = false → isInf b = false →
    roundedFrom (fadd a b) (fval a + fval b) 0 ∧ roundedFrom (fsub a b) (fval a - fval b) 0 ∧
    roundedFrom (fmul a b) (fval a * fval b) 149

/-! ### Reset and the whole machine (70_reset_and_hazards) -/

/-- R363: the reset value of every piece of state; of the RAMs, whose contents are unspecified, nothing is said. -/
def Obligations.ResetValues : Prop :=
  let s := State.reset
  s.run = .idle ∧ s.cp = 0#11 ∧ s.clBase = 0#10 ∧ s.hostRead 0x000 4 = some 0x56534731#32 ∧ s.scanMode = false ∧
  s.hostRead 0x008 4 = some 0#32 ∧ s.hostRead 0x00C 4 = some 0#32 ∧
  s.faultCause.code = 0#3 ∧ s.faultCp = 0#11 ∧ s.faultWord = 0#32 ∧ s.last = .none ∧ s.row0 = 0#8 ∧ s.row1 = 0#8 ∧
  s.led = 0#8 ∧ s.sel = 0#2 ∧ s.hostRead 0x040 4 = some 0#32 ∧
  s.speed0 = 0xC1200000#32 ∧ s.speed1 = 0xC1000000#32 ∧ s.speed2 = 0xC0C00000#32 ∧ s.speed3 = 0x41200000#32 ∧
  s.dmaActive = false ∧ s.dmaIdx = 0#17 ∧ s.irq = false ∧ s.srData = false ∧ s.srClk = false ∧ s.srLoad = false ∧
  s.dispOut = [] ∧ s.pinOut = [] ∧
  s.inside = none

/-- R360, R361: a reset that is due is one step from any state, wherever the engine or a transfer was: every piece of state
takes its reset value, the ROMs stay, and every RAM byte reads as the free value of a new reset. (model: log 1, 4, 15) -/
def Obligations.ResetFromAnywhere : Prop :=
  ∀ (s : State) (ts : List Turn), s.plan = ⟨0, .reset⟩ :: ts →
    ∃ t, step s = .next t ∧
      t = { State.reset with
        cfg := s.cfg, plan := ts, pins := s.pins, drawn := s.drawn, resets := s.resets + 1, busOut := s.busOut } ∧
      ∀ a, t.ramByte a = Config.ramAtReset (s.resets + 1) a

/-- The reset state meets the invariants: the canonical memory form, `CP` in range, an idle engine between commands, the
DMA index, the display output and the output pins. (model: log 4, 6, 14) -/
def Obligations.ResetMeetsTheInvariants : Prop :=
  Inv State.reset ∧ DispInv State.reset ∧ PinInv State.reset

/-- R9, R40, R41, R58, R71, R277 and log 4: every step of every agent keeps the invariant. (model: log 1, 2, 4) -/
def Obligations.EveryStepKeepsTheInvariant : Prop :=
  ∀ (s t : State), Inv s → step s = .next t → Inv t

/-- R69, R70: every step keeps each output pin at the level of its last event. (model: log 1, 2, 14) -/
def Obligations.OutputPinsFollowTheirEvents : Prop :=
  ∀ (s t : State), PinInv s → step s = .next t → PinInv t

/-- R70: the two output sequences only grow, but for a step that is a reset. (model: log 1, 2, 14) -/
def Obligations.OutputsOnlyGrow : Prop :=
  ∀ (s t : State), step s = .next t → s.turnTaken = some .reset ∨
    (∃ ds ps, t.dispOut = ds ++ s.dispOut ∧ t.pinOut = ps ++ s.pinOut)

/-- R8, R61, R362: the ROMs and the open parameters never change, and in every state the sine ROM reads as its table. That
`BASE` and the tile sizes stay over a reset is the model's choice. (model: log 6) -/
def Obligations.RomsNeverChange : Prop :=
  ∀ (s : State), (∀ t, step s = .next t → t.cfg = s.cfg) ∧
    ∀ a < 360, s.hostRead (0x3000 + 4 * a) 4 = some (sinRom a)

/-- R115, R305: a step that takes no host write and no reset leaves command RAM and text RAM as they were, whatever turns are
still coming; and it leaves all of memory when it takes a turn (of the DMA agent, also between the steps of a running
engine, or a host read), when the engine is idle, and when it is held. (model: log 1, 2) -/
def Obligations.OnlyTheHostWritesCommandAndTextRam : Prop :=
  ∀ (s t : State), Inv s → step s = .next t →
    s.turnTaken ≠ some .reset → (∀ addr k v, s.turnTaken ≠ some (.hostWrite addr k v)) →
    (∀ a, a < 0x10000 → t.ramByte a = s.ramByte a) ∧
    (s.turnTaken ≠ none ∨ s.run = .idle ∨ s.held = true → t.mem = s.mem)

/-- R172, R173, R177: with no turn of another agent coming, a command that decode accepts completes in the step that begins
it, without a fault, and `CP` has moved on by its length (`END` keeps it); `FLUSH` and `DMA_WAIT` need the DMA agent
idle. (model: log 1, 2) -/
def Obligations.CommandsComplete : Prop :=
  ∀ (s : State) (i : Instr), s.quiet → (i = .flush ∨ i = .dmaWait → s.dmaActive = false) →
    ∃ t, exec i s = .next t ∧ t.inside = none ∧ t.fault = s.fault ∧
      t.cp = s.cp + BitVec.ofNat 11 (if i = .endList then 0 else i.len)

/-- R110, R172: a command cut short by another agent's turn and then resumed ends in the state of the command run through,
when that turn changes nothing but the coming turns: where it stopped, dropping the coming turns and stepping once
gives the state of the uncut run. (model: log 1, 2) -/
def Obligations.CutCommandsResume : Prop :=
  ∀ (s u v : State) (i : Instr), s.run = .running → exec i { s with plan := [] } = .next u → exec i s = .next v →
    (v.inside = none → { v with plan := [] } = u) ∧
    (v.inside ≠ none → v.held = false → step { v with plan := [] } = .next u)

/-- R102, R172, R321: no step refuses, and a step faults the model exactly when the turn it takes is a host access that is a
bus error, with the fault that names it. (model: log 1, 7) -/
def Obligations.OnlyBusErrorsStop : Prop :=
  ∀ (s : State), (∀ r, step s ≠ .refused r) ∧
    (∀ f, step s = .fault f ↔ ∃ addr k, f = .hostBusError addr k ∧
      ((s.turnTaken = some (.hostRead addr k) ∧ s.memRead addr k = none) ∨
        ∃ v, s.turnTaken = some (.hostWrite addr k v) ∧ s.memWrite addr k v = none))
end

