-- ==== Sys2Proof/Laws/Binary32.lean ====
section
/-! SUPPORT. The binary32 primitives (00_scope R18 to R21): what a pattern's fields and magnitude are, and that a rounded
magnitude is a nearest one, the even one of two equally near. -/

namespace Sys2Proof.Machine

/-! ### Patterns -/

/-- The magnitude of the pattern whose low 31 bits are `n`, in units of 2^-149. -/
def magOf (n : Nat) : Nat := if n / 2 ^ 23 = 0 then n % 2 ^ 23 else (2 ^ 23 + n % 2 ^ 23) * 2 ^ (n / 2 ^ 23 - 1)

theorem signed_toNat (neg : Bool) {n : Nat} (h : n < 2 ^ 31) : (signed neg n).toNat = neg.toNat * 2 ^ 31 + n := by
  unfold signed
  have h2 : n < 2147483648 := h
  rw [BitVec.toNat_append, BitVec.toNat_ofNat, Nat.mod_eq_of_lt h, ← Nat.shiftLeft_add_eq_or_of_lt h, Nat.shiftLeft_eq]
  cases neg <;> rfl

theorem fsign_eq (a : Word) : fsign a = decide (2 ^ 31 ≤ a.toNat) := by
  have h := a.isLt
  unfold fsign BitVec.getLsbD
  rw [Nat.testBit_eq_decide_div_mod_eq]
  congr 1
  have : a.toNat / 2 ^ 31 < 2 := by omega
  apply propext
  omega

theorem fexp_eq (a : Word) : fexp a = a.toNat / 2 ^ 23 % 256 := by
  unfold fexp
  rw [BitVec.extractLsb'_toNat, Nat.shiftRight_eq_div_pow]

theorem ffrac_eq (a : Word) : ffrac a = a.toNat % 2 ^ 23 := by
  unfold ffrac
  rw [BitVec.extractLsb'_toNat, Nat.shiftRight_eq_div_pow]
  simp

theorem fsign_signed (neg : Bool) {n : Nat} (h : n < 2 ^ 31) : fsign (signed neg n) = neg := by
  rw [fsign_eq, signed_toNat neg h]
  cases neg <;> simp; omega

theorem fexp_signed (neg : Bool) {n : Nat} (h : n < 2 ^ 31) : fexp (signed neg n) = n / 2 ^ 23 := by
  rw [fexp_eq, signed_toNat neg h]
  cases neg <;> simp <;> omega

theorem ffrac_signed (neg : Bool) {n : Nat} (h : n < 2 ^ 31) : ffrac (signed neg n) = n % 2 ^ 23 := by
  rw [ffrac_eq, signed_toNat neg h]
  cases neg <;> simp; omega

theorem fmag_signed (neg : Bool) {n : Nat} (h : n < 2 ^ 31) : fmag (signed neg n) = magOf n := by
  unfold fmag magOf
  rw [fexp_signed neg h, ffrac_signed neg h]

theorem fval_signed (neg : Bool) {n : Nat} (h : n < 2 ^ 31) :
    fval (signed neg n) = if neg then -(magOf n : Int) else (magOf n : Int) := by
  unfold fval
  rw [fmag_signed neg h, fsign_signed neg h]

theorem finite_signed (neg : Bool) {n : Nat} (h : n < 0x7F800000) :
    isNaN (signed neg n) = false ∧ isInf (signed neg n) = false := by
  have h2 : fexp (signed neg n) ≠ 0xFF := by
    rw [fexp_signed neg (by omega)]
    omega
  simp [isNaN, isInf, h2]

/-- Every magnitude is a significand below 2^24 scaled by a power of two. -/
theorem fmag_form (a : Word) : ∃ s e, s < 2 ^ 24 ∧ fmag a = s * 2 ^ e := by
  have hf : ffrac a < 2 ^ 23 := by rw [ffrac_eq]; omega
  unfold fmag
  split_ifs
  · exact ⟨ffrac a, 0, by omega, by simp⟩
  · exact ⟨2 ^ 23 + ffrac a, fexp a - 1, by omega, rfl⟩

theorem magOf_sum {d q : Nat} (hq : q ≤ 2 ^ 24) (h : d = 0 ∨ 2 ^ 23 ≤ q) : magOf (d * 2 ^ 23 + q) = q * 2 ^ d := by
  unfold magOf
  by_cases h1 : q < 2 ^ 23
  · have hd : d = 0 := by omega
    subst hd
    have h2 : (0 * 2 ^ 23 + q) / 2 ^ 23 = 0 := by omega
    rw [if_pos h2]
    simp; omega
  · by_cases h2 : q = 2 ^ 24
    · subst h2
      have e1 : (d * 2 ^ 23 + 2 ^ 24) / 2 ^ 23 = d + 2 := by omega
      have e2 : (d * 2 ^ 23 + 2 ^ 24) % 2 ^ 23 = 0 := by omega
      rw [e1, e2, if_neg (by omega), show d + 2 - 1 = d + 1 by omega]
      ring
    · have e1 : (d * 2 ^ 23 + q) / 2 ^ 23 = d + 1 := by omega
      have e2 : (d * 2 ^ 23 + q) % 2 ^ 23 = q - 2 ^ 23 := by omega
      rw [e1, e2, if_neg (by omega), show d + 1 - 1 = d by omega, show 2 ^ 23 + (q - 2 ^ 23) = q by omega]

/-! ### Rounding -/

/-- The bits that rounding drops. -/
def dropped (m k : Nat) : Nat := max k (Nat.log2 m - 23)

theorem roundMag_eq (m k : Nat) : roundMag m k = min ((dropped m k - k) * 2 ^ 23 + roundShift m (dropped m k)) 0x7F800000 := rfl

theorem roundShift_cases (m d : Nat) : roundShift m d = m / 2 ^ d ∧ 2 * (m % 2 ^ d) ≤ 2 ^ d ∧ (2 * (m % 2 ^ d) = 2 ^ d → m / 2 ^ d % 2 = 0) ∨
    roundShift m d = m / 2 ^ d + 1 ∧ 2 ^ d ≤ 2 * (m % 2 ^ d) ∧ (2 * (m % 2 ^ d) = 2 ^ d → m / 2 ^ d % 2 = 1) := by
  unfold roundShift
  dsimp only
  split_ifs <;> omega

theorem quot_lt (m k : Nat) : m / 2 ^ dropped m k < 2 ^ 24 := by
  rw [Nat.div_lt_iff_lt_mul (Nat.two_pow_pos _), ← pow_add]
  refine lt_of_lt_of_le (Nat.lt_log2_self (n := m)) (Nat.pow_le_pow_right (by norm_num) ?_)
  unfold dropped
  omega

theorem quot_ge {m k : Nat} (h : k < dropped m k) : 2 ^ 23 ≤ m / 2 ^ dropped m k := by
  have hd : dropped m k = Nat.log2 m - 23 := by unfold dropped at h ⊢; omega
  have hm : m ≠ 0 := by
    rintro rfl
    simp [dropped] at h
  rw [Nat.le_div_iff_mul_le (Nat.two_pow_pos _), ← pow_add]
  refine le_trans (Nat.pow_le_pow_right (by norm_num) ?_) (Nat.log2_self_le hm)
  omega

theorem roundShift_le (m k : Nat) : roundShift m (dropped m k) ≤ 2 ^ 24 := by
  have := quot_lt m k
  rcases roundShift_cases m (dropped m k) with h | h <;> omega

theorem roundShift_ge {m k : Nat} (h : k < dropped m k) : 2 ^ 23 ≤ roundShift m (dropped m k) := by
  have := quot_ge h
  rcases roundShift_cases m (dropped m k) with h | h <;> omega

/-- The magnitude that rounding gives, when it is finite. -/
theorem magOf_roundMag {m k : Nat} (h : roundMag m k < 0x7F800000) :
    magOf (roundMag m k) = roundShift m (dropped m k) * 2 ^ (dropped m k - k) := by
  rw [roundMag_eq] at h ⊢
  rw [min_eq_left (by omega)]
  refine magOf_sum (roundShift_le m k) ?_
  by_cases hk : k < dropped m k
  · exact .inr (roundShift_ge hk)
  · exact .inl (by omega)

theorem le_dropped (m k : Nat) : k ≤ dropped m k := le_max_left _ _

theorem magOf_roundMag_scaled {m k : Nat} (h : roundMag m k < 0x7F800000) :
    magOf (roundMag m k) * 2 ^ k = roundShift m (dropped m k) * 2 ^ dropped m k := by
  rw [magOf_roundMag h, mul_assoc, ← pow_add, Nat.sub_add_cancel (le_dropped m k)]

/-- Rounding gives a nearest multiple of `2^d`; of two equally near ones the even one. -/
theorem roundShift_nearest (m d z : Nat) :
    |((roundShift m d * 2 ^ d : Nat) : Int) - m| ≤ |((z * 2 ^ d : Nat) : Int) - m| ∧
    (|((roundShift m d * 2 ^ d : Nat) : Int) - m| = |((z * 2 ^ d : Nat) : Int) - m| → z ≠ roundShift m d →
      roundShift m d % 2 = 0) := by
  have hD : 0 < 2 ^ d := Nat.two_pow_pos d
  have hm := Nat.div_add_mod m (2 ^ d)
  have hr := Nat.mod_lt m hD
  have hc := roundShift_cases m d
  generalize 2 ^ d = D at *
  generalize m / D = q at *
  generalize m % D = r at *
  generalize roundShift m d = t at *
  subst hm
  have key : ∀ w : Nat, w * D = D * w := fun w => Nat.mul_comm w D
  rcases lt_trichotomy z q with hz | hz | hz
  · obtain ⟨j, rfl⟩ : ∃ j, q = z + 1 + j := ⟨q - z - 1, by omega⟩
    have hj : 0 ≤ (D : Int) * j := by positivity
    rcases hc with ⟨rfl, h1, h2⟩ | ⟨rfl, h1, h2⟩
    · push_cast
      rw [abs_of_nonpos (by nlinarith), abs_of_nonpos (by nlinarith)]
      constructor
      · nlinarith
      · intro h; exfalso; nlinarith
    · push_cast
      rw [abs_of_nonneg (by nlinarith), abs_of_nonpos (by nlinarith)]
      constructor
      · nlinarith
      · intro h; exfalso; nlinarith
  · subst hz
    rcases hc with ⟨rfl, h1, h2⟩ | ⟨rfl, h1, h2⟩
    · exact ⟨le_refl _, fun _ h => absurd rfl h⟩
    · push_cast
      rw [abs_of_nonneg (by nlinarith), abs_of_nonpos (by nlinarith)]
      constructor
      · nlinarith
      · intro h _
        have : 2 * r = D := by
          have : (2 * r : Int) = D := by nlinarith
          exact_mod_cast this
        have := h2 this
        omega
  · obtain ⟨j, rfl⟩ : ∃ j, z = q + 1 + j := ⟨z - q - 1, by omega⟩
    have hj : 0 ≤ (D : Int) * j := by positivity
    rcases hc with ⟨rfl, h1, h2⟩ | ⟨rfl, h1, h2⟩
    · push_cast
      rw [abs_of_nonpos (by nlinarith), abs_of_nonneg (by nlinarith)]
      constructor
      · nlinarith
      · intro h _
        have : 2 * r = D := by
          have : (D : Int) ≤ (2 * r : Int) := by nlinarith
          have : D ≤ 2 * r := by exact_mod_cast this
          omega
        exact h2 this
    · push_cast
      rw [abs_of_nonneg (by nlinarith), abs_of_nonneg (by nlinarith)]
      constructor
      · nlinarith
      · intro h hne
        exfalso
        have hj0 : (D : Int) * j = 0 := by nlinarith
        have : j = 0 := by
          rcases mul_eq_zero.1 hj0 with h | h
          · have : D = 0 := by exact_mod_cast h
            omega
          · exact_mod_cast h
        subst this
        exact hne (by omega)

/-- A rounded magnitude is nearest among all magnitudes `s * 2^e` with `s < 2^24`, scaled by `2^k`. -/
theorem roundMag_nearest {m k : Nat} (h : roundMag m k < 0x7F800000) {s e : Nat} (hs : s < 2 ^ 24) :
    |((magOf (roundMag m k) * 2 ^ k : Nat) : Int) - m| ≤ |((s * 2 ^ e * 2 ^ k : Nat) : Int) - m| ∧
    (|((magOf (roundMag m k) * 2 ^ k : Nat) : Int) - m| = |((s * 2 ^ e * 2 ^ k : Nat) : Int) - m| →
      s * 2 ^ e ≠ magOf (roundMag m k) → roundMag m k % 2 = 0) := by
  have hpar : roundMag m k % 2 = roundShift m (dropped m k) % 2 := by
    rw [roundMag_eq] at h ⊢
    rw [min_eq_left (by omega)]
    omega
  have hsc := magOf_roundMag_scaled h
  rw [hsc, hpar]
  by_cases he : dropped m k ≤ e + k
  · have hz : s * 2 ^ e * 2 ^ k = s * 2 ^ (e + k - dropped m k) * 2 ^ dropped m k := by
      rw [mul_assoc, mul_assoc, ← pow_add, ← pow_add]
      congr 2
      omega
    rw [hz]
    obtain ⟨h1, h2⟩ := roundShift_nearest m (dropped m k) (s * 2 ^ (e + k - dropped m k))
    refine ⟨h1, fun h3 h4 => h2 h3 fun h5 => h4 ?_⟩
    have : s * 2 ^ e * 2 ^ k = magOf (roundMag m k) * 2 ^ k := by rw [hz, hsc, h5]
    exact Nat.eq_of_mul_eq_mul_right (Nat.two_pow_pos k) this
  · have hk : k < dropped m k := by omega
    have h1 := (roundShift_nearest m (dropped m k) (2 ^ 23)).1
    have hq := quot_ge hk
    have hle : 2 ^ 23 * 2 ^ dropped m k ≤ m := le_trans (Nat.mul_le_mul_right _ hq) (Nat.div_mul_le_self _ _)
    have hlt : s * 2 ^ e * 2 ^ k < 2 ^ 23 * 2 ^ dropped m k := by
      have : s * 2 ^ e * 2 ^ k < 2 ^ 24 * 2 ^ (e + k) := by
        rw [mul_assoc, ← pow_add]
        exact Nat.mul_lt_mul_of_pos_right hs (Nat.two_pow_pos _)
      refine lt_of_lt_of_le this ?_
      rw [← pow_add, ← pow_add]
      exact Nat.pow_le_pow_right (by norm_num) (by omega)
    have h2 : |((2 ^ 23 * 2 ^ dropped m k : Nat) : Int) - m| < |((s * 2 ^ e * 2 ^ k : Nat) : Int) - m| := by
      rw [abs_of_nonpos (by omega), abs_of_nonpos (by omega)]
      omega
    exact ⟨(h1.trans_lt h2).le, fun h3 => absurd h3 (h1.trans_lt h2).ne⟩

/-! ### Signed values -/

theorem fval_natAbs (a : Word) : (fval a).natAbs = fmag a := by
  unfold fval
  split_ifs <;> simp

theorem fneg_toNat (a : Word) : (fneg a).toNat = a.toNat % 2 ^ 31 + (if fsign a then 0 else 2 ^ 31) := by
  have h : fneg a = signed (!fsign a) (a.toNat % 2 ^ 31) := by
    apply BitVec.eq_of_getLsbD_eq
    intro i hi
    unfold fneg signed
    rw [BitVec.getLsbD_xor, BitVec.getLsbD_append]
    by_cases h1 : i < 31
    · have h2 : (0x80000000#32 : Word).getLsbD i = false := by
        have : ∀ i < 31, (0x80000000#32 : Word).getLsbD i = false := by decide
        exact this i h1
      rw [h2, Bool.xor_false]
      have h3 := Nat.testBit_mod_two_pow a.toNat 31 i
      simp only [h1, decide_true, Bool.true_and] at h3
      simp [h1, BitVec.getLsbD, ← h3]
    · have : i = 31 := by omega
      subst this
      simp [fsign]
  rw [h, signed_toNat _ (Nat.mod_lt _ (by norm_num))]
  cases fsign a <;> simp; omega

theorem fsign_fneg (a : Word) : fsign (fneg a) = !fsign a := by
  rw [fsign_eq, fneg_toNat]
  cases fsign a <;> simp; omega

theorem fexp_fneg (a : Word) : fexp (fneg a) = fexp a := by
  rw [fexp_eq, fexp_eq, fneg_toNat]
  split_ifs <;> omega

theorem ffrac_fneg (a : Word) : ffrac (fneg a) = ffrac a := by
  rw [ffrac_eq, ffrac_eq, fneg_toNat]
  split_ifs <;> omega

theorem fval_fneg (a : Word) : fval (fneg a) = -fval a := by
  unfold fval fmag
  rw [fsign_fneg, fexp_fneg, ffrac_fneg]
  cases fsign a <;> simp

theorem isNaN_fneg (a : Word) : isNaN (fneg a) = isNaN a := by simp only [isNaN, fexp_fneg, ffrac_fneg]

theorem isInf_fneg (a : Word) : isInf (fneg a) = isInf a := by simp only [isInf, fexp_fneg, ffrac_fneg]

theorem isInf_signed_big (neg : Bool) : isInf (signed neg 0x7F800000) = true := by cases neg <;> decide

/-- The signed form of `roundMag_nearest`. -/
theorem signed_nearest {v : Int} {k : Nat} (neg : Bool) (hn : v ≠ 0 → neg = decide (v < 0))
    (h : isInf (signed neg (roundMag v.natAbs k)) = false) (c : Word) :
    |fval (signed neg (roundMag v.natAbs k)) * 2 ^ k - v| ≤ |fval c * 2 ^ k - v| ∧
    (|fval (signed neg (roundMag v.natAbs k)) * 2 ^ k - v| = |fval c * 2 ^ k - v| →
      fval c ≠ fval (signed neg (roundMag v.natAbs k)) → (signed neg (roundMag v.natAbs k)).getLsbD 0 = false) := by
  have hlt : roundMag v.natAbs k < 0x7F800000 := by
    have h1 : roundMag v.natAbs k ≤ 0x7F800000 := by rw [roundMag_eq]; exact min_le_right _ _
    rcases Nat.lt_or_eq_of_le h1 with h2 | h2
    · exact h2
    · rw [h2, isInf_signed_big] at h
      cases h
  have h31 : roundMag v.natAbs k < 2 ^ 31 := by omega
  obtain ⟨s, e, hs, hc⟩ := fmag_form c
  obtain ⟨h1, h2⟩ := roundMag_nearest hlt (e := e) hs
  obtain ⟨h3, h4⟩ := roundMag_nearest hlt (s := 0) (e := 0) (by norm_num)
  have hbit : roundMag v.natAbs k % 2 = 0 → (signed neg (roundMag v.natAbs k)).getLsbD 0 = false := by
    intro hp
    unfold BitVec.getLsbD
    rw [Nat.testBit_zero, signed_toNat neg h31]
    cases neg <;> simp <;> omega
  rw [← hc] at h1 h2
  rw [fval_signed neg h31]
  have hfc : fval c = (fmag c : Int) ∨ fval c = -(fmag c : Int) := by
    unfold fval
    split_ifs
    · exact .inr rfl
    · exact .inl rfl
  have hP : (0 : Int) < 2 ^ k := by positivity
  push_cast at h1 h2 h3 h4
  simp only [zero_mul, zero_sub] at h3 h4
  generalize (2 : Int) ^ k = P at *
  obtain ⟨R, hR⟩ : ∃ R : Int, R = (magOf (roundMag v.natAbs k) : Int) := ⟨_, rfl⟩
  obtain ⟨C, hC⟩ : ∃ C : Int, C = (fmag c : Int) := ⟨_, rfl⟩
  have hC0 : 0 ≤ C := by rw [hC]; positivity
  have hCP : 0 ≤ C * P := mul_nonneg hC0 hP.le
  rw [← hR] at h1 h2 h3 h4 ⊢
  rw [← hC] at h1 h2 hfc
  obtain ⟨V, hV⟩ : ∃ V : Int, V = |v| := ⟨_, rfl⟩
  have hV0 : 0 ≤ V := hV ▸ abs_nonneg v
  rw [← hV] at h1 h2 h3 h4
  have h2' : |R * P - V| = |C * P - V| → C ≠ R → roundMag v.natAbs k % 2 = 0 := by
    intro ha hb
    refine h2 ha fun hx => hb ?_
    rw [hC, hR]
    exact_mod_cast hx
  rw [abs_neg, abs_of_nonneg hV0] at h3 h4
  have h4' : |R * P - V| = V → (0 : Int) ≠ R → roundMag v.natAbs k % 2 = 0 := by
    intro ha hb
    refine h4 ha fun hx => hb ?_
    rw [hR]
    exact_mod_cast hx
  have hflip : ∀ x y : Int, |-x * P - -y| = |x * P - y| := by
    intro x y
    rw [show -x * P - -y = -(x * P - y) by ring, abs_neg]
  have main : ∀ D : Int, (D = C ∨ D = -C) →
      |R * P - V| ≤ |D * P - V| ∧ (|R * P - V| = |D * P - V| → D ≠ R → roundMag v.natAbs k % 2 = 0) := by
    rintro D (rfl | rfl)
    · exact ⟨h1, h2'⟩
    · have e1 : |-C * P - V| = C * P + V := by
        rw [show -C * P - V = -(C * P + V) by ring, abs_neg, abs_of_nonneg (by linarith)]
      rw [e1]
      refine ⟨by linarith, fun ha hb => ?_⟩
      have hz : C * P = 0 := by linarith
      have hC' : C = 0 := by
        rcases mul_eq_zero.1 hz with h | h
        · exact h
        · exact absurd h hP.ne'
      refine h4' (by linarith) fun hx => hb ?_
      rw [hC', ← hx]; rfl
  rcases Bool.eq_false_or_eq_true neg with rfl | rfl
  · -- the value is not positive
    have hv : v = -V := by
      rcases eq_or_ne v 0 with h0 | h0
      · rw [hV, h0]; simp
      · have h5 : v < 0 := by simpa using (hn h0).symm
        rw [hV, abs_of_neg h5, neg_neg]
    obtain ⟨m1, m2⟩ := main (-fval c) (by rcases hfc with h | h <;> rw [h] <;> simp)
    have hsub : ∀ x : Int, x - v = x - -V := fun x => by rw [← hv]
    simp only [if_true, hsub]
    have e1 : |fval c * P - -V| = |-fval c * P - V| := by
      have := hflip (-fval c) V
      rw [neg_neg] at this
      exact this
    rw [hflip R V, e1]
    refine ⟨m1, fun ha hb => hbit (m2 ha fun hx => hb ?_)⟩
    rw [← hx]; ring
  · have hv : v = V := by
      rcases eq_or_ne v 0 with h0 | h0
      · rw [hV, h0]; simp
      · have h5 : ¬ v < 0 := by simpa using (hn h0).symm
        rw [hV, abs_of_nonneg (by omega)]
    obtain ⟨m1, m2⟩ := main (fval c) hfc
    have hsub : ∀ x : Int, x - v = x - V := fun x => by rw [← hv]
    simp only [Bool.false_eq_true, if_false, hsub]
    exact ⟨m1, fun ha hb => hbit (m2 ha hb)⟩

/-! ### Exact results -/

/-- A magnitude below 2^(24+e) rounds to a finite pattern when `e` is small enough. -/
theorem roundMag_finite {m k e : Nat} (hm : m < 2 ^ (24 + e + k)) (he : e ≤ 252) : roundMag m k < 0x7F800000 := by
  rw [roundMag_eq]
  refine lt_of_le_of_lt (min_le_left _ _) ?_
  have h1 := roundShift_le m k
  have h2 : dropped m k - k ≤ e := by
    unfold dropped
    rcases Nat.eq_zero_or_pos m with rfl | hpos
    · simp
    · have := (Nat.log2_lt (by omega)).2 hm
      omega
  have h3 : (dropped m k - k) * 2 ^ 23 ≤ e * 2 ^ 23 := Nat.mul_le_mul_right _ h2
  omega

/-- Rounding gives infinity exactly from the midpoint of the largest finite magnitude and the next power of two on. -/
theorem roundMag_lt_iff {m k : Nat} : roundMag m k < 0x7F800000 ↔ m < (2 ^ 25 - 1) * 2 ^ 252 * 2 ^ k := by
  have hk := Nat.two_pow_pos k
  rcases lt_or_ge m (2 ^ (276 + k)) with h1 | h1
  · refine iff_of_true (roundMag_finite (e := 252) (by simpa using h1) (Nat.le_refl _)) (lt_of_lt_of_le h1 ?_)
    rw [show 276 + k = 24 + 252 + k by omega, pow_add, pow_add 2 24]
    exact Nat.mul_le_mul_right _ (Nat.mul_le_mul_right _ (by norm_num))
  have hm : m ≠ 0 := fun h => absurd (h ▸ h1) (by simp)
  have hl := (Nat.le_log2 hm).2 h1
  rcases lt_or_ge m (2 ^ (277 + k)) with h2 | h2
  · have hl' := (Nat.log2_lt hm).2 h2
    have hd : dropped m k = k + 253 := by unfold dropped; omega
    have hq : m / 2 ^ (k + 253) < 2 ^ 24 := hd ▸ quot_lt m k
    have hT : (2 ^ 25 - 1) * 2 ^ 252 * 2 ^ k = (2 ^ 25 - 1) * 2 ^ (252 + k) := by rw [pow_add, mul_assoc]
    have hD : 2 ^ (k + 253) = 2 * 2 ^ (252 + k) := by rw [show k + 253 = 252 + k + 1 by omega, pow_succ, Nat.mul_comm]
    have hdm := Nat.div_add_mod m (2 ^ (k + 253))
    have hr := Nat.mod_lt m (Nat.two_pow_pos (k + 253))
    have hc := roundShift_cases m (k + 253)
    rw [roundMag_eq, hd, Nat.add_sub_cancel_left, hT]
    rw [hD] at hdm hr hc hq
    have hrs : min (253 * 2 ^ 23 + roundShift m (k + 253)) 0x7F800000 < 0x7F800000 ↔ roundShift m (k + 253) < 2 ^ 24 := by omega
    rw [hrs]
    generalize 2 ^ (252 + k) = H at *
    generalize m / (2 * H) = q at *
    generalize m % (2 * H) = r at *
    rcases Nat.lt_or_ge q (2 ^ 24 - 1) with h | h
    · have := Nat.mul_le_mul_left (2 * H) (by omega : q + 1 ≤ 2 ^ 24 - 1)
      rw [Nat.mul_succ] at this
      omega
    · obtain rfl : q = 2 ^ 24 - 1 := by omega
      omega
  · refine iff_of_false (fun hf => ?_) (Nat.not_lt.2 (le_trans ?_ h2))
    · have hd : 254 + k ≤ dropped m k := by
        have := (Nat.le_log2 hm).2 h2
        unfold dropped; omega
      have h3 := roundShift_ge (m := m) (k := k) (by omega)
      rw [roundMag_eq] at hf
      have h4 : 254 * 2 ^ 23 ≤ (dropped m k - k) * 2 ^ 23 := Nat.mul_le_mul_right _ (by omega)
      omega
    · rw [show 277 + k = 25 + 252 + k by omega, pow_add, pow_add 2 25]
      exact Nat.mul_le_mul_right _ (Nat.mul_le_mul_right _ (Nat.sub_le _ _))

/-- A magnitude that is a pattern's is not rounded. -/
theorem roundMag_exact {k s e : Nat} (hs : s < 2 ^ 24) (he : e ≤ 252) :
    roundMag (s * 2 ^ e * 2 ^ k) k < 0x7F800000 ∧ magOf (roundMag (s * 2 ^ e * 2 ^ k) k) = s * 2 ^ e := by
  have hf : roundMag (s * 2 ^ e * 2 ^ k) k < 0x7F800000 := by
    refine roundMag_finite (e := e) ?_ he
    rw [mul_assoc, ← pow_add, add_assoc, pow_add 2 24]
    exact Nat.mul_lt_mul_of_pos_right hs (Nat.two_pow_pos _)
  refine ⟨hf, ?_⟩
  have h1 := (roundMag_nearest hf (e := e) hs).1
  rw [sub_self, abs_zero] at h1
  have h2 := abs_eq_zero.1 (le_antisymm h1 (abs_nonneg _))
  have h3 : magOf (roundMag (s * 2 ^ e * 2 ^ k) k) * 2 ^ k = s * 2 ^ e * 2 ^ k := by
    exact_mod_cast sub_eq_zero.1 h2
  exact Nat.eq_of_mul_eq_mul_right (Nat.two_pow_pos k) h3

/-- A finite pattern. -/
def finite (a : Word) : Prop := isNaN a = false ∧ isInf a = false

theorem finite_fneg {a : Word} (h : finite a) : finite (fneg a) := ⟨by rw [isNaN_fneg]; exact h.1, by rw [isInf_fneg]; exact h.2⟩

/-- A signed pattern whose magnitude needs no rounding. -/
theorem fval_signed_exact {v : Int} (neg : Bool) (hn : v ≠ 0 → neg = decide (v < 0)) {s e : Nat} (hs : s < 2 ^ 24)
    (he : e ≤ 252) (hv : v.natAbs = s * 2 ^ e) :
    finite (signed neg (roundMag v.natAbs 0)) ∧ fval (signed neg (roundMag v.natAbs 0)) = v := by
  obtain ⟨h1, h2⟩ := roundMag_exact (k := 0) hs he
  rw [pow_zero, mul_one, ← hv] at h1 h2
  refine ⟨finite_signed neg h1, ?_⟩
  rw [fval_signed neg (by omega), h2]
  rcases eq_or_ne v 0 with h0 | h0
  · subst h0
    simp
  · rw [hn h0]
    by_cases hlt : v < 0
    · rw [if_pos (by simpa using hlt)]
      omega
    · rw [if_neg (by simpa using hlt)]
      omega

/-- `f32` is exact below 2^24 in magnitude (R19). -/
theorem fval_f32 {n : Int} (h : n.natAbs < 2 ^ 24) : finite (f32 n) ∧ fval (f32 n) = n * 2 ^ 149 := by
  have hp : (n * 2 ^ 149).natAbs = n.natAbs * 2 ^ 149 := by rw [Int.natAbs_mul]; rfl
  have := fval_signed_exact (v := n * 2 ^ 149) (decide (n < 0)) (fun _ => by congr 1; apply propext; omega) h
    (by norm_num : 149 ≤ 252) hp
  rw [hp] at this
  exact this

/-- A sum of finite patterns is the rounded exact sum. -/
theorem fadd_finite {a b : Word} (ha : finite a) (hb : finite b) :
    ∃ neg, (fval a + fval b ≠ 0 → neg = decide (fval a + fval b < 0)) ∧
      fadd a b = signed neg (roundMag (fval a + fval b).natAbs 0) := by
  unfold fadd
  rw [ha.1, hb.1, ha.2, hb.2]
  simp only [Bool.or_self, Bool.false_eq_true, if_false]
  split_ifs with h
  · refine ⟨fsign a && fsign b, fun hn => absurd h hn, ?_⟩
    rw [h]
    rfl
  · exact ⟨_, fun _ => rfl, rfl⟩

/-- A sum that is a pattern's value is exact. -/
theorem fval_fadd {a b : Word} (ha : finite a) (hb : finite b) {s e : Nat} (hs : s < 2 ^ 24) (he : e ≤ 252)
    (h : (fval a + fval b).natAbs = s * 2 ^ e) : finite (fadd a b) ∧ fval (fadd a b) = fval a + fval b := by
  obtain ⟨neg, hn, heq⟩ := fadd_finite ha hb
  rw [heq]
  exact fval_signed_exact neg hn hs he h

theorem fsub_eq {a b : Word} (ha : finite a) (hb : finite b) : fsub a b = fadd a (fneg b) := by
  simp [fsub, ha.1, hb.1]

/-- A difference that is a pattern's value is exact. -/
theorem fval_fsub {a b : Word} (ha : finite a) (hb : finite b) {s e : Nat} (hs : s < 2 ^ 24) (he : e ≤ 252)
    (h : (fval a - fval b).natAbs = s * 2 ^ e) : finite (fsub a b) ∧ fval (fsub a b) = fval a - fval b := by
  rw [fsub_eq ha hb]
  have := fval_fadd ha (finite_fneg hb) hs he (by rw [fval_fneg, ← sub_eq_add_neg]; exact h)
  rw [fval_fneg, ← sub_eq_add_neg] at this
  exact this

end Sys2Proof.Machine
end

