-- ==== Sys2Proof/Laws/State.lean ====
section
/-! SUPPORT. One lemma per field per state update, so that no later proof unfolds a record update. -/

namespace Sys2Proof.Machine

/-! ### putByte -/

@[simp] theorem State.putByte_run (s : State) (a : Nat) (b : Byte) :
    (s.putByte a b).run = s.run := rfl
@[simp] theorem State.putByte_cp (s : State) (a : Nat) (b : Byte) :
    (s.putByte a b).cp = s.cp := rfl
@[simp] theorem State.putByte_clBase (s : State) (a : Nat) (b : Byte) :
    (s.putByte a b).clBase = s.clBase := rfl
@[simp] theorem State.putByte_scanMode (s : State) (a : Nat) (b : Byte) :
    (s.putByte a b).scanMode = s.scanMode := rfl
@[simp] theorem State.putByte_done (s : State) (a : Nat) (b : Byte) :
    (s.putByte a b).done = s.done := rfl
@[simp] theorem State.putByte_dmaDone (s : State) (a : Nat) (b : Byte) :
    (s.putByte a b).dmaDone = s.dmaDone := rfl
@[simp] theorem State.putByte_fault (s : State) (a : Nat) (b : Byte) :
    (s.putByte a b).fault = s.fault := rfl
@[simp] theorem State.putByte_doneIe (s : State) (a : Nat) (b : Byte) :
    (s.putByte a b).doneIe = s.doneIe := rfl
@[simp] theorem State.putByte_dmaDoneIe (s : State) (a : Nat) (b : Byte) :
    (s.putByte a b).dmaDoneIe = s.dmaDoneIe := rfl
@[simp] theorem State.putByte_faultIe (s : State) (a : Nat) (b : Byte) :
    (s.putByte a b).faultIe = s.faultIe := rfl
@[simp] theorem State.putByte_faultCause (s : State) (a : Nat) (b : Byte) :
    (s.putByte a b).faultCause = s.faultCause := rfl
@[simp] theorem State.putByte_faultCp (s : State) (a : Nat) (b : Byte) :
    (s.putByte a b).faultCp = s.faultCp := rfl
@[simp] theorem State.putByte_faultWord (s : State) (a : Nat) (b : Byte) :
    (s.putByte a b).faultWord = s.faultWord := rfl
@[simp] theorem State.putByte_row0 (s : State) (a : Nat) (b : Byte) :
    (s.putByte a b).row0 = s.row0 := rfl
@[simp] theorem State.putByte_row1 (s : State) (a : Nat) (b : Byte) :
    (s.putByte a b).row1 = s.row1 := rfl
@[simp] theorem State.putByte_led (s : State) (a : Nat) (b : Byte) :
    (s.putByte a b).led = s.led := rfl
@[simp] theorem State.putByte_sel (s : State) (a : Nat) (b : Byte) :
    (s.putByte a b).sel = s.sel := rfl
@[simp] theorem State.putByte_last (s : State) (a : Nat) (b : Byte) :
    (s.putByte a b).last = s.last := rfl
@[simp] theorem State.putByte_upEdge (s : State) (a : Nat) (b : Byte) :
    (s.putByte a b).upEdge = s.upEdge := rfl
@[simp] theorem State.putByte_downEdge (s : State) (a : Nat) (b : Byte) :
    (s.putByte a b).downEdge = s.downEdge := rfl
@[simp] theorem State.putByte_menuEdge (s : State) (a : Nat) (b : Byte) :
    (s.putByte a b).menuEdge = s.menuEdge := rfl
@[simp] theorem State.putByte_speed0 (s : State) (a : Nat) (b : Byte) :
    (s.putByte a b).speed0 = s.speed0 := rfl
@[simp] theorem State.putByte_speed1 (s : State) (a : Nat) (b : Byte) :
    (s.putByte a b).speed1 = s.speed1 := rfl
@[simp] theorem State.putByte_speed2 (s : State) (a : Nat) (b : Byte) :
    (s.putByte a b).speed2 = s.speed2 := rfl
@[simp] theorem State.putByte_speed3 (s : State) (a : Nat) (b : Byte) :
    (s.putByte a b).speed3 = s.speed3 := rfl
@[simp] theorem State.putByte_dmaActive (s : State) (a : Nat) (b : Byte) :
    (s.putByte a b).dmaActive = s.dmaActive := rfl
@[simp] theorem State.putByte_dmaIdx (s : State) (a : Nat) (b : Byte) :
    (s.putByte a b).dmaIdx = s.dmaIdx := rfl
@[simp] theorem State.putByte_mem (s : State) (a : Nat) (b : Byte) :
    (s.putByte a b).mem = memPut s.mem a b := rfl
@[simp] theorem State.putByte_srData (s : State) (a : Nat) (b : Byte) :
    (s.putByte a b).srData = s.srData := rfl
@[simp] theorem State.putByte_srClk (s : State) (a : Nat) (b : Byte) :
    (s.putByte a b).srClk = s.srClk := rfl
@[simp] theorem State.putByte_srLoad (s : State) (a : Nat) (b : Byte) :
    (s.putByte a b).srLoad = s.srLoad := rfl
@[simp] theorem State.putByte_dispOut (s : State) (a : Nat) (b : Byte) :
    (s.putByte a b).dispOut = s.dispOut := rfl
@[simp] theorem State.putByte_pinOut (s : State) (a : Nat) (b : Byte) :
    (s.putByte a b).pinOut = s.pinOut := rfl
@[simp] theorem State.putByte_inside (s : State) (a : Nat) (b : Byte) :
    (s.putByte a b).inside = s.inside := rfl
@[simp] theorem State.putByte_cfg (s : State) (a : Nat) (b : Byte) :
    (s.putByte a b).cfg = s.cfg := rfl
@[simp] theorem State.putByte_plan (s : State) (a : Nat) (b : Byte) :
    (s.putByte a b).plan = s.plan := rfl
@[simp] theorem State.putByte_pins (s : State) (a : Nat) (b : Byte) :
    (s.putByte a b).pins = s.pins := rfl
@[simp] theorem State.putByte_drawn (s : State) (a : Nat) (b : Byte) :
    (s.putByte a b).drawn = s.drawn := rfl
@[simp] theorem State.putByte_resets (s : State) (a : Nat) (b : Byte) :
    (s.putByte a b).resets = s.resets := rfl
@[simp] theorem State.putByte_busOut (s : State) (a : Nat) (b : Byte) :
    (s.putByte a b).busOut = s.busOut := rfl

/-! ### fbWrite -/

@[simp] theorem State.fbWrite_run (s : State) (i : Nat) (v : Cell) :
    (s.fbWrite i v).run = s.run := rfl
@[simp] theorem State.fbWrite_cp (s : State) (i : Nat) (v : Cell) :
    (s.fbWrite i v).cp = s.cp := rfl
@[simp] theorem State.fbWrite_clBase (s : State) (i : Nat) (v : Cell) :
    (s.fbWrite i v).clBase = s.clBase := rfl
@[simp] theorem State.fbWrite_scanMode (s : State) (i : Nat) (v : Cell) :
    (s.fbWrite i v).scanMode = s.scanMode := rfl
@[simp] theorem State.fbWrite_done (s : State) (i : Nat) (v : Cell) :
    (s.fbWrite i v).done = s.done := rfl
@[simp] theorem State.fbWrite_dmaDone (s : State) (i : Nat) (v : Cell) :
    (s.fbWrite i v).dmaDone = s.dmaDone := rfl
@[simp] theorem State.fbWrite_fault (s : State) (i : Nat) (v : Cell) :
    (s.fbWrite i v).fault = s.fault := rfl
@[simp] theorem State.fbWrite_doneIe (s : State) (i : Nat) (v : Cell) :
    (s.fbWrite i v).doneIe = s.doneIe := rfl
@[simp] theorem State.fbWrite_dmaDoneIe (s : State) (i : Nat) (v : Cell) :
    (s.fbWrite i v).dmaDoneIe = s.dmaDoneIe := rfl
@[simp] theorem State.fbWrite_faultIe (s : State) (i : Nat) (v : Cell) :
    (s.fbWrite i v).faultIe = s.faultIe := rfl
@[simp] theorem State.fbWrite_faultCause (s : State) (i : Nat) (v : Cell) :
    (s.fbWrite i v).faultCause = s.faultCause := rfl
@[simp] theorem State.fbWrite_faultCp (s : State) (i : Nat) (v : Cell) :
    (s.fbWrite i v).faultCp = s.faultCp := rfl
@[simp] theorem State.fbWrite_faultWord (s : State) (i : Nat) (v : Cell) :
    (s.fbWrite i v).faultWord = s.faultWord := rfl
@[simp] theorem State.fbWrite_row0 (s : State) (i : Nat) (v : Cell) :
    (s.fbWrite i v).row0 = s.row0 := rfl
@[simp] theorem State.fbWrite_row1 (s : State) (i : Nat) (v : Cell) :
    (s.fbWrite i v).row1 = s.row1 := rfl
@[simp] theorem State.fbWrite_led (s : State) (i : Nat) (v : Cell) :
    (s.fbWrite i v).led = s.led := rfl
@[simp] theorem State.fbWrite_sel (s : State) (i : Nat) (v : Cell) :
    (s.fbWrite i v).sel = s.sel := rfl
@[simp] theorem State.fbWrite_last (s : State) (i : Nat) (v : Cell) :
    (s.fbWrite i v).last = s.last := rfl
@[simp] theorem State.fbWrite_upEdge (s : State) (i : Nat) (v : Cell) :
    (s.fbWrite i v).upEdge = s.upEdge := rfl
@[simp] theorem State.fbWrite_downEdge (s : State) (i : Nat) (v : Cell) :
    (s.fbWrite i v).downEdge = s.downEdge := rfl
@[simp] theorem State.fbWrite_menuEdge (s : State) (i : Nat) (v : Cell) :
    (s.fbWrite i v).menuEdge = s.menuEdge := rfl
@[simp] theorem State.fbWrite_speed0 (s : State) (i : Nat) (v : Cell) :
    (s.fbWrite i v).speed0 = s.speed0 := rfl
@[simp] theorem State.fbWrite_speed1 (s : State) (i : Nat) (v : Cell) :
    (s.fbWrite i v).speed1 = s.speed1 := rfl
@[simp] theorem State.fbWrite_speed2 (s : State) (i : Nat) (v : Cell) :
    (s.fbWrite i v).speed2 = s.speed2 := rfl
@[simp] theorem State.fbWrite_speed3 (s : State) (i : Nat) (v : Cell) :
    (s.fbWrite i v).speed3 = s.speed3 := rfl
@[simp] theorem State.fbWrite_dmaActive (s : State) (i : Nat) (v : Cell) :
    (s.fbWrite i v).dmaActive = s.dmaActive := rfl
@[simp] theorem State.fbWrite_dmaIdx (s : State) (i : Nat) (v : Cell) :
    (s.fbWrite i v).dmaIdx = s.dmaIdx := rfl
@[simp] theorem State.fbWrite_mem (s : State) (i : Nat) (v : Cell) :
    (s.fbWrite i v).mem = memPut (memPut s.mem (fbBase + 2 * i) (cellLo v)) (fbBase + 2 * i + 1) (cellHi v) := rfl
@[simp] theorem State.fbWrite_srData (s : State) (i : Nat) (v : Cell) :
    (s.fbWrite i v).srData = s.srData := rfl
@[simp] theorem State.fbWrite_srClk (s : State) (i : Nat) (v : Cell) :
    (s.fbWrite i v).srClk = s.srClk := rfl
@[simp] theorem State.fbWrite_srLoad (s : State) (i : Nat) (v : Cell) :
    (s.fbWrite i v).srLoad = s.srLoad := rfl
@[simp] theorem State.fbWrite_dispOut (s : State) (i : Nat) (v : Cell) :
    (s.fbWrite i v).dispOut = s.dispOut := rfl
@[simp] theorem State.fbWrite_pinOut (s : State) (i : Nat) (v : Cell) :
    (s.fbWrite i v).pinOut = s.pinOut := rfl
@[simp] theorem State.fbWrite_inside (s : State) (i : Nat) (v : Cell) :
    (s.fbWrite i v).inside = s.inside := rfl
@[simp] theorem State.fbWrite_cfg (s : State) (i : Nat) (v : Cell) :
    (s.fbWrite i v).cfg = s.cfg := rfl
@[simp] theorem State.fbWrite_plan (s : State) (i : Nat) (v : Cell) :
    (s.fbWrite i v).plan = s.plan := rfl
@[simp] theorem State.fbWrite_pins (s : State) (i : Nat) (v : Cell) :
    (s.fbWrite i v).pins = s.pins := rfl
@[simp] theorem State.fbWrite_drawn (s : State) (i : Nat) (v : Cell) :
    (s.fbWrite i v).drawn = s.drawn := rfl
@[simp] theorem State.fbWrite_resets (s : State) (i : Nat) (v : Cell) :
    (s.fbWrite i v).resets = s.resets := rfl
@[simp] theorem State.fbWrite_busOut (s : State) (i : Nat) (v : Cell) :
    (s.fbWrite i v).busOut = s.busOut := rfl

/-! ### fbFill -/

@[simp] theorem State.fbFill_run (s : State) (i n : Nat) (v : Cell) :
    (s.fbFill i n v).run = s.run := rfl
@[simp] theorem State.fbFill_cp (s : State) (i n : Nat) (v : Cell) :
    (s.fbFill i n v).cp = s.cp := rfl
@[simp] theorem State.fbFill_clBase (s : State) (i n : Nat) (v : Cell) :
    (s.fbFill i n v).clBase = s.clBase := rfl
@[simp] theorem State.fbFill_scanMode (s : State) (i n : Nat) (v : Cell) :
    (s.fbFill i n v).scanMode = s.scanMode := rfl
@[simp] theorem State.fbFill_done (s : State) (i n : Nat) (v : Cell) :
    (s.fbFill i n v).done = s.done := rfl
@[simp] theorem State.fbFill_dmaDone (s : State) (i n : Nat) (v : Cell) :
    (s.fbFill i n v).dmaDone = s.dmaDone := rfl
@[simp] theorem State.fbFill_fault (s : State) (i n : Nat) (v : Cell) :
    (s.fbFill i n v).fault = s.fault := rfl
@[simp] theorem State.fbFill_doneIe (s : State) (i n : Nat) (v : Cell) :
    (s.fbFill i n v).doneIe = s.doneIe := rfl
@[simp] theorem State.fbFill_dmaDoneIe (s : State) (i n : Nat) (v : Cell) :
    (s.fbFill i n v).dmaDoneIe = s.dmaDoneIe := rfl
@[simp] theorem State.fbFill_faultIe (s : State) (i n : Nat) (v : Cell) :
    (s.fbFill i n v).faultIe = s.faultIe := rfl
@[simp] theorem State.fbFill_faultCause (s : State) (i n : Nat) (v : Cell) :
    (s.fbFill i n v).faultCause = s.faultCause := rfl
@[simp] theorem State.fbFill_faultCp (s : State) (i n : Nat) (v : Cell) :
    (s.fbFill i n v).faultCp = s.faultCp := rfl
@[simp] theorem State.fbFill_faultWord (s : State) (i n : Nat) (v : Cell) :
    (s.fbFill i n v).faultWord = s.faultWord := rfl
@[simp] theorem State.fbFill_row0 (s : State) (i n : Nat) (v : Cell) :
    (s.fbFill i n v).row0 = s.row0 := rfl
@[simp] theorem State.fbFill_row1 (s : State) (i n : Nat) (v : Cell) :
    (s.fbFill i n v).row1 = s.row1 := rfl
@[simp] theorem State.fbFill_led (s : State) (i n : Nat) (v : Cell) :
    (s.fbFill i n v).led = s.led := rfl
@[simp] theorem State.fbFill_sel (s : State) (i n : Nat) (v : Cell) :
    (s.fbFill i n v).sel = s.sel := rfl
@[simp] theorem State.fbFill_last (s : State) (i n : Nat) (v : Cell) :
    (s.fbFill i n v).last = s.last := rfl
@[simp] theorem State.fbFill_upEdge (s : State) (i n : Nat) (v : Cell) :
    (s.fbFill i n v).upEdge = s.upEdge := rfl
@[simp] theorem State.fbFill_downEdge (s : State) (i n : Nat) (v : Cell) :
    (s.fbFill i n v).downEdge = s.downEdge := rfl
@[simp] theorem State.fbFill_menuEdge (s : State) (i n : Nat) (v : Cell) :
    (s.fbFill i n v).menuEdge = s.menuEdge := rfl
@[simp] theorem State.fbFill_speed0 (s : State) (i n : Nat) (v : Cell) :
    (s.fbFill i n v).speed0 = s.speed0 := rfl
@[simp] theorem State.fbFill_speed1 (s : State) (i n : Nat) (v : Cell) :
    (s.fbFill i n v).speed1 = s.speed1 := rfl
@[simp] theorem State.fbFill_speed2 (s : State) (i n : Nat) (v : Cell) :
    (s.fbFill i n v).speed2 = s.speed2 := rfl
@[simp] theorem State.fbFill_speed3 (s : State) (i n : Nat) (v : Cell) :
    (s.fbFill i n v).speed3 = s.speed3 := rfl
@[simp] theorem State.fbFill_dmaActive (s : State) (i n : Nat) (v : Cell) :
    (s.fbFill i n v).dmaActive = s.dmaActive := rfl
@[simp] theorem State.fbFill_dmaIdx (s : State) (i n : Nat) (v : Cell) :
    (s.fbFill i n v).dmaIdx = s.dmaIdx := rfl
@[simp] theorem State.fbFill_mem (s : State) (i n : Nat) (v : Cell) :
    (s.fbFill i n v).mem = memFill s.mem (fbBase + 2 * i) n v := rfl
@[simp] theorem State.fbFill_srData (s : State) (i n : Nat) (v : Cell) :
    (s.fbFill i n v).srData = s.srData := rfl
@[simp] theorem State.fbFill_srClk (s : State) (i n : Nat) (v : Cell) :
    (s.fbFill i n v).srClk = s.srClk := rfl
@[simp] theorem State.fbFill_srLoad (s : State) (i n : Nat) (v : Cell) :
    (s.fbFill i n v).srLoad = s.srLoad := rfl
@[simp] theorem State.fbFill_dispOut (s : State) (i n : Nat) (v : Cell) :
    (s.fbFill i n v).dispOut = s.dispOut := rfl
@[simp] theorem State.fbFill_pinOut (s : State) (i n : Nat) (v : Cell) :
    (s.fbFill i n v).pinOut = s.pinOut := rfl
@[simp] theorem State.fbFill_inside (s : State) (i n : Nat) (v : Cell) :
    (s.fbFill i n v).inside = s.inside := rfl
@[simp] theorem State.fbFill_cfg (s : State) (i n : Nat) (v : Cell) :
    (s.fbFill i n v).cfg = s.cfg := rfl
@[simp] theorem State.fbFill_plan (s : State) (i n : Nat) (v : Cell) :
    (s.fbFill i n v).plan = s.plan := rfl
@[simp] theorem State.fbFill_pins (s : State) (i n : Nat) (v : Cell) :
    (s.fbFill i n v).pins = s.pins := rfl
@[simp] theorem State.fbFill_drawn (s : State) (i n : Nat) (v : Cell) :
    (s.fbFill i n v).drawn = s.drawn := rfl
@[simp] theorem State.fbFill_resets (s : State) (i n : Nat) (v : Cell) :
    (s.fbFill i n v).resets = s.resets := rfl
@[simp] theorem State.fbFill_busOut (s : State) (i n : Nat) (v : Cell) :
    (s.fbFill i n v).busOut = s.busOut := rfl

/-! ### spend -/

@[simp] theorem State.spend_run (s : State) (n : Nat) :
    (s.spend n).run = s.run := rfl
@[simp] theorem State.spend_cp (s : State) (n : Nat) :
    (s.spend n).cp = s.cp := rfl
@[simp] theorem State.spend_clBase (s : State) (n : Nat) :
    (s.spend n).clBase = s.clBase := rfl
@[simp] theorem State.spend_scanMode (s : State) (n : Nat) :
    (s.spend n).scanMode = s.scanMode := rfl
@[simp] theorem State.spend_done (s : State) (n : Nat) :
    (s.spend n).done = s.done := rfl
@[simp] theorem State.spend_dmaDone (s : State) (n : Nat) :
    (s.spend n).dmaDone = s.dmaDone := rfl
@[simp] theorem State.spend_fault (s : State) (n : Nat) :
    (s.spend n).fault = s.fault := rfl
@[simp] theorem State.spend_doneIe (s : State) (n : Nat) :
    (s.spend n).doneIe = s.doneIe := rfl
@[simp] theorem State.spend_dmaDoneIe (s : State) (n : Nat) :
    (s.spend n).dmaDoneIe = s.dmaDoneIe := rfl
@[simp] theorem State.spend_faultIe (s : State) (n : Nat) :
    (s.spend n).faultIe = s.faultIe := rfl
@[simp] theorem State.spend_faultCause (s : State) (n : Nat) :
    (s.spend n).faultCause = s.faultCause := rfl
@[simp] theorem State.spend_faultCp (s : State) (n : Nat) :
    (s.spend n).faultCp = s.faultCp := rfl
@[simp] theorem State.spend_faultWord (s : State) (n : Nat) :
    (s.spend n).faultWord = s.faultWord := rfl
@[simp] theorem State.spend_row0 (s : State) (n : Nat) :
    (s.spend n).row0 = s.row0 := rfl
@[simp] theorem State.spend_row1 (s : State) (n : Nat) :
    (s.spend n).row1 = s.row1 := rfl
@[simp] theorem State.spend_led (s : State) (n : Nat) :
    (s.spend n).led = s.led := rfl
@[simp] theorem State.spend_sel (s : State) (n : Nat) :
    (s.spend n).sel = s.sel := rfl
@[simp] theorem State.spend_last (s : State) (n : Nat) :
    (s.spend n).last = s.last := rfl
@[simp] theorem State.spend_upEdge (s : State) (n : Nat) :
    (s.spend n).upEdge = s.upEdge := rfl
@[simp] theorem State.spend_downEdge (s : State) (n : Nat) :
    (s.spend n).downEdge = s.downEdge := rfl
@[simp] theorem State.spend_menuEdge (s : State) (n : Nat) :
    (s.spend n).menuEdge = s.menuEdge := rfl
@[simp] theorem State.spend_speed0 (s : State) (n : Nat) :
    (s.spend n).speed0 = s.speed0 := rfl
@[simp] theorem State.spend_speed1 (s : State) (n : Nat) :
    (s.spend n).speed1 = s.speed1 := rfl
@[simp] theorem State.spend_speed2 (s : State) (n : Nat) :
    (s.spend n).speed2 = s.speed2 := rfl
@[simp] theorem State.spend_speed3 (s : State) (n : Nat) :
    (s.spend n).speed3 = s.speed3 := rfl
@[simp] theorem State.spend_dmaActive (s : State) (n : Nat) :
    (s.spend n).dmaActive = s.dmaActive := rfl
@[simp] theorem State.spend_dmaIdx (s : State) (n : Nat) :
    (s.spend n).dmaIdx = s.dmaIdx := rfl
@[simp] theorem State.spend_mem (s : State) (n : Nat) :
    (s.spend n).mem = s.mem := rfl
@[simp] theorem State.spend_srData (s : State) (n : Nat) :
    (s.spend n).srData = s.srData := rfl
@[simp] theorem State.spend_srClk (s : State) (n : Nat) :
    (s.spend n).srClk = s.srClk := rfl
@[simp] theorem State.spend_srLoad (s : State) (n : Nat) :
    (s.spend n).srLoad = s.srLoad := rfl
@[simp] theorem State.spend_dispOut (s : State) (n : Nat) :
    (s.spend n).dispOut = s.dispOut := rfl
@[simp] theorem State.spend_pinOut (s : State) (n : Nat) :
    (s.spend n).pinOut = s.pinOut := rfl
@[simp] theorem State.spend_inside (s : State) (n : Nat) :
    (s.spend n).inside = s.inside := rfl
@[simp] theorem State.spend_cfg (s : State) (n : Nat) :
    (s.spend n).cfg = s.cfg := rfl
@[simp] theorem State.spend_plan (s : State) (n : Nat) :
    (s.spend n).plan = spendPlan s.plan n := rfl
@[simp] theorem State.spend_pins (s : State) (n : Nat) :
    (s.spend n).pins = s.pins := rfl
@[simp] theorem State.spend_drawn (s : State) (n : Nat) :
    (s.spend n).drawn = s.drawn := rfl
@[simp] theorem State.spend_resets (s : State) (n : Nat) :
    (s.spend n).resets = s.resets := rfl
@[simp] theorem State.spend_busOut (s : State) (n : Nat) :
    (s.spend n).busOut = s.busOut := rfl

/-! ### setInside -/

@[simp] theorem State.setInside_run (s : State) (p : Option Position) :
    (s.setInside p).run = s.run := rfl
@[simp] theorem State.setInside_cp (s : State) (p : Option Position) :
    (s.setInside p).cp = s.cp := rfl
@[simp] theorem State.setInside_clBase (s : State) (p : Option Position) :
    (s.setInside p).clBase = s.clBase := rfl
@[simp] theorem State.setInside_scanMode (s : State) (p : Option Position) :
    (s.setInside p).scanMode = s.scanMode := rfl
@[simp] theorem State.setInside_done (s : State) (p : Option Position) :
    (s.setInside p).done = s.done := rfl
@[simp] theorem State.setInside_dmaDone (s : State) (p : Option Position) :
    (s.setInside p).dmaDone = s.dmaDone := rfl
@[simp] theorem State.setInside_fault (s : State) (p : Option Position) :
    (s.setInside p).fault = s.fault := rfl
@[simp] theorem State.setInside_doneIe (s : State) (p : Option Position) :
    (s.setInside p).doneIe = s.doneIe := rfl
@[simp] theorem State.setInside_dmaDoneIe (s : State) (p : Option Position) :
    (s.setInside p).dmaDoneIe = s.dmaDoneIe := rfl
@[simp] theorem State.setInside_faultIe (s : State) (p : Option Position) :
    (s.setInside p).faultIe = s.faultIe := rfl
@[simp] theorem State.setInside_faultCause (s : State) (p : Option Position) :
    (s.setInside p).faultCause = s.faultCause := rfl
@[simp] theorem State.setInside_faultCp (s : State) (p : Option Position) :
    (s.setInside p).faultCp = s.faultCp := rfl
@[simp] theorem State.setInside_faultWord (s : State) (p : Option Position) :
    (s.setInside p).faultWord = s.faultWord := rfl
@[simp] theorem State.setInside_row0 (s : State) (p : Option Position) :
    (s.setInside p).row0 = s.row0 := rfl
@[simp] theorem State.setInside_row1 (s : State) (p : Option Position) :
    (s.setInside p).row1 = s.row1 := rfl
@[simp] theorem State.setInside_led (s : State) (p : Option Position) :
    (s.setInside p).led = s.led := rfl
@[simp] theorem State.setInside_sel (s : State) (p : Option Position) :
    (s.setInside p).sel = s.sel := rfl
@[simp] theorem State.setInside_last (s : State) (p : Option Position) :
    (s.setInside p).last = s.last := rfl
@[simp] theorem State.setInside_upEdge (s : State) (p : Option Position) :
    (s.setInside p).upEdge = s.upEdge := rfl
@[simp] theorem State.setInside_downEdge (s : State) (p : Option Position) :
    (s.setInside p).downEdge = s.downEdge := rfl
@[simp] theorem State.setInside_menuEdge (s : State) (p : Option Position) :
    (s.setInside p).menuEdge = s.menuEdge := rfl
@[simp] theorem State.setInside_speed0 (s : State) (p : Option Position) :
    (s.setInside p).speed0 = s.speed0 := rfl
@[simp] theorem State.setInside_speed1 (s : State) (p : Option Position) :
    (s.setInside p).speed1 = s.speed1 := rfl
@[simp] theorem State.setInside_speed2 (s : State) (p : Option Position) :
    (s.setInside p).speed2 = s.speed2 := rfl
@[simp] theorem State.setInside_speed3 (s : State) (p : Option Position) :
    (s.setInside p).speed3 = s.speed3 := rfl
@[simp] theorem State.setInside_dmaActive (s : State) (p : Option Position) :
    (s.setInside p).dmaActive = s.dmaActive := rfl
@[simp] theorem State.setInside_dmaIdx (s : State) (p : Option Position) :
    (s.setInside p).dmaIdx = s.dmaIdx := rfl
@[simp] theorem State.setInside_mem (s : State) (p : Option Position) :
    (s.setInside p).mem = s.mem := rfl
@[simp] theorem State.setInside_srData (s : State) (p : Option Position) :
    (s.setInside p).srData = s.srData := rfl
@[simp] theorem State.setInside_srClk (s : State) (p : Option Position) :
    (s.setInside p).srClk = s.srClk := rfl
@[simp] theorem State.setInside_srLoad (s : State) (p : Option Position) :
    (s.setInside p).srLoad = s.srLoad := rfl
@[simp] theorem State.setInside_dispOut (s : State) (p : Option Position) :
    (s.setInside p).dispOut = s.dispOut := rfl
@[simp] theorem State.setInside_pinOut (s : State) (p : Option Position) :
    (s.setInside p).pinOut = s.pinOut := rfl
@[simp] theorem State.setInside_inside (s : State) (p : Option Position) :
    (s.setInside p).inside = p := rfl
@[simp] theorem State.setInside_cfg (s : State) (p : Option Position) :
    (s.setInside p).cfg = s.cfg := rfl
@[simp] theorem State.setInside_plan (s : State) (p : Option Position) :
    (s.setInside p).plan = s.plan := rfl
@[simp] theorem State.setInside_pins (s : State) (p : Option Position) :
    (s.setInside p).pins = s.pins := rfl
@[simp] theorem State.setInside_drawn (s : State) (p : Option Position) :
    (s.setInside p).drawn = s.drawn := rfl
@[simp] theorem State.setInside_resets (s : State) (p : Option Position) :
    (s.setInside p).resets = s.resets := rfl
@[simp] theorem State.setInside_busOut (s : State) (p : Option Position) :
    (s.setInside p).busOut = s.busOut := rfl

/-! ### emit -/

@[simp] theorem State.emit_run (s : State) (e : DispEvent) :
    (s.emit e).run = s.run := rfl
@[simp] theorem State.emit_cp (s : State) (e : DispEvent) :
    (s.emit e).cp = s.cp := rfl
@[simp] theorem State.emit_clBase (s : State) (e : DispEvent) :
    (s.emit e).clBase = s.clBase := rfl
@[simp] theorem State.emit_scanMode (s : State) (e : DispEvent) :
    (s.emit e).scanMode = s.scanMode := rfl
@[simp] theorem State.emit_done (s : State) (e : DispEvent) :
    (s.emit e).done = s.done := rfl
@[simp] theorem State.emit_dmaDone (s : State) (e : DispEvent) :
    (s.emit e).dmaDone = s.dmaDone := rfl
@[simp] theorem State.emit_fault (s : State) (e : DispEvent) :
    (s.emit e).fault = s.fault := rfl
@[simp] theorem State.emit_doneIe (s : State) (e : DispEvent) :
    (s.emit e).doneIe = s.doneIe := rfl
@[simp] theorem State.emit_dmaDoneIe (s : State) (e : DispEvent) :
    (s.emit e).dmaDoneIe = s.dmaDoneIe := rfl
@[simp] theorem State.emit_faultIe (s : State) (e : DispEvent) :
    (s.emit e).faultIe = s.faultIe := rfl
@[simp] theorem State.emit_faultCause (s : State) (e : DispEvent) :
    (s.emit e).faultCause = s.faultCause := rfl
@[simp] theorem State.emit_faultCp (s : State) (e : DispEvent) :
    (s.emit e).faultCp = s.faultCp := rfl
@[simp] theorem State.emit_faultWord (s : State) (e : DispEvent) :
    (s.emit e).faultWord = s.faultWord := rfl
@[simp] theorem State.emit_row0 (s : State) (e : DispEvent) :
    (s.emit e).row0 = s.row0 := rfl
@[simp] theorem State.emit_row1 (s : State) (e : DispEvent) :
    (s.emit e).row1 = s.row1 := rfl
@[simp] theorem State.emit_led (s : State) (e : DispEvent) :
    (s.emit e).led = s.led := rfl
@[simp] theorem State.emit_sel (s : State) (e : DispEvent) :
    (s.emit e).sel = s.sel := rfl
@[simp] theorem State.emit_last (s : State) (e : DispEvent) :
    (s.emit e).last = s.last := rfl
@[simp] theorem State.emit_upEdge (s : State) (e : DispEvent) :
    (s.emit e).upEdge = s.upEdge := rfl
@[simp] theorem State.emit_downEdge (s : State) (e : DispEvent) :
    (s.emit e).downEdge = s.downEdge := rfl
@[simp] theorem State.emit_menuEdge (s : State) (e : DispEvent) :
    (s.emit e).menuEdge = s.menuEdge := rfl
@[simp] theorem State.emit_speed0 (s : State) (e : DispEvent) :
    (s.emit e).speed0 = s.speed0 := rfl
@[simp] theorem State.emit_speed1 (s : State) (e : DispEvent) :
    (s.emit e).speed1 = s.speed1 := rfl
@[simp] theorem State.emit_speed2 (s : State) (e : DispEvent) :
    (s.emit e).speed2 = s.speed2 := rfl
@[simp] theorem State.emit_speed3 (s : State) (e : DispEvent) :
    (s.emit e).speed3 = s.speed3 := rfl
@[simp] theorem State.emit_dmaActive (s : State) (e : DispEvent) :
    (s.emit e).dmaActive = s.dmaActive := rfl
@[simp] theorem State.emit_dmaIdx (s : State) (e : DispEvent) :
    (s.emit e).dmaIdx = s.dmaIdx := rfl
@[simp] theorem State.emit_mem (s : State) (e : DispEvent) :
    (s.emit e).mem = s.mem := rfl
@[simp] theorem State.emit_srData (s : State) (e : DispEvent) :
    (s.emit e).srData = s.srData := rfl
@[simp] theorem State.emit_srClk (s : State) (e : DispEvent) :
    (s.emit e).srClk = s.srClk := rfl
@[simp] theorem State.emit_srLoad (s : State) (e : DispEvent) :
    (s.emit e).srLoad = s.srLoad := rfl
@[simp] theorem State.emit_dispOut (s : State) (e : DispEvent) :
    (s.emit e).dispOut = e :: s.dispOut := rfl
@[simp] theorem State.emit_pinOut (s : State) (e : DispEvent) :
    (s.emit e).pinOut = s.pinOut := rfl
@[simp] theorem State.emit_inside (s : State) (e : DispEvent) :
    (s.emit e).inside = s.inside := rfl
@[simp] theorem State.emit_cfg (s : State) (e : DispEvent) :
    (s.emit e).cfg = s.cfg := rfl
@[simp] theorem State.emit_plan (s : State) (e : DispEvent) :
    (s.emit e).plan = s.plan := rfl
@[simp] theorem State.emit_pins (s : State) (e : DispEvent) :
    (s.emit e).pins = s.pins := rfl
@[simp] theorem State.emit_drawn (s : State) (e : DispEvent) :
    (s.emit e).drawn = s.drawn := rfl
@[simp] theorem State.emit_resets (s : State) (e : DispEvent) :
    (s.emit e).resets = s.resets := rfl
@[simp] theorem State.emit_busOut (s : State) (e : DispEvent) :
    (s.emit e).busOut = s.busOut := rfl

/-! ### takeFault -/

@[simp] theorem State.takeFault_run (s : State) (c : Cause) (w : Word) :
    (s.takeFault c w).run = .idle := rfl
@[simp] theorem State.takeFault_cp (s : State) (c : Cause) (w : Word) :
    (s.takeFault c w).cp = s.cp := rfl
@[simp] theorem State.takeFault_clBase (s : State) (c : Cause) (w : Word) :
    (s.takeFault c w).clBase = s.clBase := rfl
@[simp] theorem State.takeFault_scanMode (s : State) (c : Cause) (w : Word) :
    (s.takeFault c w).scanMode = s.scanMode := rfl
@[simp] theorem State.takeFault_done (s : State) (c : Cause) (w : Word) :
    (s.takeFault c w).done = s.done := rfl
@[simp] theorem State.takeFault_dmaDone (s : State) (c : Cause) (w : Word) :
    (s.takeFault c w).dmaDone = s.dmaDone := rfl
@[simp] theorem State.takeFault_fault (s : State) (c : Cause) (w : Word) :
    (s.takeFault c w).fault = true := rfl
@[simp] theorem State.takeFault_doneIe (s : State) (c : Cause) (w : Word) :
    (s.takeFault c w).doneIe = s.doneIe := rfl
@[simp] theorem State.takeFault_dmaDoneIe (s : State) (c : Cause) (w : Word) :
    (s.takeFault c w).dmaDoneIe = s.dmaDoneIe := rfl
@[simp] theorem State.takeFault_faultIe (s : State) (c : Cause) (w : Word) :
    (s.takeFault c w).faultIe = s.faultIe := rfl
@[simp] theorem State.takeFault_faultCause (s : State) (c : Cause) (w : Word) :
    (s.takeFault c w).faultCause = c := rfl
@[simp] theorem State.takeFault_faultCp (s : State) (c : Cause) (w : Word) :
    (s.takeFault c w).faultCp = s.cp := rfl
@[simp] theorem State.takeFault_faultWord (s : State) (c : Cause) (w : Word) :
    (s.takeFault c w).faultWord = w := rfl
@[simp] theorem State.takeFault_row0 (s : State) (c : Cause) (w : Word) :
    (s.takeFault c w).row0 = s.row0 := rfl
@[simp] theorem State.takeFault_row1 (s : State) (c : Cause) (w : Word) :
    (s.takeFault c w).row1 = s.row1 := rfl
@[simp] theorem State.takeFault_led (s : State) (c : Cause) (w : Word) :
    (s.takeFault c w).led = s.led := rfl
@[simp] theorem State.takeFault_sel (s : State) (c : Cause) (w : Word) :
    (s.takeFault c w).sel = s.sel := rfl
@[simp] theorem State.takeFault_last (s : State) (c : Cause) (w : Word) :
    (s.takeFault c w).last = s.last := rfl
@[simp] theorem State.takeFault_upEdge (s : State) (c : Cause) (w : Word) :
    (s.takeFault c w).upEdge = s.upEdge := rfl
@[simp] theorem State.takeFault_downEdge (s : State) (c : Cause) (w : Word) :
    (s.takeFault c w).downEdge = s.downEdge := rfl
@[simp] theorem State.takeFault_menuEdge (s : State) (c : Cause) (w : Word) :
    (s.takeFault c w).menuEdge = s.menuEdge := rfl
@[simp] theorem State.takeFault_speed0 (s : State) (c : Cause) (w : Word) :
    (s.takeFault c w).speed0 = s.speed0 := rfl
@[simp] theorem State.takeFault_speed1 (s : State) (c : Cause) (w : Word) :
    (s.takeFault c w).speed1 = s.speed1 := rfl
@[simp] theorem State.takeFault_speed2 (s : State) (c : Cause) (w : Word) :
    (s.takeFault c w).speed2 = s.speed2 := rfl
@[simp] theorem State.takeFault_speed3 (s : State) (c : Cause) (w : Word) :
    (s.takeFault c w).speed3 = s.speed3 := rfl
@[simp] theorem State.takeFault_dmaActive (s : State) (c : Cause) (w : Word) :
    (s.takeFault c w).dmaActive = s.dmaActive := rfl
@[simp] theorem State.takeFault_dmaIdx (s : State) (c : Cause) (w : Word) :
    (s.takeFault c w).dmaIdx = s.dmaIdx := rfl
@[simp] theorem State.takeFault_mem (s : State) (c : Cause) (w : Word) :
    (s.takeFault c w).mem = s.mem := rfl
@[simp] theorem State.takeFault_srData (s : State) (c : Cause) (w : Word) :
    (s.takeFault c w).srData = s.srData := rfl
@[simp] theorem State.takeFault_srClk (s : State) (c : Cause) (w : Word) :
    (s.takeFault c w).srClk = s.srClk := rfl
@[simp] theorem State.takeFault_srLoad (s : State) (c : Cause) (w : Word) :
    (s.takeFault c w).srLoad = s.srLoad := rfl
@[simp] theorem State.takeFault_dispOut (s : State) (c : Cause) (w : Word) :
    (s.takeFault c w).dispOut = s.dispOut := rfl
@[simp] theorem State.takeFault_pinOut (s : State) (c : Cause) (w : Word) :
    (s.takeFault c w).pinOut = s.pinOut := rfl
@[simp] theorem State.takeFault_inside (s : State) (c : Cause) (w : Word) :
    (s.takeFault c w).inside = s.inside := rfl
@[simp] theorem State.takeFault_cfg (s : State) (c : Cause) (w : Word) :
    (s.takeFault c w).cfg = s.cfg := rfl
@[simp] theorem State.takeFault_plan (s : State) (c : Cause) (w : Word) :
    (s.takeFault c w).plan = s.plan := rfl
@[simp] theorem State.takeFault_pins (s : State) (c : Cause) (w : Word) :
    (s.takeFault c w).pins = s.pins := rfl
@[simp] theorem State.takeFault_drawn (s : State) (c : Cause) (w : Word) :
    (s.takeFault c w).drawn = s.drawn := rfl
@[simp] theorem State.takeFault_resets (s : State) (c : Cause) (w : Word) :
    (s.takeFault c w).resets = s.resets := rfl
@[simp] theorem State.takeFault_busOut (s : State) (c : Cause) (w : Word) :
    (s.takeFault c w).busOut = s.busOut := rfl

/-! ### complete -/

@[simp] theorem complete_run (s : State) (i : Instr) :
    (complete s i).run = s.run := rfl
@[simp] theorem complete_cp (s : State) (i : Instr) :
    (complete s i).cp = s.cp + BitVec.ofNat 11 (cpAdvance i) := rfl
@[simp] theorem complete_clBase (s : State) (i : Instr) :
    (complete s i).clBase = s.clBase := rfl
@[simp] theorem complete_scanMode (s : State) (i : Instr) :
    (complete s i).scanMode = s.scanMode := rfl
@[simp] theorem complete_done (s : State) (i : Instr) :
    (complete s i).done = s.done := rfl
@[simp] theorem complete_dmaDone (s : State) (i : Instr) :
    (complete s i).dmaDone = s.dmaDone := rfl
@[simp] theorem complete_fault (s : State) (i : Instr) :
    (complete s i).fault = s.fault := rfl
@[simp] theorem complete_doneIe (s : State) (i : Instr) :
    (complete s i).doneIe = s.doneIe := rfl
@[simp] theorem complete_dmaDoneIe (s : State) (i : Instr) :
    (complete s i).dmaDoneIe = s.dmaDoneIe := rfl
@[simp] theorem complete_faultIe (s : State) (i : Instr) :
    (complete s i).faultIe = s.faultIe := rfl
@[simp] theorem complete_faultCause (s : State) (i : Instr) :
    (complete s i).faultCause = s.faultCause := rfl
@[simp] theorem complete_faultCp (s : State) (i : Instr) :
    (complete s i).faultCp = s.faultCp := rfl
@[simp] theorem complete_faultWord (s : State) (i : Instr) :
    (complete s i).faultWord = s.faultWord := rfl
@[simp] theorem complete_row0 (s : State) (i : Instr) :
    (complete s i).row0 = s.row0 := rfl
@[simp] theorem complete_row1 (s : State) (i : Instr) :
    (complete s i).row1 = s.row1 := rfl
@[simp] theorem complete_led (s : State) (i : Instr) :
    (complete s i).led = s.led := rfl
@[simp] theorem complete_sel (s : State) (i : Instr) :
    (complete s i).sel = s.sel := rfl
@[simp] theorem complete_last (s : State) (i : Instr) :
    (complete s i).last = s.last := rfl
@[simp] theorem complete_upEdge (s : State) (i : Instr) :
    (complete s i).upEdge = s.upEdge := rfl
@[simp] theorem complete_downEdge (s : State) (i : Instr) :
    (complete s i).downEdge = s.downEdge := rfl
@[simp] theorem complete_menuEdge (s : State) (i : Instr) :
    (complete s i).menuEdge = s.menuEdge := rfl
@[simp] theorem complete_speed0 (s : State) (i : Instr) :
    (complete s i).speed0 = s.speed0 := rfl
@[simp] theorem complete_speed1 (s : State) (i : Instr) :
    (complete s i).speed1 = s.speed1 := rfl
@[simp] theorem complete_speed2 (s : State) (i : Instr) :
    (complete s i).speed2 = s.speed2 := rfl
@[simp] theorem complete_speed3 (s : State) (i : Instr) :
    (complete s i).speed3 = s.speed3 := rfl
@[simp] theorem complete_dmaActive (s : State) (i : Instr) :
    (complete s i).dmaActive = s.dmaActive := rfl
@[simp] theorem complete_dmaIdx (s : State) (i : Instr) :
    (complete s i).dmaIdx = s.dmaIdx := rfl
@[simp] theorem complete_mem (s : State) (i : Instr) :
    (complete s i).mem = s.mem := rfl
@[simp] theorem complete_srData (s : State) (i : Instr) :
    (complete s i).srData = s.srData := rfl
@[simp] theorem complete_srClk (s : State) (i : Instr) :
    (complete s i).srClk = s.srClk := rfl
@[simp] theorem complete_srLoad (s : State) (i : Instr) :
    (complete s i).srLoad = s.srLoad := rfl
@[simp] theorem complete_dispOut (s : State) (i : Instr) :
    (complete s i).dispOut = s.dispOut := rfl
@[simp] theorem complete_pinOut (s : State) (i : Instr) :
    (complete s i).pinOut = s.pinOut := rfl
@[simp] theorem complete_inside (s : State) (i : Instr) :
    (complete s i).inside = none := rfl
@[simp] theorem complete_cfg (s : State) (i : Instr) :
    (complete s i).cfg = s.cfg := rfl
@[simp] theorem complete_plan (s : State) (i : Instr) :
    (complete s i).plan = s.plan := rfl
@[simp] theorem complete_pins (s : State) (i : Instr) :
    (complete s i).pins = s.pins := rfl
@[simp] theorem complete_drawn (s : State) (i : Instr) :
    (complete s i).drawn = s.drawn := rfl
@[simp] theorem complete_resets (s : State) (i : Instr) :
    (complete s i).resets = s.resets := rfl
@[simp] theorem complete_busOut (s : State) (i : Instr) :
    (complete s i).busOut = s.busOut := rfl

/-! ### beginTransfer -/

@[simp] theorem beginTransfer_run (s : State) :
    (beginTransfer s).run = s.run := rfl
@[simp] theorem beginTransfer_cp (s : State) :
    (beginTransfer s).cp = s.cp := rfl
@[simp] theorem beginTransfer_clBase (s : State) :
    (beginTransfer s).clBase = s.clBase := rfl
@[simp] theorem beginTransfer_scanMode (s : State) :
    (beginTransfer s).scanMode = s.scanMode := rfl
@[simp] theorem beginTransfer_done (s : State) :
    (beginTransfer s).done = s.done := rfl
@[simp] theorem beginTransfer_dmaDone (s : State) :
    (beginTransfer s).dmaDone = s.dmaDone := rfl
@[simp] theorem beginTransfer_fault (s : State) :
    (beginTransfer s).fault = s.fault := rfl
@[simp] theorem beginTransfer_doneIe (s : State) :
    (beginTransfer s).doneIe = s.doneIe := rfl
@[simp] theorem beginTransfer_dmaDoneIe (s : State) :
    (beginTransfer s).dmaDoneIe = s.dmaDoneIe := rfl
@[simp] theorem beginTransfer_faultIe (s : State) :
    (beginTransfer s).faultIe = s.faultIe := rfl
@[simp] theorem beginTransfer_faultCause (s : State) :
    (beginTransfer s).faultCause = s.faultCause := rfl
@[simp] theorem beginTransfer_faultCp (s : State) :
    (beginTransfer s).faultCp = s.faultCp := rfl
@[simp] theorem beginTransfer_faultWord (s : State) :
    (beginTransfer s).faultWord = s.faultWord := rfl
@[simp] theorem beginTransfer_row0 (s : State) :
    (beginTransfer s).row0 = s.row0 := rfl
@[simp] theorem beginTransfer_row1 (s : State) :
    (beginTransfer s).row1 = s.row1 := rfl
@[simp] theorem beginTransfer_led (s : State) :
    (beginTransfer s).led = s.led := rfl
@[simp] theorem beginTransfer_sel (s : State) :
    (beginTransfer s).sel = s.sel := rfl
@[simp] theorem beginTransfer_last (s : State) :
    (beginTransfer s).last = s.last := rfl
@[simp] theorem beginTransfer_upEdge (s : State) :
    (beginTransfer s).upEdge = s.upEdge := rfl
@[simp] theorem beginTransfer_downEdge (s : State) :
    (beginTransfer s).downEdge = s.downEdge := rfl
@[simp] theorem beginTransfer_menuEdge (s : State) :
    (beginTransfer s).menuEdge = s.menuEdge := rfl
@[simp] theorem beginTransfer_speed0 (s : State) :
    (beginTransfer s).speed0 = s.speed0 := rfl
@[simp] theorem beginTransfer_speed1 (s : State) :
    (beginTransfer s).speed1 = s.speed1 := rfl
@[simp] theorem beginTransfer_speed2 (s : State) :
    (beginTransfer s).speed2 = s.speed2 := rfl
@[simp] theorem beginTransfer_speed3 (s : State) :
    (beginTransfer s).speed3 = s.speed3 := rfl
@[simp] theorem beginTransfer_dmaActive (s : State) :
    (beginTransfer s).dmaActive = true := rfl
@[simp] theorem beginTransfer_dmaIdx (s : State) :
    (beginTransfer s).dmaIdx = 0#17 := rfl
@[simp] theorem beginTransfer_mem (s : State) :
    (beginTransfer s).mem = s.mem := rfl
@[simp] theorem beginTransfer_srData (s : State) :
    (beginTransfer s).srData = s.srData := rfl
@[simp] theorem beginTransfer_srClk (s : State) :
    (beginTransfer s).srClk = s.srClk := rfl
@[simp] theorem beginTransfer_srLoad (s : State) :
    (beginTransfer s).srLoad = s.srLoad := rfl
@[simp] theorem beginTransfer_dispOut (s : State) :
    (beginTransfer s).dispOut = .win 0 0 239 239 :: s.dispOut := rfl
@[simp] theorem beginTransfer_pinOut (s : State) :
    (beginTransfer s).pinOut = s.pinOut := rfl
@[simp] theorem beginTransfer_inside (s : State) :
    (beginTransfer s).inside = s.inside := rfl
@[simp] theorem beginTransfer_cfg (s : State) :
    (beginTransfer s).cfg = s.cfg := rfl
@[simp] theorem beginTransfer_plan (s : State) :
    (beginTransfer s).plan = s.plan := rfl
@[simp] theorem beginTransfer_pins (s : State) :
    (beginTransfer s).pins = s.pins := rfl
@[simp] theorem beginTransfer_drawn (s : State) :
    (beginTransfer s).drawn = s.drawn := rfl
@[simp] theorem beginTransfer_resets (s : State) :
    (beginTransfer s).resets = s.resets := rfl
@[simp] theorem beginTransfer_busOut (s : State) :
    (beginTransfer s).busOut = s.busOut := rfl

/-! ### emitCell -/

@[simp] theorem emitCell_run (s : State) :
    (emitCell s).run = s.run := rfl
@[simp] theorem emitCell_cp (s : State) :
    (emitCell s).cp = s.cp := rfl
@[simp] theorem emitCell_clBase (s : State) :
    (emitCell s).clBase = s.clBase := rfl
@[simp] theorem emitCell_scanMode (s : State) :
    (emitCell s).scanMode = s.scanMode := rfl
@[simp] theorem emitCell_done (s : State) :
    (emitCell s).done = s.done := rfl
@[simp] theorem emitCell_dmaDone (s : State) :
    (emitCell s).dmaDone = s.dmaDone := rfl
@[simp] theorem emitCell_fault (s : State) :
    (emitCell s).fault = s.fault := rfl
@[simp] theorem emitCell_doneIe (s : State) :
    (emitCell s).doneIe = s.doneIe := rfl
@[simp] theorem emitCell_dmaDoneIe (s : State) :
    (emitCell s).dmaDoneIe = s.dmaDoneIe := rfl
@[simp] theorem emitCell_faultIe (s : State) :
    (emitCell s).faultIe = s.faultIe := rfl
@[simp] theorem emitCell_faultCause (s : State) :
    (emitCell s).faultCause = s.faultCause := rfl
@[simp] theorem emitCell_faultCp (s : State) :
    (emitCell s).faultCp = s.faultCp := rfl
@[simp] theorem emitCell_faultWord (s : State) :
    (emitCell s).faultWord = s.faultWord := rfl
@[simp] theorem emitCell_row0 (s : State) :
    (emitCell s).row0 = s.row0 := rfl
@[simp] theorem emitCell_row1 (s : State) :
    (emitCell s).row1 = s.row1 := rfl
@[simp] theorem emitCell_led (s : State) :
    (emitCell s).led = s.led := rfl
@[simp] theorem emitCell_sel (s : State) :
    (emitCell s).sel = s.sel := rfl
@[simp] theorem emitCell_last (s : State) :
    (emitCell s).last = s.last := rfl
@[simp] theorem emitCell_upEdge (s : State) :
    (emitCell s).upEdge = s.upEdge := rfl
@[simp] theorem emitCell_downEdge (s : State) :
    (emitCell s).downEdge = s.downEdge := rfl
@[simp] theorem emitCell_menuEdge (s : State) :
    (emitCell s).menuEdge = s.menuEdge := rfl
@[simp] theorem emitCell_speed0 (s : State) :
    (emitCell s).speed0 = s.speed0 := rfl
@[simp] theorem emitCell_speed1 (s : State) :
    (emitCell s).speed1 = s.speed1 := rfl
@[simp] theorem emitCell_speed2 (s : State) :
    (emitCell s).speed2 = s.speed2 := rfl
@[simp] theorem emitCell_speed3 (s : State) :
    (emitCell s).speed3 = s.speed3 := rfl
@[simp] theorem emitCell_dmaActive (s : State) :
    (emitCell s).dmaActive = s.dmaActive := rfl
@[simp] theorem emitCell_dmaIdx (s : State) :
    (emitCell s).dmaIdx = s.dmaIdx := rfl
@[simp] theorem emitCell_mem (s : State) :
    (emitCell s).mem = s.mem := rfl
@[simp] theorem emitCell_srData (s : State) :
    (emitCell s).srData = s.srData := rfl
@[simp] theorem emitCell_srClk (s : State) :
    (emitCell s).srClk = s.srClk := rfl
@[simp] theorem emitCell_srLoad (s : State) :
    (emitCell s).srLoad = s.srLoad := rfl
@[simp] theorem emitCell_dispOut (s : State) :
    (emitCell s).dispOut = .byte (cellHi (s.fbRead s.dmaIdx.toNat)) :: .byte (cellLo (s.fbRead s.dmaIdx.toNat)) :: s.dispOut := rfl
@[simp] theorem emitCell_pinOut (s : State) :
    (emitCell s).pinOut = s.pinOut := rfl
@[simp] theorem emitCell_inside (s : State) :
    (emitCell s).inside = s.inside := rfl
@[simp] theorem emitCell_cfg (s : State) :
    (emitCell s).cfg = s.cfg := rfl
@[simp] theorem emitCell_plan (s : State) :
    (emitCell s).plan = s.plan := rfl
@[simp] theorem emitCell_pins (s : State) :
    (emitCell s).pins = s.pins := rfl
@[simp] theorem emitCell_drawn (s : State) :
    (emitCell s).drawn = s.drawn := rfl
@[simp] theorem emitCell_resets (s : State) :
    (emitCell s).resets = s.resets := rfl
@[simp] theorem emitCell_busOut (s : State) :
    (emitCell s).busOut = s.busOut := rfl

/-! ### writeStatus -/

@[simp] theorem State.writeStatus_run (s : State) (v : Word) :
    (s.writeStatus v).run = s.run := rfl
@[simp] theorem State.writeStatus_cp (s : State) (v : Word) :
    (s.writeStatus v).cp = s.cp := rfl
@[simp] theorem State.writeStatus_clBase (s : State) (v : Word) :
    (s.writeStatus v).clBase = s.clBase := rfl
@[simp] theorem State.writeStatus_scanMode (s : State) (v : Word) :
    (s.writeStatus v).scanMode = s.scanMode := rfl
@[simp] theorem State.writeStatus_done (s : State) (v : Word) :
    (s.writeStatus v).done = (s.done && !v.getLsbD 2) := rfl
@[simp] theorem State.writeStatus_dmaDone (s : State) (v : Word) :
    (s.writeStatus v).dmaDone = (s.dmaDone && !v.getLsbD 3) := rfl
@[simp] theorem State.writeStatus_fault (s : State) (v : Word) :
    (s.writeStatus v).fault = (s.fault && !v.getLsbD 4) := rfl
@[simp] theorem State.writeStatus_doneIe (s : State) (v : Word) :
    (s.writeStatus v).doneIe = s.doneIe := rfl
@[simp] theorem State.writeStatus_dmaDoneIe (s : State) (v : Word) :
    (s.writeStatus v).dmaDoneIe = s.dmaDoneIe := rfl
@[simp] theorem State.writeStatus_faultIe (s : State) (v : Word) :
    (s.writeStatus v).faultIe = s.faultIe := rfl
@[simp] theorem State.writeStatus_faultCause (s : State) (v : Word) :
    (s.writeStatus v).faultCause = s.faultCause := rfl
@[simp] theorem State.writeStatus_faultCp (s : State) (v : Word) :
    (s.writeStatus v).faultCp = s.faultCp := rfl
@[simp] theorem State.writeStatus_faultWord (s : State) (v : Word) :
    (s.writeStatus v).faultWord = s.faultWord := rfl
@[simp] theorem State.writeStatus_row0 (s : State) (v : Word) :
    (s.writeStatus v).row0 = s.row0 := rfl
@[simp] theorem State.writeStatus_row1 (s : State) (v : Word) :
    (s.writeStatus v).row1 = s.row1 := rfl
@[simp] theorem State.writeStatus_led (s : State) (v : Word) :
    (s.writeStatus v).led = s.led := rfl
@[simp] theorem State.writeStatus_sel (s : State) (v : Word) :
    (s.writeStatus v).sel = s.sel := rfl
@[simp] theorem State.writeStatus_last (s : State) (v : Word) :
    (s.writeStatus v).last = s.last := rfl
@[simp] theorem State.writeStatus_upEdge (s : State) (v : Word) :
    (s.writeStatus v).upEdge = s.upEdge := rfl
@[simp] theorem State.writeStatus_downEdge (s : State) (v : Word) :
    (s.writeStatus v).downEdge = s.downEdge := rfl
@[simp] theorem State.writeStatus_menuEdge (s : State) (v : Word) :
    (s.writeStatus v).menuEdge = s.menuEdge := rfl
@[simp] theorem State.writeStatus_speed0 (s : State) (v : Word) :
    (s.writeStatus v).speed0 = s.speed0 := rfl
@[simp] theorem State.writeStatus_speed1 (s : State) (v : Word) :
    (s.writeStatus v).speed1 = s.speed1 := rfl
@[simp] theorem State.writeStatus_speed2 (s : State) (v : Word) :
    (s.writeStatus v).speed2 = s.speed2 := rfl
@[simp] theorem State.writeStatus_speed3 (s : State) (v : Word) :
    (s.writeStatus v).speed3 = s.speed3 := rfl
@[simp] theorem State.writeStatus_dmaActive (s : State) (v : Word) :
    (s.writeStatus v).dmaActive = s.dmaActive := rfl
@[simp] theorem State.writeStatus_dmaIdx (s : State) (v : Word) :
    (s.writeStatus v).dmaIdx = s.dmaIdx := rfl
@[simp] theorem State.writeStatus_mem (s : State) (v : Word) :
    (s.writeStatus v).mem = s.mem := rfl
@[simp] theorem State.writeStatus_srData (s : State) (v : Word) :
    (s.writeStatus v).srData = s.srData := rfl
@[simp] theorem State.writeStatus_srClk (s : State) (v : Word) :
    (s.writeStatus v).srClk = s.srClk := rfl
@[simp] theorem State.writeStatus_srLoad (s : State) (v : Word) :
    (s.writeStatus v).srLoad = s.srLoad := rfl
@[simp] theorem State.writeStatus_dispOut (s : State) (v : Word) :
    (s.writeStatus v).dispOut = s.dispOut := rfl
@[simp] theorem State.writeStatus_pinOut (s : State) (v : Word) :
    (s.writeStatus v).pinOut = s.pinOut := rfl
@[simp] theorem State.writeStatus_inside (s : State) (v : Word) :
    (s.writeStatus v).inside = s.inside := rfl
@[simp] theorem State.writeStatus_cfg (s : State) (v : Word) :
    (s.writeStatus v).cfg = s.cfg := rfl
@[simp] theorem State.writeStatus_plan (s : State) (v : Word) :
    (s.writeStatus v).plan = s.plan := rfl
@[simp] theorem State.writeStatus_pins (s : State) (v : Word) :
    (s.writeStatus v).pins = s.pins := rfl
@[simp] theorem State.writeStatus_drawn (s : State) (v : Word) :
    (s.writeStatus v).drawn = s.drawn := rfl
@[simp] theorem State.writeStatus_resets (s : State) (v : Word) :
    (s.writeStatus v).resets = s.resets := rfl
@[simp] theorem State.writeStatus_busOut (s : State) (v : Word) :
    (s.writeStatus v).busOut = s.busOut := rfl

/-! ### writeIe -/

@[simp] theorem State.writeIe_run (s : State) (v : Word) :
    (s.writeIe v).run = s.run := rfl
@[simp] theorem State.writeIe_cp (s : State) (v : Word) :
    (s.writeIe v).cp = s.cp := rfl
@[simp] theorem State.writeIe_clBase (s : State) (v : Word) :
    (s.writeIe v).clBase = s.clBase := rfl
@[simp] theorem State.writeIe_scanMode (s : State) (v : Word) :
    (s.writeIe v).scanMode = s.scanMode := rfl
@[simp] theorem State.writeIe_done (s : State) (v : Word) :
    (s.writeIe v).done = s.done := rfl
@[simp] theorem State.writeIe_dmaDone (s : State) (v : Word) :
    (s.writeIe v).dmaDone = s.dmaDone := rfl
@[simp] theorem State.writeIe_fault (s : State) (v : Word) :
    (s.writeIe v).fault = s.fault := rfl
@[simp] theorem State.writeIe_doneIe (s : State) (v : Word) :
    (s.writeIe v).doneIe = v.getLsbD 2 := rfl
@[simp] theorem State.writeIe_dmaDoneIe (s : State) (v : Word) :
    (s.writeIe v).dmaDoneIe = v.getLsbD 3 := rfl
@[simp] theorem State.writeIe_faultIe (s : State) (v : Word) :
    (s.writeIe v).faultIe = v.getLsbD 4 := rfl
@[simp] theorem State.writeIe_faultCause (s : State) (v : Word) :
    (s.writeIe v).faultCause = s.faultCause := rfl
@[simp] theorem State.writeIe_faultCp (s : State) (v : Word) :
    (s.writeIe v).faultCp = s.faultCp := rfl
@[simp] theorem State.writeIe_faultWord (s : State) (v : Word) :
    (s.writeIe v).faultWord = s.faultWord := rfl
@[simp] theorem State.writeIe_row0 (s : State) (v : Word) :
    (s.writeIe v).row0 = s.row0 := rfl
@[simp] theorem State.writeIe_row1 (s : State) (v : Word) :
    (s.writeIe v).row1 = s.row1 := rfl
@[simp] theorem State.writeIe_led (s : State) (v : Word) :
    (s.writeIe v).led = s.led := rfl
@[simp] theorem State.writeIe_sel (s : State) (v : Word) :
    (s.writeIe v).sel = s.sel := rfl
@[simp] theorem State.writeIe_last (s : State) (v : Word) :
    (s.writeIe v).last = s.last := rfl
@[simp] theorem State.writeIe_upEdge (s : State) (v : Word) :
    (s.writeIe v).upEdge = s.upEdge := rfl
@[simp] theorem State.writeIe_downEdge (s : State) (v : Word) :
    (s.writeIe v).downEdge = s.downEdge := rfl
@[simp] theorem State.writeIe_menuEdge (s : State) (v : Word) :
    (s.writeIe v).menuEdge = s.menuEdge := rfl
@[simp] theorem State.writeIe_speed0 (s : State) (v : Word) :
    (s.writeIe v).speed0 = s.speed0 := rfl
@[simp] theorem State.writeIe_speed1 (s : State) (v : Word) :
    (s.writeIe v).speed1 = s.speed1 := rfl
@[simp] theorem State.writeIe_speed2 (s : State) (v : Word) :
    (s.writeIe v).speed2 = s.speed2 := rfl
@[simp] theorem State.writeIe_speed3 (s : State) (v : Word) :
    (s.writeIe v).speed3 = s.speed3 := rfl
@[simp] theorem State.writeIe_dmaActive (s : State) (v : Word) :
    (s.writeIe v).dmaActive = s.dmaActive := rfl
@[simp] theorem State.writeIe_dmaIdx (s : State) (v : Word) :
    (s.writeIe v).dmaIdx = s.dmaIdx := rfl
@[simp] theorem State.writeIe_mem (s : State) (v : Word) :
    (s.writeIe v).mem = s.mem := rfl
@[simp] theorem State.writeIe_srData (s : State) (v : Word) :
    (s.writeIe v).srData = s.srData := rfl
@[simp] theorem State.writeIe_srClk (s : State) (v : Word) :
    (s.writeIe v).srClk = s.srClk := rfl
@[simp] theorem State.writeIe_srLoad (s : State) (v : Word) :
    (s.writeIe v).srLoad = s.srLoad := rfl
@[simp] theorem State.writeIe_dispOut (s : State) (v : Word) :
    (s.writeIe v).dispOut = s.dispOut := rfl
@[simp] theorem State.writeIe_pinOut (s : State) (v : Word) :
    (s.writeIe v).pinOut = s.pinOut := rfl
@[simp] theorem State.writeIe_inside (s : State) (v : Word) :
    (s.writeIe v).inside = s.inside := rfl
@[simp] theorem State.writeIe_cfg (s : State) (v : Word) :
    (s.writeIe v).cfg = s.cfg := rfl
@[simp] theorem State.writeIe_plan (s : State) (v : Word) :
    (s.writeIe v).plan = s.plan := rfl
@[simp] theorem State.writeIe_pins (s : State) (v : Word) :
    (s.writeIe v).pins = s.pins := rfl
@[simp] theorem State.writeIe_drawn (s : State) (v : Word) :
    (s.writeIe v).drawn = s.drawn := rfl
@[simp] theorem State.writeIe_resets (s : State) (v : Word) :
    (s.writeIe v).resets = s.resets := rfl
@[simp] theorem State.writeIe_busOut (s : State) (v : Word) :
    (s.writeIe v).busOut = s.busOut := rfl

/-! ### writeEvents -/

@[simp] theorem State.writeEvents_run (s : State) (v : Word) :
    (s.writeEvents v).run = s.run := rfl
@[simp] theorem State.writeEvents_cp (s : State) (v : Word) :
    (s.writeEvents v).cp = s.cp := rfl
@[simp] theorem State.writeEvents_clBase (s : State) (v : Word) :
    (s.writeEvents v).clBase = s.clBase := rfl
@[simp] theorem State.writeEvents_scanMode (s : State) (v : Word) :
    (s.writeEvents v).scanMode = s.scanMode := rfl
@[simp] theorem State.writeEvents_done (s : State) (v : Word) :
    (s.writeEvents v).done = s.done := rfl
@[simp] theorem State.writeEvents_dmaDone (s : State) (v : Word) :
    (s.writeEvents v).dmaDone = s.dmaDone := rfl
@[simp] theorem State.writeEvents_fault (s : State) (v : Word) :
    (s.writeEvents v).fault = s.fault := rfl
@[simp] theorem State.writeEvents_doneIe (s : State) (v : Word) :
    (s.writeEvents v).doneIe = s.doneIe := rfl
@[simp] theorem State.writeEvents_dmaDoneIe (s : State) (v : Word) :
    (s.writeEvents v).dmaDoneIe = s.dmaDoneIe := rfl
@[simp] theorem State.writeEvents_faultIe (s : State) (v : Word) :
    (s.writeEvents v).faultIe = s.faultIe := rfl
@[simp] theorem State.writeEvents_faultCause (s : State) (v : Word) :
    (s.writeEvents v).faultCause = s.faultCause := rfl
@[simp] theorem State.writeEvents_faultCp (s : State) (v : Word) :
    (s.writeEvents v).faultCp = s.faultCp := rfl
@[simp] theorem State.writeEvents_faultWord (s : State) (v : Word) :
    (s.writeEvents v).faultWord = s.faultWord := rfl
@[simp] theorem State.writeEvents_row0 (s : State) (v : Word) :
    (s.writeEvents v).row0 = s.row0 := rfl
@[simp] theorem State.writeEvents_row1 (s : State) (v : Word) :
    (s.writeEvents v).row1 = s.row1 := rfl
@[simp] theorem State.writeEvents_led (s : State) (v : Word) :
    (s.writeEvents v).led = s.led := rfl
@[simp] theorem State.writeEvents_sel (s : State) (v : Word) :
    (s.writeEvents v).sel = s.sel := rfl
@[simp] theorem State.writeEvents_last (s : State) (v : Word) :
    (s.writeEvents v).last = s.last := rfl
@[simp] theorem State.writeEvents_upEdge (s : State) (v : Word) :
    (s.writeEvents v).upEdge = (s.upEdge && !v.getLsbD 0) := rfl
@[simp] theorem State.writeEvents_downEdge (s : State) (v : Word) :
    (s.writeEvents v).downEdge = (s.downEdge && !v.getLsbD 1) := rfl
@[simp] theorem State.writeEvents_menuEdge (s : State) (v : Word) :
    (s.writeEvents v).menuEdge = (s.menuEdge && !v.getLsbD 2) := rfl
@[simp] theorem State.writeEvents_speed0 (s : State) (v : Word) :
    (s.writeEvents v).speed0 = s.speed0 := rfl
@[simp] theorem State.writeEvents_speed1 (s : State) (v : Word) :
    (s.writeEvents v).speed1 = s.speed1 := rfl
@[simp] theorem State.writeEvents_speed2 (s : State) (v : Word) :
    (s.writeEvents v).speed2 = s.speed2 := rfl
@[simp] theorem State.writeEvents_speed3 (s : State) (v : Word) :
    (s.writeEvents v).speed3 = s.speed3 := rfl
@[simp] theorem State.writeEvents_dmaActive (s : State) (v : Word) :
    (s.writeEvents v).dmaActive = s.dmaActive := rfl
@[simp] theorem State.writeEvents_dmaIdx (s : State) (v : Word) :
    (s.writeEvents v).dmaIdx = s.dmaIdx := rfl
@[simp] theorem State.writeEvents_mem (s : State) (v : Word) :
    (s.writeEvents v).mem = s.mem := rfl
@[simp] theorem State.writeEvents_srData (s : State) (v : Word) :
    (s.writeEvents v).srData = s.srData := rfl
@[simp] theorem State.writeEvents_srClk (s : State) (v : Word) :
    (s.writeEvents v).srClk = s.srClk := rfl
@[simp] theorem State.writeEvents_srLoad (s : State) (v : Word) :
    (s.writeEvents v).srLoad = s.srLoad := rfl
@[simp] theorem State.writeEvents_dispOut (s : State) (v : Word) :
    (s.writeEvents v).dispOut = s.dispOut := rfl
@[simp] theorem State.writeEvents_pinOut (s : State) (v : Word) :
    (s.writeEvents v).pinOut = s.pinOut := rfl
@[simp] theorem State.writeEvents_inside (s : State) (v : Word) :
    (s.writeEvents v).inside = s.inside := rfl
@[simp] theorem State.writeEvents_cfg (s : State) (v : Word) :
    (s.writeEvents v).cfg = s.cfg := rfl
@[simp] theorem State.writeEvents_plan (s : State) (v : Word) :
    (s.writeEvents v).plan = s.plan := rfl
@[simp] theorem State.writeEvents_pins (s : State) (v : Word) :
    (s.writeEvents v).pins = s.pins := rfl
@[simp] theorem State.writeEvents_drawn (s : State) (v : Word) :
    (s.writeEvents v).drawn = s.drawn := rfl
@[simp] theorem State.writeEvents_resets (s : State) (v : Word) :
    (s.writeEvents v).resets = s.resets := rfl
@[simp] theorem State.writeEvents_busOut (s : State) (v : Word) :
    (s.writeEvents v).busOut = s.busOut := rfl

/-! ### latchRows -/

@[simp] theorem latchRows_run (s : State) (r0 r1 : Byte) :
    (latchRows s r0 r1).run = s.run := rfl
@[simp] theorem latchRows_cp (s : State) (r0 r1 : Byte) :
    (latchRows s r0 r1).cp = s.cp := rfl
@[simp] theorem latchRows_clBase (s : State) (r0 r1 : Byte) :
    (latchRows s r0 r1).clBase = s.clBase := rfl
@[simp] theorem latchRows_scanMode (s : State) (r0 r1 : Byte) :
    (latchRows s r0 r1).scanMode = s.scanMode := rfl
@[simp] theorem latchRows_done (s : State) (r0 r1 : Byte) :
    (latchRows s r0 r1).done = s.done := rfl
@[simp] theorem latchRows_dmaDone (s : State) (r0 r1 : Byte) :
    (latchRows s r0 r1).dmaDone = s.dmaDone := rfl
@[simp] theorem latchRows_fault (s : State) (r0 r1 : Byte) :
    (latchRows s r0 r1).fault = s.fault := rfl
@[simp] theorem latchRows_doneIe (s : State) (r0 r1 : Byte) :
    (latchRows s r0 r1).doneIe = s.doneIe := rfl
@[simp] theorem latchRows_dmaDoneIe (s : State) (r0 r1 : Byte) :
    (latchRows s r0 r1).dmaDoneIe = s.dmaDoneIe := rfl
@[simp] theorem latchRows_faultIe (s : State) (r0 r1 : Byte) :
    (latchRows s r0 r1).faultIe = s.faultIe := rfl
@[simp] theorem latchRows_faultCause (s : State) (r0 r1 : Byte) :
    (latchRows s r0 r1).faultCause = s.faultCause := rfl
@[simp] theorem latchRows_faultCp (s : State) (r0 r1 : Byte) :
    (latchRows s r0 r1).faultCp = s.faultCp := rfl
@[simp] theorem latchRows_faultWord (s : State) (r0 r1 : Byte) :
    (latchRows s r0 r1).faultWord = s.faultWord := rfl
@[simp] theorem latchRows_row0 (s : State) (r0 r1 : Byte) :
    (latchRows s r0 r1).row0 = r0 := rfl
@[simp] theorem latchRows_row1 (s : State) (r0 r1 : Byte) :
    (latchRows s r0 r1).row1 = r1 := rfl
@[simp] theorem latchRows_led (s : State) (r0 r1 : Byte) :
    (latchRows s r0 r1).led = s.led := rfl
@[simp] theorem latchRows_sel (s : State) (r0 r1 : Byte) :
    (latchRows s r0 r1).sel = s.sel := rfl
@[simp] theorem latchRows_last (s : State) (r0 r1 : Byte) :
    (latchRows s r0 r1).last = s.last := rfl
@[simp] theorem latchRows_upEdge (s : State) (r0 r1 : Byte) :
    (latchRows s r0 r1).upEdge = s.upEdge := rfl
@[simp] theorem latchRows_downEdge (s : State) (r0 r1 : Byte) :
    (latchRows s r0 r1).downEdge = s.downEdge := rfl
@[simp] theorem latchRows_menuEdge (s : State) (r0 r1 : Byte) :
    (latchRows s r0 r1).menuEdge = s.menuEdge := rfl
@[simp] theorem latchRows_speed0 (s : State) (r0 r1 : Byte) :
    (latchRows s r0 r1).speed0 = s.speed0 := rfl
@[simp] theorem latchRows_speed1 (s : State) (r0 r1 : Byte) :
    (latchRows s r0 r1).speed1 = s.speed1 := rfl
@[simp] theorem latchRows_speed2 (s : State) (r0 r1 : Byte) :
    (latchRows s r0 r1).speed2 = s.speed2 := rfl
@[simp] theorem latchRows_speed3 (s : State) (r0 r1 : Byte) :
    (latchRows s r0 r1).speed3 = s.speed3 := rfl
@[simp] theorem latchRows_dmaActive (s : State) (r0 r1 : Byte) :
    (latchRows s r0 r1).dmaActive = s.dmaActive := rfl
@[simp] theorem latchRows_dmaIdx (s : State) (r0 r1 : Byte) :
    (latchRows s r0 r1).dmaIdx = s.dmaIdx := rfl
@[simp] theorem latchRows_mem (s : State) (r0 r1 : Byte) :
    (latchRows s r0 r1).mem = s.mem := rfl
@[simp] theorem latchRows_srData (s : State) (r0 r1 : Byte) :
    (latchRows s r0 r1).srData = s.srData := rfl
@[simp] theorem latchRows_srClk (s : State) (r0 r1 : Byte) :
    (latchRows s r0 r1).srClk = s.srClk := rfl
@[simp] theorem latchRows_srLoad (s : State) (r0 r1 : Byte) :
    (latchRows s r0 r1).srLoad = s.srLoad := rfl
@[simp] theorem latchRows_dispOut (s : State) (r0 r1 : Byte) :
    (latchRows s r0 r1).dispOut = s.dispOut := rfl
@[simp] theorem latchRows_pinOut (s : State) (r0 r1 : Byte) :
    (latchRows s r0 r1).pinOut = s.pinOut := rfl
@[simp] theorem latchRows_inside (s : State) (r0 r1 : Byte) :
    (latchRows s r0 r1).inside = s.inside := rfl
@[simp] theorem latchRows_cfg (s : State) (r0 r1 : Byte) :
    (latchRows s r0 r1).cfg = s.cfg := rfl
@[simp] theorem latchRows_plan (s : State) (r0 r1 : Byte) :
    (latchRows s r0 r1).plan = s.plan := rfl
@[simp] theorem latchRows_pins (s : State) (r0 r1 : Byte) :
    (latchRows s r0 r1).pins = s.pins := rfl
@[simp] theorem latchRows_drawn (s : State) (r0 r1 : Byte) :
    (latchRows s r0 r1).drawn = s.drawn := rfl
@[simp] theorem latchRows_resets (s : State) (r0 r1 : Byte) :
    (latchRows s r0 r1).resets = s.resets := rfl
@[simp] theorem latchRows_busOut (s : State) (r0 r1 : Byte) :
    (latchRows s r0 r1).busOut = s.busOut := rfl

/-! ### showSelection -/

@[simp] theorem showSelection_run (s : State) :
    (showSelection s).run = s.run := rfl
@[simp] theorem showSelection_cp (s : State) :
    (showSelection s).cp = s.cp := rfl
@[simp] theorem showSelection_clBase (s : State) :
    (showSelection s).clBase = s.clBase := rfl
@[simp] theorem showSelection_scanMode (s : State) :
    (showSelection s).scanMode = s.scanMode := rfl
@[simp] theorem showSelection_done (s : State) :
    (showSelection s).done = s.done := rfl
@[simp] theorem showSelection_dmaDone (s : State) :
    (showSelection s).dmaDone = s.dmaDone := rfl
@[simp] theorem showSelection_fault (s : State) :
    (showSelection s).fault = s.fault := rfl
@[simp] theorem showSelection_doneIe (s : State) :
    (showSelection s).doneIe = s.doneIe := rfl
@[simp] theorem showSelection_dmaDoneIe (s : State) :
    (showSelection s).dmaDoneIe = s.dmaDoneIe := rfl
@[simp] theorem showSelection_faultIe (s : State) :
    (showSelection s).faultIe = s.faultIe := rfl
@[simp] theorem showSelection_faultCause (s : State) :
    (showSelection s).faultCause = s.faultCause := rfl
@[simp] theorem showSelection_faultCp (s : State) :
    (showSelection s).faultCp = s.faultCp := rfl
@[simp] theorem showSelection_faultWord (s : State) :
    (showSelection s).faultWord = s.faultWord := rfl
@[simp] theorem showSelection_row0 (s : State) :
    (showSelection s).row0 = s.row0 := rfl
@[simp] theorem showSelection_row1 (s : State) :
    (showSelection s).row1 = s.row1 := rfl
@[simp] theorem showSelection_led (s : State) :
    (showSelection s).led = 1#8 <<< s.sel.toNat := rfl
@[simp] theorem showSelection_sel (s : State) :
    (showSelection s).sel = s.sel := rfl
@[simp] theorem showSelection_last (s : State) :
    (showSelection s).last = s.last := rfl
@[simp] theorem showSelection_upEdge (s : State) :
    (showSelection s).upEdge = s.upEdge := rfl
@[simp] theorem showSelection_downEdge (s : State) :
    (showSelection s).downEdge = s.downEdge := rfl
@[simp] theorem showSelection_menuEdge (s : State) :
    (showSelection s).menuEdge = s.menuEdge := rfl
@[simp] theorem showSelection_speed0 (s : State) :
    (showSelection s).speed0 = s.speed0 := rfl
@[simp] theorem showSelection_speed1 (s : State) :
    (showSelection s).speed1 = s.speed1 := rfl
@[simp] theorem showSelection_speed2 (s : State) :
    (showSelection s).speed2 = s.speed2 := rfl
@[simp] theorem showSelection_speed3 (s : State) :
    (showSelection s).speed3 = s.speed3 := rfl
@[simp] theorem showSelection_dmaActive (s : State) :
    (showSelection s).dmaActive = s.dmaActive := rfl
@[simp] theorem showSelection_dmaIdx (s : State) :
    (showSelection s).dmaIdx = s.dmaIdx := rfl
@[simp] theorem showSelection_mem (s : State) :
    (showSelection s).mem = s.mem := rfl
@[simp] theorem showSelection_srData (s : State) :
    (showSelection s).srData = s.srData := rfl
@[simp] theorem showSelection_srClk (s : State) :
    (showSelection s).srClk = s.srClk := rfl
@[simp] theorem showSelection_srLoad (s : State) :
    (showSelection s).srLoad = s.srLoad := rfl
@[simp] theorem showSelection_dispOut (s : State) :
    (showSelection s).dispOut = s.dispOut := rfl
@[simp] theorem showSelection_pinOut (s : State) :
    (showSelection s).pinOut = s.pinOut := rfl
@[simp] theorem showSelection_inside (s : State) :
    (showSelection s).inside = s.inside := rfl
@[simp] theorem showSelection_cfg (s : State) :
    (showSelection s).cfg = s.cfg := rfl
@[simp] theorem showSelection_plan (s : State) :
    (showSelection s).plan = s.plan := rfl
@[simp] theorem showSelection_pins (s : State) :
    (showSelection s).pins = s.pins := rfl
@[simp] theorem showSelection_drawn (s : State) :
    (showSelection s).drawn = s.drawn := rfl
@[simp] theorem showSelection_resets (s : State) :
    (showSelection s).resets = s.resets := rfl
@[simp] theorem showSelection_busOut (s : State) :
    (showSelection s).busOut = s.busOut := rfl

/-! ### pinsOut -/

@[simp] theorem State.pinsOut_run (s : State) (e : PinEvent) :
    (s.pinsOut e).run = s.run := by unfold State.pinsOut; split <;> rfl
@[simp] theorem State.pinsOut_cp (s : State) (e : PinEvent) :
    (s.pinsOut e).cp = s.cp := by unfold State.pinsOut; split <;> rfl
@[simp] theorem State.pinsOut_clBase (s : State) (e : PinEvent) :
    (s.pinsOut e).clBase = s.clBase := by unfold State.pinsOut; split <;> rfl
@[simp] theorem State.pinsOut_scanMode (s : State) (e : PinEvent) :
    (s.pinsOut e).scanMode = s.scanMode := by unfold State.pinsOut; split <;> rfl
@[simp] theorem State.pinsOut_done (s : State) (e : PinEvent) :
    (s.pinsOut e).done = s.done := by unfold State.pinsOut; split <;> rfl
@[simp] theorem State.pinsOut_dmaDone (s : State) (e : PinEvent) :
    (s.pinsOut e).dmaDone = s.dmaDone := by unfold State.pinsOut; split <;> rfl
@[simp] theorem State.pinsOut_fault (s : State) (e : PinEvent) :
    (s.pinsOut e).fault = s.fault := by unfold State.pinsOut; split <;> rfl
@[simp] theorem State.pinsOut_doneIe (s : State) (e : PinEvent) :
    (s.pinsOut e).doneIe = s.doneIe := by unfold State.pinsOut; split <;> rfl
@[simp] theorem State.pinsOut_dmaDoneIe (s : State) (e : PinEvent) :
    (s.pinsOut e).dmaDoneIe = s.dmaDoneIe := by unfold State.pinsOut; split <;> rfl
@[simp] theorem State.pinsOut_faultIe (s : State) (e : PinEvent) :
    (s.pinsOut e).faultIe = s.faultIe := by unfold State.pinsOut; split <;> rfl
@[simp] theorem State.pinsOut_faultCause (s : State) (e : PinEvent) :
    (s.pinsOut e).faultCause = s.faultCause := by unfold State.pinsOut; split <;> rfl
@[simp] theorem State.pinsOut_faultCp (s : State) (e : PinEvent) :
    (s.pinsOut e).faultCp = s.faultCp := by unfold State.pinsOut; split <;> rfl
@[simp] theorem State.pinsOut_faultWord (s : State) (e : PinEvent) :
    (s.pinsOut e).faultWord = s.faultWord := by unfold State.pinsOut; split <;> rfl
@[simp] theorem State.pinsOut_row0 (s : State) (e : PinEvent) :
    (s.pinsOut e).row0 = s.row0 := by unfold State.pinsOut; split <;> rfl
@[simp] theorem State.pinsOut_row1 (s : State) (e : PinEvent) :
    (s.pinsOut e).row1 = s.row1 := by unfold State.pinsOut; split <;> rfl
@[simp] theorem State.pinsOut_led (s : State) (e : PinEvent) :
    (s.pinsOut e).led = s.led := by unfold State.pinsOut; split <;> rfl
@[simp] theorem State.pinsOut_sel (s : State) (e : PinEvent) :
    (s.pinsOut e).sel = s.sel := by unfold State.pinsOut; split <;> rfl
@[simp] theorem State.pinsOut_last (s : State) (e : PinEvent) :
    (s.pinsOut e).last = s.last := by unfold State.pinsOut; split <;> rfl
@[simp] theorem State.pinsOut_upEdge (s : State) (e : PinEvent) :
    (s.pinsOut e).upEdge = s.upEdge := by unfold State.pinsOut; split <;> rfl
@[simp] theorem State.pinsOut_downEdge (s : State) (e : PinEvent) :
    (s.pinsOut e).downEdge = s.downEdge := by unfold State.pinsOut; split <;> rfl
@[simp] theorem State.pinsOut_menuEdge (s : State) (e : PinEvent) :
    (s.pinsOut e).menuEdge = s.menuEdge := by unfold State.pinsOut; split <;> rfl
@[simp] theorem State.pinsOut_speed0 (s : State) (e : PinEvent) :
    (s.pinsOut e).speed0 = s.speed0 := by unfold State.pinsOut; split <;> rfl
@[simp] theorem State.pinsOut_speed1 (s : State) (e : PinEvent) :
    (s.pinsOut e).speed1 = s.speed1 := by unfold State.pinsOut; split <;> rfl
@[simp] theorem State.pinsOut_speed2 (s : State) (e : PinEvent) :
    (s.pinsOut e).speed2 = s.speed2 := by unfold State.pinsOut; split <;> rfl
@[simp] theorem State.pinsOut_speed3 (s : State) (e : PinEvent) :
    (s.pinsOut e).speed3 = s.speed3 := by unfold State.pinsOut; split <;> rfl
@[simp] theorem State.pinsOut_dmaActive (s : State) (e : PinEvent) :
    (s.pinsOut e).dmaActive = s.dmaActive := by unfold State.pinsOut; split <;> rfl
@[simp] theorem State.pinsOut_dmaIdx (s : State) (e : PinEvent) :
    (s.pinsOut e).dmaIdx = s.dmaIdx := by unfold State.pinsOut; split <;> rfl
@[simp] theorem State.pinsOut_mem (s : State) (e : PinEvent) :
    (s.pinsOut e).mem = s.mem := by unfold State.pinsOut; split <;> rfl
@[simp] theorem State.pinsOut_dispOut (s : State) (e : PinEvent) :
    (s.pinsOut e).dispOut = s.dispOut := by unfold State.pinsOut; split <;> rfl
@[simp] theorem State.pinsOut_pinOut (s : State) (e : PinEvent) :
    (s.pinsOut e).pinOut = e :: s.pinOut := by unfold State.pinsOut; split <;> rfl
@[simp] theorem State.pinsOut_inside (s : State) (e : PinEvent) :
    (s.pinsOut e).inside = s.inside := by unfold State.pinsOut; split <;> rfl
@[simp] theorem State.pinsOut_cfg (s : State) (e : PinEvent) :
    (s.pinsOut e).cfg = s.cfg := by unfold State.pinsOut; split <;> rfl
@[simp] theorem State.pinsOut_plan (s : State) (e : PinEvent) :
    (s.pinsOut e).plan = s.plan := by unfold State.pinsOut; split <;> rfl
@[simp] theorem State.pinsOut_pins (s : State) (e : PinEvent) :
    (s.pinsOut e).pins = s.pins := by unfold State.pinsOut; split <;> rfl
@[simp] theorem State.pinsOut_drawn (s : State) (e : PinEvent) :
    (s.pinsOut e).drawn = s.drawn := by unfold State.pinsOut; split <;> rfl
@[simp] theorem State.pinsOut_resets (s : State) (e : PinEvent) :
    (s.pinsOut e).resets = s.resets := by unfold State.pinsOut; split <;> rfl
@[simp] theorem State.pinsOut_busOut (s : State) (e : PinEvent) :
    (s.pinsOut e).busOut = s.busOut := by unfold State.pinsOut; split <;> rfl

/-! ### sampled -/

@[simp] theorem State.sampled_run (s : State) :
    s.sampled.run = s.run := by unfold State.sampled; split <;> rfl
@[simp] theorem State.sampled_cp (s : State) :
    s.sampled.cp = s.cp := by unfold State.sampled; split <;> rfl
@[simp] theorem State.sampled_clBase (s : State) :
    s.sampled.clBase = s.clBase := by unfold State.sampled; split <;> rfl
@[simp] theorem State.sampled_scanMode (s : State) :
    s.sampled.scanMode = s.scanMode := by unfold State.sampled; split <;> rfl
@[simp] theorem State.sampled_done (s : State) :
    s.sampled.done = s.done := by unfold State.sampled; split <;> rfl
@[simp] theorem State.sampled_dmaDone (s : State) :
    s.sampled.dmaDone = s.dmaDone := by unfold State.sampled; split <;> rfl
@[simp] theorem State.sampled_fault (s : State) :
    s.sampled.fault = s.fault := by unfold State.sampled; split <;> rfl
@[simp] theorem State.sampled_doneIe (s : State) :
    s.sampled.doneIe = s.doneIe := by unfold State.sampled; split <;> rfl
@[simp] theorem State.sampled_dmaDoneIe (s : State) :
    s.sampled.dmaDoneIe = s.dmaDoneIe := by unfold State.sampled; split <;> rfl
@[simp] theorem State.sampled_faultIe (s : State) :
    s.sampled.faultIe = s.faultIe := by unfold State.sampled; split <;> rfl
@[simp] theorem State.sampled_faultCause (s : State) :
    s.sampled.faultCause = s.faultCause := by unfold State.sampled; split <;> rfl
@[simp] theorem State.sampled_faultCp (s : State) :
    s.sampled.faultCp = s.faultCp := by unfold State.sampled; split <;> rfl
@[simp] theorem State.sampled_faultWord (s : State) :
    s.sampled.faultWord = s.faultWord := by unfold State.sampled; split <;> rfl
@[simp] theorem State.sampled_row0 (s : State) :
    s.sampled.row0 = s.row0 := by unfold State.sampled; split <;> rfl
@[simp] theorem State.sampled_row1 (s : State) :
    s.sampled.row1 = s.row1 := by unfold State.sampled; split <;> rfl
@[simp] theorem State.sampled_led (s : State) :
    s.sampled.led = s.led := by unfold State.sampled; split <;> rfl
@[simp] theorem State.sampled_sel (s : State) :
    s.sampled.sel = s.sel := by unfold State.sampled; split <;> rfl
@[simp] theorem State.sampled_last (s : State) :
    s.sampled.last = s.last := by unfold State.sampled; split <;> rfl
@[simp] theorem State.sampled_upEdge (s : State) :
    s.sampled.upEdge = s.upEdge := by unfold State.sampled; split <;> rfl
@[simp] theorem State.sampled_downEdge (s : State) :
    s.sampled.downEdge = s.downEdge := by unfold State.sampled; split <;> rfl
@[simp] theorem State.sampled_menuEdge (s : State) :
    s.sampled.menuEdge = s.menuEdge := by unfold State.sampled; split <;> rfl
@[simp] theorem State.sampled_speed0 (s : State) :
    s.sampled.speed0 = s.speed0 := by unfold State.sampled; split <;> rfl
@[simp] theorem State.sampled_speed1 (s : State) :
    s.sampled.speed1 = s.speed1 := by unfold State.sampled; split <;> rfl
@[simp] theorem State.sampled_speed2 (s : State) :
    s.sampled.speed2 = s.speed2 := by unfold State.sampled; split <;> rfl
@[simp] theorem State.sampled_speed3 (s : State) :
    s.sampled.speed3 = s.speed3 := by unfold State.sampled; split <;> rfl
@[simp] theorem State.sampled_dmaActive (s : State) :
    s.sampled.dmaActive = s.dmaActive := by unfold State.sampled; split <;> rfl
@[simp] theorem State.sampled_dmaIdx (s : State) :
    s.sampled.dmaIdx = s.dmaIdx := by unfold State.sampled; split <;> rfl
@[simp] theorem State.sampled_mem (s : State) :
    s.sampled.mem = s.mem := by unfold State.sampled; split <;> rfl
@[simp] theorem State.sampled_srData (s : State) :
    s.sampled.srData = s.srData := by unfold State.sampled; split <;> rfl
@[simp] theorem State.sampled_srClk (s : State) :
    s.sampled.srClk = s.srClk := by unfold State.sampled; split <;> rfl
@[simp] theorem State.sampled_srLoad (s : State) :
    s.sampled.srLoad = s.srLoad := by unfold State.sampled; split <;> rfl
@[simp] theorem State.sampled_dispOut (s : State) :
    s.sampled.dispOut = s.dispOut := by unfold State.sampled; split <;> rfl
@[simp] theorem State.sampled_pinOut (s : State) :
    s.sampled.pinOut = s.pinOut := by unfold State.sampled; split <;> rfl
@[simp] theorem State.sampled_inside (s : State) :
    s.sampled.inside = s.inside := by unfold State.sampled; split <;> rfl
@[simp] theorem State.sampled_cfg (s : State) :
    s.sampled.cfg = s.cfg := by unfold State.sampled; split <;> rfl
@[simp] theorem State.sampled_plan (s : State) :
    s.sampled.plan = s.plan := by unfold State.sampled; split <;> rfl
@[simp] theorem State.sampled_resets (s : State) :
    s.sampled.resets = s.resets := by unfold State.sampled; split <;> rfl
@[simp] theorem State.sampled_busOut (s : State) :
    s.sampled.busOut = s.busOut := by unfold State.sampled; split <;> rfl

/-! ### start -/

@[simp] theorem State.start_clBase (s : State) :
    s.start.clBase = s.clBase := by unfold State.start; split <;> rfl
@[simp] theorem State.start_scanMode (s : State) :
    s.start.scanMode = s.scanMode := by unfold State.start; split <;> rfl
@[simp] theorem State.start_done (s : State) :
    s.start.done = s.done := by unfold State.start; split <;> rfl
@[simp] theorem State.start_dmaDone (s : State) :
    s.start.dmaDone = s.dmaDone := by unfold State.start; split <;> rfl
@[simp] theorem State.start_fault (s : State) :
    s.start.fault = s.fault := by unfold State.start; split <;> rfl
@[simp] theorem State.start_doneIe (s : State) :
    s.start.doneIe = s.doneIe := by unfold State.start; split <;> rfl
@[simp] theorem State.start_dmaDoneIe (s : State) :
    s.start.dmaDoneIe = s.dmaDoneIe := by unfold State.start; split <;> rfl
@[simp] theorem State.start_faultIe (s : State) :
    s.start.faultIe = s.faultIe := by unfold State.start; split <;> rfl
@[simp] theorem State.start_faultCause (s : State) :
    s.start.faultCause = s.faultCause := by unfold State.start; split <;> rfl
@[simp] theorem State.start_faultCp (s : State) :
    s.start.faultCp = s.faultCp := by unfold State.start; split <;> rfl
@[simp] theorem State.start_faultWord (s : State) :
    s.start.faultWord = s.faultWord := by unfold State.start; split <;> rfl
@[simp] theorem State.start_row0 (s : State) :
    s.start.row0 = s.row0 := by unfold State.start; split <;> rfl
@[simp] theorem State.start_row1 (s : State) :
    s.start.row1 = s.row1 := by unfold State.start; split <;> rfl
@[simp] theorem State.start_led (s : State) :
    s.start.led = s.led := by unfold State.start; split <;> rfl
@[simp] theorem State.start_sel (s : State) :
    s.start.sel = s.sel := by unfold State.start; split <;> rfl
@[simp] theorem State.start_last (s : State) :
    s.start.last = s.last := by unfold State.start; split <;> rfl
@[simp] theorem State.start_upEdge (s : State) :
    s.start.upEdge = s.upEdge := by unfold State.start; split <;> rfl
@[simp] theorem State.start_downEdge (s : State) :
    s.start.downEdge = s.downEdge := by unfold State.start; split <;> rfl
@[simp] theorem State.start_menuEdge (s : State) :
    s.start.menuEdge = s.menuEdge := by unfold State.start; split <;> rfl
@[simp] theorem State.start_speed0 (s : State) :
    s.start.speed0 = s.speed0 := by unfold State.start; split <;> rfl
@[simp] theorem State.start_speed1 (s : State) :
    s.start.speed1 = s.speed1 := by unfold State.start; split <;> rfl
@[simp] theorem State.start_speed2 (s : State) :
    s.start.speed2 = s.speed2 := by unfold State.start; split <;> rfl
@[simp] theorem State.start_speed3 (s : State) :
    s.start.speed3 = s.speed3 := by unfold State.start; split <;> rfl
@[simp] theorem State.start_dmaActive (s : State) :
    s.start.dmaActive = s.dmaActive := by unfold State.start; split <;> rfl
@[simp] theorem State.start_dmaIdx (s : State) :
    s.start.dmaIdx = s.dmaIdx := by unfold State.start; split <;> rfl
@[simp] theorem State.start_mem (s : State) :
    s.start.mem = s.mem := by unfold State.start; split <;> rfl
@[simp] theorem State.start_srData (s : State) :
    s.start.srData = s.srData := by unfold State.start; split <;> rfl
@[simp] theorem State.start_srClk (s : State) :
    s.start.srClk = s.srClk := by unfold State.start; split <;> rfl
@[simp] theorem State.start_srLoad (s : State) :
    s.start.srLoad = s.srLoad := by unfold State.start; split <;> rfl
@[simp] theorem State.start_dispOut (s : State) :
    s.start.dispOut = s.dispOut := by unfold State.start; split <;> rfl
@[simp] theorem State.start_pinOut (s : State) :
    s.start.pinOut = s.pinOut := by unfold State.start; split <;> rfl
@[simp] theorem State.start_inside (s : State) :
    s.start.inside = s.inside := by unfold State.start; split <;> rfl
@[simp] theorem State.start_cfg (s : State) :
    s.start.cfg = s.cfg := by unfold State.start; split <;> rfl
@[simp] theorem State.start_plan (s : State) :
    s.start.plan = s.plan := by unfold State.start; split <;> rfl
@[simp] theorem State.start_pins (s : State) :
    s.start.pins = s.pins := by unfold State.start; split <;> rfl
@[simp] theorem State.start_drawn (s : State) :
    s.start.drawn = s.drawn := by unfold State.start; split <;> rfl
@[simp] theorem State.start_resets (s : State) :
    s.start.resets = s.resets := by unfold State.start; split <;> rfl
@[simp] theorem State.start_busOut (s : State) :
    s.start.busOut = s.busOut := by unfold State.start; split <;> rfl

/-! ### setSpeed -/

@[simp] theorem State.setSpeed_run (s : State) (n : BitVec 2) (v : Word) :
    (s.setSpeed n v).run = s.run := by unfold State.setSpeed; split_ifs <;> rfl
@[simp] theorem State.setSpeed_cp (s : State) (n : BitVec 2) (v : Word) :
    (s.setSpeed n v).cp = s.cp := by unfold State.setSpeed; split_ifs <;> rfl
@[simp] theorem State.setSpeed_clBase (s : State) (n : BitVec 2) (v : Word) :
    (s.setSpeed n v).clBase = s.clBase := by unfold State.setSpeed; split_ifs <;> rfl
@[simp] theorem State.setSpeed_scanMode (s : State) (n : BitVec 2) (v : Word) :
    (s.setSpeed n v).scanMode = s.scanMode := by unfold State.setSpeed; split_ifs <;> rfl
@[simp] theorem State.setSpeed_done (s : State) (n : BitVec 2) (v : Word) :
    (s.setSpeed n v).done = s.done := by unfold State.setSpeed; split_ifs <;> rfl
@[simp] theorem State.setSpeed_dmaDone (s : State) (n : BitVec 2) (v : Word) :
    (s.setSpeed n v).dmaDone = s.dmaDone := by unfold State.setSpeed; split_ifs <;> rfl
@[simp] theorem State.setSpeed_fault (s : State) (n : BitVec 2) (v : Word) :
    (s.setSpeed n v).fault = s.fault := by unfold State.setSpeed; split_ifs <;> rfl
@[simp] theorem State.setSpeed_doneIe (s : State) (n : BitVec 2) (v : Word) :
    (s.setSpeed n v).doneIe = s.doneIe := by unfold State.setSpeed; split_ifs <;> rfl
@[simp] theorem State.setSpeed_dmaDoneIe (s : State) (n : BitVec 2) (v : Word) :
    (s.setSpeed n v).dmaDoneIe = s.dmaDoneIe := by unfold State.setSpeed; split_ifs <;> rfl
@[simp] theorem State.setSpeed_faultIe (s : State) (n : BitVec 2) (v : Word) :
    (s.setSpeed n v).faultIe = s.faultIe := by unfold State.setSpeed; split_ifs <;> rfl
@[simp] theorem State.setSpeed_faultCause (s : State) (n : BitVec 2) (v : Word) :
    (s.setSpeed n v).faultCause = s.faultCause := by unfold State.setSpeed; split_ifs <;> rfl
@[simp] theorem State.setSpeed_faultCp (s : State) (n : BitVec 2) (v : Word) :
    (s.setSpeed n v).faultCp = s.faultCp := by unfold State.setSpeed; split_ifs <;> rfl
@[simp] theorem State.setSpeed_faultWord (s : State) (n : BitVec 2) (v : Word) :
    (s.setSpeed n v).faultWord = s.faultWord := by unfold State.setSpeed; split_ifs <;> rfl
@[simp] theorem State.setSpeed_row0 (s : State) (n : BitVec 2) (v : Word) :
    (s.setSpeed n v).row0 = s.row0 := by unfold State.setSpeed; split_ifs <;> rfl
@[simp] theorem State.setSpeed_row1 (s : State) (n : BitVec 2) (v : Word) :
    (s.setSpeed n v).row1 = s.row1 := by unfold State.setSpeed; split_ifs <;> rfl
@[simp] theorem State.setSpeed_led (s : State) (n : BitVec 2) (v : Word) :
    (s.setSpeed n v).led = s.led := by unfold State.setSpeed; split_ifs <;> rfl
@[simp] theorem State.setSpeed_sel (s : State) (n : BitVec 2) (v : Word) :
    (s.setSpeed n v).sel = s.sel := by unfold State.setSpeed; split_ifs <;> rfl
@[simp] theorem State.setSpeed_last (s : State) (n : BitVec 2) (v : Word) :
    (s.setSpeed n v).last = s.last := by unfold State.setSpeed; split_ifs <;> rfl
@[simp] theorem State.setSpeed_upEdge (s : State) (n : BitVec 2) (v : Word) :
    (s.setSpeed n v).upEdge = s.upEdge := by unfold State.setSpeed; split_ifs <;> rfl
@[simp] theorem State.setSpeed_downEdge (s : State) (n : BitVec 2) (v : Word) :
    (s.setSpeed n v).downEdge = s.downEdge := by unfold State.setSpeed; split_ifs <;> rfl
@[simp] theorem State.setSpeed_menuEdge (s : State) (n : BitVec 2) (v : Word) :
    (s.setSpeed n v).menuEdge = s.menuEdge := by unfold State.setSpeed; split_ifs <;> rfl
@[simp] theorem State.setSpeed_dmaActive (s : State) (n : BitVec 2) (v : Word) :
    (s.setSpeed n v).dmaActive = s.dmaActive := by unfold State.setSpeed; split_ifs <;> rfl
@[simp] theorem State.setSpeed_dmaIdx (s : State) (n : BitVec 2) (v : Word) :
    (s.setSpeed n v).dmaIdx = s.dmaIdx := by unfold State.setSpeed; split_ifs <;> rfl
@[simp] theorem State.setSpeed_mem (s : State) (n : BitVec 2) (v : Word) :
    (s.setSpeed n v).mem = s.mem := by unfold State.setSpeed; split_ifs <;> rfl
@[simp] theorem State.setSpeed_srData (s : State) (n : BitVec 2) (v : Word) :
    (s.setSpeed n v).srData = s.srData := by unfold State.setSpeed; split_ifs <;> rfl
@[simp] theorem State.setSpeed_srClk (s : State) (n : BitVec 2) (v : Word) :
    (s.setSpeed n v).srClk = s.srClk := by unfold State.setSpeed; split_ifs <;> rfl
@[simp] theorem State.setSpeed_srLoad (s : State) (n : BitVec 2) (v : Word) :
    (s.setSpeed n v).srLoad = s.srLoad := by unfold State.setSpeed; split_ifs <;> rfl
@[simp] theorem State.setSpeed_dispOut (s : State) (n : BitVec 2) (v : Word) :
    (s.setSpeed n v).dispOut = s.dispOut := by unfold State.setSpeed; split_ifs <;> rfl
@[simp] theorem State.setSpeed_pinOut (s : State) (n : BitVec 2) (v : Word) :
    (s.setSpeed n v).pinOut = s.pinOut := by unfold State.setSpeed; split_ifs <;> rfl
@[simp] theorem State.setSpeed_inside (s : State) (n : BitVec 2) (v : Word) :
    (s.setSpeed n v).inside = s.inside := by unfold State.setSpeed; split_ifs <;> rfl
@[simp] theorem State.setSpeed_cfg (s : State) (n : BitVec 2) (v : Word) :
    (s.setSpeed n v).cfg = s.cfg := by unfold State.setSpeed; split_ifs <;> rfl
@[simp] theorem State.setSpeed_plan (s : State) (n : BitVec 2) (v : Word) :
    (s.setSpeed n v).plan = s.plan := by unfold State.setSpeed; split_ifs <;> rfl
@[simp] theorem State.setSpeed_pins (s : State) (n : BitVec 2) (v : Word) :
    (s.setSpeed n v).pins = s.pins := by unfold State.setSpeed; split_ifs <;> rfl
@[simp] theorem State.setSpeed_drawn (s : State) (n : BitVec 2) (v : Word) :
    (s.setSpeed n v).drawn = s.drawn := by unfold State.setSpeed; split_ifs <;> rfl
@[simp] theorem State.setSpeed_resets (s : State) (n : BitVec 2) (v : Word) :
    (s.setSpeed n v).resets = s.resets := by unfold State.setSpeed; split_ifs <;> rfl
@[simp] theorem State.setSpeed_busOut (s : State) (n : BitVec 2) (v : Word) :
    (s.setSpeed n v).busOut = s.busOut := by unfold State.setSpeed; split_ifs <;> rfl

/-! ### fireUp -/

@[simp] theorem fireUp_run (s : State) (r0 r1 : Byte) :
    (fireUp s r0 r1).run = s.run := by unfold fireUp; split <;> rfl
@[simp] theorem fireUp_cp (s : State) (r0 r1 : Byte) :
    (fireUp s r0 r1).cp = s.cp := by unfold fireUp; split <;> rfl
@[simp] theorem fireUp_clBase (s : State) (r0 r1 : Byte) :
    (fireUp s r0 r1).clBase = s.clBase := by unfold fireUp; split <;> rfl
@[simp] theorem fireUp_scanMode (s : State) (r0 r1 : Byte) :
    (fireUp s r0 r1).scanMode = s.scanMode := by unfold fireUp; split <;> rfl
@[simp] theorem fireUp_done (s : State) (r0 r1 : Byte) :
    (fireUp s r0 r1).done = s.done := by unfold fireUp; split <;> rfl
@[simp] theorem fireUp_dmaDone (s : State) (r0 r1 : Byte) :
    (fireUp s r0 r1).dmaDone = s.dmaDone := by unfold fireUp; split <;> rfl
@[simp] theorem fireUp_fault (s : State) (r0 r1 : Byte) :
    (fireUp s r0 r1).fault = s.fault := by unfold fireUp; split <;> rfl
@[simp] theorem fireUp_doneIe (s : State) (r0 r1 : Byte) :
    (fireUp s r0 r1).doneIe = s.doneIe := by unfold fireUp; split <;> rfl
@[simp] theorem fireUp_dmaDoneIe (s : State) (r0 r1 : Byte) :
    (fireUp s r0 r1).dmaDoneIe = s.dmaDoneIe := by unfold fireUp; split <;> rfl
@[simp] theorem fireUp_faultIe (s : State) (r0 r1 : Byte) :
    (fireUp s r0 r1).faultIe = s.faultIe := by unfold fireUp; split <;> rfl
@[simp] theorem fireUp_faultCause (s : State) (r0 r1 : Byte) :
    (fireUp s r0 r1).faultCause = s.faultCause := by unfold fireUp; split <;> rfl
@[simp] theorem fireUp_faultCp (s : State) (r0 r1 : Byte) :
    (fireUp s r0 r1).faultCp = s.faultCp := by unfold fireUp; split <;> rfl
@[simp] theorem fireUp_faultWord (s : State) (r0 r1 : Byte) :
    (fireUp s r0 r1).faultWord = s.faultWord := by unfold fireUp; split <;> rfl
@[simp] theorem fireUp_row0 (s : State) (r0 r1 : Byte) :
    (fireUp s r0 r1).row0 = s.row0 := by unfold fireUp; split <;> rfl
@[simp] theorem fireUp_row1 (s : State) (r0 r1 : Byte) :
    (fireUp s r0 r1).row1 = s.row1 := by unfold fireUp; split <;> rfl
@[simp] theorem fireUp_led (s : State) (r0 r1 : Byte) :
    (fireUp s r0 r1).led = s.led := by unfold fireUp; split <;> rfl
@[simp] theorem fireUp_downEdge (s : State) (r0 r1 : Byte) :
    (fireUp s r0 r1).downEdge = s.downEdge := by unfold fireUp; split <;> rfl
@[simp] theorem fireUp_menuEdge (s : State) (r0 r1 : Byte) :
    (fireUp s r0 r1).menuEdge = s.menuEdge := by unfold fireUp; split <;> rfl
@[simp] theorem fireUp_speed0 (s : State) (r0 r1 : Byte) :
    (fireUp s r0 r1).speed0 = s.speed0 := by unfold fireUp; split <;> rfl
@[simp] theorem fireUp_speed1 (s : State) (r0 r1 : Byte) :
    (fireUp s r0 r1).speed1 = s.speed1 := by unfold fireUp; split <;> rfl
@[simp] theorem fireUp_speed2 (s : State) (r0 r1 : Byte) :
    (fireUp s r0 r1).speed2 = s.speed2 := by unfold fireUp; split <;> rfl
@[simp] theorem fireUp_speed3 (s : State) (r0 r1 : Byte) :
    (fireUp s r0 r1).speed3 = s.speed3 := by unfold fireUp; split <;> rfl
@[simp] theorem fireUp_dmaActive (s : State) (r0 r1 : Byte) :
    (fireUp s r0 r1).dmaActive = s.dmaActive := by unfold fireUp; split <;> rfl
@[simp] theorem fireUp_dmaIdx (s : State) (r0 r1 : Byte) :
    (fireUp s r0 r1).dmaIdx = s.dmaIdx := by unfold fireUp; split <;> rfl
@[simp] theorem fireUp_mem (s : State) (r0 r1 : Byte) :
    (fireUp s r0 r1).mem = s.mem := by unfold fireUp; split <;> rfl
@[simp] theorem fireUp_srData (s : State) (r0 r1 : Byte) :
    (fireUp s r0 r1).srData = s.srData := by unfold fireUp; split <;> rfl
@[simp] theorem fireUp_srClk (s : State) (r0 r1 : Byte) :
    (fireUp s r0 r1).srClk = s.srClk := by unfold fireUp; split <;> rfl
@[simp] theorem fireUp_srLoad (s : State) (r0 r1 : Byte) :
    (fireUp s r0 r1).srLoad = s.srLoad := by unfold fireUp; split <;> rfl
@[simp] theorem fireUp_dispOut (s : State) (r0 r1 : Byte) :
    (fireUp s r0 r1).dispOut = s.dispOut := by unfold fireUp; split <;> rfl
@[simp] theorem fireUp_pinOut (s : State) (r0 r1 : Byte) :
    (fireUp s r0 r1).pinOut = s.pinOut := by unfold fireUp; split <;> rfl
@[simp] theorem fireUp_inside (s : State) (r0 r1 : Byte) :
    (fireUp s r0 r1).inside = s.inside := by unfold fireUp; split <;> rfl
@[simp] theorem fireUp_cfg (s : State) (r0 r1 : Byte) :
    (fireUp s r0 r1).cfg = s.cfg := by unfold fireUp; split <;> rfl
@[simp] theorem fireUp_plan (s : State) (r0 r1 : Byte) :
    (fireUp s r0 r1).plan = s.plan := by unfold fireUp; split <;> rfl
@[simp] theorem fireUp_pins (s : State) (r0 r1 : Byte) :
    (fireUp s r0 r1).pins = s.pins := by unfold fireUp; split <;> rfl
@[simp] theorem fireUp_drawn (s : State) (r0 r1 : Byte) :
    (fireUp s r0 r1).drawn = s.drawn := by unfold fireUp; split <;> rfl
@[simp] theorem fireUp_resets (s : State) (r0 r1 : Byte) :
    (fireUp s r0 r1).resets = s.resets := by unfold fireUp; split <;> rfl
@[simp] theorem fireUp_busOut (s : State) (r0 r1 : Byte) :
    (fireUp s r0 r1).busOut = s.busOut := by unfold fireUp; split <;> rfl

/-! ### fireDown -/

@[simp] theorem fireDown_run (s : State) (r0 r1 : Byte) :
    (fireDown s r0 r1).run = s.run := by unfold fireDown; split <;> rfl
@[simp] theorem fireDown_cp (s : State) (r0 r1 : Byte) :
    (fireDown s r0 r1).cp = s.cp := by unfold fireDown; split <;> rfl
@[simp] theorem fireDown_clBase (s : State) (r0 r1 : Byte) :
    (fireDown s r0 r1).clBase = s.clBase := by unfold fireDown; split <;> rfl
@[simp] theorem fireDown_scanMode (s : State) (r0 r1 : Byte) :
    (fireDown s r0 r1).scanMode = s.scanMode := by unfold fireDown; split <;> rfl
@[simp] theorem fireDown_done (s : State) (r0 r1 : Byte) :
    (fireDown s r0 r1).done = s.done := by unfold fireDown; split <;> rfl
@[simp] theorem fireDown_dmaDone (s : State) (r0 r1 : Byte) :
    (fireDown s r0 r1).dmaDone = s.dmaDone := by unfold fireDown; split <;> rfl
@[simp] theorem fireDown_fault (s : State) (r0 r1 : Byte) :
    (fireDown s r0 r1).fault = s.fault := by unfold fireDown; split <;> rfl
@[simp] theorem fireDown_doneIe (s : State) (r0 r1 : Byte) :
    (fireDown s r0 r1).doneIe = s.doneIe := by unfold fireDown; split <;> rfl
@[simp] theorem fireDown_dmaDoneIe (s : State) (r0 r1 : Byte) :
    (fireDown s r0 r1).dmaDoneIe = s.dmaDoneIe := by unfold fireDown; split <;> rfl
@[simp] theorem fireDown_faultIe (s : State) (r0 r1 : Byte) :
    (fireDown s r0 r1).faultIe = s.faultIe := by unfold fireDown; split <;> rfl
@[simp] theorem fireDown_faultCause (s : State) (r0 r1 : Byte) :
    (fireDown s r0 r1).faultCause = s.faultCause := by unfold fireDown; split <;> rfl
@[simp] theorem fireDown_faultCp (s : State) (r0 r1 : Byte) :
    (fireDown s r0 r1).faultCp = s.faultCp := by unfold fireDown; split <;> rfl
@[simp] theorem fireDown_faultWord (s : State) (r0 r1 : Byte) :
    (fireDown s r0 r1).faultWord = s.faultWord := by unfold fireDown; split <;> rfl
@[simp] theorem fireDown_row0 (s : State) (r0 r1 : Byte) :
    (fireDown s r0 r1).row0 = s.row0 := by unfold fireDown; split <;> rfl
@[simp] theorem fireDown_row1 (s : State) (r0 r1 : Byte) :
    (fireDown s r0 r1).row1 = s.row1 := by unfold fireDown; split <;> rfl
@[simp] theorem fireDown_led (s : State) (r0 r1 : Byte) :
    (fireDown s r0 r1).led = s.led := by unfold fireDown; split <;> rfl
@[simp] theorem fireDown_upEdge (s : State) (r0 r1 : Byte) :
    (fireDown s r0 r1).upEdge = s.upEdge := by unfold fireDown; split <;> rfl
@[simp] theorem fireDown_menuEdge (s : State) (r0 r1 : Byte) :
    (fireDown s r0 r1).menuEdge = s.menuEdge := by unfold fireDown; split <;> rfl
@[simp] theorem fireDown_speed0 (s : State) (r0 r1 : Byte) :
    (fireDown s r0 r1).speed0 = s.speed0 := by unfold fireDown; split <;> rfl
@[simp] theorem fireDown_speed1 (s : State) (r0 r1 : Byte) :
    (fireDown s r0 r1).speed1 = s.speed1 := by unfold fireDown; split <;> rfl
@[simp] theorem fireDown_speed2 (s : State) (r0 r1 : Byte) :
    (fireDown s r0 r1).speed2 = s.speed2 := by unfold fireDown; split <;> rfl
@[simp] theorem fireDown_speed3 (s : State) (r0 r1 : Byte) :
    (fireDown s r0 r1).speed3 = s.speed3 := by unfold fireDown; split <;> rfl
@[simp] theorem fireDown_dmaActive (s : State) (r0 r1 : Byte) :
    (fireDown s r0 r1).dmaActive = s.dmaActive := by unfold fireDown; split <;> rfl
@[simp] theorem fireDown_dmaIdx (s : State) (r0 r1 : Byte) :
    (fireDown s r0 r1).dmaIdx = s.dmaIdx := by unfold fireDown; split <;> rfl
@[simp] theorem fireDown_mem (s : State) (r0 r1 : Byte) :
    (fireDown s r0 r1).mem = s.mem := by unfold fireDown; split <;> rfl
@[simp] theorem fireDown_srData (s : State) (r0 r1 : Byte) :
    (fireDown s r0 r1).srData = s.srData := by unfold fireDown; split <;> rfl
@[simp] theorem fireDown_srClk (s : State) (r0 r1 : Byte) :
    (fireDown s r0 r1).srClk = s.srClk := by unfold fireDown; split <;> rfl
@[simp] theorem fireDown_srLoad (s : State) (r0 r1 : Byte) :
    (fireDown s r0 r1).srLoad = s.srLoad := by unfold fireDown; split <;> rfl
@[simp] theorem fireDown_dispOut (s : State) (r0 r1 : Byte) :
    (fireDown s r0 r1).dispOut = s.dispOut := by unfold fireDown; split <;> rfl
@[simp] theorem fireDown_pinOut (s : State) (r0 r1 : Byte) :
    (fireDown s r0 r1).pinOut = s.pinOut := by unfold fireDown; split <;> rfl
@[simp] theorem fireDown_inside (s : State) (r0 r1 : Byte) :
    (fireDown s r0 r1).inside = s.inside := by unfold fireDown; split <;> rfl
@[simp] theorem fireDown_cfg (s : State) (r0 r1 : Byte) :
    (fireDown s r0 r1).cfg = s.cfg := by unfold fireDown; split <;> rfl
@[simp] theorem fireDown_plan (s : State) (r0 r1 : Byte) :
    (fireDown s r0 r1).plan = s.plan := by unfold fireDown; split <;> rfl
@[simp] theorem fireDown_pins (s : State) (r0 r1 : Byte) :
    (fireDown s r0 r1).pins = s.pins := by unfold fireDown; split <;> rfl
@[simp] theorem fireDown_drawn (s : State) (r0 r1 : Byte) :
    (fireDown s r0 r1).drawn = s.drawn := by unfold fireDown; split <;> rfl
@[simp] theorem fireDown_resets (s : State) (r0 r1 : Byte) :
    (fireDown s r0 r1).resets = s.resets := by unfold fireDown; split <;> rfl
@[simp] theorem fireDown_busOut (s : State) (r0 r1 : Byte) :
    (fireDown s r0 r1).busOut = s.busOut := by unfold fireDown; split <;> rfl

/-! ### slower -/

@[simp] theorem slower_run (s : State) (r0 r1 : Byte) :
    (slower s r0 r1).run = s.run := by
  unfold slower
  split
  · exact State.setSpeed_run _ _ _
  · rfl
@[simp] theorem slower_cp (s : State) (r0 r1 : Byte) :
    (slower s r0 r1).cp = s.cp := by
  unfold slower
  split
  · exact State.setSpeed_cp _ _ _
  · rfl
@[simp] theorem slower_clBase (s : State) (r0 r1 : Byte) :
    (slower s r0 r1).clBase = s.clBase := by
  unfold slower
  split
  · exact State.setSpeed_clBase _ _ _
  · rfl
@[simp] theorem slower_scanMode (s : State) (r0 r1 : Byte) :
    (slower s r0 r1).scanMode = s.scanMode := by
  unfold slower
  split
  · exact State.setSpeed_scanMode _ _ _
  · rfl
@[simp] theorem slower_done (s : State) (r0 r1 : Byte) :
    (slower s r0 r1).done = s.done := by
  unfold slower
  split
  · exact State.setSpeed_done _ _ _
  · rfl
@[simp] theorem slower_dmaDone (s : State) (r0 r1 : Byte) :
    (slower s r0 r1).dmaDone = s.dmaDone := by
  unfold slower
  split
  · exact State.setSpeed_dmaDone _ _ _
  · rfl
@[simp] theorem slower_fault (s : State) (r0 r1 : Byte) :
    (slower s r0 r1).fault = s.fault := by
  unfold slower
  split
  · exact State.setSpeed_fault _ _ _
  · rfl
@[simp] theorem slower_doneIe (s : State) (r0 r1 : Byte) :
    (slower s r0 r1).doneIe = s.doneIe := by
  unfold slower
  split
  · exact State.setSpeed_doneIe _ _ _
  · rfl
@[simp] theorem slower_dmaDoneIe (s : State) (r0 r1 : Byte) :
    (slower s r0 r1).dmaDoneIe = s.dmaDoneIe := by
  unfold slower
  split
  · exact State.setSpeed_dmaDoneIe _ _ _
  · rfl
@[simp] theorem slower_faultIe (s : State) (r0 r1 : Byte) :
    (slower s r0 r1).faultIe = s.faultIe := by
  unfold slower
  split
  · exact State.setSpeed_faultIe _ _ _
  · rfl
@[simp] theorem slower_faultCause (s : State) (r0 r1 : Byte) :
    (slower s r0 r1).faultCause = s.faultCause := by
  unfold slower
  split
  · exact State.setSpeed_faultCause _ _ _
  · rfl
@[simp] theorem slower_faultCp (s : State) (r0 r1 : Byte) :
    (slower s r0 r1).faultCp = s.faultCp := by
  unfold slower
  split
  · exact State.setSpeed_faultCp _ _ _
  · rfl
@[simp] theorem slower_faultWord (s : State) (r0 r1 : Byte) :
    (slower s r0 r1).faultWord = s.faultWord := by
  unfold slower
  split
  · exact State.setSpeed_faultWord _ _ _
  · rfl
@[simp] theorem slower_row0 (s : State) (r0 r1 : Byte) :
    (slower s r0 r1).row0 = s.row0 := by
  unfold slower
  split
  · exact State.setSpeed_row0 _ _ _
  · rfl
@[simp] theorem slower_row1 (s : State) (r0 r1 : Byte) :
    (slower s r0 r1).row1 = s.row1 := by
  unfold slower
  split
  · exact State.setSpeed_row1 _ _ _
  · rfl
@[simp] theorem slower_led (s : State) (r0 r1 : Byte) :
    (slower s r0 r1).led = s.led := by
  unfold slower
  split
  · exact State.setSpeed_led _ _ _
  · rfl
@[simp] theorem slower_sel (s : State) (r0 r1 : Byte) :
    (slower s r0 r1).sel = s.sel := by
  unfold slower
  split
  · exact State.setSpeed_sel _ _ _
  · rfl
@[simp] theorem slower_last (s : State) (r0 r1 : Byte) :
    (slower s r0 r1).last = s.last := by
  unfold slower
  split
  · exact State.setSpeed_last _ _ _
  · rfl
@[simp] theorem slower_upEdge (s : State) (r0 r1 : Byte) :
    (slower s r0 r1).upEdge = s.upEdge := by
  unfold slower
  split
  · exact State.setSpeed_upEdge _ _ _
  · rfl
@[simp] theorem slower_downEdge (s : State) (r0 r1 : Byte) :
    (slower s r0 r1).downEdge = s.downEdge := by
  unfold slower
  split
  · exact State.setSpeed_downEdge _ _ _
  · rfl
@[simp] theorem slower_menuEdge (s : State) (r0 r1 : Byte) :
    (slower s r0 r1).menuEdge = s.menuEdge := by
  unfold slower
  split
  · exact State.setSpeed_menuEdge _ _ _
  · rfl
@[simp] theorem slower_dmaActive (s : State) (r0 r1 : Byte) :
    (slower s r0 r1).dmaActive = s.dmaActive := by
  unfold slower
  split
  · exact State.setSpeed_dmaActive _ _ _
  · rfl
@[simp] theorem slower_dmaIdx (s : State) (r0 r1 : Byte) :
    (slower s r0 r1).dmaIdx = s.dmaIdx := by
  unfold slower
  split
  · exact State.setSpeed_dmaIdx _ _ _
  · rfl
@[simp] theorem slower_mem (s : State) (r0 r1 : Byte) :
    (slower s r0 r1).mem = s.mem := by
  unfold slower
  split
  · exact State.setSpeed_mem _ _ _
  · rfl
@[simp] theorem slower_srData (s : State) (r0 r1 : Byte) :
    (slower s r0 r1).srData = s.srData := by
  unfold slower
  split
  · exact State.setSpeed_srData _ _ _
  · rfl
@[simp] theorem slower_srClk (s : State) (r0 r1 : Byte) :
    (slower s r0 r1).srClk = s.srClk := by
  unfold slower
  split
  · exact State.setSpeed_srClk _ _ _
  · rfl
@[simp] theorem slower_srLoad (s : State) (r0 r1 : Byte) :
    (slower s r0 r1).srLoad = s.srLoad := by
  unfold slower
  split
  · exact State.setSpeed_srLoad _ _ _
  · rfl
@[simp] theorem slower_dispOut (s : State) (r0 r1 : Byte) :
    (slower s r0 r1).dispOut = s.dispOut := by
  unfold slower
  split
  · exact State.setSpeed_dispOut _ _ _
  · rfl
@[simp] theorem slower_pinOut (s : State) (r0 r1 : Byte) :
    (slower s r0 r1).pinOut = s.pinOut := by
  unfold slower
  split
  · exact State.setSpeed_pinOut _ _ _
  · rfl
@[simp] theorem slower_inside (s : State) (r0 r1 : Byte) :
    (slower s r0 r1).inside = s.inside := by
  unfold slower
  split
  · exact State.setSpeed_inside _ _ _
  · rfl
@[simp] theorem slower_cfg (s : State) (r0 r1 : Byte) :
    (slower s r0 r1).cfg = s.cfg := by
  unfold slower
  split
  · exact State.setSpeed_cfg _ _ _
  · rfl
@[simp] theorem slower_plan (s : State) (r0 r1 : Byte) :
    (slower s r0 r1).plan = s.plan := by
  unfold slower
  split
  · exact State.setSpeed_plan _ _ _
  · rfl
@[simp] theorem slower_pins (s : State) (r0 r1 : Byte) :
    (slower s r0 r1).pins = s.pins := by
  unfold slower
  split
  · exact State.setSpeed_pins _ _ _
  · rfl
@[simp] theorem slower_drawn (s : State) (r0 r1 : Byte) :
    (slower s r0 r1).drawn = s.drawn := by
  unfold slower
  split
  · exact State.setSpeed_drawn _ _ _
  · rfl
@[simp] theorem slower_resets (s : State) (r0 r1 : Byte) :
    (slower s r0 r1).resets = s.resets := by
  unfold slower
  split
  · exact State.setSpeed_resets _ _ _
  · rfl
@[simp] theorem slower_busOut (s : State) (r0 r1 : Byte) :
    (slower s r0 r1).busOut = s.busOut := by
  unfold slower
  split
  · exact State.setSpeed_busOut _ _ _
  · rfl

/-! ### faster -/

@[simp] theorem faster_run (s : State) (r0 r1 : Byte) :
    (faster s r0 r1).run = s.run := by
  unfold faster
  split
  · exact State.setSpeed_run _ _ _
  · rfl
@[simp] theorem faster_cp (s : State) (r0 r1 : Byte) :
    (faster s r0 r1).cp = s.cp := by
  unfold faster
  split
  · exact State.setSpeed_cp _ _ _
  · rfl
@[simp] theorem faster_clBase (s : State) (r0 r1 : Byte) :
    (faster s r0 r1).clBase = s.clBase := by
  unfold faster
  split
  · exact State.setSpeed_clBase _ _ _
  · rfl
@[simp] theorem faster_scanMode (s : State) (r0 r1 : Byte) :
    (faster s r0 r1).scanMode = s.scanMode := by
  unfold faster
  split
  · exact State.setSpeed_scanMode _ _ _
  · rfl
@[simp] theorem faster_done (s : State) (r0 r1 : Byte) :
    (faster s r0 r1).done = s.done := by
  unfold faster
  split
  · exact State.setSpeed_done _ _ _
  · rfl
@[simp] theorem faster_dmaDone (s : State) (r0 r1 : Byte) :
    (faster s r0 r1).dmaDone = s.dmaDone := by
  unfold faster
  split
  · exact State.setSpeed_dmaDone _ _ _
  · rfl
@[simp] theorem faster_fault (s : State) (r0 r1 : Byte) :
    (faster s r0 r1).fault = s.fault := by
  unfold faster
  split
  · exact State.setSpeed_fault _ _ _
  · rfl
@[simp] theorem faster_doneIe (s : State) (r0 r1 : Byte) :
    (faster s r0 r1).doneIe = s.doneIe := by
  unfold faster
  split
  · exact State.setSpeed_doneIe _ _ _
  · rfl
@[simp] theorem faster_dmaDoneIe (s : State) (r0 r1 : Byte) :
    (faster s r0 r1).dmaDoneIe = s.dmaDoneIe := by
  unfold faster
  split
  · exact State.setSpeed_dmaDoneIe _ _ _
  · rfl
@[simp] theorem faster_faultIe (s : State) (r0 r1 : Byte) :
    (faster s r0 r1).faultIe = s.faultIe := by
  unfold faster
  split
  · exact State.setSpeed_faultIe _ _ _
  · rfl
@[simp] theorem faster_faultCause (s : State) (r0 r1 : Byte) :
    (faster s r0 r1).faultCause = s.faultCause := by
  unfold faster
  split
  · exact State.setSpeed_faultCause _ _ _
  · rfl
@[simp] theorem faster_faultCp (s : State) (r0 r1 : Byte) :
    (faster s r0 r1).faultCp = s.faultCp := by
  unfold faster
  split
  · exact State.setSpeed_faultCp _ _ _
  · rfl
@[simp] theorem faster_faultWord (s : State) (r0 r1 : Byte) :
    (faster s r0 r1).faultWord = s.faultWord := by
  unfold faster
  split
  · exact State.setSpeed_faultWord _ _ _
  · rfl
@[simp] theorem faster_row0 (s : State) (r0 r1 : Byte) :
    (faster s r0 r1).row0 = s.row0 := by
  unfold faster
  split
  · exact State.setSpeed_row0 _ _ _
  · rfl
@[simp] theorem faster_row1 (s : State) (r0 r1 : Byte) :
    (faster s r0 r1).row1 = s.row1 := by
  unfold faster
  split
  · exact State.setSpeed_row1 _ _ _
  · rfl
@[simp] theorem faster_led (s : State) (r0 r1 : Byte) :
    (faster s r0 r1).led = s.led := by
  unfold faster
  split
  · exact State.setSpeed_led _ _ _
  · rfl
@[simp] theorem faster_sel (s : State) (r0 r1 : Byte) :
    (faster s r0 r1).sel = s.sel := by
  unfold faster
  split
  · exact State.setSpeed_sel _ _ _
  · rfl
@[simp] theorem faster_last (s : State) (r0 r1 : Byte) :
    (faster s r0 r1).last = s.last := by
  unfold faster
  split
  · exact State.setSpeed_last _ _ _
  · rfl
@[simp] theorem faster_upEdge (s : State) (r0 r1 : Byte) :
    (faster s r0 r1).upEdge = s.upEdge := by
  unfold faster
  split
  · exact State.setSpeed_upEdge _ _ _
  · rfl
@[simp] theorem faster_downEdge (s : State) (r0 r1 : Byte) :
    (faster s r0 r1).downEdge = s.downEdge := by
  unfold faster
  split
  · exact State.setSpeed_downEdge _ _ _
  · rfl
@[simp] theorem faster_menuEdge (s : State) (r0 r1 : Byte) :
    (faster s r0 r1).menuEdge = s.menuEdge := by
  unfold faster
  split
  · exact State.setSpeed_menuEdge _ _ _
  · rfl
@[simp] theorem faster_dmaActive (s : State) (r0 r1 : Byte) :
    (faster s r0 r1).dmaActive = s.dmaActive := by
  unfold faster
  split
  · exact State.setSpeed_dmaActive _ _ _
  · rfl
@[simp] theorem faster_dmaIdx (s : State) (r0 r1 : Byte) :
    (faster s r0 r1).dmaIdx = s.dmaIdx := by
  unfold faster
  split
  · exact State.setSpeed_dmaIdx _ _ _
  · rfl
@[simp] theorem faster_mem (s : State) (r0 r1 : Byte) :
    (faster s r0 r1).mem = s.mem := by
  unfold faster
  split
  · exact State.setSpeed_mem _ _ _
  · rfl
@[simp] theorem faster_srData (s : State) (r0 r1 : Byte) :
    (faster s r0 r1).srData = s.srData := by
  unfold faster
  split
  · exact State.setSpeed_srData _ _ _
  · rfl
@[simp] theorem faster_srClk (s : State) (r0 r1 : Byte) :
    (faster s r0 r1).srClk = s.srClk := by
  unfold faster
  split
  · exact State.setSpeed_srClk _ _ _
  · rfl
@[simp] theorem faster_srLoad (s : State) (r0 r1 : Byte) :
    (faster s r0 r1).srLoad = s.srLoad := by
  unfold faster
  split
  · exact State.setSpeed_srLoad _ _ _
  · rfl
@[simp] theorem faster_dispOut (s : State) (r0 r1 : Byte) :
    (faster s r0 r1).dispOut = s.dispOut := by
  unfold faster
  split
  · exact State.setSpeed_dispOut _ _ _
  · rfl
@[simp] theorem faster_pinOut (s : State) (r0 r1 : Byte) :
    (faster s r0 r1).pinOut = s.pinOut := by
  unfold faster
  split
  · exact State.setSpeed_pinOut _ _ _
  · rfl
@[simp] theorem faster_inside (s : State) (r0 r1 : Byte) :
    (faster s r0 r1).inside = s.inside := by
  unfold faster
  split
  · exact State.setSpeed_inside _ _ _
  · rfl
@[simp] theorem faster_cfg (s : State) (r0 r1 : Byte) :
    (faster s r0 r1).cfg = s.cfg := by
  unfold faster
  split
  · exact State.setSpeed_cfg _ _ _
  · rfl
@[simp] theorem faster_plan (s : State) (r0 r1 : Byte) :
    (faster s r0 r1).plan = s.plan := by
  unfold faster
  split
  · exact State.setSpeed_plan _ _ _
  · rfl
@[simp] theorem faster_pins (s : State) (r0 r1 : Byte) :
    (faster s r0 r1).pins = s.pins := by
  unfold faster
  split
  · exact State.setSpeed_pins _ _ _
  · rfl
@[simp] theorem faster_drawn (s : State) (r0 r1 : Byte) :
    (faster s r0 r1).drawn = s.drawn := by
  unfold faster
  split
  · exact State.setSpeed_drawn _ _ _
  · rfl
@[simp] theorem faster_resets (s : State) (r0 r1 : Byte) :
    (faster s r0 r1).resets = s.resets := by
  unfold faster
  split
  · exact State.setSpeed_resets _ _ _
  · rfl
@[simp] theorem faster_busOut (s : State) (r0 r1 : Byte) :
    (faster s r0 r1).busOut = s.busOut := by
  unfold faster
  split
  · exact State.setSpeed_busOut _ _ _
  · rfl

/-! ### fireMenu -/

@[simp] theorem fireMenu_run (s : State) (r0 r1 : Byte) :
    (fireMenu s r0 r1).run = s.run := by unfold fireMenu; split <;> simp
@[simp] theorem fireMenu_cp (s : State) (r0 r1 : Byte) :
    (fireMenu s r0 r1).cp = s.cp := by unfold fireMenu; split <;> simp
@[simp] theorem fireMenu_clBase (s : State) (r0 r1 : Byte) :
    (fireMenu s r0 r1).clBase = s.clBase := by unfold fireMenu; split <;> simp
@[simp] theorem fireMenu_scanMode (s : State) (r0 r1 : Byte) :
    (fireMenu s r0 r1).scanMode = s.scanMode := by unfold fireMenu; split <;> simp
@[simp] theorem fireMenu_done (s : State) (r0 r1 : Byte) :
    (fireMenu s r0 r1).done = s.done := by unfold fireMenu; split <;> simp
@[simp] theorem fireMenu_dmaDone (s : State) (r0 r1 : Byte) :
    (fireMenu s r0 r1).dmaDone = s.dmaDone := by unfold fireMenu; split <;> simp
@[simp] theorem fireMenu_fault (s : State) (r0 r1 : Byte) :
    (fireMenu s r0 r1).fault = s.fault := by unfold fireMenu; split <;> simp
@[simp] theorem fireMenu_doneIe (s : State) (r0 r1 : Byte) :
    (fireMenu s r0 r1).doneIe = s.doneIe := by unfold fireMenu; split <;> simp
@[simp] theorem fireMenu_dmaDoneIe (s : State) (r0 r1 : Byte) :
    (fireMenu s r0 r1).dmaDoneIe = s.dmaDoneIe := by unfold fireMenu; split <;> simp
@[simp] theorem fireMenu_faultIe (s : State) (r0 r1 : Byte) :
    (fireMenu s r0 r1).faultIe = s.faultIe := by unfold fireMenu; split <;> simp
@[simp] theorem fireMenu_faultCause (s : State) (r0 r1 : Byte) :
    (fireMenu s r0 r1).faultCause = s.faultCause := by unfold fireMenu; split <;> simp
@[simp] theorem fireMenu_faultCp (s : State) (r0 r1 : Byte) :
    (fireMenu s r0 r1).faultCp = s.faultCp := by unfold fireMenu; split <;> simp
@[simp] theorem fireMenu_faultWord (s : State) (r0 r1 : Byte) :
    (fireMenu s r0 r1).faultWord = s.faultWord := by unfold fireMenu; split <;> simp
@[simp] theorem fireMenu_row0 (s : State) (r0 r1 : Byte) :
    (fireMenu s r0 r1).row0 = s.row0 := by unfold fireMenu; split <;> simp
@[simp] theorem fireMenu_row1 (s : State) (r0 r1 : Byte) :
    (fireMenu s r0 r1).row1 = s.row1 := by unfold fireMenu; split <;> simp
@[simp] theorem fireMenu_led (s : State) (r0 r1 : Byte) :
    (fireMenu s r0 r1).led = s.led := by unfold fireMenu; split <;> simp
@[simp] theorem fireMenu_sel (s : State) (r0 r1 : Byte) :
    (fireMenu s r0 r1).sel = s.sel := by unfold fireMenu; split <;> simp
@[simp] theorem fireMenu_upEdge (s : State) (r0 r1 : Byte) :
    (fireMenu s r0 r1).upEdge = s.upEdge := by unfold fireMenu; split <;> simp
@[simp] theorem fireMenu_downEdge (s : State) (r0 r1 : Byte) :
    (fireMenu s r0 r1).downEdge = s.downEdge := by unfold fireMenu; split <;> simp
@[simp] theorem fireMenu_dmaActive (s : State) (r0 r1 : Byte) :
    (fireMenu s r0 r1).dmaActive = s.dmaActive := by unfold fireMenu; split <;> simp
@[simp] theorem fireMenu_dmaIdx (s : State) (r0 r1 : Byte) :
    (fireMenu s r0 r1).dmaIdx = s.dmaIdx := by unfold fireMenu; split <;> simp
@[simp] theorem fireMenu_mem (s : State) (r0 r1 : Byte) :
    (fireMenu s r0 r1).mem = s.mem := by unfold fireMenu; split <;> simp
@[simp] theorem fireMenu_srData (s : State) (r0 r1 : Byte) :
    (fireMenu s r0 r1).srData = s.srData := by unfold fireMenu; split <;> simp
@[simp] theorem fireMenu_srClk (s : State) (r0 r1 : Byte) :
    (fireMenu s r0 r1).srClk = s.srClk := by unfold fireMenu; split <;> simp
@[simp] theorem fireMenu_srLoad (s : State) (r0 r1 : Byte) :
    (fireMenu s r0 r1).srLoad = s.srLoad := by unfold fireMenu; split <;> simp
@[simp] theorem fireMenu_dispOut (s : State) (r0 r1 : Byte) :
    (fireMenu s r0 r1).dispOut = s.dispOut := by unfold fireMenu; split <;> simp
@[simp] theorem fireMenu_pinOut (s : State) (r0 r1 : Byte) :
    (fireMenu s r0 r1).pinOut = s.pinOut := by unfold fireMenu; split <;> simp
@[simp] theorem fireMenu_inside (s : State) (r0 r1 : Byte) :
    (fireMenu s r0 r1).inside = s.inside := by unfold fireMenu; split <;> simp
@[simp] theorem fireMenu_cfg (s : State) (r0 r1 : Byte) :
    (fireMenu s r0 r1).cfg = s.cfg := by unfold fireMenu; split <;> simp
@[simp] theorem fireMenu_plan (s : State) (r0 r1 : Byte) :
    (fireMenu s r0 r1).plan = s.plan := by unfold fireMenu; split <;> simp
@[simp] theorem fireMenu_pins (s : State) (r0 r1 : Byte) :
    (fireMenu s r0 r1).pins = s.pins := by unfold fireMenu; split <;> simp
@[simp] theorem fireMenu_drawn (s : State) (r0 r1 : Byte) :
    (fireMenu s r0 r1).drawn = s.drawn := by unfold fireMenu; split <;> simp
@[simp] theorem fireMenu_resets (s : State) (r0 r1 : Byte) :
    (fireMenu s r0 r1).resets = s.resets := by unfold fireMenu; split <;> simp
@[simp] theorem fireMenu_busOut (s : State) (r0 r1 : Byte) :
    (fireMenu s r0 r1).busOut = s.busOut := by unfold fireMenu; split <;> simp

/-! ### releaseLatch -/

@[simp] theorem releaseLatch_run (s : State) (r0 r1 : Byte) :
    (releaseLatch s r0 r1).run = s.run := by unfold releaseLatch; split <;> rfl
@[simp] theorem releaseLatch_cp (s : State) (r0 r1 : Byte) :
    (releaseLatch s r0 r1).cp = s.cp := by unfold releaseLatch; split <;> rfl
@[simp] theorem releaseLatch_clBase (s : State) (r0 r1 : Byte) :
    (releaseLatch s r0 r1).clBase = s.clBase := by unfold releaseLatch; split <;> rfl
@[simp] theorem releaseLatch_scanMode (s : State) (r0 r1 : Byte) :
    (releaseLatch s r0 r1).scanMode = s.scanMode := by unfold releaseLatch; split <;> rfl
@[simp] theorem releaseLatch_done (s : State) (r0 r1 : Byte) :
    (releaseLatch s r0 r1).done = s.done := by unfold releaseLatch; split <;> rfl
@[simp] theorem releaseLatch_dmaDone (s : State) (r0 r1 : Byte) :
    (releaseLatch s r0 r1).dmaDone = s.dmaDone := by unfold releaseLatch; split <;> rfl
@[simp] theorem releaseLatch_fault (s : State) (r0 r1 : Byte) :
    (releaseLatch s r0 r1).fault = s.fault := by unfold releaseLatch; split <;> rfl
@[simp] theorem releaseLatch_doneIe (s : State) (r0 r1 : Byte) :
    (releaseLatch s r0 r1).doneIe = s.doneIe := by unfold releaseLatch; split <;> rfl
@[simp] theorem releaseLatch_dmaDoneIe (s : State) (r0 r1 : Byte) :
    (releaseLatch s r0 r1).dmaDoneIe = s.dmaDoneIe := by unfold releaseLatch; split <;> rfl
@[simp] theorem releaseLatch_faultIe (s : State) (r0 r1 : Byte) :
    (releaseLatch s r0 r1).faultIe = s.faultIe := by unfold releaseLatch; split <;> rfl
@[simp] theorem releaseLatch_faultCause (s : State) (r0 r1 : Byte) :
    (releaseLatch s r0 r1).faultCause = s.faultCause := by unfold releaseLatch; split <;> rfl
@[simp] theorem releaseLatch_faultCp (s : State) (r0 r1 : Byte) :
    (releaseLatch s r0 r1).faultCp = s.faultCp := by unfold releaseLatch; split <;> rfl
@[simp] theorem releaseLatch_faultWord (s : State) (r0 r1 : Byte) :
    (releaseLatch s r0 r1).faultWord = s.faultWord := by unfold releaseLatch; split <;> rfl
@[simp] theorem releaseLatch_row0 (s : State) (r0 r1 : Byte) :
    (releaseLatch s r0 r1).row0 = s.row0 := by unfold releaseLatch; split <;> rfl
@[simp] theorem releaseLatch_row1 (s : State) (r0 r1 : Byte) :
    (releaseLatch s r0 r1).row1 = s.row1 := by unfold releaseLatch; split <;> rfl
@[simp] theorem releaseLatch_led (s : State) (r0 r1 : Byte) :
    (releaseLatch s r0 r1).led = s.led := by unfold releaseLatch; split <;> rfl
@[simp] theorem releaseLatch_sel (s : State) (r0 r1 : Byte) :
    (releaseLatch s r0 r1).sel = s.sel := by unfold releaseLatch; split <;> rfl
@[simp] theorem releaseLatch_upEdge (s : State) (r0 r1 : Byte) :
    (releaseLatch s r0 r1).upEdge = s.upEdge := by unfold releaseLatch; split <;> rfl
@[simp] theorem releaseLatch_downEdge (s : State) (r0 r1 : Byte) :
    (releaseLatch s r0 r1).downEdge = s.downEdge := by unfold releaseLatch; split <;> rfl
@[simp] theorem releaseLatch_menuEdge (s : State) (r0 r1 : Byte) :
    (releaseLatch s r0 r1).menuEdge = s.menuEdge := by unfold releaseLatch; split <;> rfl
@[simp] theorem releaseLatch_speed0 (s : State) (r0 r1 : Byte) :
    (releaseLatch s r0 r1).speed0 = s.speed0 := by unfold releaseLatch; split <;> rfl
@[simp] theorem releaseLatch_speed1 (s : State) (r0 r1 : Byte) :
    (releaseLatch s r0 r1).speed1 = s.speed1 := by unfold releaseLatch; split <;> rfl
@[simp] theorem releaseLatch_speed2 (s : State) (r0 r1 : Byte) :
    (releaseLatch s r0 r1).speed2 = s.speed2 := by unfold releaseLatch; split <;> rfl
@[simp] theorem releaseLatch_speed3 (s : State) (r0 r1 : Byte) :
    (releaseLatch s r0 r1).speed3 = s.speed3 := by unfold releaseLatch; split <;> rfl
@[simp] theorem releaseLatch_dmaActive (s : State) (r0 r1 : Byte) :
    (releaseLatch s r0 r1).dmaActive = s.dmaActive := by unfold releaseLatch; split <;> rfl
@[simp] theorem releaseLatch_dmaIdx (s : State) (r0 r1 : Byte) :
    (releaseLatch s r0 r1).dmaIdx = s.dmaIdx := by unfold releaseLatch; split <;> rfl
@[simp] theorem releaseLatch_mem (s : State) (r0 r1 : Byte) :
    (releaseLatch s r0 r1).mem = s.mem := by unfold releaseLatch; split <;> rfl
@[simp] theorem releaseLatch_srData (s : State) (r0 r1 : Byte) :
    (releaseLatch s r0 r1).srData = s.srData := by unfold releaseLatch; split <;> rfl
@[simp] theorem releaseLatch_srClk (s : State) (r0 r1 : Byte) :
    (releaseLatch s r0 r1).srClk = s.srClk := by unfold releaseLatch; split <;> rfl
@[simp] theorem releaseLatch_srLoad (s : State) (r0 r1 : Byte) :
    (releaseLatch s r0 r1).srLoad = s.srLoad := by unfold releaseLatch; split <;> rfl
@[simp] theorem releaseLatch_dispOut (s : State) (r0 r1 : Byte) :
    (releaseLatch s r0 r1).dispOut = s.dispOut := by unfold releaseLatch; split <;> rfl
@[simp] theorem releaseLatch_pinOut (s : State) (r0 r1 : Byte) :
    (releaseLatch s r0 r1).pinOut = s.pinOut := by unfold releaseLatch; split <;> rfl
@[simp] theorem releaseLatch_inside (s : State) (r0 r1 : Byte) :
    (releaseLatch s r0 r1).inside = s.inside := by unfold releaseLatch; split <;> rfl
@[simp] theorem releaseLatch_cfg (s : State) (r0 r1 : Byte) :
    (releaseLatch s r0 r1).cfg = s.cfg := by unfold releaseLatch; split <;> rfl
@[simp] theorem releaseLatch_plan (s : State) (r0 r1 : Byte) :
    (releaseLatch s r0 r1).plan = s.plan := by unfold releaseLatch; split <;> rfl
@[simp] theorem releaseLatch_pins (s : State) (r0 r1 : Byte) :
    (releaseLatch s r0 r1).pins = s.pins := by unfold releaseLatch; split <;> rfl
@[simp] theorem releaseLatch_drawn (s : State) (r0 r1 : Byte) :
    (releaseLatch s r0 r1).drawn = s.drawn := by unfold releaseLatch; split <;> rfl
@[simp] theorem releaseLatch_resets (s : State) (r0 r1 : Byte) :
    (releaseLatch s r0 r1).resets = s.resets := by unfold releaseLatch; split <;> rfl
@[simp] theorem releaseLatch_busOut (s : State) (r0 r1 : Byte) :
    (releaseLatch s r0 r1).busOut = s.busOut := by unfold releaseLatch; split <;> rfl

/-! ### commitScan -/

@[simp] theorem commitScan_run (s : State) (r0 r1 : Byte) :
    (commitScan s r0 r1).run = s.run := 
  (releaseLatch_run _ _ _).trans ((fireMenu_run _ _ _).trans ((fireDown_run _ _ _).trans ((fireUp_run _ _ _).trans
    ((faster_run _ _ _).trans (slower_run _ _ _)))))
@[simp] theorem commitScan_cp (s : State) (r0 r1 : Byte) :
    (commitScan s r0 r1).cp = s.cp := 
  (releaseLatch_cp _ _ _).trans ((fireMenu_cp _ _ _).trans ((fireDown_cp _ _ _).trans ((fireUp_cp _ _ _).trans
    ((faster_cp _ _ _).trans (slower_cp _ _ _)))))
@[simp] theorem commitScan_clBase (s : State) (r0 r1 : Byte) :
    (commitScan s r0 r1).clBase = s.clBase := 
  (releaseLatch_clBase _ _ _).trans ((fireMenu_clBase _ _ _).trans ((fireDown_clBase _ _ _).trans ((fireUp_clBase _ _ _).trans
    ((faster_clBase _ _ _).trans (slower_clBase _ _ _)))))
@[simp] theorem commitScan_scanMode (s : State) (r0 r1 : Byte) :
    (commitScan s r0 r1).scanMode = s.scanMode := 
  (releaseLatch_scanMode _ _ _).trans ((fireMenu_scanMode _ _ _).trans ((fireDown_scanMode _ _ _).trans ((fireUp_scanMode _ _ _).trans
    ((faster_scanMode _ _ _).trans (slower_scanMode _ _ _)))))
@[simp] theorem commitScan_done (s : State) (r0 r1 : Byte) :
    (commitScan s r0 r1).done = s.done := 
  (releaseLatch_done _ _ _).trans ((fireMenu_done _ _ _).trans ((fireDown_done _ _ _).trans ((fireUp_done _ _ _).trans
    ((faster_done _ _ _).trans (slower_done _ _ _)))))
@[simp] theorem commitScan_dmaDone (s : State) (r0 r1 : Byte) :
    (commitScan s r0 r1).dmaDone = s.dmaDone := 
  (releaseLatch_dmaDone _ _ _).trans ((fireMenu_dmaDone _ _ _).trans ((fireDown_dmaDone _ _ _).trans ((fireUp_dmaDone _ _ _).trans
    ((faster_dmaDone _ _ _).trans (slower_dmaDone _ _ _)))))
@[simp] theorem commitScan_fault (s : State) (r0 r1 : Byte) :
    (commitScan s r0 r1).fault = s.fault := 
  (releaseLatch_fault _ _ _).trans ((fireMenu_fault _ _ _).trans ((fireDown_fault _ _ _).trans ((fireUp_fault _ _ _).trans
    ((faster_fault _ _ _).trans (slower_fault _ _ _)))))
@[simp] theorem commitScan_doneIe (s : State) (r0 r1 : Byte) :
    (commitScan s r0 r1).doneIe = s.doneIe := 
  (releaseLatch_doneIe _ _ _).trans ((fireMenu_doneIe _ _ _).trans ((fireDown_doneIe _ _ _).trans ((fireUp_doneIe _ _ _).trans
    ((faster_doneIe _ _ _).trans (slower_doneIe _ _ _)))))
@[simp] theorem commitScan_dmaDoneIe (s : State) (r0 r1 : Byte) :
    (commitScan s r0 r1).dmaDoneIe = s.dmaDoneIe := 
  (releaseLatch_dmaDoneIe _ _ _).trans ((fireMenu_dmaDoneIe _ _ _).trans ((fireDown_dmaDoneIe _ _ _).trans ((fireUp_dmaDoneIe _ _ _).trans
    ((faster_dmaDoneIe _ _ _).trans (slower_dmaDoneIe _ _ _)))))
@[simp] theorem commitScan_faultIe (s : State) (r0 r1 : Byte) :
    (commitScan s r0 r1).faultIe = s.faultIe := 
  (releaseLatch_faultIe _ _ _).trans ((fireMenu_faultIe _ _ _).trans ((fireDown_faultIe _ _ _).trans ((fireUp_faultIe _ _ _).trans
    ((faster_faultIe _ _ _).trans (slower_faultIe _ _ _)))))
@[simp] theorem commitScan_faultCause (s : State) (r0 r1 : Byte) :
    (commitScan s r0 r1).faultCause = s.faultCause := 
  (releaseLatch_faultCause _ _ _).trans ((fireMenu_faultCause _ _ _).trans ((fireDown_faultCause _ _ _).trans ((fireUp_faultCause _ _ _).trans
    ((faster_faultCause _ _ _).trans (slower_faultCause _ _ _)))))
@[simp] theorem commitScan_faultCp (s : State) (r0 r1 : Byte) :
    (commitScan s r0 r1).faultCp = s.faultCp := 
  (releaseLatch_faultCp _ _ _).trans ((fireMenu_faultCp _ _ _).trans ((fireDown_faultCp _ _ _).trans ((fireUp_faultCp _ _ _).trans
    ((faster_faultCp _ _ _).trans (slower_faultCp _ _ _)))))
@[simp] theorem commitScan_faultWord (s : State) (r0 r1 : Byte) :
    (commitScan s r0 r1).faultWord = s.faultWord := 
  (releaseLatch_faultWord _ _ _).trans ((fireMenu_faultWord _ _ _).trans ((fireDown_faultWord _ _ _).trans ((fireUp_faultWord _ _ _).trans
    ((faster_faultWord _ _ _).trans (slower_faultWord _ _ _)))))
@[simp] theorem commitScan_row0 (s : State) (r0 r1 : Byte) :
    (commitScan s r0 r1).row0 = r0 := 
  (releaseLatch_row0 _ _ _).trans ((fireMenu_row0 _ _ _).trans ((fireDown_row0 _ _ _).trans ((fireUp_row0 _ _ _).trans
    ((faster_row0 _ _ _).trans (slower_row0 _ _ _)))))
@[simp] theorem commitScan_row1 (s : State) (r0 r1 : Byte) :
    (commitScan s r0 r1).row1 = r1 := 
  (releaseLatch_row1 _ _ _).trans ((fireMenu_row1 _ _ _).trans ((fireDown_row1 _ _ _).trans ((fireUp_row1 _ _ _).trans
    ((faster_row1 _ _ _).trans (slower_row1 _ _ _)))))
@[simp] theorem commitScan_dmaActive (s : State) (r0 r1 : Byte) :
    (commitScan s r0 r1).dmaActive = s.dmaActive := 
  (releaseLatch_dmaActive _ _ _).trans ((fireMenu_dmaActive _ _ _).trans ((fireDown_dmaActive _ _ _).trans ((fireUp_dmaActive _ _ _).trans
    ((faster_dmaActive _ _ _).trans (slower_dmaActive _ _ _)))))
@[simp] theorem commitScan_dmaIdx (s : State) (r0 r1 : Byte) :
    (commitScan s r0 r1).dmaIdx = s.dmaIdx := 
  (releaseLatch_dmaIdx _ _ _).trans ((fireMenu_dmaIdx _ _ _).trans ((fireDown_dmaIdx _ _ _).trans ((fireUp_dmaIdx _ _ _).trans
    ((faster_dmaIdx _ _ _).trans (slower_dmaIdx _ _ _)))))
@[simp] theorem commitScan_mem (s : State) (r0 r1 : Byte) :
    (commitScan s r0 r1).mem = s.mem := 
  (releaseLatch_mem _ _ _).trans ((fireMenu_mem _ _ _).trans ((fireDown_mem _ _ _).trans ((fireUp_mem _ _ _).trans
    ((faster_mem _ _ _).trans (slower_mem _ _ _)))))
@[simp] theorem commitScan_srData (s : State) (r0 r1 : Byte) :
    (commitScan s r0 r1).srData = s.srData := 
  (releaseLatch_srData _ _ _).trans ((fireMenu_srData _ _ _).trans ((fireDown_srData _ _ _).trans ((fireUp_srData _ _ _).trans
    ((faster_srData _ _ _).trans (slower_srData _ _ _)))))
@[simp] theorem commitScan_srClk (s : State) (r0 r1 : Byte) :
    (commitScan s r0 r1).srClk = s.srClk := 
  (releaseLatch_srClk _ _ _).trans ((fireMenu_srClk _ _ _).trans ((fireDown_srClk _ _ _).trans ((fireUp_srClk _ _ _).trans
    ((faster_srClk _ _ _).trans (slower_srClk _ _ _)))))
@[simp] theorem commitScan_srLoad (s : State) (r0 r1 : Byte) :
    (commitScan s r0 r1).srLoad = s.srLoad := 
  (releaseLatch_srLoad _ _ _).trans ((fireMenu_srLoad _ _ _).trans ((fireDown_srLoad _ _ _).trans ((fireUp_srLoad _ _ _).trans
    ((faster_srLoad _ _ _).trans (slower_srLoad _ _ _)))))
@[simp] theorem commitScan_dispOut (s : State) (r0 r1 : Byte) :
    (commitScan s r0 r1).dispOut = s.dispOut := 
  (releaseLatch_dispOut _ _ _).trans ((fireMenu_dispOut _ _ _).trans ((fireDown_dispOut _ _ _).trans ((fireUp_dispOut _ _ _).trans
    ((faster_dispOut _ _ _).trans (slower_dispOut _ _ _)))))
@[simp] theorem commitScan_pinOut (s : State) (r0 r1 : Byte) :
    (commitScan s r0 r1).pinOut = s.pinOut := 
  (releaseLatch_pinOut _ _ _).trans ((fireMenu_pinOut _ _ _).trans ((fireDown_pinOut _ _ _).trans ((fireUp_pinOut _ _ _).trans
    ((faster_pinOut _ _ _).trans (slower_pinOut _ _ _)))))
@[simp] theorem commitScan_inside (s : State) (r0 r1 : Byte) :
    (commitScan s r0 r1).inside = s.inside := 
  (releaseLatch_inside _ _ _).trans ((fireMenu_inside _ _ _).trans ((fireDown_inside _ _ _).trans ((fireUp_inside _ _ _).trans
    ((faster_inside _ _ _).trans (slower_inside _ _ _)))))
@[simp] theorem commitScan_cfg (s : State) (r0 r1 : Byte) :
    (commitScan s r0 r1).cfg = s.cfg := 
  (releaseLatch_cfg _ _ _).trans ((fireMenu_cfg _ _ _).trans ((fireDown_cfg _ _ _).trans ((fireUp_cfg _ _ _).trans
    ((faster_cfg _ _ _).trans (slower_cfg _ _ _)))))
@[simp] theorem commitScan_plan (s : State) (r0 r1 : Byte) :
    (commitScan s r0 r1).plan = s.plan := 
  (releaseLatch_plan _ _ _).trans ((fireMenu_plan _ _ _).trans ((fireDown_plan _ _ _).trans ((fireUp_plan _ _ _).trans
    ((faster_plan _ _ _).trans (slower_plan _ _ _)))))
@[simp] theorem commitScan_pins (s : State) (r0 r1 : Byte) :
    (commitScan s r0 r1).pins = s.pins := 
  (releaseLatch_pins _ _ _).trans ((fireMenu_pins _ _ _).trans ((fireDown_pins _ _ _).trans ((fireUp_pins _ _ _).trans
    ((faster_pins _ _ _).trans (slower_pins _ _ _)))))
@[simp] theorem commitScan_drawn (s : State) (r0 r1 : Byte) :
    (commitScan s r0 r1).drawn = s.drawn := 
  (releaseLatch_drawn _ _ _).trans ((fireMenu_drawn _ _ _).trans ((fireDown_drawn _ _ _).trans ((fireUp_drawn _ _ _).trans
    ((faster_drawn _ _ _).trans (slower_drawn _ _ _)))))
@[simp] theorem commitScan_resets (s : State) (r0 r1 : Byte) :
    (commitScan s r0 r1).resets = s.resets := 
  (releaseLatch_resets _ _ _).trans ((fireMenu_resets _ _ _).trans ((fireDown_resets _ _ _).trans ((fireUp_resets _ _ _).trans
    ((faster_resets _ _ _).trans (slower_resets _ _ _)))))
@[simp] theorem commitScan_busOut (s : State) (r0 r1 : Byte) :
    (commitScan s r0 r1).busOut = s.busOut := 
  (releaseLatch_busOut _ _ _).trans ((fireMenu_busOut _ _ _).trans ((fireDown_busOut _ _ _).trans ((fireUp_busOut _ _ _).trans
    ((faster_busOut _ _ _).trans (slower_busOut _ _ _)))))

/-! ### advanceTransfer -/

@[simp] theorem advanceTransfer_run (s : State) :
    (advanceTransfer s).run = s.run := by unfold advanceTransfer; split <;> rfl
@[simp] theorem advanceTransfer_cp (s : State) :
    (advanceTransfer s).cp = s.cp := by unfold advanceTransfer; split <;> rfl
@[simp] theorem advanceTransfer_clBase (s : State) :
    (advanceTransfer s).clBase = s.clBase := by unfold advanceTransfer; split <;> rfl
@[simp] theorem advanceTransfer_scanMode (s : State) :
    (advanceTransfer s).scanMode = s.scanMode := by unfold advanceTransfer; split <;> rfl
@[simp] theorem advanceTransfer_done (s : State) :
    (advanceTransfer s).done = s.done := by unfold advanceTransfer; split <;> rfl
@[simp] theorem advanceTransfer_fault (s : State) :
    (advanceTransfer s).fault = s.fault := by unfold advanceTransfer; split <;> rfl
@[simp] theorem advanceTransfer_doneIe (s : State) :
    (advanceTransfer s).doneIe = s.doneIe := by unfold advanceTransfer; split <;> rfl
@[simp] theorem advanceTransfer_dmaDoneIe (s : State) :
    (advanceTransfer s).dmaDoneIe = s.dmaDoneIe := by unfold advanceTransfer; split <;> rfl
@[simp] theorem advanceTransfer_faultIe (s : State) :
    (advanceTransfer s).faultIe = s.faultIe := by unfold advanceTransfer; split <;> rfl
@[simp] theorem advanceTransfer_faultCause (s : State) :
    (advanceTransfer s).faultCause = s.faultCause := by unfold advanceTransfer; split <;> rfl
@[simp] theorem advanceTransfer_faultCp (s : State) :
    (advanceTransfer s).faultCp = s.faultCp := by unfold advanceTransfer; split <;> rfl
@[simp] theorem advanceTransfer_faultWord (s : State) :
    (advanceTransfer s).faultWord = s.faultWord := by unfold advanceTransfer; split <;> rfl
@[simp] theorem advanceTransfer_row0 (s : State) :
    (advanceTransfer s).row0 = s.row0 := by unfold advanceTransfer; split <;> rfl
@[simp] theorem advanceTransfer_row1 (s : State) :
    (advanceTransfer s).row1 = s.row1 := by unfold advanceTransfer; split <;> rfl
@[simp] theorem advanceTransfer_led (s : State) :
    (advanceTransfer s).led = s.led := by unfold advanceTransfer; split <;> rfl
@[simp] theorem advanceTransfer_sel (s : State) :
    (advanceTransfer s).sel = s.sel := by unfold advanceTransfer; split <;> rfl
@[simp] theorem advanceTransfer_last (s : State) :
    (advanceTransfer s).last = s.last := by unfold advanceTransfer; split <;> rfl
@[simp] theorem advanceTransfer_upEdge (s : State) :
    (advanceTransfer s).upEdge = s.upEdge := by unfold advanceTransfer; split <;> rfl
@[simp] theorem advanceTransfer_downEdge (s : State) :
    (advanceTransfer s).downEdge = s.downEdge := by unfold advanceTransfer; split <;> rfl
@[simp] theorem advanceTransfer_menuEdge (s : State) :
    (advanceTransfer s).menuEdge = s.menuEdge := by unfold advanceTransfer; split <;> rfl
@[simp] theorem advanceTransfer_speed0 (s : State) :
    (advanceTransfer s).speed0 = s.speed0 := by unfold advanceTransfer; split <;> rfl
@[simp] theorem advanceTransfer_speed1 (s : State) :
    (advanceTransfer s).speed1 = s.speed1 := by unfold advanceTransfer; split <;> rfl
@[simp] theorem advanceTransfer_speed2 (s : State) :
    (advanceTransfer s).speed2 = s.speed2 := by unfold advanceTransfer; split <;> rfl
@[simp] theorem advanceTransfer_speed3 (s : State) :
    (advanceTransfer s).speed3 = s.speed3 := by unfold advanceTransfer; split <;> rfl
@[simp] theorem advanceTransfer_dmaIdx (s : State) :
    (advanceTransfer s).dmaIdx = s.dmaIdx + 1#17 := by unfold advanceTransfer; split <;> rfl
@[simp] theorem advanceTransfer_mem (s : State) :
    (advanceTransfer s).mem = s.mem := by unfold advanceTransfer; split <;> rfl
@[simp] theorem advanceTransfer_srData (s : State) :
    (advanceTransfer s).srData = s.srData := by unfold advanceTransfer; split <;> rfl
@[simp] theorem advanceTransfer_srClk (s : State) :
    (advanceTransfer s).srClk = s.srClk := by unfold advanceTransfer; split <;> rfl
@[simp] theorem advanceTransfer_srLoad (s : State) :
    (advanceTransfer s).srLoad = s.srLoad := by unfold advanceTransfer; split <;> rfl
@[simp] theorem advanceTransfer_dispOut (s : State) :
    (advanceTransfer s).dispOut = s.dispOut := by unfold advanceTransfer; split <;> rfl
@[simp] theorem advanceTransfer_pinOut (s : State) :
    (advanceTransfer s).pinOut = s.pinOut := by unfold advanceTransfer; split <;> rfl
@[simp] theorem advanceTransfer_inside (s : State) :
    (advanceTransfer s).inside = s.inside := by unfold advanceTransfer; split <;> rfl
@[simp] theorem advanceTransfer_cfg (s : State) :
    (advanceTransfer s).cfg = s.cfg := by unfold advanceTransfer; split <;> rfl
@[simp] theorem advanceTransfer_plan (s : State) :
    (advanceTransfer s).plan = s.plan := by unfold advanceTransfer; split <;> rfl
@[simp] theorem advanceTransfer_pins (s : State) :
    (advanceTransfer s).pins = s.pins := by unfold advanceTransfer; split <;> rfl
@[simp] theorem advanceTransfer_drawn (s : State) :
    (advanceTransfer s).drawn = s.drawn := by unfold advanceTransfer; split <;> rfl
@[simp] theorem advanceTransfer_resets (s : State) :
    (advanceTransfer s).resets = s.resets := by unfold advanceTransfer; split <;> rfl
@[simp] theorem advanceTransfer_busOut (s : State) :
    (advanceTransfer s).busOut = s.busOut := by unfold advanceTransfer; split <;> rfl

/-! ### dmaStep -/

@[simp] theorem dmaStep_run (s : State) :
    (dmaStep s).run = s.run := by unfold dmaStep; split <;> simp
@[simp] theorem dmaStep_cp (s : State) :
    (dmaStep s).cp = s.cp := by unfold dmaStep; split <;> simp
@[simp] theorem dmaStep_clBase (s : State) :
    (dmaStep s).clBase = s.clBase := by unfold dmaStep; split <;> simp
@[simp] theorem dmaStep_scanMode (s : State) :
    (dmaStep s).scanMode = s.scanMode := by unfold dmaStep; split <;> simp
@[simp] theorem dmaStep_done (s : State) :
    (dmaStep s).done = s.done := by unfold dmaStep; split <;> simp
@[simp] theorem dmaStep_fault (s : State) :
    (dmaStep s).fault = s.fault := by unfold dmaStep; split <;> simp
@[simp] theorem dmaStep_doneIe (s : State) :
    (dmaStep s).doneIe = s.doneIe := by unfold dmaStep; split <;> simp
@[simp] theorem dmaStep_dmaDoneIe (s : State) :
    (dmaStep s).dmaDoneIe = s.dmaDoneIe := by unfold dmaStep; split <;> simp
@[simp] theorem dmaStep_faultIe (s : State) :
    (dmaStep s).faultIe = s.faultIe := by unfold dmaStep; split <;> simp
@[simp] theorem dmaStep_faultCause (s : State) :
    (dmaStep s).faultCause = s.faultCause := by unfold dmaStep; split <;> simp
@[simp] theorem dmaStep_faultCp (s : State) :
    (dmaStep s).faultCp = s.faultCp := by unfold dmaStep; split <;> simp
@[simp] theorem dmaStep_faultWord (s : State) :
    (dmaStep s).faultWord = s.faultWord := by unfold dmaStep; split <;> simp
@[simp] theorem dmaStep_row0 (s : State) :
    (dmaStep s).row0 = s.row0 := by unfold dmaStep; split <;> simp
@[simp] theorem dmaStep_row1 (s : State) :
    (dmaStep s).row1 = s.row1 := by unfold dmaStep; split <;> simp
@[simp] theorem dmaStep_led (s : State) :
    (dmaStep s).led = s.led := by unfold dmaStep; split <;> simp
@[simp] theorem dmaStep_sel (s : State) :
    (dmaStep s).sel = s.sel := by unfold dmaStep; split <;> simp
@[simp] theorem dmaStep_last (s : State) :
    (dmaStep s).last = s.last := by unfold dmaStep; split <;> simp
@[simp] theorem dmaStep_upEdge (s : State) :
    (dmaStep s).upEdge = s.upEdge := by unfold dmaStep; split <;> simp
@[simp] theorem dmaStep_downEdge (s : State) :
    (dmaStep s).downEdge = s.downEdge := by unfold dmaStep; split <;> simp
@[simp] theorem dmaStep_menuEdge (s : State) :
    (dmaStep s).menuEdge = s.menuEdge := by unfold dmaStep; split <;> simp
@[simp] theorem dmaStep_speed0 (s : State) :
    (dmaStep s).speed0 = s.speed0 := by unfold dmaStep; split <;> simp
@[simp] theorem dmaStep_speed1 (s : State) :
    (dmaStep s).speed1 = s.speed1 := by unfold dmaStep; split <;> simp
@[simp] theorem dmaStep_speed2 (s : State) :
    (dmaStep s).speed2 = s.speed2 := by unfold dmaStep; split <;> simp
@[simp] theorem dmaStep_speed3 (s : State) :
    (dmaStep s).speed3 = s.speed3 := by unfold dmaStep; split <;> simp
@[simp] theorem dmaStep_mem (s : State) :
    (dmaStep s).mem = s.mem := by unfold dmaStep; split <;> simp
@[simp] theorem dmaStep_srData (s : State) :
    (dmaStep s).srData = s.srData := by unfold dmaStep; split <;> simp
@[simp] theorem dmaStep_srClk (s : State) :
    (dmaStep s).srClk = s.srClk := by unfold dmaStep; split <;> simp
@[simp] theorem dmaStep_srLoad (s : State) :
    (dmaStep s).srLoad = s.srLoad := by unfold dmaStep; split <;> simp
@[simp] theorem dmaStep_pinOut (s : State) :
    (dmaStep s).pinOut = s.pinOut := by unfold dmaStep; split <;> simp
@[simp] theorem dmaStep_inside (s : State) :
    (dmaStep s).inside = s.inside := by unfold dmaStep; split <;> simp
@[simp] theorem dmaStep_cfg (s : State) :
    (dmaStep s).cfg = s.cfg := by unfold dmaStep; split <;> simp
@[simp] theorem dmaStep_plan (s : State) :
    (dmaStep s).plan = s.plan := by unfold dmaStep; split <;> simp
@[simp] theorem dmaStep_pins (s : State) :
    (dmaStep s).pins = s.pins := by unfold dmaStep; split <;> simp
@[simp] theorem dmaStep_drawn (s : State) :
    (dmaStep s).drawn = s.drawn := by unfold dmaStep; split <;> simp
@[simp] theorem dmaStep_resets (s : State) :
    (dmaStep s).resets = s.resets := by unfold dmaStep; split <;> simp
@[simp] theorem dmaStep_busOut (s : State) :
    (dmaStep s).busOut = s.busOut := by unfold dmaStep; split <;> simp

/-! ### settle -/

@[simp] theorem settle_run (s : State) (b : Position) :
    (settle s b).run = s.run := by unfold settle; split <;> rfl
@[simp] theorem settle_clBase (s : State) (b : Position) :
    (settle s b).clBase = s.clBase := by unfold settle; split <;> rfl
@[simp] theorem settle_scanMode (s : State) (b : Position) :
    (settle s b).scanMode = s.scanMode := by unfold settle; split <;> rfl
@[simp] theorem settle_done (s : State) (b : Position) :
    (settle s b).done = s.done := by unfold settle; split <;> rfl
@[simp] theorem settle_dmaDone (s : State) (b : Position) :
    (settle s b).dmaDone = s.dmaDone := by unfold settle; split <;> rfl
@[simp] theorem settle_fault (s : State) (b : Position) :
    (settle s b).fault = s.fault := by unfold settle; split <;> rfl
@[simp] theorem settle_doneIe (s : State) (b : Position) :
    (settle s b).doneIe = s.doneIe := by unfold settle; split <;> rfl
@[simp] theorem settle_dmaDoneIe (s : State) (b : Position) :
    (settle s b).dmaDoneIe = s.dmaDoneIe := by unfold settle; split <;> rfl
@[simp] theorem settle_faultIe (s : State) (b : Position) :
    (settle s b).faultIe = s.faultIe := by unfold settle; split <;> rfl
@[simp] theorem settle_faultCause (s : State) (b : Position) :
    (settle s b).faultCause = s.faultCause := by unfold settle; split <;> rfl
@[simp] theorem settle_faultCp (s : State) (b : Position) :
    (settle s b).faultCp = s.faultCp := by unfold settle; split <;> rfl
@[simp] theorem settle_faultWord (s : State) (b : Position) :
    (settle s b).faultWord = s.faultWord := by unfold settle; split <;> rfl
@[simp] theorem settle_row0 (s : State) (b : Position) :
    (settle s b).row0 = s.row0 := by unfold settle; split <;> rfl
@[simp] theorem settle_row1 (s : State) (b : Position) :
    (settle s b).row1 = s.row1 := by unfold settle; split <;> rfl
@[simp] theorem settle_led (s : State) (b : Position) :
    (settle s b).led = s.led := by unfold settle; split <;> rfl
@[simp] theorem settle_sel (s : State) (b : Position) :
    (settle s b).sel = s.sel := by unfold settle; split <;> rfl
@[simp] theorem settle_last (s : State) (b : Position) :
    (settle s b).last = s.last := by unfold settle; split <;> rfl
@[simp] theorem settle_upEdge (s : State) (b : Position) :
    (settle s b).upEdge = s.upEdge := by unfold settle; split <;> rfl
@[simp] theorem settle_downEdge (s : State) (b : Position) :
    (settle s b).downEdge = s.downEdge := by unfold settle; split <;> rfl
@[simp] theorem settle_menuEdge (s : State) (b : Position) :
    (settle s b).menuEdge = s.menuEdge := by unfold settle; split <;> rfl
@[simp] theorem settle_speed0 (s : State) (b : Position) :
    (settle s b).speed0 = s.speed0 := by unfold settle; split <;> rfl
@[simp] theorem settle_speed1 (s : State) (b : Position) :
    (settle s b).speed1 = s.speed1 := by unfold settle; split <;> rfl
@[simp] theorem settle_speed2 (s : State) (b : Position) :
    (settle s b).speed2 = s.speed2 := by unfold settle; split <;> rfl
@[simp] theorem settle_speed3 (s : State) (b : Position) :
    (settle s b).speed3 = s.speed3 := by unfold settle; split <;> rfl
@[simp] theorem settle_dmaActive (s : State) (b : Position) :
    (settle s b).dmaActive = s.dmaActive := by unfold settle; split <;> rfl
@[simp] theorem settle_dmaIdx (s : State) (b : Position) :
    (settle s b).dmaIdx = s.dmaIdx := by unfold settle; split <;> rfl
@[simp] theorem settle_mem (s : State) (b : Position) :
    (settle s b).mem = s.mem := by unfold settle; split <;> rfl
@[simp] theorem settle_srData (s : State) (b : Position) :
    (settle s b).srData = s.srData := by unfold settle; split <;> rfl
@[simp] theorem settle_srClk (s : State) (b : Position) :
    (settle s b).srClk = s.srClk := by unfold settle; split <;> rfl
@[simp] theorem settle_srLoad (s : State) (b : Position) :
    (settle s b).srLoad = s.srLoad := by unfold settle; split <;> rfl
@[simp] theorem settle_dispOut (s : State) (b : Position) :
    (settle s b).dispOut = s.dispOut := by unfold settle; split <;> rfl
@[simp] theorem settle_pinOut (s : State) (b : Position) :
    (settle s b).pinOut = s.pinOut := by unfold settle; split <;> rfl
@[simp] theorem settle_cfg (s : State) (b : Position) :
    (settle s b).cfg = s.cfg := by unfold settle; split <;> rfl
@[simp] theorem settle_plan (s : State) (b : Position) :
    (settle s b).plan = s.plan := by unfold settle; split <;> rfl
@[simp] theorem settle_pins (s : State) (b : Position) :
    (settle s b).pins = s.pins := by unfold settle; split <;> rfl
@[simp] theorem settle_drawn (s : State) (b : Position) :
    (settle s b).drawn = s.drawn := by unfold settle; split <;> rfl
@[simp] theorem settle_resets (s : State) (b : Position) :
    (settle s b).resets = s.resets := by unfold settle; split <;> rfl
@[simp] theorem settle_busOut (s : State) (b : Position) :
    (settle s b).busOut = s.busOut := by unfold settle; split <;> rfl

/-! ### putBytes -/

@[simp] theorem State.putBytes_run (s : State) (a : Nat) (bs : List Byte) :
    (s.putBytes a bs).run = s.run := by
  induction bs generalizing s a with
  | nil => rfl
  | cons b bs ih => exact (ih _ _).trans rfl
@[simp] theorem State.putBytes_cp (s : State) (a : Nat) (bs : List Byte) :
    (s.putBytes a bs).cp = s.cp := by
  induction bs generalizing s a with
  | nil => rfl
  | cons b bs ih => exact (ih _ _).trans rfl
@[simp] theorem State.putBytes_clBase (s : State) (a : Nat) (bs : List Byte) :
    (s.putBytes a bs).clBase = s.clBase := by
  induction bs generalizing s a with
  | nil => rfl
  | cons b bs ih => exact (ih _ _).trans rfl
@[simp] theorem State.putBytes_scanMode (s : State) (a : Nat) (bs : List Byte) :
    (s.putBytes a bs).scanMode = s.scanMode := by
  induction bs generalizing s a with
  | nil => rfl
  | cons b bs ih => exact (ih _ _).trans rfl
@[simp] theorem State.putBytes_done (s : State) (a : Nat) (bs : List Byte) :
    (s.putBytes a bs).done = s.done := by
  induction bs generalizing s a with
  | nil => rfl
  | cons b bs ih => exact (ih _ _).trans rfl
@[simp] theorem State.putBytes_dmaDone (s : State) (a : Nat) (bs : List Byte) :
    (s.putBytes a bs).dmaDone = s.dmaDone := by
  induction bs generalizing s a with
  | nil => rfl
  | cons b bs ih => exact (ih _ _).trans rfl
@[simp] theorem State.putBytes_fault (s : State) (a : Nat) (bs : List Byte) :
    (s.putBytes a bs).fault = s.fault := by
  induction bs generalizing s a with
  | nil => rfl
  | cons b bs ih => exact (ih _ _).trans rfl
@[simp] theorem State.putBytes_doneIe (s : State) (a : Nat) (bs : List Byte) :
    (s.putBytes a bs).doneIe = s.doneIe := by
  induction bs generalizing s a with
  | nil => rfl
  | cons b bs ih => exact (ih _ _).trans rfl
@[simp] theorem State.putBytes_dmaDoneIe (s : State) (a : Nat) (bs : List Byte) :
    (s.putBytes a bs).dmaDoneIe = s.dmaDoneIe := by
  induction bs generalizing s a with
  | nil => rfl
  | cons b bs ih => exact (ih _ _).trans rfl
@[simp] theorem State.putBytes_faultIe (s : State) (a : Nat) (bs : List Byte) :
    (s.putBytes a bs).faultIe = s.faultIe := by
  induction bs generalizing s a with
  | nil => rfl
  | cons b bs ih => exact (ih _ _).trans rfl
@[simp] theorem State.putBytes_faultCause (s : State) (a : Nat) (bs : List Byte) :
    (s.putBytes a bs).faultCause = s.faultCause := by
  induction bs generalizing s a with
  | nil => rfl
  | cons b bs ih => exact (ih _ _).trans rfl
@[simp] theorem State.putBytes_faultCp (s : State) (a : Nat) (bs : List Byte) :
    (s.putBytes a bs).faultCp = s.faultCp := by
  induction bs generalizing s a with
  | nil => rfl
  | cons b bs ih => exact (ih _ _).trans rfl
@[simp] theorem State.putBytes_faultWord (s : State) (a : Nat) (bs : List Byte) :
    (s.putBytes a bs).faultWord = s.faultWord := by
  induction bs generalizing s a with
  | nil => rfl
  | cons b bs ih => exact (ih _ _).trans rfl
@[simp] theorem State.putBytes_row0 (s : State) (a : Nat) (bs : List Byte) :
    (s.putBytes a bs).row0 = s.row0 := by
  induction bs generalizing s a with
  | nil => rfl
  | cons b bs ih => exact (ih _ _).trans rfl
@[simp] theorem State.putBytes_row1 (s : State) (a : Nat) (bs : List Byte) :
    (s.putBytes a bs).row1 = s.row1 := by
  induction bs generalizing s a with
  | nil => rfl
  | cons b bs ih => exact (ih _ _).trans rfl
@[simp] theorem State.putBytes_led (s : State) (a : Nat) (bs : List Byte) :
    (s.putBytes a bs).led = s.led := by
  induction bs generalizing s a with
  | nil => rfl
  | cons b bs ih => exact (ih _ _).trans rfl
@[simp] theorem State.putBytes_sel (s : State) (a : Nat) (bs : List Byte) :
    (s.putBytes a bs).sel = s.sel := by
  induction bs generalizing s a with
  | nil => rfl
  | cons b bs ih => exact (ih _ _).trans rfl
@[simp] theorem State.putBytes_last (s : State) (a : Nat) (bs : List Byte) :
    (s.putBytes a bs).last = s.last := by
  induction bs generalizing s a with
  | nil => rfl
  | cons b bs ih => exact (ih _ _).trans rfl
@[simp] theorem State.putBytes_upEdge (s : State) (a : Nat) (bs : List Byte) :
    (s.putBytes a bs).upEdge = s.upEdge := by
  induction bs generalizing s a with
  | nil => rfl
  | cons b bs ih => exact (ih _ _).trans rfl
@[simp] theorem State.putBytes_downEdge (s : State) (a : Nat) (bs : List Byte) :
    (s.putBytes a bs).downEdge = s.downEdge := by
  induction bs generalizing s a with
  | nil => rfl
  | cons b bs ih => exact (ih _ _).trans rfl
@[simp] theorem State.putBytes_menuEdge (s : State) (a : Nat) (bs : List Byte) :
    (s.putBytes a bs).menuEdge = s.menuEdge := by
  induction bs generalizing s a with
  | nil => rfl
  | cons b bs ih => exact (ih _ _).trans rfl
@[simp] theorem State.putBytes_speed0 (s : State) (a : Nat) (bs : List Byte) :
    (s.putBytes a bs).speed0 = s.speed0 := by
  induction bs generalizing s a with
  | nil => rfl
  | cons b bs ih => exact (ih _ _).trans rfl
@[simp] theorem State.putBytes_speed1 (s : State) (a : Nat) (bs : List Byte) :
    (s.putBytes a bs).speed1 = s.speed1 := by
  induction bs generalizing s a with
  | nil => rfl
  | cons b bs ih => exact (ih _ _).trans rfl
@[simp] theorem State.putBytes_speed2 (s : State) (a : Nat) (bs : List Byte) :
    (s.putBytes a bs).speed2 = s.speed2 := by
  induction bs generalizing s a with
  | nil => rfl
  | cons b bs ih => exact (ih _ _).trans rfl
@[simp] theorem State.putBytes_speed3 (s : State) (a : Nat) (bs : List Byte) :
    (s.putBytes a bs).speed3 = s.speed3 := by
  induction bs generalizing s a with
  | nil => rfl
  | cons b bs ih => exact (ih _ _).trans rfl
@[simp] theorem State.putBytes_dmaActive (s : State) (a : Nat) (bs : List Byte) :
    (s.putBytes a bs).dmaActive = s.dmaActive := by
  induction bs generalizing s a with
  | nil => rfl
  | cons b bs ih => exact (ih _ _).trans rfl
@[simp] theorem State.putBytes_dmaIdx (s : State) (a : Nat) (bs : List Byte) :
    (s.putBytes a bs).dmaIdx = s.dmaIdx := by
  induction bs generalizing s a with
  | nil => rfl
  | cons b bs ih => exact (ih _ _).trans rfl
@[simp] theorem State.putBytes_srData (s : State) (a : Nat) (bs : List Byte) :
    (s.putBytes a bs).srData = s.srData := by
  induction bs generalizing s a with
  | nil => rfl
  | cons b bs ih => exact (ih _ _).trans rfl
@[simp] theorem State.putBytes_srClk (s : State) (a : Nat) (bs : List Byte) :
    (s.putBytes a bs).srClk = s.srClk := by
  induction bs generalizing s a with
  | nil => rfl
  | cons b bs ih => exact (ih _ _).trans rfl
@[simp] theorem State.putBytes_srLoad (s : State) (a : Nat) (bs : List Byte) :
    (s.putBytes a bs).srLoad = s.srLoad := by
  induction bs generalizing s a with
  | nil => rfl
  | cons b bs ih => exact (ih _ _).trans rfl
@[simp] theorem State.putBytes_dispOut (s : State) (a : Nat) (bs : List Byte) :
    (s.putBytes a bs).dispOut = s.dispOut := by
  induction bs generalizing s a with
  | nil => rfl
  | cons b bs ih => exact (ih _ _).trans rfl
@[simp] theorem State.putBytes_pinOut (s : State) (a : Nat) (bs : List Byte) :
    (s.putBytes a bs).pinOut = s.pinOut := by
  induction bs generalizing s a with
  | nil => rfl
  | cons b bs ih => exact (ih _ _).trans rfl
@[simp] theorem State.putBytes_inside (s : State) (a : Nat) (bs : List Byte) :
    (s.putBytes a bs).inside = s.inside := by
  induction bs generalizing s a with
  | nil => rfl
  | cons b bs ih => exact (ih _ _).trans rfl
@[simp] theorem State.putBytes_cfg (s : State) (a : Nat) (bs : List Byte) :
    (s.putBytes a bs).cfg = s.cfg := by
  induction bs generalizing s a with
  | nil => rfl
  | cons b bs ih => exact (ih _ _).trans rfl
@[simp] theorem State.putBytes_plan (s : State) (a : Nat) (bs : List Byte) :
    (s.putBytes a bs).plan = s.plan := by
  induction bs generalizing s a with
  | nil => rfl
  | cons b bs ih => exact (ih _ _).trans rfl
@[simp] theorem State.putBytes_pins (s : State) (a : Nat) (bs : List Byte) :
    (s.putBytes a bs).pins = s.pins := by
  induction bs generalizing s a with
  | nil => rfl
  | cons b bs ih => exact (ih _ _).trans rfl
@[simp] theorem State.putBytes_drawn (s : State) (a : Nat) (bs : List Byte) :
    (s.putBytes a bs).drawn = s.drawn := by
  induction bs generalizing s a with
  | nil => rfl
  | cons b bs ih => exact (ih _ _).trans rfl
@[simp] theorem State.putBytes_resets (s : State) (a : Nat) (bs : List Byte) :
    (s.putBytes a bs).resets = s.resets := by
  induction bs generalizing s a with
  | nil => rfl
  | cons b bs ih => exact (ih _ _).trans rfl
@[simp] theorem State.putBytes_busOut (s : State) (a : Nat) (bs : List Byte) :
    (s.putBytes a bs).busOut = s.busOut := by
  induction bs generalizing s a with
  | nil => rfl
  | cons b bs ih => exact (ih _ _).trans rfl

/-! ### ramWrite -/

@[simp] theorem State.ramWrite_run (s : State) (off n : Nat) (v : Word) :
    (s.ramWrite off n v).run = s.run := State.putBytes_run s off _
@[simp] theorem State.ramWrite_cp (s : State) (off n : Nat) (v : Word) :
    (s.ramWrite off n v).cp = s.cp := State.putBytes_cp s off _
@[simp] theorem State.ramWrite_clBase (s : State) (off n : Nat) (v : Word) :
    (s.ramWrite off n v).clBase = s.clBase := State.putBytes_clBase s off _
@[simp] theorem State.ramWrite_scanMode (s : State) (off n : Nat) (v : Word) :
    (s.ramWrite off n v).scanMode = s.scanMode := State.putBytes_scanMode s off _
@[simp] theorem State.ramWrite_done (s : State) (off n : Nat) (v : Word) :
    (s.ramWrite off n v).done = s.done := State.putBytes_done s off _
@[simp] theorem State.ramWrite_dmaDone (s : State) (off n : Nat) (v : Word) :
    (s.ramWrite off n v).dmaDone = s.dmaDone := State.putBytes_dmaDone s off _
@[simp] theorem State.ramWrite_fault (s : State) (off n : Nat) (v : Word) :
    (s.ramWrite off n v).fault = s.fault := State.putBytes_fault s off _
@[simp] theorem State.ramWrite_doneIe (s : State) (off n : Nat) (v : Word) :
    (s.ramWrite off n v).doneIe = s.doneIe := State.putBytes_doneIe s off _
@[simp] theorem State.ramWrite_dmaDoneIe (s : State) (off n : Nat) (v : Word) :
    (s.ramWrite off n v).dmaDoneIe = s.dmaDoneIe := State.putBytes_dmaDoneIe s off _
@[simp] theorem State.ramWrite_faultIe (s : State) (off n : Nat) (v : Word) :
    (s.ramWrite off n v).faultIe = s.faultIe := State.putBytes_faultIe s off _
@[simp] theorem State.ramWrite_faultCause (s : State) (off n : Nat) (v : Word) :
    (s.ramWrite off n v).faultCause = s.faultCause := State.putBytes_faultCause s off _
@[simp] theorem State.ramWrite_faultCp (s : State) (off n : Nat) (v : Word) :
    (s.ramWrite off n v).faultCp = s.faultCp := State.putBytes_faultCp s off _
@[simp] theorem State.ramWrite_faultWord (s : State) (off n : Nat) (v : Word) :
    (s.ramWrite off n v).faultWord = s.faultWord := State.putBytes_faultWord s off _
@[simp] theorem State.ramWrite_row0 (s : State) (off n : Nat) (v : Word) :
    (s.ramWrite off n v).row0 = s.row0 := State.putBytes_row0 s off _
@[simp] theorem State.ramWrite_row1 (s : State) (off n : Nat) (v : Word) :
    (s.ramWrite off n v).row1 = s.row1 := State.putBytes_row1 s off _
@[simp] theorem State.ramWrite_led (s : State) (off n : Nat) (v : Word) :
    (s.ramWrite off n v).led = s.led := State.putBytes_led s off _
@[simp] theorem State.ramWrite_sel (s : State) (off n : Nat) (v : Word) :
    (s.ramWrite off n v).sel = s.sel := State.putBytes_sel s off _
@[simp] theorem State.ramWrite_last (s : State) (off n : Nat) (v : Word) :
    (s.ramWrite off n v).last = s.last := State.putBytes_last s off _
@[simp] theorem State.ramWrite_upEdge (s : State) (off n : Nat) (v : Word) :
    (s.ramWrite off n v).upEdge = s.upEdge := State.putBytes_upEdge s off _
@[simp] theorem State.ramWrite_downEdge (s : State) (off n : Nat) (v : Word) :
    (s.ramWrite off n v).downEdge = s.downEdge := State.putBytes_downEdge s off _
@[simp] theorem State.ramWrite_menuEdge (s : State) (off n : Nat) (v : Word) :
    (s.ramWrite off n v).menuEdge = s.menuEdge := State.putBytes_menuEdge s off _
@[simp] theorem State.ramWrite_speed0 (s : State) (off n : Nat) (v : Word) :
    (s.ramWrite off n v).speed0 = s.speed0 := State.putBytes_speed0 s off _
@[simp] theorem State.ramWrite_speed1 (s : State) (off n : Nat) (v : Word) :
    (s.ramWrite off n v).speed1 = s.speed1 := State.putBytes_speed1 s off _
@[simp] theorem State.ramWrite_speed2 (s : State) (off n : Nat) (v : Word) :
    (s.ramWrite off n v).speed2 = s.speed2 := State.putBytes_speed2 s off _
@[simp] theorem State.ramWrite_speed3 (s : State) (off n : Nat) (v : Word) :
    (s.ramWrite off n v).speed3 = s.speed3 := State.putBytes_speed3 s off _
@[simp] theorem State.ramWrite_dmaActive (s : State) (off n : Nat) (v : Word) :
    (s.ramWrite off n v).dmaActive = s.dmaActive := State.putBytes_dmaActive s off _
@[simp] theorem State.ramWrite_dmaIdx (s : State) (off n : Nat) (v : Word) :
    (s.ramWrite off n v).dmaIdx = s.dmaIdx := State.putBytes_dmaIdx s off _
@[simp] theorem State.ramWrite_srData (s : State) (off n : Nat) (v : Word) :
    (s.ramWrite off n v).srData = s.srData := State.putBytes_srData s off _
@[simp] theorem State.ramWrite_srClk (s : State) (off n : Nat) (v : Word) :
    (s.ramWrite off n v).srClk = s.srClk := State.putBytes_srClk s off _
@[simp] theorem State.ramWrite_srLoad (s : State) (off n : Nat) (v : Word) :
    (s.ramWrite off n v).srLoad = s.srLoad := State.putBytes_srLoad s off _
@[simp] theorem State.ramWrite_dispOut (s : State) (off n : Nat) (v : Word) :
    (s.ramWrite off n v).dispOut = s.dispOut := State.putBytes_dispOut s off _
@[simp] theorem State.ramWrite_pinOut (s : State) (off n : Nat) (v : Word) :
    (s.ramWrite off n v).pinOut = s.pinOut := State.putBytes_pinOut s off _
@[simp] theorem State.ramWrite_inside (s : State) (off n : Nat) (v : Word) :
    (s.ramWrite off n v).inside = s.inside := State.putBytes_inside s off _
@[simp] theorem State.ramWrite_cfg (s : State) (off n : Nat) (v : Word) :
    (s.ramWrite off n v).cfg = s.cfg := State.putBytes_cfg s off _
@[simp] theorem State.ramWrite_plan (s : State) (off n : Nat) (v : Word) :
    (s.ramWrite off n v).plan = s.plan := State.putBytes_plan s off _
@[simp] theorem State.ramWrite_pins (s : State) (off n : Nat) (v : Word) :
    (s.ramWrite off n v).pins = s.pins := State.putBytes_pins s off _
@[simp] theorem State.ramWrite_drawn (s : State) (off n : Nat) (v : Word) :
    (s.ramWrite off n v).drawn = s.drawn := State.putBytes_drawn s off _
@[simp] theorem State.ramWrite_resets (s : State) (off n : Nat) (v : Word) :
    (s.ramWrite off n v).resets = s.resets := State.putBytes_resets s off _
@[simp] theorem State.ramWrite_busOut (s : State) (off n : Nat) (v : Word) :
    (s.ramWrite off n v).busOut = s.busOut := State.putBytes_busOut s off _

/-! ### setScanMode -/

@[simp] theorem State.setScanMode_run (s : State) (m : Bool) :
    (s.setScanMode m).run = s.run := rfl
@[simp] theorem State.setScanMode_cp (s : State) (m : Bool) :
    (s.setScanMode m).cp = s.cp := rfl
@[simp] theorem State.setScanMode_clBase (s : State) (m : Bool) :
    (s.setScanMode m).clBase = s.clBase := rfl
@[simp] theorem State.setScanMode_scanMode (s : State) (m : Bool) :
    (s.setScanMode m).scanMode = m := rfl
@[simp] theorem State.setScanMode_done (s : State) (m : Bool) :
    (s.setScanMode m).done = s.done := rfl
@[simp] theorem State.setScanMode_dmaDone (s : State) (m : Bool) :
    (s.setScanMode m).dmaDone = s.dmaDone := rfl
@[simp] theorem State.setScanMode_fault (s : State) (m : Bool) :
    (s.setScanMode m).fault = s.fault := rfl
@[simp] theorem State.setScanMode_doneIe (s : State) (m : Bool) :
    (s.setScanMode m).doneIe = s.doneIe := rfl
@[simp] theorem State.setScanMode_dmaDoneIe (s : State) (m : Bool) :
    (s.setScanMode m).dmaDoneIe = s.dmaDoneIe := rfl
@[simp] theorem State.setScanMode_faultIe (s : State) (m : Bool) :
    (s.setScanMode m).faultIe = s.faultIe := rfl
@[simp] theorem State.setScanMode_faultCause (s : State) (m : Bool) :
    (s.setScanMode m).faultCause = s.faultCause := rfl
@[simp] theorem State.setScanMode_faultCp (s : State) (m : Bool) :
    (s.setScanMode m).faultCp = s.faultCp := rfl
@[simp] theorem State.setScanMode_faultWord (s : State) (m : Bool) :
    (s.setScanMode m).faultWord = s.faultWord := rfl
@[simp] theorem State.setScanMode_row0 (s : State) (m : Bool) :
    (s.setScanMode m).row0 = s.row0 := rfl
@[simp] theorem State.setScanMode_row1 (s : State) (m : Bool) :
    (s.setScanMode m).row1 = s.row1 := rfl
@[simp] theorem State.setScanMode_led (s : State) (m : Bool) :
    (s.setScanMode m).led = s.led := rfl
@[simp] theorem State.setScanMode_sel (s : State) (m : Bool) :
    (s.setScanMode m).sel = s.sel := rfl
@[simp] theorem State.setScanMode_last (s : State) (m : Bool) :
    (s.setScanMode m).last = s.last := rfl
@[simp] theorem State.setScanMode_upEdge (s : State) (m : Bool) :
    (s.setScanMode m).upEdge = s.upEdge := rfl
@[simp] theorem State.setScanMode_downEdge (s : State) (m : Bool) :
    (s.setScanMode m).downEdge = s.downEdge := rfl
@[simp] theorem State.setScanMode_menuEdge (s : State) (m : Bool) :
    (s.setScanMode m).menuEdge = s.menuEdge := rfl
@[simp] theorem State.setScanMode_speed0 (s : State) (m : Bool) :
    (s.setScanMode m).speed0 = s.speed0 := rfl
@[simp] theorem State.setScanMode_speed1 (s : State) (m : Bool) :
    (s.setScanMode m).speed1 = s.speed1 := rfl
@[simp] theorem State.setScanMode_speed2 (s : State) (m : Bool) :
    (s.setScanMode m).speed2 = s.speed2 := rfl
@[simp] theorem State.setScanMode_speed3 (s : State) (m : Bool) :
    (s.setScanMode m).speed3 = s.speed3 := rfl
@[simp] theorem State.setScanMode_dmaActive (s : State) (m : Bool) :
    (s.setScanMode m).dmaActive = s.dmaActive := rfl
@[simp] theorem State.setScanMode_dmaIdx (s : State) (m : Bool) :
    (s.setScanMode m).dmaIdx = s.dmaIdx := rfl
@[simp] theorem State.setScanMode_mem (s : State) (m : Bool) :
    (s.setScanMode m).mem = s.mem := rfl
@[simp] theorem State.setScanMode_srData (s : State) (m : Bool) :
    (s.setScanMode m).srData = s.srData := rfl
@[simp] theorem State.setScanMode_srClk (s : State) (m : Bool) :
    (s.setScanMode m).srClk = s.srClk := rfl
@[simp] theorem State.setScanMode_srLoad (s : State) (m : Bool) :
    (s.setScanMode m).srLoad = s.srLoad := rfl
@[simp] theorem State.setScanMode_dispOut (s : State) (m : Bool) :
    (s.setScanMode m).dispOut = s.dispOut := rfl
@[simp] theorem State.setScanMode_pinOut (s : State) (m : Bool) :
    (s.setScanMode m).pinOut = s.pinOut := rfl
@[simp] theorem State.setScanMode_inside (s : State) (m : Bool) :
    (s.setScanMode m).inside = s.inside := rfl
@[simp] theorem State.setScanMode_cfg (s : State) (m : Bool) :
    (s.setScanMode m).cfg = s.cfg := rfl
@[simp] theorem State.setScanMode_plan (s : State) (m : Bool) :
    (s.setScanMode m).plan = s.plan := rfl
@[simp] theorem State.setScanMode_pins (s : State) (m : Bool) :
    (s.setScanMode m).pins = s.pins := rfl
@[simp] theorem State.setScanMode_drawn (s : State) (m : Bool) :
    (s.setScanMode m).drawn = s.drawn := rfl
@[simp] theorem State.setScanMode_resets (s : State) (m : Bool) :
    (s.setScanMode m).resets = s.resets := rfl
@[simp] theorem State.setScanMode_busOut (s : State) (m : Bool) :
    (s.setScanMode m).busOut = s.busOut := rfl

/-! ### setClBase -/

@[simp] theorem State.setClBase_run (s : State) (n : BitVec 10) :
    (s.setClBase n).run = s.run := rfl
@[simp] theorem State.setClBase_cp (s : State) (n : BitVec 10) :
    (s.setClBase n).cp = s.cp := rfl
@[simp] theorem State.setClBase_clBase (s : State) (n : BitVec 10) :
    (s.setClBase n).clBase = n := rfl
@[simp] theorem State.setClBase_scanMode (s : State) (n : BitVec 10) :
    (s.setClBase n).scanMode = s.scanMode := rfl
@[simp] theorem State.setClBase_done (s : State) (n : BitVec 10) :
    (s.setClBase n).done = s.done := rfl
@[simp] theorem State.setClBase_dmaDone (s : State) (n : BitVec 10) :
    (s.setClBase n).dmaDone = s.dmaDone := rfl
@[simp] theorem State.setClBase_fault (s : State) (n : BitVec 10) :
    (s.setClBase n).fault = s.fault := rfl
@[simp] theorem State.setClBase_doneIe (s : State) (n : BitVec 10) :
    (s.setClBase n).doneIe = s.doneIe := rfl
@[simp] theorem State.setClBase_dmaDoneIe (s : State) (n : BitVec 10) :
    (s.setClBase n).dmaDoneIe = s.dmaDoneIe := rfl
@[simp] theorem State.setClBase_faultIe (s : State) (n : BitVec 10) :
    (s.setClBase n).faultIe = s.faultIe := rfl
@[simp] theorem State.setClBase_faultCause (s : State) (n : BitVec 10) :
    (s.setClBase n).faultCause = s.faultCause := rfl
@[simp] theorem State.setClBase_faultCp (s : State) (n : BitVec 10) :
    (s.setClBase n).faultCp = s.faultCp := rfl
@[simp] theorem State.setClBase_faultWord (s : State) (n : BitVec 10) :
    (s.setClBase n).faultWord = s.faultWord := rfl
@[simp] theorem State.setClBase_row0 (s : State) (n : BitVec 10) :
    (s.setClBase n).row0 = s.row0 := rfl
@[simp] theorem State.setClBase_row1 (s : State) (n : BitVec 10) :
    (s.setClBase n).row1 = s.row1 := rfl
@[simp] theorem State.setClBase_led (s : State) (n : BitVec 10) :
    (s.setClBase n).led = s.led := rfl
@[simp] theorem State.setClBase_sel (s : State) (n : BitVec 10) :
    (s.setClBase n).sel = s.sel := rfl
@[simp] theorem State.setClBase_last (s : State) (n : BitVec 10) :
    (s.setClBase n).last = s.last := rfl
@[simp] theorem State.setClBase_upEdge (s : State) (n : BitVec 10) :
    (s.setClBase n).upEdge = s.upEdge := rfl
@[simp] theorem State.setClBase_downEdge (s : State) (n : BitVec 10) :
    (s.setClBase n).downEdge = s.downEdge := rfl
@[simp] theorem State.setClBase_menuEdge (s : State) (n : BitVec 10) :
    (s.setClBase n).menuEdge = s.menuEdge := rfl
@[simp] theorem State.setClBase_speed0 (s : State) (n : BitVec 10) :
    (s.setClBase n).speed0 = s.speed0 := rfl
@[simp] theorem State.setClBase_speed1 (s : State) (n : BitVec 10) :
    (s.setClBase n).speed1 = s.speed1 := rfl
@[simp] theorem State.setClBase_speed2 (s : State) (n : BitVec 10) :
    (s.setClBase n).speed2 = s.speed2 := rfl
@[simp] theorem State.setClBase_speed3 (s : State) (n : BitVec 10) :
    (s.setClBase n).speed3 = s.speed3 := rfl
@[simp] theorem State.setClBase_dmaActive (s : State) (n : BitVec 10) :
    (s.setClBase n).dmaActive = s.dmaActive := rfl
@[simp] theorem State.setClBase_dmaIdx (s : State) (n : BitVec 10) :
    (s.setClBase n).dmaIdx = s.dmaIdx := rfl
@[simp] theorem State.setClBase_mem (s : State) (n : BitVec 10) :
    (s.setClBase n).mem = s.mem := rfl
@[simp] theorem State.setClBase_srData (s : State) (n : BitVec 10) :
    (s.setClBase n).srData = s.srData := rfl
@[simp] theorem State.setClBase_srClk (s : State) (n : BitVec 10) :
    (s.setClBase n).srClk = s.srClk := rfl
@[simp] theorem State.setClBase_srLoad (s : State) (n : BitVec 10) :
    (s.setClBase n).srLoad = s.srLoad := rfl
@[simp] theorem State.setClBase_dispOut (s : State) (n : BitVec 10) :
    (s.setClBase n).dispOut = s.dispOut := rfl
@[simp] theorem State.setClBase_pinOut (s : State) (n : BitVec 10) :
    (s.setClBase n).pinOut = s.pinOut := rfl
@[simp] theorem State.setClBase_inside (s : State) (n : BitVec 10) :
    (s.setClBase n).inside = s.inside := rfl
@[simp] theorem State.setClBase_cfg (s : State) (n : BitVec 10) :
    (s.setClBase n).cfg = s.cfg := rfl
@[simp] theorem State.setClBase_plan (s : State) (n : BitVec 10) :
    (s.setClBase n).plan = s.plan := rfl
@[simp] theorem State.setClBase_pins (s : State) (n : BitVec 10) :
    (s.setClBase n).pins = s.pins := rfl
@[simp] theorem State.setClBase_drawn (s : State) (n : BitVec 10) :
    (s.setClBase n).drawn = s.drawn := rfl
@[simp] theorem State.setClBase_resets (s : State) (n : BitVec 10) :
    (s.setClBase n).resets = s.resets := rfl
@[simp] theorem State.setClBase_busOut (s : State) (n : BitVec 10) :
    (s.setClBase n).busOut = s.busOut := rfl

/-! ### setSel -/

@[simp] theorem State.setSel_run (s : State) (n : BitVec 2) :
    (s.setSel n).run = s.run := rfl
@[simp] theorem State.setSel_cp (s : State) (n : BitVec 2) :
    (s.setSel n).cp = s.cp := rfl
@[simp] theorem State.setSel_clBase (s : State) (n : BitVec 2) :
    (s.setSel n).clBase = s.clBase := rfl
@[simp] theorem State.setSel_scanMode (s : State) (n : BitVec 2) :
    (s.setSel n).scanMode = s.scanMode := rfl
@[simp] theorem State.setSel_done (s : State) (n : BitVec 2) :
    (s.setSel n).done = s.done := rfl
@[simp] theorem State.setSel_dmaDone (s : State) (n : BitVec 2) :
    (s.setSel n).dmaDone = s.dmaDone := rfl
@[simp] theorem State.setSel_fault (s : State) (n : BitVec 2) :
    (s.setSel n).fault = s.fault := rfl
@[simp] theorem State.setSel_doneIe (s : State) (n : BitVec 2) :
    (s.setSel n).doneIe = s.doneIe := rfl
@[simp] theorem State.setSel_dmaDoneIe (s : State) (n : BitVec 2) :
    (s.setSel n).dmaDoneIe = s.dmaDoneIe := rfl
@[simp] theorem State.setSel_faultIe (s : State) (n : BitVec 2) :
    (s.setSel n).faultIe = s.faultIe := rfl
@[simp] theorem State.setSel_faultCause (s : State) (n : BitVec 2) :
    (s.setSel n).faultCause = s.faultCause := rfl
@[simp] theorem State.setSel_faultCp (s : State) (n : BitVec 2) :
    (s.setSel n).faultCp = s.faultCp := rfl
@[simp] theorem State.setSel_faultWord (s : State) (n : BitVec 2) :
    (s.setSel n).faultWord = s.faultWord := rfl
@[simp] theorem State.setSel_row0 (s : State) (n : BitVec 2) :
    (s.setSel n).row0 = s.row0 := rfl
@[simp] theorem State.setSel_row1 (s : State) (n : BitVec 2) :
    (s.setSel n).row1 = s.row1 := rfl
@[simp] theorem State.setSel_led (s : State) (n : BitVec 2) :
    (s.setSel n).led = s.led := rfl
@[simp] theorem State.setSel_sel (s : State) (n : BitVec 2) :
    (s.setSel n).sel = n := rfl
@[simp] theorem State.setSel_last (s : State) (n : BitVec 2) :
    (s.setSel n).last = s.last := rfl
@[simp] theorem State.setSel_upEdge (s : State) (n : BitVec 2) :
    (s.setSel n).upEdge = s.upEdge := rfl
@[simp] theorem State.setSel_downEdge (s : State) (n : BitVec 2) :
    (s.setSel n).downEdge = s.downEdge := rfl
@[simp] theorem State.setSel_menuEdge (s : State) (n : BitVec 2) :
    (s.setSel n).menuEdge = s.menuEdge := rfl
@[simp] theorem State.setSel_speed0 (s : State) (n : BitVec 2) :
    (s.setSel n).speed0 = s.speed0 := rfl
@[simp] theorem State.setSel_speed1 (s : State) (n : BitVec 2) :
    (s.setSel n).speed1 = s.speed1 := rfl
@[simp] theorem State.setSel_speed2 (s : State) (n : BitVec 2) :
    (s.setSel n).speed2 = s.speed2 := rfl
@[simp] theorem State.setSel_speed3 (s : State) (n : BitVec 2) :
    (s.setSel n).speed3 = s.speed3 := rfl
@[simp] theorem State.setSel_dmaActive (s : State) (n : BitVec 2) :
    (s.setSel n).dmaActive = s.dmaActive := rfl
@[simp] theorem State.setSel_dmaIdx (s : State) (n : BitVec 2) :
    (s.setSel n).dmaIdx = s.dmaIdx := rfl
@[simp] theorem State.setSel_mem (s : State) (n : BitVec 2) :
    (s.setSel n).mem = s.mem := rfl
@[simp] theorem State.setSel_srData (s : State) (n : BitVec 2) :
    (s.setSel n).srData = s.srData := rfl
@[simp] theorem State.setSel_srClk (s : State) (n : BitVec 2) :
    (s.setSel n).srClk = s.srClk := rfl
@[simp] theorem State.setSel_srLoad (s : State) (n : BitVec 2) :
    (s.setSel n).srLoad = s.srLoad := rfl
@[simp] theorem State.setSel_dispOut (s : State) (n : BitVec 2) :
    (s.setSel n).dispOut = s.dispOut := rfl
@[simp] theorem State.setSel_pinOut (s : State) (n : BitVec 2) :
    (s.setSel n).pinOut = s.pinOut := rfl
@[simp] theorem State.setSel_inside (s : State) (n : BitVec 2) :
    (s.setSel n).inside = s.inside := rfl
@[simp] theorem State.setSel_cfg (s : State) (n : BitVec 2) :
    (s.setSel n).cfg = s.cfg := rfl
@[simp] theorem State.setSel_plan (s : State) (n : BitVec 2) :
    (s.setSel n).plan = s.plan := rfl
@[simp] theorem State.setSel_pins (s : State) (n : BitVec 2) :
    (s.setSel n).pins = s.pins := rfl
@[simp] theorem State.setSel_drawn (s : State) (n : BitVec 2) :
    (s.setSel n).drawn = s.drawn := rfl
@[simp] theorem State.setSel_resets (s : State) (n : BitVec 2) :
    (s.setSel n).resets = s.resets := rfl
@[simp] theorem State.setSel_busOut (s : State) (n : BitVec 2) :
    (s.setSel n).busOut = s.busOut := rfl

/-! ### writeCtrl -/

@[simp] theorem State.writeCtrl_clBase (s : State) (v : Word) :
    (s.writeCtrl v).clBase = s.clBase := by unfold State.writeCtrl; split <;> simp
@[simp] theorem State.writeCtrl_done (s : State) (v : Word) :
    (s.writeCtrl v).done = s.done := by unfold State.writeCtrl; split <;> simp
@[simp] theorem State.writeCtrl_dmaDone (s : State) (v : Word) :
    (s.writeCtrl v).dmaDone = s.dmaDone := by unfold State.writeCtrl; split <;> simp
@[simp] theorem State.writeCtrl_fault (s : State) (v : Word) :
    (s.writeCtrl v).fault = s.fault := by unfold State.writeCtrl; split <;> simp
@[simp] theorem State.writeCtrl_doneIe (s : State) (v : Word) :
    (s.writeCtrl v).doneIe = s.doneIe := by unfold State.writeCtrl; split <;> simp
@[simp] theorem State.writeCtrl_dmaDoneIe (s : State) (v : Word) :
    (s.writeCtrl v).dmaDoneIe = s.dmaDoneIe := by unfold State.writeCtrl; split <;> simp
@[simp] theorem State.writeCtrl_faultIe (s : State) (v : Word) :
    (s.writeCtrl v).faultIe = s.faultIe := by unfold State.writeCtrl; split <;> simp
@[simp] theorem State.writeCtrl_faultCause (s : State) (v : Word) :
    (s.writeCtrl v).faultCause = s.faultCause := by unfold State.writeCtrl; split <;> simp
@[simp] theorem State.writeCtrl_faultCp (s : State) (v : Word) :
    (s.writeCtrl v).faultCp = s.faultCp := by unfold State.writeCtrl; split <;> simp
@[simp] theorem State.writeCtrl_faultWord (s : State) (v : Word) :
    (s.writeCtrl v).faultWord = s.faultWord := by unfold State.writeCtrl; split <;> simp
@[simp] theorem State.writeCtrl_row0 (s : State) (v : Word) :
    (s.writeCtrl v).row0 = s.row0 := by unfold State.writeCtrl; split <;> simp
@[simp] theorem State.writeCtrl_row1 (s : State) (v : Word) :
    (s.writeCtrl v).row1 = s.row1 := by unfold State.writeCtrl; split <;> simp
@[simp] theorem State.writeCtrl_led (s : State) (v : Word) :
    (s.writeCtrl v).led = s.led := by unfold State.writeCtrl; split <;> simp
@[simp] theorem State.writeCtrl_sel (s : State) (v : Word) :
    (s.writeCtrl v).sel = s.sel := by unfold State.writeCtrl; split <;> simp
@[simp] theorem State.writeCtrl_last (s : State) (v : Word) :
    (s.writeCtrl v).last = s.last := by unfold State.writeCtrl; split <;> simp
@[simp] theorem State.writeCtrl_upEdge (s : State) (v : Word) :
    (s.writeCtrl v).upEdge = s.upEdge := by unfold State.writeCtrl; split <;> simp
@[simp] theorem State.writeCtrl_downEdge (s : State) (v : Word) :
    (s.writeCtrl v).downEdge = s.downEdge := by unfold State.writeCtrl; split <;> simp
@[simp] theorem State.writeCtrl_menuEdge (s : State) (v : Word) :
    (s.writeCtrl v).menuEdge = s.menuEdge := by unfold State.writeCtrl; split <;> simp
@[simp] theorem State.writeCtrl_speed0 (s : State) (v : Word) :
    (s.writeCtrl v).speed0 = s.speed0 := by unfold State.writeCtrl; split <;> simp
@[simp] theorem State.writeCtrl_speed1 (s : State) (v : Word) :
    (s.writeCtrl v).speed1 = s.speed1 := by unfold State.writeCtrl; split <;> simp
@[simp] theorem State.writeCtrl_speed2 (s : State) (v : Word) :
    (s.writeCtrl v).speed2 = s.speed2 := by unfold State.writeCtrl; split <;> simp
@[simp] theorem State.writeCtrl_speed3 (s : State) (v : Word) :
    (s.writeCtrl v).speed3 = s.speed3 := by unfold State.writeCtrl; split <;> simp
@[simp] theorem State.writeCtrl_dmaActive (s : State) (v : Word) :
    (s.writeCtrl v).dmaActive = s.dmaActive := by unfold State.writeCtrl; split <;> simp
@[simp] theorem State.writeCtrl_dmaIdx (s : State) (v : Word) :
    (s.writeCtrl v).dmaIdx = s.dmaIdx := by unfold State.writeCtrl; split <;> simp
@[simp] theorem State.writeCtrl_mem (s : State) (v : Word) :
    (s.writeCtrl v).mem = s.mem := by unfold State.writeCtrl; split <;> simp
@[simp] theorem State.writeCtrl_srData (s : State) (v : Word) :
    (s.writeCtrl v).srData = s.srData := by unfold State.writeCtrl; split <;> simp
@[simp] theorem State.writeCtrl_srClk (s : State) (v : Word) :
    (s.writeCtrl v).srClk = s.srClk := by unfold State.writeCtrl; split <;> simp
@[simp] theorem State.writeCtrl_srLoad (s : State) (v : Word) :
    (s.writeCtrl v).srLoad = s.srLoad := by unfold State.writeCtrl; split <;> simp
@[simp] theorem State.writeCtrl_dispOut (s : State) (v : Word) :
    (s.writeCtrl v).dispOut = s.dispOut := by unfold State.writeCtrl; split <;> simp
@[simp] theorem State.writeCtrl_pinOut (s : State) (v : Word) :
    (s.writeCtrl v).pinOut = s.pinOut := by unfold State.writeCtrl; split <;> simp
@[simp] theorem State.writeCtrl_inside (s : State) (v : Word) :
    (s.writeCtrl v).inside = s.inside := by unfold State.writeCtrl; split <;> simp
@[simp] theorem State.writeCtrl_cfg (s : State) (v : Word) :
    (s.writeCtrl v).cfg = s.cfg := by unfold State.writeCtrl; split <;> simp
@[simp] theorem State.writeCtrl_plan (s : State) (v : Word) :
    (s.writeCtrl v).plan = s.plan := by unfold State.writeCtrl; split <;> simp
@[simp] theorem State.writeCtrl_pins (s : State) (v : Word) :
    (s.writeCtrl v).pins = s.pins := by unfold State.writeCtrl; split <;> simp
@[simp] theorem State.writeCtrl_drawn (s : State) (v : Word) :
    (s.writeCtrl v).drawn = s.drawn := by unfold State.writeCtrl; split <;> simp
@[simp] theorem State.writeCtrl_resets (s : State) (v : Word) :
    (s.writeCtrl v).resets = s.resets := by unfold State.writeCtrl; split <;> simp
@[simp] theorem State.writeCtrl_busOut (s : State) (v : Word) :
    (s.writeCtrl v).busOut = s.busOut := by unfold State.writeCtrl; split <;> simp

/-- What the register writes keep, a write of the register page keeps. -/
theorem State.regWrite_ind (P : State → Prop) (s : State) (off : Nat) (v : Word) (hc : P (s.writeCtrl v))
    (hs : P (s.writeStatus v)) (hi : P (s.writeIe v)) (hb : P (s.setClBase (v.setWidth 10)))
    (hl : P (s.setSel (v.setWidth 2))) (he : P (s.writeEvents v)) (hk : ∀ k, P (s.setSpeed k v)) (h : P s) :
    P (s.regWrite off v) := by
  unfold State.regWrite
  repeat' split
  all_goals first | assumption | exact hk _

/-! ### regWrite -/

@[simp] theorem State.regWrite_faultCause (s : State) (off : Nat) (v : Word) :
    (s.regWrite off v).faultCause = s.faultCause := 
  State.regWrite_ind (fun t => t.faultCause = s.faultCause) s off v (State.writeCtrl_faultCause s v) rfl rfl rfl rfl rfl
    (fun k => State.setSpeed_faultCause s k v) rfl
@[simp] theorem State.regWrite_faultCp (s : State) (off : Nat) (v : Word) :
    (s.regWrite off v).faultCp = s.faultCp := 
  State.regWrite_ind (fun t => t.faultCp = s.faultCp) s off v (State.writeCtrl_faultCp s v) rfl rfl rfl rfl rfl
    (fun k => State.setSpeed_faultCp s k v) rfl
@[simp] theorem State.regWrite_faultWord (s : State) (off : Nat) (v : Word) :
    (s.regWrite off v).faultWord = s.faultWord := 
  State.regWrite_ind (fun t => t.faultWord = s.faultWord) s off v (State.writeCtrl_faultWord s v) rfl rfl rfl rfl rfl
    (fun k => State.setSpeed_faultWord s k v) rfl
@[simp] theorem State.regWrite_row0 (s : State) (off : Nat) (v : Word) :
    (s.regWrite off v).row0 = s.row0 := 
  State.regWrite_ind (fun t => t.row0 = s.row0) s off v (State.writeCtrl_row0 s v) rfl rfl rfl rfl rfl
    (fun k => State.setSpeed_row0 s k v) rfl
@[simp] theorem State.regWrite_row1 (s : State) (off : Nat) (v : Word) :
    (s.regWrite off v).row1 = s.row1 := 
  State.regWrite_ind (fun t => t.row1 = s.row1) s off v (State.writeCtrl_row1 s v) rfl rfl rfl rfl rfl
    (fun k => State.setSpeed_row1 s k v) rfl
@[simp] theorem State.regWrite_led (s : State) (off : Nat) (v : Word) :
    (s.regWrite off v).led = s.led := 
  State.regWrite_ind (fun t => t.led = s.led) s off v (State.writeCtrl_led s v) rfl rfl rfl rfl rfl
    (fun k => State.setSpeed_led s k v) rfl
@[simp] theorem State.regWrite_last (s : State) (off : Nat) (v : Word) :
    (s.regWrite off v).last = s.last := 
  State.regWrite_ind (fun t => t.last = s.last) s off v (State.writeCtrl_last s v) rfl rfl rfl rfl rfl
    (fun k => State.setSpeed_last s k v) rfl
@[simp] theorem State.regWrite_dmaActive (s : State) (off : Nat) (v : Word) :
    (s.regWrite off v).dmaActive = s.dmaActive := 
  State.regWrite_ind (fun t => t.dmaActive = s.dmaActive) s off v (State.writeCtrl_dmaActive s v) rfl rfl rfl rfl rfl
    (fun k => State.setSpeed_dmaActive s k v) rfl
@[simp] theorem State.regWrite_dmaIdx (s : State) (off : Nat) (v : Word) :
    (s.regWrite off v).dmaIdx = s.dmaIdx := 
  State.regWrite_ind (fun t => t.dmaIdx = s.dmaIdx) s off v (State.writeCtrl_dmaIdx s v) rfl rfl rfl rfl rfl
    (fun k => State.setSpeed_dmaIdx s k v) rfl
@[simp] theorem State.regWrite_mem (s : State) (off : Nat) (v : Word) :
    (s.regWrite off v).mem = s.mem := 
  State.regWrite_ind (fun t => t.mem = s.mem) s off v (State.writeCtrl_mem s v) rfl rfl rfl rfl rfl
    (fun k => State.setSpeed_mem s k v) rfl
@[simp] theorem State.regWrite_srData (s : State) (off : Nat) (v : Word) :
    (s.regWrite off v).srData = s.srData := 
  State.regWrite_ind (fun t => t.srData = s.srData) s off v (State.writeCtrl_srData s v) rfl rfl rfl rfl rfl
    (fun k => State.setSpeed_srData s k v) rfl
@[simp] theorem State.regWrite_srClk (s : State) (off : Nat) (v : Word) :
    (s.regWrite off v).srClk = s.srClk := 
  State.regWrite_ind (fun t => t.srClk = s.srClk) s off v (State.writeCtrl_srClk s v) rfl rfl rfl rfl rfl
    (fun k => State.setSpeed_srClk s k v) rfl
@[simp] theorem State.regWrite_srLoad (s : State) (off : Nat) (v : Word) :
    (s.regWrite off v).srLoad = s.srLoad := 
  State.regWrite_ind (fun t => t.srLoad = s.srLoad) s off v (State.writeCtrl_srLoad s v) rfl rfl rfl rfl rfl
    (fun k => State.setSpeed_srLoad s k v) rfl
@[simp] theorem State.regWrite_dispOut (s : State) (off : Nat) (v : Word) :
    (s.regWrite off v).dispOut = s.dispOut := 
  State.regWrite_ind (fun t => t.dispOut = s.dispOut) s off v (State.writeCtrl_dispOut s v) rfl rfl rfl rfl rfl
    (fun k => State.setSpeed_dispOut s k v) rfl
@[simp] theorem State.regWrite_pinOut (s : State) (off : Nat) (v : Word) :
    (s.regWrite off v).pinOut = s.pinOut := 
  State.regWrite_ind (fun t => t.pinOut = s.pinOut) s off v (State.writeCtrl_pinOut s v) rfl rfl rfl rfl rfl
    (fun k => State.setSpeed_pinOut s k v) rfl
@[simp] theorem State.regWrite_inside (s : State) (off : Nat) (v : Word) :
    (s.regWrite off v).inside = s.inside := 
  State.regWrite_ind (fun t => t.inside = s.inside) s off v (State.writeCtrl_inside s v) rfl rfl rfl rfl rfl
    (fun k => State.setSpeed_inside s k v) rfl
@[simp] theorem State.regWrite_cfg (s : State) (off : Nat) (v : Word) :
    (s.regWrite off v).cfg = s.cfg := 
  State.regWrite_ind (fun t => t.cfg = s.cfg) s off v (State.writeCtrl_cfg s v) rfl rfl rfl rfl rfl
    (fun k => State.setSpeed_cfg s k v) rfl
@[simp] theorem State.regWrite_plan (s : State) (off : Nat) (v : Word) :
    (s.regWrite off v).plan = s.plan := 
  State.regWrite_ind (fun t => t.plan = s.plan) s off v (State.writeCtrl_plan s v) rfl rfl rfl rfl rfl
    (fun k => State.setSpeed_plan s k v) rfl
@[simp] theorem State.regWrite_pins (s : State) (off : Nat) (v : Word) :
    (s.regWrite off v).pins = s.pins := 
  State.regWrite_ind (fun t => t.pins = s.pins) s off v (State.writeCtrl_pins s v) rfl rfl rfl rfl rfl
    (fun k => State.setSpeed_pins s k v) rfl
@[simp] theorem State.regWrite_drawn (s : State) (off : Nat) (v : Word) :
    (s.regWrite off v).drawn = s.drawn := 
  State.regWrite_ind (fun t => t.drawn = s.drawn) s off v (State.writeCtrl_drawn s v) rfl rfl rfl rfl rfl
    (fun k => State.setSpeed_drawn s k v) rfl
@[simp] theorem State.regWrite_resets (s : State) (off : Nat) (v : Word) :
    (s.regWrite off v).resets = s.resets := 
  State.regWrite_ind (fun t => t.resets = s.resets) s off v (State.writeCtrl_resets s v) rfl rfl rfl rfl rfl
    (fun k => State.setSpeed_resets s k v) rfl
@[simp] theorem State.regWrite_busOut (s : State) (off : Nat) (v : Word) :
    (s.regWrite off v).busOut = s.busOut := 
  State.regWrite_ind (fun t => t.busOut = s.busOut) s off v (State.writeCtrl_busOut s v) rfl rfl rfl rfl rfl
    (fun k => State.setSpeed_busOut s k v) rfl

/-! ### effect -/

@[simp] theorem effect_cp (s : State) (n : Nat) (b : Position) (m : Micro) :
    (effect s n b m).cp = s.cp := by
  cases m with
  | commit => exact commitScan_cp _ _ _
  | pin e => exact State.pinsOut_cp _ _
  | sampleMatrix _ _ => exact State.sampled_cp _
  | sampleJoy _ => exact State.sampled_cp _
  | _ => rfl
@[simp] theorem effect_clBase (s : State) (n : Nat) (b : Position) (m : Micro) :
    (effect s n b m).clBase = s.clBase := by
  cases m with
  | commit => exact commitScan_clBase _ _ _
  | pin e => exact State.pinsOut_clBase _ _
  | sampleMatrix _ _ => exact State.sampled_clBase _
  | sampleJoy _ => exact State.sampled_clBase _
  | _ => rfl
@[simp] theorem effect_scanMode (s : State) (n : Nat) (b : Position) (m : Micro) :
    (effect s n b m).scanMode = s.scanMode := by
  cases m with
  | commit => exact commitScan_scanMode _ _ _
  | pin e => exact State.pinsOut_scanMode _ _
  | sampleMatrix _ _ => exact State.sampled_scanMode _
  | sampleJoy _ => exact State.sampled_scanMode _
  | _ => rfl
@[simp] theorem effect_dmaDone (s : State) (n : Nat) (b : Position) (m : Micro) :
    (effect s n b m).dmaDone = s.dmaDone := by
  cases m with
  | commit => exact commitScan_dmaDone _ _ _
  | pin e => exact State.pinsOut_dmaDone _ _
  | sampleMatrix _ _ => exact State.sampled_dmaDone _
  | sampleJoy _ => exact State.sampled_dmaDone _
  | _ => rfl
@[simp] theorem effect_fault (s : State) (n : Nat) (b : Position) (m : Micro) :
    (effect s n b m).fault = s.fault := by
  cases m with
  | commit => exact commitScan_fault _ _ _
  | pin e => exact State.pinsOut_fault _ _
  | sampleMatrix _ _ => exact State.sampled_fault _
  | sampleJoy _ => exact State.sampled_fault _
  | _ => rfl
@[simp] theorem effect_doneIe (s : State) (n : Nat) (b : Position) (m : Micro) :
    (effect s n b m).doneIe = s.doneIe := by
  cases m with
  | commit => exact commitScan_doneIe _ _ _
  | pin e => exact State.pinsOut_doneIe _ _
  | sampleMatrix _ _ => exact State.sampled_doneIe _
  | sampleJoy _ => exact State.sampled_doneIe _
  | _ => rfl
@[simp] theorem effect_dmaDoneIe (s : State) (n : Nat) (b : Position) (m : Micro) :
    (effect s n b m).dmaDoneIe = s.dmaDoneIe := by
  cases m with
  | commit => exact commitScan_dmaDoneIe _ _ _
  | pin e => exact State.pinsOut_dmaDoneIe _ _
  | sampleMatrix _ _ => exact State.sampled_dmaDoneIe _
  | sampleJoy _ => exact State.sampled_dmaDoneIe _
  | _ => rfl
@[simp] theorem effect_faultIe (s : State) (n : Nat) (b : Position) (m : Micro) :
    (effect s n b m).faultIe = s.faultIe := by
  cases m with
  | commit => exact commitScan_faultIe _ _ _
  | pin e => exact State.pinsOut_faultIe _ _
  | sampleMatrix _ _ => exact State.sampled_faultIe _
  | sampleJoy _ => exact State.sampled_faultIe _
  | _ => rfl
@[simp] theorem effect_faultCause (s : State) (n : Nat) (b : Position) (m : Micro) :
    (effect s n b m).faultCause = s.faultCause := by
  cases m with
  | commit => exact commitScan_faultCause _ _ _
  | pin e => exact State.pinsOut_faultCause _ _
  | sampleMatrix _ _ => exact State.sampled_faultCause _
  | sampleJoy _ => exact State.sampled_faultCause _
  | _ => rfl
@[simp] theorem effect_faultCp (s : State) (n : Nat) (b : Position) (m : Micro) :
    (effect s n b m).faultCp = s.faultCp := by
  cases m with
  | commit => exact commitScan_faultCp _ _ _
  | pin e => exact State.pinsOut_faultCp _ _
  | sampleMatrix _ _ => exact State.sampled_faultCp _
  | sampleJoy _ => exact State.sampled_faultCp _
  | _ => rfl
@[simp] theorem effect_faultWord (s : State) (n : Nat) (b : Position) (m : Micro) :
    (effect s n b m).faultWord = s.faultWord := by
  cases m with
  | commit => exact commitScan_faultWord _ _ _
  | pin e => exact State.pinsOut_faultWord _ _
  | sampleMatrix _ _ => exact State.sampled_faultWord _
  | sampleJoy _ => exact State.sampled_faultWord _
  | _ => rfl
@[simp] theorem effect_inside (s : State) (n : Nat) (b : Position) (m : Micro) :
    (effect s n b m).inside = s.inside := by
  cases m with
  | commit => exact commitScan_inside _ _ _
  | pin e => exact State.pinsOut_inside _ _
  | sampleMatrix _ _ => exact State.sampled_inside _
  | sampleJoy _ => exact State.sampled_inside _
  | _ => rfl
@[simp] theorem effect_cfg (s : State) (n : Nat) (b : Position) (m : Micro) :
    (effect s n b m).cfg = s.cfg := by
  cases m with
  | commit => exact commitScan_cfg _ _ _
  | pin e => exact State.pinsOut_cfg _ _
  | sampleMatrix _ _ => exact State.sampled_cfg _
  | sampleJoy _ => exact State.sampled_cfg _
  | _ => rfl
@[simp] theorem effect_plan (s : State) (n : Nat) (b : Position) (m : Micro) :
    (effect s n b m).plan = s.plan := by
  cases m with
  | commit => exact commitScan_plan _ _ _
  | pin e => exact State.pinsOut_plan _ _
  | sampleMatrix _ _ => exact State.sampled_plan _
  | sampleJoy _ => exact State.sampled_plan _
  | _ => rfl
@[simp] theorem effect_resets (s : State) (n : Nat) (b : Position) (m : Micro) :
    (effect s n b m).resets = s.resets := by
  cases m with
  | commit => exact commitScan_resets _ _ _
  | pin e => exact State.pinsOut_resets _ _
  | sampleMatrix _ _ => exact State.sampled_resets _
  | sampleJoy _ => exact State.sampled_resets _
  | _ => rfl
@[simp] theorem effect_busOut (s : State) (n : Nat) (b : Position) (m : Micro) :
    (effect s n b m).busOut = s.busOut := by
  cases m with
  | commit => exact commitScan_busOut _ _ _
  | pin e => exact State.pinsOut_busOut _ _
  | sampleMatrix _ _ => exact State.sampled_busOut _
  | sampleJoy _ => exact State.sampled_busOut _
  | _ => rfl

/-! ### engineEvent -/

@[simp] theorem engineEvent_clBase (s : State) :
    (engineEvent s).clBase = s.clBase := by
  unfold engineEvent
  split
  · rfl
  · split
    · rfl
    · exact (settle_clBase _ _).trans (effect_clBase _ _ _ _)
@[simp] theorem engineEvent_scanMode (s : State) :
    (engineEvent s).scanMode = s.scanMode := by
  unfold engineEvent
  split
  · rfl
  · split
    · rfl
    · exact (settle_scanMode _ _).trans (effect_scanMode _ _ _ _)
@[simp] theorem engineEvent_dmaDone (s : State) :
    (engineEvent s).dmaDone = s.dmaDone := by
  unfold engineEvent
  split
  · rfl
  · split
    · rfl
    · exact (settle_dmaDone _ _).trans (effect_dmaDone _ _ _ _)
@[simp] theorem engineEvent_fault (s : State) :
    (engineEvent s).fault = s.fault := by
  unfold engineEvent
  split
  · rfl
  · split
    · rfl
    · exact (settle_fault _ _).trans (effect_fault _ _ _ _)
@[simp] theorem engineEvent_doneIe (s : State) :
    (engineEvent s).doneIe = s.doneIe := by
  unfold engineEvent
  split
  · rfl
  · split
    · rfl
    · exact (settle_doneIe _ _).trans (effect_doneIe _ _ _ _)
@[simp] theorem engineEvent_dmaDoneIe (s : State) :
    (engineEvent s).dmaDoneIe = s.dmaDoneIe := by
  unfold engineEvent
  split
  · rfl
  · split
    · rfl
    · exact (settle_dmaDoneIe _ _).trans (effect_dmaDoneIe _ _ _ _)
@[simp] theorem engineEvent_faultIe (s : State) :
    (engineEvent s).faultIe = s.faultIe := by
  unfold engineEvent
  split
  · rfl
  · split
    · rfl
    · exact (settle_faultIe _ _).trans (effect_faultIe _ _ _ _)
@[simp] theorem engineEvent_faultCause (s : State) :
    (engineEvent s).faultCause = s.faultCause := by
  unfold engineEvent
  split
  · rfl
  · split
    · rfl
    · exact (settle_faultCause _ _).trans (effect_faultCause _ _ _ _)
@[simp] theorem engineEvent_faultCp (s : State) :
    (engineEvent s).faultCp = s.faultCp := by
  unfold engineEvent
  split
  · rfl
  · split
    · rfl
    · exact (settle_faultCp _ _).trans (effect_faultCp _ _ _ _)
@[simp] theorem engineEvent_faultWord (s : State) :
    (engineEvent s).faultWord = s.faultWord := by
  unfold engineEvent
  split
  · rfl
  · split
    · rfl
    · exact (settle_faultWord _ _).trans (effect_faultWord _ _ _ _)
@[simp] theorem engineEvent_cfg (s : State) :
    (engineEvent s).cfg = s.cfg := by
  unfold engineEvent
  split
  · rfl
  · split
    · rfl
    · exact (settle_cfg _ _).trans (effect_cfg _ _ _ _)
@[simp] theorem engineEvent_resets (s : State) :
    (engineEvent s).resets = s.resets := by
  unfold engineEvent
  split
  · rfl
  · split
    · rfl
    · exact (settle_resets _ _).trans (effect_resets _ _ _ _)
@[simp] theorem engineEvent_busOut (s : State) :
    (engineEvent s).busOut = s.busOut := by
  unfold engineEvent
  split
  · rfl
  · split
    · rfl
    · exact (settle_busOut _ _).trans (effect_busOut _ _ _ _)

/-! ### engineRun -/

@[simp] theorem engineRun_clBase (n : Nat) (s : State) :
    (engineRun n s).clBase = s.clBase := by
  induction n generalizing s with
  | zero => rfl
  | succ n ih => 
    unfold engineRun
    split
    · rfl
    · split
      · rfl
      · exact (ih _).trans (engineEvent_clBase s)
@[simp] theorem engineRun_scanMode (n : Nat) (s : State) :
    (engineRun n s).scanMode = s.scanMode := by
  induction n generalizing s with
  | zero => rfl
  | succ n ih => 
    unfold engineRun
    split
    · rfl
    · split
      · rfl
      · exact (ih _).trans (engineEvent_scanMode s)
@[simp] theorem engineRun_dmaDone (n : Nat) (s : State) :
    (engineRun n s).dmaDone = s.dmaDone := by
  induction n generalizing s with
  | zero => rfl
  | succ n ih => 
    unfold engineRun
    split
    · rfl
    · split
      · rfl
      · exact (ih _).trans (engineEvent_dmaDone s)
@[simp] theorem engineRun_fault (n : Nat) (s : State) :
    (engineRun n s).fault = s.fault := by
  induction n generalizing s with
  | zero => rfl
  | succ n ih => 
    unfold engineRun
    split
    · rfl
    · split
      · rfl
      · exact (ih _).trans (engineEvent_fault s)
@[simp] theorem engineRun_doneIe (n : Nat) (s : State) :
    (engineRun n s).doneIe = s.doneIe := by
  induction n generalizing s with
  | zero => rfl
  | succ n ih => 
    unfold engineRun
    split
    · rfl
    · split
      · rfl
      · exact (ih _).trans (engineEvent_doneIe s)
@[simp] theorem engineRun_dmaDoneIe (n : Nat) (s : State) :
    (engineRun n s).dmaDoneIe = s.dmaDoneIe := by
  induction n generalizing s with
  | zero => rfl
  | succ n ih => 
    unfold engineRun
    split
    · rfl
    · split
      · rfl
      · exact (ih _).trans (engineEvent_dmaDoneIe s)
@[simp] theorem engineRun_faultIe (n : Nat) (s : State) :
    (engineRun n s).faultIe = s.faultIe := by
  induction n generalizing s with
  | zero => rfl
  | succ n ih => 
    unfold engineRun
    split
    · rfl
    · split
      · rfl
      · exact (ih _).trans (engineEvent_faultIe s)
@[simp] theorem engineRun_faultCause (n : Nat) (s : State) :
    (engineRun n s).faultCause = s.faultCause := by
  induction n generalizing s with
  | zero => rfl
  | succ n ih => 
    unfold engineRun
    split
    · rfl
    · split
      · rfl
      · exact (ih _).trans (engineEvent_faultCause s)
@[simp] theorem engineRun_faultCp (n : Nat) (s : State) :
    (engineRun n s).faultCp = s.faultCp := by
  induction n generalizing s with
  | zero => rfl
  | succ n ih => 
    unfold engineRun
    split
    · rfl
    · split
      · rfl
      · exact (ih _).trans (engineEvent_faultCp s)
@[simp] theorem engineRun_faultWord (n : Nat) (s : State) :
    (engineRun n s).faultWord = s.faultWord := by
  induction n generalizing s with
  | zero => rfl
  | succ n ih => 
    unfold engineRun
    split
    · rfl
    · split
      · rfl
      · exact (ih _).trans (engineEvent_faultWord s)
@[simp] theorem engineRun_cfg (n : Nat) (s : State) :
    (engineRun n s).cfg = s.cfg := by
  induction n generalizing s with
  | zero => rfl
  | succ n ih => 
    unfold engineRun
    split
    · rfl
    · split
      · rfl
      · exact (ih _).trans (engineEvent_cfg s)
@[simp] theorem engineRun_resets (n : Nat) (s : State) :
    (engineRun n s).resets = s.resets := by
  induction n generalizing s with
  | zero => rfl
  | succ n ih => 
    unfold engineRun
    split
    · rfl
    · split
      · rfl
      · exact (ih _).trans (engineEvent_resets s)
@[simp] theorem engineRun_busOut (n : Nat) (s : State) :
    (engineRun n s).busOut = s.busOut := by
  induction n generalizing s with
  | zero => rfl
  | succ n ih => 
    unfold engineRun
    split
    · rfl
    · split
      · rfl
      · exact (ih _).trans (engineEvent_busOut s)

end Sys2Proof.Machine
end

