-- ==== Sys2Proof/Laws/Memory.lean ====
section
/-! SUPPORT. What the memory operations do: reading after writing, the canonical form (log 4), and the same for the cells of
the framebuffer. -/

namespace Sys2Proof.Machine

/-! ### The list -/

theorem memFind_memPut_same (m : List Host.Cell) (a : Nat) (b : Byte) : memFind (memPut m a b) a = some b := by
  induction m with
  | nil => simp [memPut, memFind]
  | cons e m ih =>
    obtain ⟨x, c⟩ := e
    unfold memPut
    split_ifs with h1 h2
    · simp [memFind]
    · simp [memFind]
    · simp [memFind, h2, ih]

theorem memFind_memPut_other (m : List Host.Cell) {a c : Nat} (b : Byte) (h : c ≠ a) :
    memFind (memPut m a b) c = memFind m c := by
  induction m with
  | nil => simp [memPut, memFind, Ne.symm h]
  | cons e m ih =>
    obtain ⟨x, d⟩ := e
    unfold memPut
    split_ifs with h1 h2
    · simp [memFind, Ne.symm h]
    · simp [memFind, Ne.symm h, h2]
    · simp [memFind, ih]

theorem memFind_memPut (m : List Host.Cell) (a c : Nat) (b : Byte) :
    memFind (memPut m a b) c = if c = a then some b else memFind m c := by
  split_ifs with h
  · rw [h, memFind_memPut_same]
  · exact memFind_memPut_other m b h

theorem mem_memPut {m : List Host.Cell} {a : Nat} {b : Byte} {e : Host.Cell} (h : e ∈ memPut m a b) :
    e = (a, b) ∨ e ∈ m := by
  induction m with
  | nil => simpa [memPut] using h
  | cons f m ih =>
    obtain ⟨x, d⟩ := f
    unfold memPut at h
    split_ifs at h <;> simp only [List.mem_cons] at h ⊢
    · exact h
    · tauto
    · rcases h with h | h
      · exact .inr (.inl h)
      · rcases ih h with h | h
        · exact .inl h
        · exact .inr (.inr h)

/-- A byte write keeps the addresses strictly rising. -/
theorem memSorted_memPut {m : List Host.Cell} (a : Nat) (b : Byte) (h : memSorted m) : memSorted (memPut m a b) := by
  induction m with
  | nil => simp [memPut, memSorted]
  | cons e m ih =>
    obtain ⟨x, c⟩ := e
    unfold memSorted at h ih ⊢
    rw [List.pairwise_cons] at h
    unfold memPut
    split_ifs with h1 h2
    · refine List.pairwise_cons.2 ⟨fun y hy => ?_, List.pairwise_cons.2 h⟩
      rcases List.mem_cons.1 hy with rfl | hy
      · exact h1
      · exact lt_trans h1 (h.1 y hy)
    · subst h2
      exact List.pairwise_cons.2 ⟨h.1, h.2⟩
    · refine List.pairwise_cons.2 ⟨fun y hy => ?_, ih h.2⟩
      rcases mem_memPut hy with rfl | hy
      · show x < a
        omega
      · exact h.1 y hy

/-! ### Runs of cells -/

theorem mem_cellRun {lo : Nat} {v : Cell} {n : Nat} {e : Host.Cell} (h : e ∈ cellRun lo v n) :
    lo ≤ e.1 ∧ e.1 < lo + 2 * n := by
  induction n generalizing lo with
  | zero => simp [cellRun] at h
  | succ n ih =>
    rcases List.mem_cons.1 h with rfl | h
    · constructor <;> simp
    · rcases List.mem_cons.1 h with rfl | h
      · constructor <;> simp; omega
      · have := ih h
        omega

theorem memSorted_cellRun (lo : Nat) (v : Cell) (n : Nat) : memSorted (cellRun lo v n) := by
  induction n generalizing lo with
  | zero => exact List.Pairwise.nil
  | succ n ih =>
    refine List.pairwise_cons.2 ⟨fun y hy => ?_, List.pairwise_cons.2 ⟨fun y hy => ?_, ih (lo + 2)⟩⟩
    · rcases List.mem_cons.1 hy with rfl | hy
      · simp
      · have := mem_cellRun hy
        show lo < y.1
        omega
    · have := mem_cellRun hy
      show lo + 1 < y.1
      omega

/-- What a run of cells holds: low bytes at even distance, high bytes at odd distance. -/
theorem memFind_cellRun (lo : Nat) (v : Cell) (n a : Nat) :
    memFind (cellRun lo v n) a
      = if lo ≤ a ∧ a < lo + 2 * n then some (if (a - lo) % 2 = 0 then cellLo v else cellHi v) else none := by
  induction n generalizing lo with
  | zero =>
    rw [if_neg (by omega)]
    rfl
  | succ n ih =>
    rw [cellRun, memFind, memFind, ih]
    by_cases h0 : lo = a
    · subst h0
      simp
    · by_cases h1 : lo + 1 = a
      · subst h1
        simp
        omega
      · rw [if_neg h0, if_neg h1]
        by_cases h : lo ≤ a ∧ a < lo + 2 * (n + 1)
        · rw [if_pos h, if_pos (by omega)]
          have : (a - (lo + 2)) % 2 = (a - lo) % 2 := by omega
          rw [this]
        · rw [if_neg h, if_neg (by omega)]

theorem memFind_append (m m' : List Host.Cell) (a : Nat) :
    memFind (m ++ m') a = (memFind m a).or (memFind m' a) := by
  induction m with
  | nil => simp [memFind]
  | cons e m ih =>
    obtain ⟨x, b⟩ := e
    by_cases h : x = a <;> simp [memFind, h, ih]

theorem memFind_filter (m : List Host.Cell) (p : Nat → Bool) (a : Nat) :
    memFind (m.filter fun e => p e.1) a = if p a then memFind m a else none := by
  induction m with
  | nil => simp [memFind]
  | cons e m ih =>
    obtain ⟨x, b⟩ := e
    by_cases hx : p x <;> by_cases h : x = a
    · subst h
      simp [memFind, hx]
    · simp [memFind, hx, h, ih]
    · subst h
      simp [hx, ih]
    · simp [memFind, hx, h, ih]

/-- What a filled memory holds. -/
theorem memFind_memFill (m : List Host.Cell) (lo n : Nat) (v : Cell) (a : Nat) :
    memFind (memFill m lo n v) a
      = if lo ≤ a ∧ a < lo + 2 * n then some (if (a - lo) % 2 = 0 then cellLo v else cellHi v) else memFind m a := by
  unfold memFill
  rw [memFind_append, memFind_append, memFind_filter m (fun x => decide (x < lo)),
    memFind_filter m (fun x => decide (lo + 2 * n ≤ x)), memFind_cellRun]
  by_cases h : lo ≤ a ∧ a < lo + 2 * n
  · have h1 : ¬ a < lo := by omega
    simp [h, h1]
  · simp only [if_neg h]
    by_cases h1 : a < lo
    · have h2 : ¬ lo + 2 * n ≤ a := by omega
      simp [h1, h2]
    · have h2 : lo + 2 * n ≤ a := by omega
      simp [h1, h2]

theorem mem_memFill {m : List Host.Cell} {lo n : Nat} {v : Cell} {e : Host.Cell} (h : e ∈ memFill m lo n v) :
    (lo ≤ e.1 ∧ e.1 < lo + 2 * n) ∨ e ∈ m := by
  unfold memFill at h
  rcases List.mem_append.1 h with h | h
  · rcases List.mem_append.1 h with h | h
    · exact .inr (List.mem_filter.1 h).1
    · exact .inl (mem_cellRun h)
  · exact .inr (List.mem_filter.1 h).1

/-- A run of cell writes keeps the addresses strictly rising. -/
theorem memSorted_memFill {m : List Host.Cell} (lo n : Nat) (v : Cell) (h : memSorted m) :
    memSorted (memFill m lo n v) := by
  unfold memFill memSorted
  refine List.pairwise_append.2 ⟨List.pairwise_append.2 ⟨h.filter _, memSorted_cellRun lo v n, ?_⟩, h.filter _, ?_⟩
  · intro x hx y hy
    have h1 := (List.mem_filter.1 hx).2
    have h2 := mem_cellRun hy
    simp at h1
    omega
  · intro x hx y hy
    have h2 := (List.mem_filter.1 hy).2
    simp at h2
    rcases List.mem_append.1 hx with hx | hx
    · have h1 := (List.mem_filter.1 hx).2
      simp at h1
      omega
    · have h1 := mem_cellRun hx
      omega

/-! ### The form of the memory field -/

/-- A byte write at a RAM offset keeps the form. -/
theorem memWf_memPut {m : List Host.Cell} {a : Nat} (b : Byte) (ha : isRam a = true) (h : memWf m) :
    memWf (memPut m a b) := by
  refine ⟨memSorted_memPut a b h.1, fun e he => ?_⟩
  rcases mem_memPut he with rfl | he
  · exact ha
  · exact h.2 e he

theorem isRam_fb {a : Nat} (h1 : fbBase ≤ a) (h2 : a < fbBase + 2 * Config.npix) : isRam a = true := by
  simp only [isRam, Bool.or_eq_true, Bool.and_eq_true, decide_eq_true_eq]
  exact .inr ⟨h1, h2⟩

/-- A cell write in range keeps the form. -/
theorem memWf_fbWrite {s : State} {i : Nat} (v : Cell) (hi : i < Config.npix) (h : memWf s.mem) :
    memWf (s.fbWrite i v).mem := by
  simp only [State.fbWrite_mem]
  refine memWf_memPut _ (isRam_fb ?_ ?_) (memWf_memPut _ (isRam_fb ?_ ?_) h) <;> simp at hi ⊢ <;> omega

/-- Cell writes in range keep the form. -/
theorem memWf_fbFill {s : State} {i n : Nat} (v : Cell) (hi : i + n ≤ Config.npix) (h : memWf s.mem) :
    memWf (s.fbFill i n v).mem := by
  refine ⟨memSorted_memFill _ _ _ h.1, fun e he => ?_⟩
  rcases mem_memFill he with he | he
  · refine isRam_fb ?_ ?_ <;> simp at hi he ⊢ <;> omega
  · exact h.2 e he

/-- Byte writes at RAM offsets keep the form. -/
theorem memWf_putBytes {s : State} {a : Nat} {bs : List Byte} (ha : ∀ k < bs.length, isRam (a + k) = true)
    (h : memWf s.mem) : memWf (s.putBytes a bs).mem := by
  induction bs generalizing s a with
  | nil => exact h
  | cons b bs ih =>
    refine ih (s := s.putByte a b) (fun k hk => ?_) (memWf_memPut b (by simpa using ha 0 (by simp)) h)
    have := ha (k + 1) (by simpa using hk)
    rwa [show a + 1 + k = a + (k + 1) by omega]

/-- The memory after reset has the form. -/
theorem memWf_reset : memWf State.reset.mem := ⟨List.Pairwise.nil, by simp [State.reset]⟩

/-! ### Bytes and cells -/

/-- A byte read after a byte write. -/
theorem ramByte_putByte (s : State) (a c : Nat) (b : Byte) :
    (s.putByte a b).ramByte c = if c = a then b else s.ramByte c := by
  unfold State.ramByte
  rw [State.putByte_mem, State.putByte_resets, memFind_memPut]
  split_ifs <;> rfl

/-- Two byte reads agree when memory and reset count do. -/
theorem ramByte_congr {s t : State} (hm : t.mem = s.mem) (hr : t.resets = s.resets) (a : Nat) :
    t.ramByte a = s.ramByte a := by
  unfold State.ramByte
  rw [hm, hr]

/-- Two cell reads agree when memory and reset count do. -/
theorem fbRead_congr {s t : State} (hm : t.mem = s.mem) (hr : t.resets = s.resets) (i : Nat) :
    t.fbRead i = s.fbRead i := by
  unfold State.fbRead
  rw [ramByte_congr hm hr, ramByte_congr hm hr]

theorem cellHi_append_cellLo (v : Cell) : (cellHi v ++ cellLo v : Cell) = v := by
  unfold cellHi cellLo
  ext i hi
  simp only [BitVec.getElem_append, BitVec.getElem_extractLsb']
  split_ifs with h
  · simp [BitVec.getLsbD_eq_getElem hi]
  · have h8 : 8 + (i - 8) = i := by omega
    simp [h8, BitVec.getLsbD_eq_getElem hi]

/-- A byte outside the cell written is unchanged. -/
theorem ramByte_fbWrite_other (s : State) (i : Nat) (v : Cell) {a : Nat} (h0 : a ≠ fbBase + 2 * i)
    (h1 : a ≠ fbBase + 2 * i + 1) : (s.fbWrite i v).ramByte a = s.ramByte a := by
  unfold State.fbWrite
  rw [ramByte_putByte, if_neg h1, ramByte_putByte, if_neg h0]

/-- A cell read after a cell write. -/
theorem fbRead_fbWrite (s : State) (i j : Nat) (v : Cell) :
    (s.fbWrite i v).fbRead j = if j = i then v else s.fbRead j := by
  unfold State.fbRead
  split_ifs with h
  · subst h
    unfold State.fbWrite
    rw [ramByte_putByte, if_pos rfl, ramByte_putByte, if_neg (by omega), ramByte_putByte, if_pos rfl]
    exact cellHi_append_cellLo v
  · rw [ramByte_fbWrite_other _ _ _ (by omega) (by omega), ramByte_fbWrite_other _ _ _ (by omega) (by omega)]

/-- A byte read after a run of cell writes. -/
theorem ramByte_fbFill (s : State) (i n : Nat) (v : Cell) (a : Nat) :
    (s.fbFill i n v).ramByte a
      = if fbBase + 2 * i ≤ a ∧ a < fbBase + 2 * i + 2 * n then
          (if (a - (fbBase + 2 * i)) % 2 = 0 then cellLo v else cellHi v)
        else s.ramByte a := by
  unfold State.ramByte
  rw [State.fbFill_mem, State.fbFill_resets, memFind_memFill]
  split_ifs <;> rfl

/-- A cell read after a run of cell writes. -/
theorem fbRead_fbFill (s : State) (i n j : Nat) (v : Cell) :
    (s.fbFill i n v).fbRead j = if i ≤ j ∧ j < i + n then v else s.fbRead j := by
  unfold State.fbRead
  rw [ramByte_fbFill, ramByte_fbFill]
  by_cases h : i ≤ j ∧ j < i + n
  · have h1 : fbBase + 2 * i ≤ fbBase + 2 * j + 1 ∧ fbBase + 2 * j + 1 < fbBase + 2 * i + 2 * n := by omega
    have h0 : fbBase + 2 * i ≤ fbBase + 2 * j ∧ fbBase + 2 * j < fbBase + 2 * i + 2 * n := by omega
    have o1 : ¬ (fbBase + 2 * j + 1 - (fbBase + 2 * i)) % 2 = 0 := by omega
    have o0 : (fbBase + 2 * j - (fbBase + 2 * i)) % 2 = 0 := by omega
    rw [if_pos h, if_pos h1, if_pos h0, if_neg o1, if_pos o0]
    exact cellHi_append_cellLo v
  · rw [if_neg h, if_neg (by omega), if_neg (by omega)]

theorem cellRun_add (lo : Nat) (v : Cell) (n k : Nat) : cellRun lo v (n + k) = cellRun lo v n ++ cellRun (lo + 2 * n) v k := by
  induction n generalizing lo with
  | zero => simp [cellRun]
  | succ n ih =>
    rw [show n + 1 + k = (n + k) + 1 by omega, cellRun, cellRun, ih, show lo + 2 * (n + 1) = lo + 2 + 2 * n by omega]
    rfl

/-- Filling in two parts is filling at once. -/
theorem memFill_memFill (m : List Host.Cell) (lo n k : Nat) (v : Cell) :
    memFill (memFill m lo n v) (lo + 2 * n) k v = memFill m lo (n + k) v := by
  have h1 : (cellRun lo v n).filter (fun e => decide (e.1 < lo + 2 * n)) = cellRun lo v n :=
    List.filter_eq_self.2 fun e he => decide_eq_true (mem_cellRun he).2
  have h2 : (cellRun lo v n).filter (fun e => decide (lo + 2 * n + 2 * k ≤ e.1)) = [] :=
    List.filter_eq_nil_iff.2 fun e he => by
      have := (mem_cellRun he).2
      simp; omega
  have h3 : ∀ e : Host.Cell, (decide (e.1 < lo + 2 * n) && decide (e.1 < lo)) = decide (e.1 < lo) := by
    intro e; by_cases h : e.1 < lo <;> simp [h]; omega
  have h4 : ∀ e : Host.Cell, (decide (e.1 < lo + 2 * n) && decide (lo + 2 * n ≤ e.1)) = false := by
    intro e; by_cases h : e.1 < lo + 2 * n <;> simp [h]
  have h5 : ∀ e : Host.Cell, (decide (lo + 2 * n + 2 * k ≤ e.1) && decide (e.1 < lo)) = false := by
    intro e; by_cases h : e.1 < lo <;> simp [h]; omega
  have h6 : ∀ e : Host.Cell, (decide (lo + 2 * n + 2 * k ≤ e.1) && decide (lo + 2 * n ≤ e.1)) = decide (lo + 2 * (n + k) ≤ e.1) := by
    intro e; by_cases h : lo + 2 * (n + k) ≤ e.1
    · have a1 : lo + 2 * n + 2 * k ≤ e.1 := by omega
      have a2 : lo + 2 * n ≤ e.1 := by omega
      simp [h, a1, a2]
    · have a1 : ¬ lo + 2 * n + 2 * k ≤ e.1 := by omega
      simp [h, a1]
  simp only [memFill, List.filter_append, List.filter_filter, h1, h2, h3, h4, h5, h6, cellRun_add, List.filter_false, List.append_nil, List.nil_append, List.append_assoc]

theorem fbFill_fbFill (s : State) (i n k : Nat) (v : Cell) : (s.fbFill i n v).fbFill (i + n) k v = s.fbFill i (n + k) v := by
  unfold State.fbFill
  rw [show fbBase + 2 * (i + n) = fbBase + 2 * i + 2 * n by omega]
  simp only [memFill_memFill]

end Sys2Proof.Machine
end

