-- ==== Sys2Proof/Laws/Engine.lean ====
section
/-! SUPPORT. What the engine does inside a command: an induction principle for its run, how much work each step opens, the
run with no other agent's turn ahead, and completion (40_engine R172, R173, R177). -/

namespace Sys2Proof.Machine

/-! ### The run -/

/-- A property that every engine step keeps holds after the run. -/
theorem engineRun_keeps (P : State → Prop)
    (keep : ∀ s b, s.inside = some b → s.turnDue = false → s.held = false → P s → P (engineEvent s)) (n : Nat) {s : State}
    (h : P s) : P (engineRun n s) := by
  induction n generalizing s with
  | zero => exact h
  | succ n ih =>
    rw [engineRun]
    split
    · exact h
    · next b hb =>
      split_ifs with hd
      · exact h
      · simp only [Bool.or_eq_true, not_or, Bool.not_eq_true] at hd
        exact ih (keep s b hb hd.1 hd.2 h)

/-- The run of an engine between commands is nothing. -/
theorem engineRun_between {s : State} (h : s.inside = none) (n : Nat) : engineRun n s = s := by
  cases n with
  | zero => rfl
  | succ n => rw [engineRun, h]

/-! ### Work -/

theorem work_nil (p : Config.Params) : work p [] = 0 := rfl

theorem work_cons (p : Config.Params) (m : Micro) (ms : List Micro) : work p (m :: ms) = weight p m + work p ms := by
  simp [work]

theorem work_append (p : Config.Params) (ms ms' : List Micro) : work p (ms ++ ms') = work p ms + work p ms' := by
  simp [work]

theorem weight_pos (p : Config.Params) (m : Micro) : 0 < weight p m := by
  cases m <;> simp [weight, charsFrom, tileWork]

/-- A list whose every element weighs at most `w`. -/
theorem work_le {p : Config.Params} {ms : List Micro} {w : Nat} (h : ∀ m ∈ ms, weight p m ≤ w) :
    work p ms ≤ ms.length * w := by
  induction ms with
  | nil => simp [work]
  | cons m ms ih =>
    rw [work_cons, List.length_cons, Nat.succ_mul, Nat.add_comm]
    exact Nat.add_le_add (ih fun x hx => h x (List.mem_cons_of_mem _ hx)) (h m List.mem_cons_self)

/-- The steps opened for each index below `n`, each index weighing at most `w`. -/
theorem work_flatMap_range_le {p : Config.Params} (n w : Nat) (f : Nat → List Micro) (h : ∀ k, work p (f k) ≤ w) :
    work p ((List.range n).flatMap f) ≤ n * w := by
  induction n with
  | zero => simp [work]
  | succ n ih =>
    rw [List.range_succ, List.flatMap_append, work_append, Nat.succ_mul]
    exact Nat.add_le_add ih (by simpa using h n)

theorem work_plotFlat_le (p : Config.Params) (x y : Int) (v : Cell) : work p (plotFlat x y v) ≤ 1 := by
  unfold plotFlat
  split <;> simp [work, weight]

theorem work_tileScan_le (p : Config.Params) (o : LineText) (i g : Nat) :
    work p (tileScan p o i g) ≤ 2 * (p.tileH * p.tileW) := by
  unfold tileScan
  refine (work_flatMap_range_le p.tileH (p.tileW * 2) _ fun j => ?_).trans (by rw [← Nat.mul_assoc]; omega)
  refine (work_le (w := 2) fun m hm => ?_).trans (by simp)
  obtain ⟨k, _, rfl⟩ := List.mem_map.1 hm
  exact le_refl _

theorem work_tileNext_le (p : Config.Params) (o : LineText) (i : Nat) :
    work p (tileNext o i) ≤ (charsFrom o.tlen i - 1) * tileWork p := by
  unfold tileNext
  split_ifs with h
  · rw [work_cons, work_nil, weight, Nat.add_zero]
    refine Nat.mul_le_mul_right _ ?_
    unfold charsFrom
    omega
  · simp [work]

theorem work_bmNext_le (p : Config.Params) (o : LineText) (i n : Nat) :
    work p (bmNext o i n) ≤ (charsFrom o.tlen i - 1) * 73 := by
  unfold bmNext
  split_ifs with h
  · rw [work_cons, work_nil, weight, Nat.add_zero]
    refine Nat.mul_le_mul_right _ ?_
    unfold charsFrom
    omega
  · simp [work]

theorem work_arcNext_le (p : Config.Params) (o : ArcText) (start : Word) (i k : Nat) :
    work p (arcNext o start i k) ≤ (charsFrom o.tlen i - 1) * 201 := by
  unfold arcNext
  split_ifs with h
  · rw [work_cons, work_nil, weight, Nat.add_zero]
    refine Nat.mul_le_mul_right _ ?_
    unfold charsFrom
    omega
  · simp [work]

theorem charsFrom_split (tlen : BitVec 8) (i w : Nat) : charsFrom tlen i * w = (charsFrom tlen i - 1) * w + w := by
  unfold charsFrom
  rw [Nat.add_sub_cancel, Nat.succ_mul]

theorem work_columnSteps (p : Config.Params) (led : Byte) (c : Nat) : work p (columnSteps led c) = 54 := by
  simp [columnSteps, shiftBit, work, weight, List.range_succ]

theorem work_scanSteps_le (s : State) (p : Config.Params) : work p (scanSteps s) ≤ 433 := by
  unfold scanSteps
  split_ifs
  · simp [work, weight, List.range_succ]
  · rw [work_append]
    have := work_flatMap_range_le (p := p) Config.matrixCols 54 (fun c => columnSteps s.led c)
      fun c => (work_columnSteps p s.led c).le
    have h1 : work p [Micro.commit] = 1 := rfl
    simp only [Config.matrixCols] at this ⊢
    omega

/-- Each step other than a write of `CLEAR` opens less than it weighs (R177). -/
theorem work_opened_lt (s : State) (n : Nat) (m : Micro) (h : ∀ c i, m ≠ .fill c i) :
    work s.cfg (opened s n m) < weight s.cfg m := by
  cases m with
  | fill c i => exact absurd rfl (h c i)
  | tileChar o i =>
    have h1 := work_tileNext_le s.cfg o i
    have h2 := charsFrom_split o.tlen i (tileWork s.cfg)
    simp only [opened, tileCharSteps, weight]
    split
    · next g _ =>
      have h3 := work_tileScan_le s.cfg o i g
      rw [work_append]
      have h4 : tileWork s.cfg = 1 + 2 * (s.cfg.tileH * s.cfg.tileW) := rfl
      omega
    · have h4 : tileWork s.cfg = 1 + 2 * (s.cfg.tileH * s.cfg.tileW) := rfl
      omega
  | tilePixel o i g j k =>
    simp only [opened, tilePixelSteps, weight]
    split_ifs
    · simp [work]
    · exact Nat.lt_succ_of_le (work_plotFlat_le ..)
  | bmChar o i n =>
    have h2 := charsFrom_split o.tlen i 73
    simp only [opened, bmCharSteps, weight]
    split
    · next g _ =>
      have h1 := work_bmNext_le s.cfg o i (n + 1)
      have h3 : work s.cfg ((List.range 8).map fun r => Micro.bmRow o n g r) = 72 := by
        simp [work, weight, List.range_succ]
      rw [work_append]
      omega
    · have h1 := work_bmNext_le s.cfg o i n
      omega
  | bmRow o n g r =>
    simp only [opened, bmRowSteps, weight]
    refine Nat.lt_succ_of_le ((work_flatMap_range_le 8 1 _ fun c => ?_).trans (by decide))
    split_ifs
    · exact work_plotFlat_le ..
    · simp [work]
  | arcChar o start i k =>
    have h2 := charsFrom_split o.tlen i 201
    simp only [opened, arcCharSteps, weight]
    split
    · next g _ =>
      have h1 := work_arcNext_le s.cfg o start i (k + 1)
      have h3 : work s.cfg ((List.range 8).map fun r => Micro.arcRow o start k g r) = 200 := by
        simp [work, weight, List.range_succ]
      rw [work_append]
      omega
    · have h1 := work_arcNext_le s.cfg o start i k
      omega
  | arcRow o start k g r =>
    simp only [opened, arcRowSteps, weight]
    refine Nat.lt_succ_of_le ((work_flatMap_range_le 8 3 _ fun c => ?_).trans (by decide))
    split_ifs <;> simp [work, weight]
  | arcSin o k r c cur => simp [opened, work, weight]
  | arcCos o k r c cur => exact Nat.lt_succ_of_le (work_plotFlat_le ..)
  | scanMode => exact Nat.lt_succ_of_le (work_scanSteps_le s s.cfg)
  | advance => exact Nat.one_pos
  | stop => exact Nat.one_pos
  | plot _ _ => exact Nat.one_pos
  | pin _ => exact Nat.one_pos
  | sampleMatrix _ _ => exact Nat.one_pos
  | sampleJoy _ => exact Nat.one_pos
  | commit => exact Nat.one_pos
  | flush => exact Nat.one_pos
  | dmaWait => exact Nat.one_pos

/-! ### What one step keeps -/

@[simp] theorem gathered_cmd (s : State) (b : Position) (m : Micro) : (gathered s b m).cmd = b.cmd := by
  cases m <;> simp [gathered, gatherMatrix, gatherJoy]
  split_ifs <;> rfl

@[simp] theorem gathered_todo (s : State) (b : Position) (m : Micro) : (gathered s b m).todo = b.todo := by
  cases m <;> simp [gathered, gatherMatrix, gatherJoy]
  split_ifs <;> rfl

/-! ### The run with no turn of another agent ahead -/

theorem spendPlan_nil (n : Nat) : spendPlan [] n = [] := rfl

theorem spend_quiet {s : State} (h : s.plan = []) (n : Nat) : s.spend n = s := by
  unfold State.spend
  rw [h, spendPlan_nil, ← h]

theorem turnDue_quiet {s : State} (h : s.plan = []) : s.turnDue = false := by
  unfold State.turnDue
  rw [h]

theorem burst_quiet {s : State} (h : s.plan = []) (n : Nat) : s.burst n = n := by
  unfold State.burst
  rw [h]

/-- A position without steps left is the completed command. -/
theorem settle_nil (s : State) (b : Position) (h : b.todo = []) : settle s b = complete s b.cmd := by
  unfold settle
  rw [h]

theorem settle_cons (s : State) (b : Position) {m : Micro} {ms : List Micro} (h : b.todo = m :: ms) :
    settle s b = s.setInside (some b) := by
  unfold settle
  rw [h]

theorem setInside_setInside (s : State) (p q : Option Position) : (s.setInside p).setInside q = s.setInside q := rfl

theorem settle_setInside (s : State) (p : Option Position) (b : Position) : settle (s.setInside p) b = settle s b := by
  unfold settle
  split <;> rfl

/-! The commit of a scan does not look at the position field. -/

theorem speed_setInside (s : State) (p : Option Position) (n : BitVec 2) : (s.setInside p).speed n = s.speed n := rfl

theorem setSpeed_setInside (s : State) (p : Option Position) (n : BitVec 2) (v : Word) :
    (s.setInside p).setSpeed n v = (s.setSpeed n v).setInside p := by
  unfold State.setSpeed
  split_ifs <;> rfl

theorem slower_setInside (s : State) (p : Option Position) (r0 r1 : Byte) :
    slower (s.setInside p) r0 r1 = (slower s r0 r1).setInside p := by
  unfold slower
  split
  · rw [setSpeed_setInside]; rfl
  · rfl

theorem faster_setInside (s : State) (p : Option Position) (r0 r1 : Byte) :
    faster (s.setInside p) r0 r1 = (faster s r0 r1).setInside p := by
  unfold faster
  split
  · rw [setSpeed_setInside]; rfl
  · rfl

theorem fireUp_setInside (s : State) (p : Option Position) (r0 r1 : Byte) :
    fireUp (s.setInside p) r0 r1 = (fireUp s r0 r1).setInside p := by
  unfold fireUp
  rw [State.setInside_last]
  split <;> rfl

theorem fireDown_setInside (s : State) (p : Option Position) (r0 r1 : Byte) :
    fireDown (s.setInside p) r0 r1 = (fireDown s r0 r1).setInside p := by
  unfold fireDown
  rw [State.setInside_last]
  split <;> rfl

theorem fireMenu_setInside (s : State) (p : Option Position) (r0 r1 : Byte) :
    fireMenu (s.setInside p) r0 r1 = (fireMenu s r0 r1).setInside p := by
  unfold fireMenu
  rw [State.setInside_last, setSpeed_setInside]
  split <;> rfl

theorem releaseLatch_setInside (s : State) (p : Option Position) (r0 r1 : Byte) :
    releaseLatch (s.setInside p) r0 r1 = (releaseLatch s r0 r1).setInside p := by
  unfold releaseLatch
  split <;> rfl

theorem commitScan_setInside (s : State) (p : Option Position) (r0 r1 : Byte) :
    commitScan (s.setInside p) r0 r1 = (commitScan s r0 r1).setInside p := by
  have h : latchRows (s.setInside p) r0 r1 = (latchRows s r0 r1).setInside p := rfl
  simp only [commitScan, h, slower_setInside, faster_setInside, fireUp_setInside, fireDown_setInside, fireMenu_setInside,
    releaseLatch_setInside]
  rfl

/-- A step does not look at the position field. -/
theorem effect_setInside (s : State) (p : Option Position) (n : Nat) (b : Position) (m : Micro) :
    effect (s.setInside p) n b m = (effect s n b m).setInside p := by
  cases m <;> try rfl
  case pin e =>
    simp only [effect, State.pinsOut]
    split <;> rfl
  case sampleMatrix r c =>
    simp only [effect, State.sampled, State.setInside_pins]
    split <;> rfl
  case sampleJoy k =>
    simp only [effect, State.sampled, State.setInside_pins]
    split <;> rfl
  case commit => exact commitScan_setInside s p b.r0 b.r1

theorem gathered_setInside (s : State) (p : Option Position) (b : Position) (m : Micro) :
    gathered (s.setInside p) b m = gathered s b m := by cases m <;> rfl

theorem opened_setInside (s : State) (p : Option Position) (n : Nat) (m : Micro) :
    opened (s.setInside p) n m = opened s n m := by cases m <;> rfl

/-- The run of a completed command is over. -/
theorem engineRun_settle_nil (s : State) (b : Position) (h : b.todo = []) (n : Nat) :
    engineRun n (settle s b) = complete s b.cmd := by
  rw [settle_nil s b h]
  exact engineRun_between rfl n

theorem span_congr {s s' : State} (h : s'.plan = s.plan) (m : Micro) : span s' m = span s m := by
  cases m <;> simp [span, State.burst, h]

/-- One step of the run: with no turn ahead and no hold, the first step is taken and the run goes on behind it. -/
theorem engineRun_settle_cons (n : Nat) (s : State) (b : Position) (m : Micro) (ms : List Micro) (hp : s.plan = [])
    (hw : waitsForDma m = true → s.dmaActive = false) (hb : b.todo = m :: ms) :
    engineRun (n + 1) (settle s b)
      = engineRun n (settle (effect s (span s m) b m)
          { gathered s b m with todo := opened s (span s m) m ++ ms }) := by
  have hd : (s.setInside (some b)).turnDue = false := turnDue_quiet hp
  have hh : (s.setInside (some b)).held = false := by
    cases hm : waitsForDma m
    · simp [State.held, hb, hm]
    · simp [State.held, hb, hw hm]
  have hs : span (s.setInside (some b)) m = span s m := span_congr rfl m
  have he : engineEvent (s.setInside (some b))
      = settle (effect s (span s m) b m) { gathered s b m with todo := opened s (span s m) m ++ ms } := by
    simp only [engineEvent, State.setInside_inside, hb, hs]
    rw [spend_quiet (s := s.setInside (some b)) hp, effect_setInside, gathered_setInside, opened_setInside,
      settle_setInside]
  rw [settle_cons s b hb, engineRun]
  simp only [State.setInside_inside, hd, hh, he, Bool.or_self, Bool.false_eq_true, if_false]

end Sys2Proof.Machine
end

