-- ==== Sys2Proof/Laws/Drive.lean ====
section
/-! SUPPORT. A command driven to its end when nothing cuts in: the fuel of `engineRun` never decides a result, and the run of
a command follows its remaining steps one by one (40_engine R172, R173, R177). -/

namespace Sys2Proof.Machine

/-! ### The fuel does not matter -/

/-- The work that remains at the engine's position. -/
def posWork (s : State) : Nat :=
  match s.inside with
  | none => 0
  | some b => work s.cfg b.todo

theorem posWork_settle_le (s : State) (b : Position) : posWork (settle s b) ≤ work s.cfg b.todo := by
  unfold settle
  split
  · exact Nat.zero_le _
  · next h => simp [posWork, h]

/-- A turn is due after a burst that was cut short. -/
theorem turnDue_of_short_burst {s : State} {k n : Nat} (h : s.burst k < k) (hn : s.burst k = n) :
    (s.spend n).turnDue = true := by
  unfold State.burst at h hn
  unfold State.turnDue State.spend spendPlan
  cases hp : s.plan with
  | nil => simp [hp] at h
  | cons t ts =>
    simp only [hp] at h hn ⊢
    simp only [beq_iff_eq]
    omega

/-- An engine step lowers the work that remains, or the next turn is due after it. -/
theorem engineEvent_lowers {s : State} {b : Position} (hb : s.inside = some b) :
    (engineEvent s).inside = none ∨ posWork (engineEvent s) < posWork s ∨ (engineEvent s).turnDue = true := by
  unfold engineEvent
  rw [hb]
  dsimp only
  split
  · exact .inl rfl
  · next m ms hm =>
    have hw : posWork s = weight s.cfg m + work s.cfg ms := by simp [posWork, hb, hm, work_cons]
    by_cases hf : ∃ c i, m = .fill c i
    · obtain ⟨c, i, rfl⟩ := hf
      by_cases hsh : i + span s (.fill c i) < Config.npix
      · right; right
        have h1 : s.burst (Config.npix - i) < Config.npix - i := by
          simp only [span] at hsh
          omega
        have := turnDue_of_short_burst h1 rfl
        simp only [State.turnDue, settle_plan, effect_plan, span] at this ⊢
        exact this
      · right; left
        refine lt_of_le_of_lt (posWork_settle_le _ _) ?_
        rw [hw]
        simp [opened, hsh, weight]
    · right; left
      refine lt_of_le_of_lt (posWork_settle_le _ _) ?_
      have := work_opened_lt (s.spend (span s m)) (span s m) m (fun c i h => hf ⟨c, i, h⟩)
      rw [hw]
      simp only [effect_cfg, work_append, State.spend_cfg] at this ⊢
      have ho : opened s (span s m) m = opened (s.spend (span s m)) (span s m) m := by cases m <;> rfl
      rw [ho]
      omega

theorem engineRun_due {s : State} (h : s.turnDue = true) (n : Nat) : engineRun n s = s := by
  cases n with
  | zero => rfl
  | succ n =>
    rw [engineRun]
    split
    · rfl
    · simp [h]

/-- The engine stands at a position with steps left, or between commands. -/
def State.atStep (s : State) : Prop := ∀ b, s.inside = some b → b.todo ≠ []

theorem settle_atStep (s : State) (b : Position) : (settle s b).atStep := by
  intro b' h
  unfold settle at h
  split at h
  · cases h
  · next hm => cases h; simp [hm]

theorem engineEvent_atStep {s : State} (h : s.atStep) : (engineEvent s).atStep := by
  unfold engineEvent
  split
  · exact h
  · split
    · intro b h
      cases h
    · exact settle_atStep _ _

theorem posWork_pos {s : State} {b : Position} (h : s.atStep) (hb : s.inside = some b) : 0 < posWork s := by
  have := h b hb
  simp only [posWork, hb]
  cases ht : b.todo with
  | nil => exact absurd ht this
  | cons m ms =>
    rw [work_cons]
    have := weight_pos s.cfg m
    omega

/-- Every fuel from the remaining work on gives the same run. -/
theorem engineRun_fuel (n : Nat) :
    ∀ (m : Nat) (s : State), s.atStep → posWork s ≤ n → posWork s ≤ m → engineRun n s = engineRun m s := by
  induction n using Nat.strong_induction_on with
  | _ n ih =>
    intro m s hs hn hm
    cases hb : s.inside with
    | none => rw [engineRun_between hb, engineRun_between hb]
    | some b =>
      have hpos := posWork_pos hs hb
      obtain ⟨n', rfl⟩ : ∃ k, n = k + 1 := ⟨n - 1, by omega⟩
      obtain ⟨m', rfl⟩ : ∃ k, m = k + 1 := ⟨m - 1, by omega⟩
      simp only [engineRun, hb]
      split_ifs with hd
      · rfl
      · rcases engineEvent_lowers hb with h | h | h
        · rw [engineRun_between h, engineRun_between h]
        · exact ih n' (by omega) m' _ (engineEvent_atStep hs) (by omega) (by omega)
        · rw [engineRun_due h, engineRun_due h]

/-! ### Driving a command -/

/-- The state in which the engine has settled at a position and then run on. -/
def drive (s : State) (b : Position) : State := engineRun (work s.cfg b.todo) (settle s b)

theorem drive_nil (s : State) (cmd : Instr) (r0 r1 : Byte) : drive s ⟨cmd, [], r0, r1⟩ = complete s cmd := rfl

theorem engineRun_settle_ge (n : Nat) (s : State) (b : Position) (h : work s.cfg b.todo ≤ n) :
    engineRun n (settle s b) = drive s b :=
  engineRun_fuel n _ _ (settle_atStep s b) ((posWork_settle_le s b).trans h) (posWork_settle_le s b)

/-- With no turn of another agent ahead and no hold, the first step is taken and the run goes on behind it. -/
theorem drive_cons (s : State) (b : Position) (m : Micro) (ms : List Micro) (hp : s.plan = [])
    (hw : waitsForDma m = true → s.dmaActive = false) (hb : b.todo = m :: ms) :
    drive s b = drive (effect s (span s m) b m) { gathered s b m with todo := opened s (span s m) m ++ ms } := by
  have h1 := engineRun_settle_ge (work s.cfg b.todo + work s.cfg (opened s (span s m) m ++ ms) + 1) s b (by omega)
  rw [← h1, engineRun_settle_cons _ s b m ms hp hw hb]
  exact engineRun_settle_ge _ _ _ (by simp only [effect_cfg]; omega)

/-- A command that begins with no turn of another agent ahead is driven from its first step. -/
theorem launch_quiet (i : Instr) (todo : List Micro) (s : State) (hp : s.plan = []) (ht : todo ≠ []) :
    launch i todo s = drive s ⟨i, todo, 0#8, 0#8⟩ := by
  obtain ⟨m, ms, rfl⟩ := List.exists_cons_of_ne_nil ht
  unfold launch resume drive
  rw [spend_quiet hp, settle_cons s _ rfl]
  rfl

/-- A turn of another agent that is due stops the run where it stands. -/
theorem launch_due (i : Instr) (todo : List Micro) (s : State) (h : (s.spend 1).turnDue = true) :
    launch i todo s = (s.spend 1).setInside (some ⟨i, todo, 0#8, 0#8⟩) := by
  have h' : ((s.spend 1).setInside (some ⟨i, todo, 0#8, 0#8⟩)).turnDue = true := h
  exact engineRun_due h' _

end Sys2Proof.Machine
end

