-- ==== Sys2Proof/Laws/Completion.lean ====
section
/-! SUPPORT. The run of a command comes to its end when nothing cuts in (40_engine R173, R177), and a run that was cut
short goes on to the same end (R110, R172). -/

namespace Sys2Proof.Machine

/-! ### The run ends -/

/-- Nothing a step opens waits for the DMA agent. -/
theorem waits_opened (s : State) (n : Nat) (m x : Micro) (h : x ∈ opened s n m) : waitsForDma x = false := by
  have hpf : ∀ a b v, x ∈ plotFlat a b v → waitsForDma x = false := by
    intro a b v hx
    unfold plotFlat at hx
    split at hx
    · rw [List.mem_singleton.1 hx]; rfl
    · cases hx
  cases m with
  | fill c i => simp only [opened] at h; split_ifs at h <;> simp at h; rw [h]; rfl
  | tileChar o i =>
    simp only [opened, tileCharSteps, tileScan, tileNext] at h
    split at h
    · rw [List.mem_append] at h
      rcases h with h | h
      · simp only [List.mem_flatMap, List.mem_map] at h
        obtain ⟨_, _, _, _, rfl⟩ := h; rfl
      · split_ifs at h <;> simp at h; rw [h]; rfl
    · split_ifs at h <;> simp at h; rw [h]; rfl
  | tilePixel o i g j k =>
    simp only [opened, tilePixelSteps] at h
    split_ifs at h
    · cases h
    · exact hpf _ _ _ h
  | bmChar o i n =>
    simp only [opened, bmCharSteps, bmNext] at h
    split at h
    · rw [List.mem_append] at h
      rcases h with h | h
      · simp only [List.mem_map] at h
        obtain ⟨_, _, rfl⟩ := h; rfl
      · split_ifs at h <;> simp at h; rw [h]; rfl
    · split_ifs at h <;> simp at h; rw [h]; rfl
  | bmRow o n g r =>
    simp only [opened, bmRowSteps, List.mem_flatMap] at h
    obtain ⟨_, _, h⟩ := h
    split_ifs at h
    · exact hpf _ _ _ h
    · cases h
  | arcChar o st i n =>
    simp only [opened, arcCharSteps, arcNext] at h
    split at h
    · rw [List.mem_append] at h
      rcases h with h | h
      · simp only [List.mem_map] at h
        obtain ⟨_, _, rfl⟩ := h; rfl
      · split_ifs at h <;> simp at h; rw [h]; rfl
    · split_ifs at h <;> simp at h; rw [h]; rfl
  | arcRow o st n g r =>
    simp only [opened, arcRowSteps, List.mem_flatMap] at h
    obtain ⟨_, _, h⟩ := h
    split_ifs at h
    · rw [List.mem_singleton.1 h]; rfl
    · cases h
  | arcSin o k r c cur => rw [opened, List.mem_singleton] at h; rw [h]; rfl
  | arcCos o k r c cur => exact hpf _ _ _ h
  | scanMode =>
    simp only [opened, scanSteps] at h
    split_ifs at h <;> simp [columnSteps, shiftBit] at h
    · rcases h with ⟨_, _, rfl⟩ | rfl <;> rfl
    · rcases h with ⟨_, _, ⟨_, _, rfl | rfl | rfl⟩ | rfl | rfl | rfl | rfl | rfl | rfl⟩ | rfl <;> rfl
  | _ => cases h

/-- Held never: the command is not a waiting one, or the DMA agent is idle. -/
def State.free (s : State) : Prop :=
  ∀ b, s.inside = some b → (∀ m ∈ b.todo, waitsForDma m = false) ∨ (∃ m, b.todo = [m] ∧ s.dmaActive = false)

theorem free_event (s : State) (h : s.free) : (engineEvent s).free := by
  intro b' hb'
  unfold engineEvent at hb' ⊢
  split at hb'
  · next h0 => rw [h0] at hb'; cases hb'
  · next b hb =>
    split at hb'
    · cases hb'
    · next m ms hm =>
      unfold settle at hb'
      split at hb'
      · cases hb'
      · cases hb'
        left
        intro x hx
        rw [List.mem_append] at hx
        rcases hx with hx | hx
        · exact waits_opened _ _ _ _ hx
        · rcases h b hb with h | ⟨y, hy, -⟩
          · exact h x (by rw [hm]; exact List.mem_cons_of_mem _ hx)
          · rw [hm] at hy; cases hy; cases hx

theorem free_not_held (s : State) (h : s.free) : s.held = false := by
  unfold State.held
  split
  · rfl
  · next b hb =>
    split
    · rfl
    · next m ms hm =>
      rcases h b hb with h | ⟨y, hy, h⟩
      · rw [h m (by rw [hm]; exact List.mem_cons_self)]; rfl
      · rw [h, Bool.and_false]

theorem engineEvent_plan_nil {s : State} (h : s.plan = []) : (engineEvent s).plan = [] := by
  unfold engineEvent
  split
  · exact h
  · split
    · simp [h, spendPlan]
    · simp [h, spendPlan]

theorem engineRun_done (n : Nat) : ∀ s : State, s.plan = [] → s.atStep → s.free → posWork s ≤ n → (engineRun n s).inside = none := by
  induction n with
  | zero =>
    intro s hp ha hf hn
    cases hb : s.inside with
    | none => exact hb
    | some b => have := posWork_pos ha hb; omega
  | succ n ih =>
    intro s hp ha hf hn
    cases hb : s.inside with
    | none => rw [engineRun_between hb]; exact hb
    | some b =>
      rw [engineRun]
      simp only [hb, turnDue_quiet hp, free_not_held s hf, Bool.or_self, Bool.false_eq_true, if_false]
      have hp' := engineEvent_plan_nil hp
      rcases engineEvent_lowers hb with h | h | h
      · rw [engineRun_between h]; exact h
      · exact ih _ hp' (engineEvent_atStep ha) (free_event s hf) (by omega)
      · rw [turnDue_quiet hp'] at h; cases h

/-! ### The run goes on -/

/-- The state without any coming turn. -/
def State.calm (s : State) : State := { s with plan := [] }

theorem calm_of_quiet {s : State} (h : s.plan = []) : s.calm = s := by
  unfold State.calm; rw [← h]

theorem speed_calm (s : State) (n : BitVec 2) : s.calm.speed n = s.speed n := rfl

theorem setSpeed_calm (s : State) (n : BitVec 2) (v : Word) : s.calm.setSpeed n v = (s.setSpeed n v).calm := by
  unfold State.setSpeed; split_ifs <;> rfl

theorem slower_calm (s : State) (r0 r1 : Byte) : slower s.calm r0 r1 = (slower s r0 r1).calm := by
  unfold slower; split
  · rw [show s.calm.sel = s.sel from rfl, speed_calm, setSpeed_calm]
  · rfl

theorem faster_calm (s : State) (r0 r1 : Byte) : faster s.calm r0 r1 = (faster s r0 r1).calm := by
  unfold faster; split
  · rw [show s.calm.sel = s.sel from rfl, speed_calm, setSpeed_calm]
  · rfl

theorem fireUp_calm (s : State) (r0 r1 : Byte) : fireUp s.calm r0 r1 = (fireUp s r0 r1).calm := by
  unfold fireUp; rw [show s.calm.last = s.last from rfl]; split <;> rfl

theorem fireDown_calm (s : State) (r0 r1 : Byte) : fireDown s.calm r0 r1 = (fireDown s r0 r1).calm := by
  unfold fireDown; rw [show s.calm.last = s.last from rfl]; split <;> rfl

theorem fireMenu_calm (s : State) (r0 r1 : Byte) : fireMenu s.calm r0 r1 = (fireMenu s r0 r1).calm := by
  unfold fireMenu
  rw [show s.calm.last = s.last from rfl, show s.calm.sel = s.sel from rfl, speed_calm, setSpeed_calm]; split <;> rfl

theorem releaseLatch_calm (s : State) (r0 r1 : Byte) : releaseLatch s.calm r0 r1 = (releaseLatch s r0 r1).calm := by
  unfold releaseLatch; split <;> rfl

theorem commitScan_calm (s : State) (r0 r1 : Byte) : commitScan s.calm r0 r1 = (commitScan s r0 r1).calm := by
  have h : latchRows s.calm r0 r1 = (latchRows s r0 r1).calm := rfl
  simp only [commitScan, h, slower_calm, faster_calm, fireUp_calm, fireDown_calm, fireMenu_calm, releaseLatch_calm]
  rfl

theorem effect_calm (s : State) (n : Nat) (b : Position) (m : Micro) : effect s.calm n b m = (effect s n b m).calm := by
  cases m <;> try rfl
  case pin e => simp only [effect, State.pinsOut]; split <;> rfl
  case sampleMatrix r c => simp only [effect, State.sampled, show s.calm.pins = s.pins from rfl]; split <;> rfl
  case sampleJoy k => simp only [effect, State.sampled, show s.calm.pins = s.pins from rfl]; split <;> rfl
  case commit => exact commitScan_calm s b.r0 b.r1

theorem settle_calm (s : State) (b : Position) : settle s.calm b = (settle s b).calm := by
  unfold settle; split <;> rfl

theorem calm_spend (s : State) (n : Nat) : (s.spend n).calm = s.calm := rfl

theorem engineEvent_eq {s : State} {b : Position} {m : Micro} {ms : List Micro} (hb : s.inside = some b) (hm : b.todo = m :: ms) :
    engineEvent s = settle (effect (s.spend (span s m)) (span s m) b m) { gathered s b m with todo := opened s (span s m) m ++ ms } := by
  simp only [engineEvent, hb, hm]

/-- The calm state's event. -/
theorem engineEvent_calm {s : State} {b : Position} {m : Micro} {ms : List Micro} (hb : s.inside = some b) (hm : b.todo = m :: ms)
    (h : span s.calm m = span s m) : (engineEvent s).calm = engineEvent s.calm := by
  rw [engineEvent_eq hb hm, engineEvent_eq (s := s.calm) hb hm, h, ← settle_calm, ← effect_calm, calm_spend]
  have h1 : s.calm.spend (span s m) = s.calm := rfl
  have h2 : gathered s.calm b m = gathered s b m := by cases m <;> rfl
  have h3 : opened s.calm (span s m) m = opened s (span s m) m := by cases m <;> rfl
  rw [h1, h2, h3]

theorem engineRun_pos {s : State} {b : Position} (hb : s.inside = some b) (hd : s.turnDue = false) (hh : s.held = false) (n : Nat) :
    engineRun (n + 1) s = engineRun n (engineEvent s) := by
  rw [engineRun]
  simp only [hb, hd, hh, Bool.or_self, Bool.false_eq_true, if_false]

theorem atStep_calm {s : State} (h : s.atStep) : s.calm.atStep := h

/-- Where the run ends when nothing cuts in. -/
def finish (s : State) : State := engineRun (posWork s) s.calm

theorem finish_event {s : State} {b : Position} (ha : s.atStep) (hb : s.inside = some b) (hh : s.held = false) :
    finish (engineEvent s) = finish s := by
  obtain ⟨m, ms, hm⟩ := List.exists_cons_of_ne_nil (ha b hb)
  have hcd : s.calm.turnDue = false := rfl
  have hch : s.calm.held = false := hh
  have hf : finish s = engineRun (posWork s + posWork (engineEvent s) + posWork (engineEvent s.calm)) (engineEvent s.calm) := by
    unfold finish
    rw [engineRun_fuel (posWork s) (posWork s + posWork (engineEvent s) + posWork (engineEvent s.calm) + 1) s.calm
      (atStep_calm ha) (le_refl _) (by change posWork s ≤ _; omega)]
    exact engineRun_pos (s := s.calm) hb hcd hch _
  by_cases hs : span s.calm m = span s m
  · rw [hf, ← engineEvent_calm hb hm hs]
    exact engineRun_fuel _ _ _ (atStep_calm (engineEvent_atStep ha)) (le_refl _) (by change posWork (engineEvent s) ≤ _; omega)
  · cases m with
    | fill c i =>
      obtain ⟨k, hk⟩ : ∃ k, span s (.fill c i) = k := ⟨_, rfl⟩
      have hk' : i + k < Config.npix := by
        simp only [span, State.burst, State.calm] at hs hk
        split at hs
        · exact absurd rfl hs
        · next tt _ hpl =>
          simp only [hpl] at hk
          simp only [Config.npix] at hs hk ⊢
          omega
      have hopen : opened s k (.fill c i) = [.fill c (i + k)] := by simp only [opened, if_pos hk']
      have he := engineEvent_eq hb hm
      rw [hk, hopen] at he
      have he' : engineEvent s = ((s.spend k).fbFill i k c).setInside (some { b with todo := .fill c (i + k) :: ms }) := he
      have hec : engineEvent s.calm = settle (s.calm.fbFill i (Config.npix - i) c) { b with todo := ms } := by
        have h := engineEvent_eq (s := s.calm) hb hm
        have h1 : span s.calm (.fill c i) = Config.npix - i := rfl
        have h2 : opened s.calm (Config.npix - i) (.fill c i) = [] := by simp only [opened]; rw [if_neg (by omega)]
        rw [h1, h2] at h
        exact h
      have hee : engineEvent (engineEvent s).calm = engineEvent s.calm := by
        rw [hec, he']
        obtain ⟨b', hb'⟩ : ∃ b' : Position, b' = { b with todo := .fill c (i + k) :: ms } := ⟨_, rfl⟩
        rw [← hb']
        have h := engineEvent_eq (s := (((s.spend k).fbFill i k c).setInside (some b')).calm) (b := b')
          (m := .fill c (i + k)) (ms := ms) rfl (by rw [hb'])
        rw [h, hb']
        have h1 : ∀ t : State, span t.calm (.fill c (i + k)) = Config.npix - (i + k) := fun _ => rfl
        have h2 : ∀ t, opened t (Config.npix - (i + k)) (.fill c (i + k)) = [] := by
          intro t
          simp only [opened]
          rw [if_neg (by omega)]
        rw [h1, h2]
        have h3 := fbFill_fbFill s.calm i k (Config.npix - (i + k)) c
        rw [show k + (Config.npix - (i + k)) = Config.npix - i by omega] at h3
        rw [← h3]
        exact settle_setInside ((s.calm.fbFill i k c).fbFill (i + k) (Config.npix - (i + k)) c) (some { b with todo := .fill c (i + k) :: ms }) _
      have hin : (engineEvent s).calm.inside = some { b with todo := .fill c (i + k) :: ms } := by rw [he']; rfl
      have hheld : (engineEvent s).calm.held = false := by rw [State.held, hin]; rfl
      have ha' : (engineEvent s).calm.atStep := atStep_calm (engineEvent_atStep ha)
      rw [hf, ← hee]
      unfold finish
      rw [engineRun_fuel (posWork (engineEvent s)) (posWork s + posWork (engineEvent s) + posWork (engineEvent s.calm) + 1)
        _ ha' (le_refl _) (by change posWork (engineEvent s) ≤ _; omega)]
      rw [hee]
      rw [engineRun_pos hin rfl hheld, hee]
    | _ => exact absurd rfl hs

theorem finish_run (n : Nat) : ∀ s : State, s.atStep → finish (engineRun n s) = finish s ∧ (engineRun n s).atStep := by
  induction n with
  | zero => intro s h; exact ⟨rfl, h⟩
  | succ n ih =>
    intro s h
    rw [engineRun]
    split
    · exact ⟨rfl, h⟩
    · next b hb =>
      split_ifs with hd
      · exact ⟨rfl, h⟩
      · rw [Bool.or_eq_true, not_or] at hd
        obtain ⟨h1, h2⟩ := ih _ (engineEvent_atStep h)
        exact ⟨h1.trans (finish_event h hb (by simpa using hd.2)), h2⟩

end Sys2Proof.Machine
end

