-- ==== Sys2Proof/Laws/Encoding.lean ====
section
/-! SUPPORT. The fields of the encoder's words, the words from their fields, and the reserved-bit masks as fields
(30_encoding R141 to R148). -/

namespace Sys2Proof

/-! ### The header -/

@[simp] theorem opOf_headerWord (code : Byte) (cen : Bool) (col : Cell) :
    (headerWord code cen col).extractLsb' 0 8 = code := by
  unfold headerWord
  ext k hk
  simp only [BitVec.getElem_extractLsb', BitVec.getLsbD_append, Nat.zero_add]
  simp [hk, BitVec.getLsbD_eq_getElem]

@[simp] theorem colorOf_headerWord (code : Byte) (cen : Bool) (col : Cell) : colorOf (headerWord code cen col) = col := by
  unfold headerWord colorOf
  ext k hk
  simp only [BitVec.getElem_extractLsb', BitVec.getLsbD_append]
  have h1 : ¬ 16 + k < 8 := by omega
  have h2 : ¬ 16 + k - 8 < 1 := by omega
  have h3 : ¬ 16 + k - 8 - 1 < 7 := by omega
  simp only [h1, h2, h3, if_false]
  rw [show 16 + k - 8 - 1 - 7 = k by omega, BitVec.getLsbD_eq_getElem hk]

@[simp] theorem cenOf_headerWord (code : Byte) (cen : Bool) (col : Cell) : cenOf (headerWord code cen col) = cen := by
  unfold headerWord cenOf
  rw [BitVec.getLsbD_append, if_neg (by omega), BitVec.getLsbD_append, if_pos (by omega)]
  simp

/-- A header whose bits 15 to 9 are 0 is made of its three fields (R141). -/
theorem headerWord_fields (h : Word) (hc : h.extractLsb' 9 7 = 0#7) :
    headerWord (h.extractLsb' 0 8) (cenOf h) (colorOf h) = h := by
  unfold headerWord colorOf cenOf
  rw [← hc]
  ext k hk
  rw [← BitVec.getLsbD_eq_getElem, ← BitVec.getLsbD_eq_getElem]
  simp only [BitVec.getLsbD_append, BitVec.getLsbD_extractLsb', BitVec.getLsbD_ofBool]
  split_ifs with a b c
  · simp [a]
  · have : k = 8 := by omega
    subst this; simp
  · simp only [c, decide_true, Bool.true_and]
    rw [show 9 + (k - 8 - 1) = k by omega]
  · have h0 : k - 8 - 1 - 7 < 16 := by omega
    simp only [h0, decide_true, Bool.true_and]
    rw [show 16 + (k - 8 - 1 - 7) = k by omega]

/-- A field of a word is 0 when its bits are. -/
theorem extract_eq_zero {h : Word} {lo n : Nat} : h.extractLsb' lo n = 0#n ↔ ∀ k < n, h.getLsbD (lo + k) = false := by
  constructor
  · intro hz k hk
    have := congrArg (fun v => v.getLsbD k) hz
    simpa [hk] using this
  · intro hb
    ext k hk
    simp [hb k hk]

/-- A header passes a mask that covers its `OP` field when the other masked bits are 0. -/
theorem masked_eq {h mask : Word} {code : Byte} (hop : h.extractLsb' 0 8 = code) (hm : ∀ k < 8, mask.getLsbD k = true) :
    (h &&& mask = code.setWidth 32) ↔ ∀ k, 8 ≤ k → k < 32 → mask.getLsbD k = true → h.getLsbD k = false := by
  constructor
  · intro he k h8 h32 hk
    have := congrArg (fun v => v.getLsbD k) he
    rw [BitVec.getLsbD_and, hk, Bool.and_true, BitVec.getLsbD_setWidth, BitVec.getLsbD_of_ge code k h8, Bool.and_false] at this
    exact this
  · intro hb
    ext k hk
    rw [← BitVec.getLsbD_eq_getElem, ← BitVec.getLsbD_eq_getElem, BitVec.getLsbD_and, BitVec.getLsbD_setWidth]
    simp only [hk, decide_true, Bool.true_and]
    rcases Nat.lt_or_ge k 8 with h8 | h8
    · rw [hm k h8, Bool.and_true, ← hop]
      simp [h8]
    · rw [BitVec.getLsbD_of_ge code k h8]
      cases hk' : mask.getLsbD k
      · simp
      · rw [hb k h8 hk hk']; rfl

/-- The mask of a header without operand fields (R148). -/
theorem masked_plain {h : Word} {code : Byte} (hop : h.extractLsb' 0 8 = code) :
    (h &&& 0xFFFFFFFF#32 = code.setWidth 32) ↔ h.extractLsb' 8 24 = 0#24 := by
  have hm : ∀ k < 32, (0xFFFFFFFF#32).getLsbD k = true := by decide
  rw [masked_eq hop (by decide), extract_eq_zero]
  constructor
  · intro hb k hk
    exact hb (8 + k) (by omega) (by omega) (hm _ (by omega))
  · intro hb k h8 h32 _
    have := hb (k - 8) (by omega)
    rwa [show 8 + (k - 8) = k by omega] at this

/-- The mask of a header with a colour (R148). -/
theorem masked_color {h : Word} {code : Byte} (hop : h.extractLsb' 0 8 = code) :
    (h &&& 0x0000FFFF#32 = code.setWidth 32) ↔ h.extractLsb' 8 8 = 0#8 := by
  have hm : ∀ k < 32, (0x0000FFFF#32).getLsbD k = decide (k < 16) := by decide
  rw [masked_eq hop (by decide), extract_eq_zero]
  constructor
  · intro hb k hk
    exact hb (8 + k) (by omega) (by omega) (by rw [hm _ (by omega)]; simp; omega)
  · intro hb k h8 h32 hk
    rw [hm k h32, decide_eq_true_eq] at hk
    have := hb (k - 8) (by omega)
    rwa [show 8 + (k - 8) = k by omega] at this

/-- The mask of a header with a colour and the centre flag (R148). -/
theorem masked_centre {h : Word} {code : Byte} (hop : h.extractLsb' 0 8 = code) :
    (h &&& 0x0000FEFF#32 = code.setWidth 32) ↔ h.extractLsb' 9 7 = 0#7 := by
  have hm : ∀ k < 32, (0x0000FEFF#32).getLsbD k = (decide (k < 16) && decide (k ≠ 8)) := by decide
  rw [masked_eq hop (by decide), extract_eq_zero]
  constructor
  · intro hb k hk
    exact hb (9 + k) (by omega) (by omega) (by rw [hm _ (by omega)]; simp; omega)
  · intro hb k h8 h32 hk
    rw [hm k h32, Bool.and_eq_true, decide_eq_true_eq, decide_eq_true_eq] at hk
    have := hb (k - 9) (by omega)
    rwa [show 9 + (k - 9) = k by omega] at this

theorem headerClean_iff (row : OpRow) (h : Word) : headerClean row h = true ↔ h &&& row.mask = row.code.setWidth 32 := by
  simp [headerClean]

/-- The encoder leaves header bits 15 to 9 at 0 (R141). -/
theorem headerWord_reserved (code : Byte) (cen : Bool) (col : Cell) : (headerWord code cen col).extractLsb' 9 7 = 0#7 := by
  unfold headerWord
  ext k hk
  simp only [BitVec.getElem_extractLsb', BitVec.getLsbD_append]
  rw [if_neg (by omega), if_neg (by omega), if_pos (by omega)]
  simp

/-- Without the centre flag bit 8 is 0 too (R141). -/
theorem headerWord_reserved_uncentred (code : Byte) (col : Cell) :
    (headerWord code false col).extractLsb' 8 8 = 0#8 := by
  unfold headerWord
  ext k hk
  simp only [BitVec.getElem_extractLsb', BitVec.getLsbD_append]
  rw [if_neg (by omega)]
  split_ifs with a b
  · simp
  · simp
  · omega

/-! ### The operand words -/

@[simp] theorem lowHalf_coordWord (x y : BitVec 16) : lowHalf (coordWord x y) = x := by
  unfold lowHalf coordWord
  ext k hk
  simp only [BitVec.getElem_extractLsb', BitVec.getLsbD_append]
  simp [hk]

@[simp] theorem highHalf_coordWord (x y : BitVec 16) : highHalf (coordWord x y) = y := by
  unfold highHalf coordWord
  ext k hk
  simp only [BitVec.getElem_extractLsb', BitVec.getLsbD_append]
  simp [hk]

theorem coordWord_fields (w : Word) : coordWord (lowHalf w) (highHalf w) = w := by
  unfold lowHalf highHalf coordWord
  ext k hk
  rw [← BitVec.getLsbD_eq_getElem, ← BitVec.getLsbD_eq_getElem]
  simp only [BitVec.getLsbD_append, BitVec.getLsbD_extractLsb']
  split_ifs with a
  · simp [a]
  · rw [show 16 + (k - 16) = k by omega, decide_eq_true (by omega : k - 16 < 16), Bool.true_and]

@[simp] theorem lowHalf_textWord (a : BitVec 16) (n : BitVec 8) : lowHalf (textWord a n) = a := by
  unfold lowHalf textWord
  ext k hk
  simp only [BitVec.getElem_extractLsb', BitVec.getLsbD_append]
  simp [hk]

@[simp] theorem tlenOf_textWord (a : BitVec 16) (n : BitVec 8) : tlenOf (textWord a n) = n := by
  unfold tlenOf textWord
  ext k hk
  simp only [BitVec.getElem_extractLsb', BitVec.getLsbD_append]
  simp [hk]

@[simp] theorem textWordClean_textWord (a : BitVec 16) (n : BitVec 8) : textWordClean (textWord a n) = true := by
  unfold textWordClean textWord
  rw [beq_iff_eq]
  ext k hk
  simp only [BitVec.getElem_extractLsb', BitVec.getLsbD_append]
  rw [if_neg (by omega), if_neg (by omega)]
  simp

theorem textWord_fields {w : Word} (h : w.extractLsb' 24 8 = 0#8) : textWord (lowHalf w) (tlenOf w) = w := by
  unfold lowHalf tlenOf textWord
  rw [← h]
  ext k hk
  rw [← BitVec.getLsbD_eq_getElem, ← BitVec.getLsbD_eq_getElem]
  simp only [BitVec.getLsbD_append, BitVec.getLsbD_extractLsb']
  split_ifs with a b
  · simp [a]
  · rw [show 16 + (k - 16) = k by omega, decide_eq_true b, Bool.true_and]
  · rw [show 24 + (k - 16 - 8) = k by omega, decide_eq_true (by omega : k - 16 - 8 < 8), Bool.true_and]

@[simp] theorem lowHalf_radiusWord (r : BitVec 16) : lowHalf (radiusWord r) = r := by
  unfold lowHalf radiusWord
  ext k hk
  simp only [BitVec.getElem_extractLsb', BitVec.getLsbD_append]
  simp [hk]

@[simp] theorem radiusWordClean_radiusWord (r : BitVec 16) : radiusWordClean (radiusWord r) = true := by
  unfold radiusWordClean radiusWord
  rw [beq_iff_eq]
  ext k hk
  simp only [BitVec.getElem_extractLsb', BitVec.getLsbD_append]
  simp [hk]

theorem radiusWord_fields {w : Word} (h : w.extractLsb' 16 16 = 0#16) : radiusWord (lowHalf w) = w := by
  unfold lowHalf radiusWord
  rw [← h]
  ext k hk
  rw [← BitVec.getLsbD_eq_getElem, ← BitVec.getLsbD_eq_getElem]
  simp only [BitVec.getLsbD_append, BitVec.getLsbD_extractLsb']
  split_ifs with a
  · simp [a]
  · rw [show 16 + (k - 16) = k by omega, decide_eq_true (by omega : k - 16 < 16), Bool.true_and]

/-- The encoding of a command has its length in words (R147). -/
theorem encode_length (i : Instr) : (encode i).length = i.len := by cases i <;> rfl

end Sys2Proof
end

