-- ==== Sys2Proof/Laws/Fetch.lean ====
section
/-! SUPPORT. Fetching and the step of a running engine between commands (40_engine R171). -/

namespace Sys2Proof.Machine

theorem fetchWords_length (s : State) : s.fetchWords.length = min 5 (1024 - s.cp.toNat) := by
  simp [State.fetchWords, State.wordsLeft, maxLen]

theorem fetchWords_getElem? (s : State) (k : Nat) :
    s.fetchWords[k]? = if k < min 5 (1024 - s.cp.toNat) then some (s.cmdRead (s.cp.toNat + k)) else none := by
  have hl := fetchWords_length s
  split_ifs with h
  · rw [List.getElem?_eq_getElem (by omega)]
    simp [State.fetchWords]
  · exact List.getElem?_eq_none (by omega)

/-- The words decode reads are those of command RAM when the command fits (R171). -/
theorem fetchWords_take {s : State} {ws : List Word} (hl : ws.length ≤ 5) (hf : s.cp.toNat + ws.length ≤ 1024)
    (h : ∀ k < ws.length, ws[k]? = some (s.cmdRead (s.cp.toNat + k))) : s.fetchWords.take ws.length = ws := by
  refine List.ext_getElem? fun k => ?_
  rw [List.getElem?_take, fetchWords_getElem?]
  rcases Nat.lt_or_ge k ws.length with hk | hk
  · rw [if_pos hk, if_pos (by omega), h k hk]
  · rw [if_neg (by omega), List.getElem?_eq_none hk]

/-- The step of a running engine between commands, no other turn being due, is its decode (R171). -/
theorem step_ready {s : State} (h : s.ready) (hd : s.turnDue = false) : step s = decodeStep s := by
  have hb : blockMove s = decodeStep s := by
    unfold blockMove engineMove
    rw [h.1, h.2]
  unfold step machineMove
  split
  · exact hb
  · have hc : s.canMove = true := by simp [State.canMove, h.1]
    simp only [hd, hc, Bool.not_true, Bool.or_self, Bool.false_eq_true, if_false]
    exact hb

/-- The step of an engine inside a command, no other turn being due (R172, R300). -/
theorem step_inside {s : State} {b : Position} (hr : s.run = .running) (hi : s.inside = some b) (hd : s.turnDue = false) :
    step s = if s.held then .next ((dmaStep s).spend 1) else .next (resume s b) := by
  have hb : blockMove s = if s.held then .next ((dmaStep s).spend 1) else .next (resume s b) := by
    unfold blockMove engineMove
    rw [hr, hi]
  unfold step machineMove
  split
  · exact hb
  · have hc : s.canMove = true := by simp [State.canMove, hr]
    simp only [hd, hc, Bool.not_true, Bool.or_self, Bool.false_eq_true, if_false]
    exact hb

/-- The step of an idle engine, no other turn being due or possible (R302). -/
theorem step_idle {s : State} (hr : s.run = .idle) (hd : s.turnDue = false) (hp : s.dmaActive = true ∨ s.plan = []) :
    step s = if s.dmaActive then .next ((dmaStep s).spend 1) else .next s := by
  have hb : blockMove s = if s.dmaActive then .next ((dmaStep s).spend 1) else .next s := by
    unfold blockMove
    rw [hr]
  unfold step machineMove
  split
  · exact hb
  · next t ts h =>
    have hc : s.canMove = true := by
      rcases hp with hp | hp
      · simp [State.canMove, hp]
      · rw [h] at hp; cases hp
    simp only [hd, hc, Bool.not_true, Bool.or_self, Bool.false_eq_true, if_false]
    exact hb

/-- A turn that is due, or that comes when nothing else can move, is the step (log 1). -/
theorem step_turn {s : State} {t : Turn} {ts : List Turn} (hp : s.plan = t :: ts)
    (h : t.after = 0 ∨ s.canMove = false) : step s = actStep { s with plan := ts } t.act := by
  unfold step machineMove
  rw [hp]
  have : (s.turnDue || !s.canMove) = true := by
    rcases h with h | h
    · simp [State.turnDue, hp, h]
    · simp [h]
  simp only [this, if_true]

/-- The cases of a step: a turn of another agent, or the block's own move. -/
theorem step_cases (s : State) :
    (∃ t ts, s.plan = t :: ts ∧ step s = actStep { s with plan := ts } t.act) ∨ step s = blockMove s := by
  unfold step machineMove
  split
  · exact .inr rfl
  · next t ts h =>
    split_ifs
    · exact .inl ⟨t, ts, h, rfl⟩
    · exact .inr rfl

/-! ### Runs of the machine -/

theorem run_zero (s : State) : Sys2Proof.core.run 0 s = .next s := rfl

theorem run_succ_of (M : Host.Core) {s t : M.State} (h : M.step s = .next t) (n : Nat) : M.run (n + 1) s = M.run n t := by
  rw [Host.Core.run, h]

/-- A run goes on behind its first step. -/
theorem run_succ {s t : State} (h : step s = .next t) (n : Nat) :
    Sys2Proof.core.run (n + 1) s = Sys2Proof.core.run n t := run_succ_of Sys2Proof.core h n

end Sys2Proof.Machine
end

