-- ==== Sys2Proof/Laws/Strokes.lean ====
section
/-! SUPPORT. The three text commands draw the strokes of their rules: the engine's small steps against the lists of
Safety (42_tile_text R202, 43_bitmask_text R222, 44_curved_text R242). -/

namespace Sys2Proof.Machine

/-! ### Strokes on the state -/

theorem plotStroke_eq (s : State) (q : Stroke) :
    s.plotStroke q = if q.lands then { s with mem := (s.fbWrite q.offset.toNat q.color).mem } else s := by
  unfold State.plotStroke
  split <;> rfl

/-- Strokes change memory only. -/
theorem drawStrokes_eq (s : State) (qs : List Stroke) : s.drawStrokes qs = { s with mem := (s.drawStrokes qs).mem } := by
  unfold State.drawStrokes
  induction qs generalizing s with
  | nil => rfl
  | cons q qs ih =>
    rw [List.foldl_cons, ih]
    rw [plotStroke_eq]
    split <;> rfl

theorem drawStrokes_nil (s : State) : s.drawStrokes [] = s := rfl

theorem drawStrokes_cons (s : State) (q : Stroke) (qs : List Stroke) :
    s.drawStrokes (q :: qs) = (s.plotStroke q).drawStrokes qs := rfl

theorem drawStrokes_append (s : State) (qs qs' : List Stroke) :
    s.drawStrokes (qs ++ qs') = (s.drawStrokes qs).drawStrokes qs' := by simp [State.drawStrokes]

@[simp] theorem drawStrokes_cfg (s : State) (qs : List Stroke) : (s.drawStrokes qs).cfg = s.cfg := by
  rw [drawStrokes_eq]

@[simp] theorem drawStrokes_plan (s : State) (qs : List Stroke) : (s.drawStrokes qs).plan = s.plan := by
  rw [drawStrokes_eq]

/-- A byte that no stroke touches keeps its value. -/
theorem ramByte_drawStrokes (s : State) (qs : List Stroke) (a : Nat) (h : ¬ strokesTouch qs a) :
    (s.drawStrokes qs).ramByte a = s.ramByte a := by
  induction qs generalizing s with
  | nil => rfl
  | cons q qs ih =>
    rw [drawStrokes_cons, ih _ fun ⟨x, hx, hl⟩ => h ⟨x, List.mem_cons_of_mem _ hx, hl⟩]
    unfold State.plotStroke
    split
    · next hl =>
      refine ramByte_fbWrite_other s _ _ (fun he => h ⟨q, List.mem_cons_self, hl, .inl he⟩)
        (fun he => h ⟨q, List.mem_cons_self, hl, .inr he⟩)
    · rfl

/-- Strokes touch framebuffer bytes only. -/
theorem strokesTouch_fb {qs : List Stroke} {a : Nat} (h : strokesTouch qs a) : 0x10000 ≤ a ∧ a < 0x2C200 := by
  obtain ⟨q, _, ⟨h0, h1⟩, ha⟩ := h
  omega

/-- The text RAM is out of reach of the strokes. -/
theorem textRead_drawStrokes (s : State) (qs : List Stroke) {a : Nat} (h : a < 1024) :
    (s.drawStrokes qs).textRead a = s.textRead a := by
  refine ramByte_drawStrokes s qs _ fun ht => ?_
  have := strokesTouch_fb ht
  simp only [textBase] at this
  omega

/-! ### Driving one `PlotFlat` -/

/-- The steps of `PlotFlat` do what the stroke does. -/
theorem drive_plotFlat (s : State) (cmd : Instr) (x y : Int) (v : Cell) (ms : List Micro) (r0 r1 : Byte)
    (hp : s.plan = []) :
    drive s ⟨cmd, plotFlat x y v ++ ms, r0, r1⟩ = drive (s.plotStroke ⟨x, y, v⟩) ⟨cmd, ms, r0, r1⟩ := by
  unfold plotFlat plotCell State.plotStroke Stroke.lands Stroke.offset flatOffset
  simp only [Config.width, Config.npix, Nat.cast_ofNat]
  split_ifs with h
  · rw [drive_cons _ _ _ _ hp (by simp [waitsForDma]) rfl]
    rfl
  · rfl

/-- What the drawing of a text keeps and needs: no turn ahead, the ROMs, and the characters. -/
structure Drawing (p : Config.Params) (taddr : BitVec 16) (len : Nat) (text : Nat → Byte) (s : State) : Prop where
  plan : s.plan = []
  cfg  : s.cfg = p
  text : ∀ i < len, s.textRead (taddr.toNat + i) = text i

theorem Drawing.strokes {p : Config.Params} {taddr : BitVec 16} {len : Nat} {text : Nat → Byte} {s : State}
    (hl : taddr.toNat + len ≤ 1024) (h : Drawing p taddr len text s) (qs : List Stroke) :
    Drawing p taddr len text (s.drawStrokes qs) :=
  ⟨by rw [drawStrokes_plan, h.plan], by rw [drawStrokes_cfg, h.cfg],
    fun i hi => by rw [textRead_drawStrokes _ _ (by omega), h.text i hi]⟩

/-- Steps that draw strokes element by element draw the strokes of the whole list. -/
theorem drive_flatMap {α : Type} {P : State → Prop} (keep : ∀ s qs, P s → P (s.drawStrokes qs)) (cmd : Instr) (r0 r1 : Byte)
    (f : α → List Micro) (q : α → List Stroke) (l : List α)
    (h : ∀ a ∈ l, ∀ s ms, P s →
      drive s ⟨cmd, f a ++ ms, r0, r1⟩ = drive (s.drawStrokes (q a)) ⟨cmd, ms, r0, r1⟩)
    (s : State) (ms : List Micro) (hs : P s) :
    drive s ⟨cmd, l.flatMap f ++ ms, r0, r1⟩ = drive (s.drawStrokes (l.flatMap q)) ⟨cmd, ms, r0, r1⟩ := by
  induction l generalizing s with
  | nil => rfl
  | cons a l ih =>
    rw [List.flatMap_cons, List.append_assoc, h a List.mem_cons_self s _ hs,
      ih (fun x hx => h x (List.mem_cons_of_mem _ hx)) _ (keep s _ hs), List.flatMap_cons, drawStrokes_append]

theorem flatMap_singleton_map {α β : Type} (f : α → β) (l : List α) : l.map f = l.flatMap fun a => [f a] := by
  induction l with
  | nil => rfl
  | cons a l ih => simp [ih]

/-! ### TILE_TEXT -/

section Tile

variable {p : Config.Params} {o : LineText} {text : Nat → Byte}

/-- The strokes of a character in the terms of the operands. -/
theorem tileCharStrokes_eq (p : Config.Params) (o : LineText) (text : Nat → Byte) (i : Nat) :
    tileCharStrokes p o text i
      = match tileGlyph p (text i) with
        | none => []
        | some g => tileGlyphStrokes p o (tileStartX p o + (i * p.tileW : Nat)) g := by
  unfold tileCharStrokes tileGlyph tileFirstX tileStartX
  simp only [Config.tileSkip]
  split_ifs <;> simp_all

theorem drive_tilePixel (hp : ∀ s, Drawing p o.taddr o.tlen.toNat text s → s.plan = [])
    (r0 r1 : Byte) (i g j k : Nat) (s : State) (ms : List Micro) (hs : Drawing p o.taddr o.tlen.toNat text s) :
    drive s ⟨.tileText o, Micro.tilePixel o i g j k :: ms, r0, r1⟩
      = drive (s.drawStrokes
          (tilePixelStrokes p o (tileStartX p o + (i * p.tileW : Nat)) g j k))
          ⟨.tileText o, ms, r0, r1⟩ := by
  rw [drive_cons _ _ _ _ (hp s hs) (by simp [waitsForDma]) rfl]
  simp only [effect, gathered, opened, tilePixelSteps, tilePixelStrokes, hs.cfg, tilePixelOf, tileIdx, List.getD_eq_getElem?_getD]
  have hc : ∀ v, tileColor o.color v = if o.color ≠ 0#16 then o.color else v := by
    intro v
    unfold tileColor
    split_ifs <;> simp_all
  rw [← hc]
  by_cases hv : p.tileRom[(g / p.tileCols * p.tileH + j) * p.tileStride + g % p.tileCols * p.tileW + k]?.getD 0#16 = 0#16
  · rw [if_pos hv, if_pos hv]
    rfl
  · rw [if_neg hv, if_neg hv, drive_plotFlat _ _ _ _ _ _ _ _ (hp s hs), drawStrokes_cons, drawStrokes_nil]
    simp only [tileX, tileY, Nat.cast_add, add_assoc]

/-- The pixels of one tile. -/
theorem drive_tileScan (hl : o.taddr.toNat + o.tlen.toNat ≤ 1024) (r0 r1 : Byte) (i g : Nat) (s : State) (ms : List Micro)
    (hs : Drawing p o.taddr o.tlen.toNat text s) :
    drive s ⟨.tileText o, tileScan p o i g ++ ms, r0, r1⟩
      = drive (s.drawStrokes (tileGlyphStrokes p o (tileStartX p o + (i * p.tileW : Nat)) g)) ⟨.tileText o, ms, r0, r1⟩ := by
  unfold tileScan tileGlyphStrokes
  refine drive_flatMap (P := Drawing p o.taddr o.tlen.toNat text) (fun s qs h => h.strokes hl qs) _ _ _ _ _ _
    (fun j _ s ms hs => ?_) s ms hs
  rw [flatMap_singleton_map]
  refine drive_flatMap (P := Drawing p o.taddr o.tlen.toNat text) (fun s qs h => h.strokes hl qs) _ _ _ _ _ _
    (fun k _ s ms hs => ?_) s ms hs
  exact drive_tilePixel (fun s h => h.plan) r0 r1 i g j k s ms hs

/-- The characters from `i` on. -/
theorem drive_tileChars (hl : o.taddr.toNat + o.tlen.toNat ≤ 1024) (r0 r1 : Byte) (n : Nat) :
    ∀ (i : Nat) (s : State), i + n = o.tlen.toNat → 0 < n → Drawing p o.taddr o.tlen.toNat text s →
      drive s ⟨.tileText o, [.tileChar o i], r0, r1⟩
        = drive (s.drawStrokes ((List.range' i n).flatMap (tileCharStrokes p o text))) ⟨.tileText o, [], r0, r1⟩ := by
  induction n with
  | zero => intro i s _ h; exact absurd h (Nat.lt_irrefl 0)
  | succ n ih =>
    intro i s hi _ hs
    have hnext : ∀ t, Drawing p o.taddr o.tlen.toNat text t →
        drive t ⟨.tileText o, tileNext o i, r0, r1⟩
          = drive (t.drawStrokes ((List.range' (i + 1) n).flatMap (tileCharStrokes p o text)))
              ⟨.tileText o, [], r0, r1⟩ := by
      intro t ht
      unfold tileNext
      split_ifs with hlt
      · exact ih (i + 1) t (by omega) (by omega) ht
      · have : n = 0 := by omega
        subst this
        rfl
    rw [drive_cons _ _ _ _ hs.plan (by simp [waitsForDma]) rfl]
    simp only [effect, gathered, opened, tileCharSteps, lineChar, hs.cfg, hs.text i (by omega), List.append_nil]
    rw [List.range'_succ, List.flatMap_cons, drawStrokes_append]
    rw [tileCharStrokes_eq]
    cases hg : tileGlyph p (text i) with
    | none => exact hnext s hs
    | some g =>
      dsimp only
      rw [drive_tileScan hl r0 r1 i g s _ hs]
      exact hnext _ (hs.strokes hl _)

end Tile

/-! ### Bitmask glyphs -/

theorem lookupFrom_eq (n : Nat) (bs : List Byte) (ch : Byte) : lookupFrom n bs ch = (bs.idxOf? ch).map (n + ·) := by
  induction bs generalizing n with
  | nil => rfl
  | cons b bs ih =>
    rw [lookupFrom, List.idxOf?_cons]
    by_cases h : b = ch
    · simp [h]
    · simp only [h, if_false, ih, beq_iff_eq, Option.map_map]
      congr 1
      funext k
      simp
      omega

/-- The lookup of R68 is the first position. -/
theorem lookup_eq (p : Config.Params) (ch : Byte) : lookup p ch = p.bmLookup.idxOf? ch := by
  simp [lookup, lookupFrom_eq]

/-- The ink test of R225 is a bit of the row byte. -/
theorem bmInk_eq (p : Config.Params) (g r c : Nat) (hc : c < 8) : bmInk (bmRowByte p g r) c = glyphBit p g r c := by
  unfold bmInk glyphBit bmRowByte bmIdx
  simp only [Config.bmCols, Config.bmStride, List.getD_eq_getElem?_getD]
  generalize (p.bmRom[(g / 10 * 8 + r) * 10 + g % 10]?).getD 0#8 = b
  have key : ∀ b : Byte, ∀ c < 8, (b &&& (0x80#8 >>> c) != 0#8) = b.getLsbD (7 - c) := by decide +kernel
  exact key b c hc

theorem matchedBefore_succ (p : Config.Params) (text : Nat → Byte) (i : Nat) :
    matchedBefore p text (i + 1) = matchedBefore p text i + if (p.bmLookup.idxOf? (text i)).isSome then 1 else 0 := by
  unfold matchedBefore
  rw [List.range_succ, List.filter_append, List.length_append]
  congr 1
  simp only [List.filter_cons, List.filter_nil, List.isSome_idxOf?]
  by_cases h : text i ∈ p.bmLookup <;> simp [h]

/-! ### BM_TEXT -/

section Bm

variable {p : Config.Params} {o : LineText} {text : Nat → Byte}

theorem bmFirstX_eq (o : LineText) : bmFirstX o = bmStartX o := rfl

theorem drive_bmRow (r0 r1 : Byte) (n g r : Nat) (s : State) (ms : List Micro)
    (hs : s.plan = [] ∧ s.cfg = p) :
    drive s ⟨.bmText o, Micro.bmRow o n g r :: ms, r0, r1⟩
      = drive (s.drawStrokes (bmRowStrokes p o n g r)) ⟨.bmText o, ms, r0, r1⟩ := by
  rw [drive_cons _ _ _ _ hs.1 (by simp [waitsForDma]) rfl]
  simp only [effect, gathered, opened, bmRowSteps, hs.2]
  unfold bmRowStrokes
  refine drive_flatMap (P := fun s => s.plan = [] ∧ s.cfg = p) (fun s qs h => by simpa using h) _ _ _ _ _ _
    (fun c hc s ms hs => ?_) s ms hs
  rw [bmInk_eq p g r c (List.mem_range.1 hc), bmFirstX_eq]
  split_ifs with hb
  · rw [drive_plotFlat _ _ _ _ _ _ _ _ hs.1, drawStrokes_cons, drawStrokes_nil]
    simp only [bmX, bmY, Nat.cast_add, add_assoc]
  · rfl

/-- The characters from `i` on, `matchedBefore i` characters having matched. -/
theorem drive_bmChars (hl : o.taddr.toNat + o.tlen.toNat ≤ 1024) (r0 r1 : Byte) (n : Nat) :
    ∀ (i : Nat) (s : State), i + n = o.tlen.toNat → 0 < n → Drawing p o.taddr o.tlen.toNat text s →
      drive s ⟨.bmText o, [.bmChar o i (matchedBefore p text i)], r0, r1⟩
        = drive (s.drawStrokes ((List.range' i n).flatMap fun h => bmCharStrokes p o text (matchedBefore p text h) h)) ⟨.bmText o, [], r0, r1⟩ := by
  induction n with
  | zero => intro i s _ h; exact absurd h (Nat.lt_irrefl 0)
  | succ n ih =>
    intro i s hi _ hs
    have hnext : ∀ t, Drawing p o.taddr o.tlen.toNat text t →
        drive t ⟨.bmText o, bmNext o i (matchedBefore p text (i + 1)), r0, r1⟩
          = drive (t.drawStrokes ((List.range' (i + 1) n).flatMap fun h => bmCharStrokes p o text (matchedBefore p text h) h))
              ⟨.bmText o, [], r0, r1⟩ := by
      intro t ht
      unfold bmNext
      split_ifs with hlt
      · exact ih (i + 1) t (by omega) (by omega) ht
      · have : n = 0 := by omega
        subst this
        rfl
    rw [drive_cons _ _ _ _ hs.plan (by simp [waitsForDma]) rfl]
    simp only [effect, gathered, opened, bmCharSteps, lineChar, hs.cfg, hs.text i (by omega), List.append_nil, lookup_eq]
    rw [List.range'_succ, List.flatMap_cons, drawStrokes_append]
    unfold bmCharStrokes
    rw [matchedBefore_succ] at hnext
    cases hg : p.bmLookup.idxOf? (text i) with
    | none =>
      simp only [hg, Option.isSome_none, Bool.false_eq_true, if_false, Nat.add_zero] at hnext
      exact hnext s hs
    | some g =>
      simp only [hg, Option.isSome_some, if_true] at hnext
      dsimp only
      rw [flatMap_singleton_map,
        drive_flatMap (P := Drawing p o.taddr o.tlen.toNat text) (fun s qs h => h.strokes hl qs) _ _ _ _
          (bmRowStrokes p o (matchedBefore p text i) g) _ (fun r _ s ms hs => drive_bmRow r0 r1 _ _ _ s ms ⟨hs.plan, hs.cfg⟩)
          s _ hs]
      exact hnext _ (hs.strokes hl _)

end Bm

/-! ### CURVED_TEXT -/

section Arc

variable {p : Config.Params} {o : ArcText} {text : Nat → Byte}

theorem workingAngle_eq (o : ArcText) (c : Nat) : workingAngle (startAngle o) c = arcCur o c := by
  induction c with
  | zero => rfl
  | succ c ih =>
    rw [workingAngle, ih]
    unfold arcCur
    rw [List.range_succ, List.foldl_append]
    rfl

theorem flooredAngle_eq (o : ArcText) (k c : Nat) : flooredAngle (arcCur o c) k c = arcFloor o k c := rfl

theorem arcStroke_eq (o : ArcText) (k r c : Nat) :
    arcStroke o k r c = ⟨arcX o r (arcFloor o k c), arcY o r (arcFloor o k c), o.color⟩ := by
  have hc : cosineIndex (arcFloor o k c) = ((((360 - arcFloor o k c) % 360) + 90) % 360).toNat := by
    unfold cosineIndex sineIndex
    omega
  unfold arcStroke arcX arcY
  rw [hc]
  rfl

theorem arcStrokes_eq (p : Config.Params) (o : ArcText) (text : Nat → Byte) (h : ¬ angleless o = true) :
    arcStrokes p o text = (List.range o.tlen.toNat).flatMap fun i => arcCharStrokes p o text (matchedBefore p text i) i := by
  unfold arcStrokes
  rw [if_neg (by simpa [angleless] using h)]

theorem drive_arcRow (r0 r1 : Byte) (k g r : Nat) (s : State) (ms : List Micro) (hs : s.plan = [] ∧ s.cfg = p) :
    drive s ⟨.curvedText o, Micro.arcRow o (startAngle o) k g r :: ms, r0, r1⟩
      = drive (s.drawStrokes (arcRowStrokes p o k g r)) ⟨.curvedText o, ms, r0, r1⟩ := by
  rw [drive_cons _ _ _ _ hs.1 (by simp [waitsForDma]) rfl]
  simp only [effect, gathered, opened, arcRowSteps, hs.2]
  unfold arcRowStrokes
  refine drive_flatMap (P := fun s => s.plan = [] ∧ s.cfg = p) (fun s qs h => by simpa using h) _ _ _ _ _ _
    (fun c hc s ms hs => ?_) s ms hs
  rw [bmInk_eq p g r c (List.mem_range.1 hc)]
  split_ifs with hb
  · rw [workingAngle_eq, List.singleton_append, drive_cons _ _ _ _ hs.1 (by simp [waitsForDma]) rfl]
    simp only [effect, gathered, opened, List.singleton_append]
    rw [drive_cons _ _ _ _ hs.1 (by simp [waitsForDma]) rfl]
    simp only [effect, gathered, opened, arcPixelSteps]
    rw [drive_plotFlat _ _ _ _ _ _ _ _ hs.1, drawStrokes_cons, drawStrokes_nil, arcStroke_eq, flooredAngle_eq]
  · rfl

/-- The characters from `i` on, `matchedBefore i` characters having matched. -/
theorem drive_arcChars (hl : o.taddr.toNat + o.tlen.toNat ≤ 1024) (r0 r1 : Byte) (n : Nat) :
    ∀ (i : Nat) (s : State), i + n = o.tlen.toNat → 0 < n → Drawing p o.taddr o.tlen.toNat text s →
      drive s ⟨.curvedText o, [.arcChar o (startAngle o) i (matchedBefore p text i)], r0, r1⟩
        = drive (s.drawStrokes ((List.range' i n).flatMap fun h => arcCharStrokes p o text (matchedBefore p text h) h)) ⟨.curvedText o, [], r0, r1⟩ := by
  induction n with
  | zero => intro i s _ h; exact absurd h (Nat.lt_irrefl 0)
  | succ n ih =>
    intro i s hi _ hs
    have hnext : ∀ t, Drawing p o.taddr o.tlen.toNat text t →
        drive t ⟨.curvedText o, arcNext o (startAngle o) i (matchedBefore p text (i + 1)), r0, r1⟩
          = drive (t.drawStrokes ((List.range' (i + 1) n).flatMap fun h => arcCharStrokes p o text (matchedBefore p text h) h))
              ⟨.curvedText o, [], r0, r1⟩ := by
      intro t ht
      unfold arcNext
      split_ifs with hlt
      · exact ih (i + 1) t (by omega) (by omega) ht
      · have : n = 0 := by omega
        subst this
        rfl
    rw [drive_cons _ _ _ _ hs.plan (by simp [waitsForDma]) rfl]
    simp only [effect, gathered, opened, arcCharSteps, arcCharAt, hs.cfg, hs.text i (by omega), List.append_nil, lookup_eq]
    rw [List.range'_succ, List.flatMap_cons, drawStrokes_append]
    unfold arcCharStrokes
    rw [matchedBefore_succ] at hnext
    cases hg : p.bmLookup.idxOf? (text i) with
    | none =>
      simp only [hg, Option.isSome_none, Bool.false_eq_true, if_false, Nat.add_zero] at hnext
      exact hnext s hs
    | some g =>
      simp only [hg, Option.isSome_some, if_true] at hnext
      dsimp only
      rw [flatMap_singleton_map,
        drive_flatMap (P := Drawing p o.taddr o.tlen.toNat text) (fun s qs h => h.strokes hl qs) _ _ _ _
          (arcRowStrokes p o (matchedBefore p text i) g) _
          (fun r _ s ms hs => drive_arcRow r0 r1 _ _ _ s ms ⟨hs.plan, hs.cfg⟩) s _ hs]
      exact hnext _ (hs.strokes hl _)

end Arc

end Sys2Proof.Machine
end

