-- ==== Sys2Proof/Laws/Invariant.lean ====
section
/-! SUPPORT. What the engine's steps, the DMA's step and the host's accesses keep: steps belong to their command, memory
stays canonical and inside the RAMs, and the parts of the machine's invariant (Safety). -/

namespace Sys2Proof.Machine

/-! ### Steps belong to their command -/

/-- Every step of a list belongs to a command. -/
def belongsAll (i : Instr) (ms : List Micro) : Prop := ∀ m ∈ ms, m.belongs i = true

theorem belongsAll_nil (i : Instr) : belongsAll i [] := fun _ h => by cases h

theorem belongsAll_append {i : Instr} {ms ms' : List Micro} (h : belongsAll i ms) (h' : belongsAll i ms') :
    belongsAll i (ms ++ ms') := fun m hm => (List.mem_append.1 hm).elim (h m) (h' m)

theorem belongsAll_flatMap {i : Instr} {α : Type} {l : List α} {f : α → List Micro} (h : ∀ a ∈ l, belongsAll i (f a)) :
    belongsAll i (l.flatMap f) := fun _ hm =>
  let ⟨a, ha, hf⟩ := List.mem_flatMap.1 hm
  h a ha _ hf

theorem belongsAll_map {i : Instr} {α : Type} {l : List α} {f : α → Micro} (h : ∀ a ∈ l, (f a).belongs i = true) :
    belongsAll i (l.map f) := fun _ hm =>
  let ⟨a, ha, hf⟩ := List.mem_map.1 hm
  hf ▸ h a ha

/-- A command that may plot pixels. -/
def drawsText (i : Instr) : Prop := (∃ o, i = .tileText o) ∨ (∃ o, i = .bmText o) ∨ ∃ o, i = .curvedText o

theorem belongsAll_plotFlat {i : Instr} (h : drawsText i) (x y : Int) (v : Cell) : belongsAll i (plotFlat x y v) := by
  unfold plotFlat
  split
  · next off ho =>
    have hoff : off < 57600 := by
      unfold plotCell at ho
      split at ho
      · next hr =>
        have := hr.2
        simp only [Config.npix] at this
        cases ho
        omega
      · cases ho
    intro m hm
    rw [List.mem_singleton.1 hm]
    rcases h with ⟨o, rfl⟩ | ⟨o, rfl⟩ | ⟨o, rfl⟩ <;> exact decide_eq_true hoff
  · exact belongsAll_nil i

/-- What a step opens belongs to the command the step belongs to. -/
theorem belongsAll_opened {s : State} {n : Nat} {i : Instr} {m : Micro} (h : m.belongs i = true) :
    belongsAll i (opened s n m) := by
  cases m with
  | advance => exact belongsAll_nil i
  | stop => exact belongsAll_nil i
  | plot _ _ => exact belongsAll_nil i
  | pin _ => exact belongsAll_nil i
  | sampleMatrix _ _ => exact belongsAll_nil i
  | sampleJoy _ => exact belongsAll_nil i
  | commit => exact belongsAll_nil i
  | flush => exact belongsAll_nil i
  | dmaWait => exact belongsAll_nil i
  | fill c k =>
    cases i <;> try cases h
    next color =>
    simp only [opened]
    split_ifs with hk
    · intro m hm
      rw [List.mem_singleton.1 hm]
      simp only [Micro.belongs, Bool.and_eq_true, decide_eq_true_eq] at h ⊢
      exact ⟨h.1, hk⟩
    · exact belongsAll_nil _
  | tileChar o k =>
    cases i <;> try cases h
    next o' =>
    have hnext : belongsAll (.tileText o') (tileNext o k) := by
      unfold tileNext
      split_ifs with hl
      · intro m hm
        rw [List.mem_singleton.1 hm]
        simp only [Micro.belongs, Bool.and_eq_true, beq_iff_eq, decide_eq_true_eq] at h ⊢
        exact ⟨h.1, h.1 ▸ hl⟩
      · exact belongsAll_nil _
    have hown : (o == o') = true := (Bool.and_eq_true _ _ ▸ h).1
    simp only [opened, tileCharSteps]
    split
    · exact belongsAll_append (belongsAll_flatMap fun _ _ => belongsAll_map fun _ _ => hown) hnext
    · exact hnext
  | tilePixel o k g a b =>
    cases i <;> try cases h
    next o' =>
    simp only [opened, tilePixelSteps]
    split_ifs
    · exact belongsAll_nil _
    · exact belongsAll_plotFlat (.inl ⟨_, rfl⟩) _ _ _
  | bmChar o k n =>
    cases i <;> try cases h
    next o' =>
    have hnext : ∀ n, belongsAll (.bmText o') (bmNext o k n) := by
      intro n
      unfold bmNext
      split_ifs with hl
      · intro m hm
        rw [List.mem_singleton.1 hm]
        simp only [Micro.belongs, Bool.and_eq_true, beq_iff_eq, decide_eq_true_eq] at h ⊢
        exact ⟨h.1, h.1 ▸ hl⟩
      · exact belongsAll_nil _
    have hown : (o == o') = true := (Bool.and_eq_true _ _ ▸ h).1
    simp only [opened, bmCharSteps]
    split
    · exact belongsAll_append (belongsAll_map fun _ _ => hown) (hnext _)
    · exact hnext _
  | bmRow o n g r =>
    cases i <;> try cases h
    next o' =>
    simp only [opened, bmRowSteps]
    refine belongsAll_flatMap fun c _ => ?_
    split_ifs
    · exact belongsAll_plotFlat (.inr (.inl ⟨_, rfl⟩)) _ _ _
    · exact belongsAll_nil _
  | arcChar o st k n =>
    cases i <;> try cases h
    next o' =>
    have hnext : ∀ n, belongsAll (.curvedText o') (arcNext o st k n) := by
      intro n
      unfold arcNext
      split_ifs with hl
      · intro m hm
        rw [List.mem_singleton.1 hm]
        simp only [Micro.belongs, Bool.and_eq_true, beq_iff_eq, decide_eq_true_eq] at h ⊢
        exact ⟨h.1, h.1.1 ▸ hl⟩
      · exact belongsAll_nil _
    have hown : (o == o' && st == startAngle o') = true := (Bool.and_eq_true _ _ ▸ h).1
    simp only [opened, arcCharSteps]
    split
    · exact belongsAll_append (belongsAll_map fun _ _ => hown) (hnext _)
    · exact hnext _
  | arcRow o st k g r =>
    cases i <;> try cases h
    next o' =>
    simp only [opened, arcRowSteps]
    refine belongsAll_flatMap fun c _ => ?_
    split_ifs
    · intro m hm
      rw [List.mem_singleton.1 hm]
      simp only [Micro.belongs, Bool.and_eq_true, beq_iff_eq] at h ⊢
      exact ⟨h.1, by rw [h.2]⟩
    · exact belongsAll_nil _
  | arcSin o k r c cur =>
    cases i <;> try cases h
    intro m hm
    rw [opened, List.mem_singleton] at hm
    exact hm ▸ h
  | arcCos o k r c cur =>
    cases i <;> try cases h
    exact belongsAll_plotFlat (.inr (.inr ⟨_, rfl⟩)) _ _ _
  | scanMode =>
    cases i <;> try cases h
    simp only [opened, scanSteps]
    split_ifs
    · exact belongsAll_append (belongsAll_map fun _ _ => rfl) (fun m hm => by rw [List.mem_singleton.1 hm]; rfl)
    · refine belongsAll_append (belongsAll_flatMap fun c _ => ?_) (fun m hm => by rw [List.mem_singleton.1 hm]; rfl)
      unfold columnSteps
      refine belongsAll_append (belongsAll_flatMap fun k _ => ?_) ?_
      · intro m hm
        simp only [shiftBit, List.mem_cons, List.not_mem_nil, or_false] at hm
        rcases hm with rfl | rfl | rfl <;> rfl
      · intro m hm
        simp only [List.mem_cons, List.not_mem_nil, or_false] at hm
        rcases hm with rfl | rfl | rfl | rfl | rfl | rfl <;> rfl

/-! ### The steps of a scan -/

theorem scanTail_scanSteps (s : State) : scanTail (scanSteps s) := by
  right
  unfold scanSteps
  split_ifs
  · exact ⟨_, rfl, by simp, by simp⟩
  · exact ⟨_, rfl, by simp [columnSteps, shiftBit], by simp [columnSteps, shiftBit]⟩

/-- One step of a scan is its commit, which is the last, or leaves a scan's steps. -/
theorem scanTail_opened {s : State} {n : Nat} {m : Micro} {ms : List Micro} (h : scanTail (m :: ms))
    (hb : m.belongs .scan = true) :
    (m = .commit ∧ ms = []) ∨ (m ≠ .commit ∧ scanTail (opened s n m ++ ms)) := by
  rcases h with h | ⟨xs, h, hx, hy⟩
  · cases h
    exact .inr ⟨Micro.noConfusion, by simpa [opened] using scanTail_scanSteps s⟩
  · cases xs with
    | nil => cases h; exact .inl ⟨rfl, rfl⟩
    | cons x xs =>
      rw [List.cons_append, List.cons.injEq] at h
      obtain ⟨rfl, rfl⟩ := h
      refine .inr ⟨fun he => hx (he ▸ List.mem_cons_self), .inr ⟨xs, ?_, fun h => hx (List.mem_cons_of_mem _ h),
        fun h => hy (List.mem_cons_of_mem _ h)⟩⟩
      cases m <;> first | exact absurd List.mem_cons_self hy | rfl | cases hb

/-! ### Memory -/

theorem span_fill_le (s : State) (c : Cell) (i : Nat) : i + span s (.fill c i) ≤ Config.npix ∨ Config.npix < i := by
  simp only [span, State.burst]
  cases s.plan with
  | nil => simp only; omega
  | cons t ts => simp only; omega

/-- A step that belongs to a command keeps memory in its form. -/
theorem memWf_effect {s : State} {b : Position} {i : Instr} {m : Micro} (hb : m.belongs i = true) (h : memWf s.mem) (r : State)
    (hr : r.mem = s.mem) : memWf (effect r (span s m) b m).mem := by
  have hrm : memWf r.mem := hr ▸ h
  cases m with
  | fill c k =>
    cases i <;> try cases hb
    have hk : k < 57600 := by
      simp only [Micro.belongs, Bool.and_eq_true, decide_eq_true_eq] at hb
      exact hb.2
    refine memWf_fbFill c ?_ hrm
    have := span_fill_le s c k
    simp only [Config.npix] at this ⊢
    omega
  | plot off v =>
    have hk : off < 57600 := by
      cases i <;> first | cases hb | exact of_decide_eq_true hb
    exact memWf_fbWrite v hk hrm
  | advance => exact hrm
  | stop => exact hrm
  | tileChar _ _ => exact hrm
  | tilePixel _ _ _ _ _ => exact hrm
  | bmChar _ _ _ => exact hrm
  | bmRow _ _ _ _ => exact hrm
  | arcChar _ _ _ _ => exact hrm
  | arcRow _ _ _ _ _ => exact hrm
  | arcSin _ _ _ _ _ => exact hrm
  | arcCos _ _ _ _ _ => exact hrm
  | scanMode => exact hrm
  | pin _ => simpa [effect] using hrm
  | sampleMatrix _ _ => simpa [effect] using hrm
  | sampleJoy _ => simpa [effect] using hrm
  | commit => simpa [effect] using hrm
  | flush => simpa [effect] using hrm
  | dmaWait => exact hrm

/-- A RAM access of the host stays inside its RAM (R100, R102). -/
theorem isRam_access {off n k : Nat} (h : ramAccess off n = true) (hk : k < n) : isRam (off + k) = true := by
  simp only [ramAccess, inCmd, inText, inFb, Bool.and_eq_true, Bool.or_eq_true, beq_iff_eq, decide_eq_true_eq, cmdBase,
    textBase, fbBase, Config.cmdWords, Config.textBytes, Config.npix] at h
  simp only [isRam, Bool.and_eq_true, Bool.or_eq_true, decide_eq_true_eq, cmdBase, textBase, fbBase, Config.cmdWords,
    Config.textBytes, Config.npix]
  obtain ⟨h0, h⟩ := h
  rcases h with (⟨h1, rfl⟩ | ⟨h1, h2⟩) | ⟨h1, h2⟩
  · omega
  · rcases h2 with (rfl | rfl) | rfl <;> omega
  · rcases h2 with rfl | rfl <;> omega

/-- A host write keeps memory in its form. -/
theorem memWf_ramWrite {s : State} {off n : Nat} (v : Word) (h : ramAccess off n = true) (hm : memWf s.mem) :
    memWf (s.ramWrite off n v).mem := by
  refine memWf_putBytes (fun k hk => isRam_access h ?_) hm
  rw [List.length_take] at hk
  omega

/-! ### Where a command begins, and the whole step -/

/-- The steps a command begins with (R172). -/
def firstSteps (i : Instr) : List Micro :=
  match i with
  | .nop => [.advance]
  | .endList => [.stop]
  | .clear color => [.fill color 0]
  | .scan => [.scanMode]
  | .flush => [.flush]
  | .dmaWait => [.dmaWait]
  | .tileText o => if o.tlen = 0#8 then [.advance] else [.tileChar o 0]
  | .bmText o => if o.tlen = 0#8 then [.advance] else [.bmChar o 0 0]
  | .curvedText o => if angleless o ∨ o.tlen = 0#8 then [.advance] else [.arcChar o (startAngle o) 0 0]

/-- Every meaning is the launch of the command's first steps. -/
theorem exec_eq_launch (i : Instr) (s : State) : exec i s = .next (launch i (firstSteps i) s) := by cases i <;> rfl

/-- A command that passed decode stands at a legal position. -/
theorem firstSteps_ok (i : Instr) (hw : i.wf = true) (r0 r1 : Byte) : Position.ok ⟨i, firstSteps i, r0, r1⟩ := by
  refine ⟨hw, ?_, ?_, ?_, ?_⟩
  · cases i <;> simp only [firstSteps] <;> first | (split_ifs <;> simp) | simp
  · intro m hm
    cases i <;> simp only [firstSteps] at hm <;> (try split_ifs at hm) <;> rw [List.mem_singleton.1 hm] <;>
      simp_all [Micro.belongs, Nat.pos_iff_ne_zero, ← BitVec.toNat_inj]
  · rintro h
    cases h
    rfl
  · rintro h
    cases h
    exact .inl rfl

/-- The position after an engine step is legal again. -/
theorem ok_engineEvent {s : State} {b : Position} (hb : s.inside = some b) (ho : b.ok) (b' : Position)
    (h : (engineEvent s).inside = some b') : b'.ok ∧ b'.cmd = b.cmd := by
  obtain ⟨m, ms, hm⟩ := List.exists_cons_of_ne_nil ho.todo
  simp only [engineEvent, hb, hm] at h
  unfold settle at h
  split at h
  · cases h
  · next x xs hx =>
    have hb' : b' = { gathered s b m with todo := opened s (span s m) m ++ ms } := by
      cases h
      rfl
    have hcmd : b'.cmd = b.cmd := by rw [hb']; exact gathered_cmd s b m
    have hbel : belongsAll b.cmd (opened s (span s m) m ++ ms) :=
      belongsAll_append (belongsAll_opened (ho.belongs m (by rw [hm]; exact List.mem_cons_self)))
        fun y hy => ho.belongs y (by rw [hm]; exact List.mem_cons_of_mem _ hy)
    refine ⟨⟨by rw [hcmd]; exact ho.wf, ?_, ?_, ?_, ?_⟩, hcmd⟩
    · rw [hb']
      intro h0
      dsimp only at h0
      rw [h0] at hx
      cases hx
    · rw [hcmd, hb']
      exact hbel
    · intro he
      rw [hcmd] at he
      have := ho.ending he
      rw [hm] at this
      cases this
      cases hx
    · intro he
      rw [hcmd] at he
      rw [hb']
      rcases scanTail_opened (hm ▸ ho.scan he) (he ▸ ho.belongs m (by rw [hm]; exact List.mem_cons_self)) with ⟨h1, h2⟩ | h
      · subst h1 h2
        cases hx
      · exact h.2

/-- What every step of a command keeps, its run keeps. -/
theorem engineRun_keeps_of (cmd : Instr) (P : State → Prop)
    (keep : ∀ s b m ms, s.inside = some b → b.ok → b.cmd = cmd → b.todo = m :: ms → m.belongs cmd = true → P s →
      P (settle (effect (s.spend (span s m)) (span s m) b m) { gathered s b m with todo := opened s (span s m) m ++ ms }))
    (n : Nat) {s : State} (hb : ∀ b, s.inside = some b → b.ok ∧ b.cmd = cmd) (h : P s) : P (engineRun n s) := by
  have key := engineRun_keeps (fun t => (∀ b, t.inside = some b → b.ok ∧ b.cmd = cmd) ∧ P t) ?_ n ⟨hb, h⟩
  · exact key.2
  · rintro t b hi _ _ ⟨h1, h2⟩
    obtain ⟨ho, hc⟩ := h1 b hi
    obtain ⟨m, ms, hm⟩ := List.exists_cons_of_ne_nil ho.todo
    have he : engineEvent t = settle (effect (t.spend (span t m)) (span t m) b m)
        { gathered t b m with todo := opened t (span t m) m ++ ms } := by
      simp only [engineEvent, hi, hm]
    refine ⟨fun b' hb' => ?_, ?_⟩
    · obtain ⟨h3, h4⟩ := ok_engineEvent hi ho b' hb'
      exact ⟨h3, h4.trans hc⟩
    · rw [he]
      exact keep t b m ms hi ho hc hm (hc ▸ ho.belongs m (by rw [hm]; exact List.mem_cons_self)) h2

/-- What every step of a command keeps, the command keeps, cut short or not. -/
theorem exec_keeps_of (i : Instr) (hw : i.wf = true) (P : State → Prop)
    (keep : ∀ s b m ms, s.inside = some b → b.ok → b.cmd = i → b.todo = m :: ms → m.belongs i = true → P s →
      P (settle (effect (s.spend (span s m)) (span s m) b m) { gathered s b m with todo := opened s (span s m) m ++ ms }))
    {s t : State} (ht : exec i s = .next t) (h : P ((s.spend 1).setInside (some ⟨i, firstSteps i, 0#8, 0#8⟩))) : P t := by
  rw [exec_eq_launch] at ht
  cases ht
  exact engineRun_keeps_of i P keep _ (fun b hb => by cases hb; exact ⟨firstSteps_ok i hw _ _, rfl⟩) h

/-- What every engine step keeps, a launch keeps. -/
theorem launch_keeps (P : State → Prop) (keep : ∀ s b, s.inside = some b → s.held = false → P s → P (engineEvent s))
    (i : Instr) (ms : List Micro) (s : State) (h : P ((s.spend 1).setInside (some ⟨i, ms, 0#8, 0#8⟩))) :
    P (launch i ms s) := engineRun_keeps P (fun s b hb _ hh hs => keep s b hb hh hs) _ h

/-- Everything a step can do. -/
theorem step_next {s t : State} (h : step s = .next t) :
    (∃ u ts, s.plan = u :: ts ∧ actStep { s with plan := ts } u.act = .next t) ∨
    (∃ i, s.ready ∧ s.fetch = .ok i ∧ t = launch i (firstSteps i) s) ∨
    (∃ r, s.ready ∧ s.fetch = .error r ∧ t = (s.takeFault (causeOf r) (s.faultWordFor r)).spend 1) ∨
    (∃ b, s.run = .running ∧ s.inside = some b ∧ s.held = false ∧ t = resume s b) ∨
    (s.dmaActive = true ∧ t = (dmaStep s).spend 1) ∨ t = s := by
  rcases step_cases s with ⟨u, ts, hp, he⟩ | he
  · exact .inl ⟨u, ts, hp, he ▸ h⟩
  · rw [he] at h
    unfold blockMove at h
    split at h
    · next hr =>
      unfold engineMove at h
      split at h
      · next hi =>
        unfold decodeStep at h
        split at h
        · next i hf =>
          rw [exec_eq_launch] at h
          cases h
          exact .inr (.inl ⟨i, ⟨hr, hi⟩, hf, rfl⟩)
        · next r hf =>
          cases h
          exact .inr (.inr (.inl ⟨r, ⟨hr, hi⟩, hf, rfl⟩))
      · next b hi =>
        split_ifs at h with hh
        · cases h
          refine .inr (.inr (.inr (.inr (.inl ⟨?_, rfl⟩))))
          simp only [State.held, hi] at hh
          split at hh
          · cases hh
          · exact (Bool.and_eq_true _ _ ▸ hh).2
        · cases h
          exact .inr (.inr (.inr (.inl ⟨b, hr, hi, by simpa using hh, rfl⟩)))
    · split_ifs at h with ha
      · cases h
        exact .inr (.inr (.inr (.inr (.inl ⟨ha, rfl⟩))))
      · cases h
        exact .inr (.inr (.inr (.inr (.inr rfl))))

/-- Everything a turn of another agent can do. -/
theorem actStep_next {s t : State} {a : Act} (h : actStep s a = .next t) :
  (∃ addr n v, a = .hostRead addr n ∧ s.memRead addr n = some v ∧ t = { s with busOut := ⟨addr, n, v⟩ :: s.busOut }) ∨
  (∃ addr n v, a = .hostWrite addr n v ∧ s.memWrite addr n v = some t) ∨
  (a = .dma ∧ t = dmaStep s) ∨ (a = .reset ∧ t = s.resetStep) := by
  cases a with
  | hostRead addr n =>
    simp only [actStep] at h
    split at h
    · next v hv => cases h; exact .inl ⟨addr, n, v, rfl, hv, rfl⟩
    · cases h
  | hostWrite addr n v =>
    simp only [actStep] at h
    split at h
    · next s' hv => cases h; exact .inr (.inl ⟨addr, n, v, rfl, hv⟩)
    · cases h
  | dma => cases h; exact .inr (.inr (.inl ⟨rfl, rfl⟩))
  | reset => cases h; exact .inr (.inr (.inr ⟨rfl, rfl⟩))

/-- A step keeps what each kind of move keeps. -/
theorem step_keeps (P : State → Prop)
    (event : ∀ s b, s.inside = some b → s.held = false → P s → P (engineEvent s))
    (start : ∀ s i, s.ready → s.fetch = .ok i → P s → P ((s.spend 1).setInside (some ⟨i, firstSteps i, 0#8, 0#8⟩)))
    (fault : ∀ s r, s.ready → s.fetch = .error r → P s → P ((s.takeFault (causeOf r) (s.faultWordFor r)).spend 1))
    (dma : ∀ s, P s → P ((dmaStep s).spend 1))
    (turn : ∀ s u ts t, s.plan = u :: ts → actStep { s with plan := ts } u.act = .next t → P s → P t)
    {s t : State} (h : step s = .next t) (hs : P s) : P t := by
  rcases step_next h with ⟨u, ts, hp, ha⟩ | ⟨i, hr, hf, rfl⟩ | ⟨r, hr, hf, rfl⟩ | ⟨b, _, _, _, rfl⟩ | ⟨_, rfl⟩ | rfl
  · exact turn s u ts t hp ha hs
  · exact launch_keeps P event i _ s (start s i hr hf hs)
  · exact fault s r hr hf hs
  · exact engineRun_keeps P (fun s b hb _ hh hs => event s b hb hh hs) _ hs
  · exact dma s hs
  · exact hs

end Sys2Proof.Machine
end

