-- ==== Sys2Proof/Laws/Turns.lean ====
section
/-! SUPPORT. Whose move a step is, and what carrying out a command keeps: from its decode, or from where another agent's
turn cut it short (00_scope R6; 20_memory R110; 40_engine R172; log 1, 2). -/

namespace Sys2Proof.Machine

/-! ### Whose move a step is -/

/-- The turn taken, with the plan at hand. -/
theorem turnTaken_cons {s : State} {u : Turn} {us : List Turn} (hp : s.plan = u :: us) :
    s.turnTaken = if s.turnDue || !s.canMove then some u.act else none := by
  unfold State.turnTaken
  rw [hp]

theorem turnTaken_nil {s : State} (hp : s.plan = []) : s.turnTaken = none := by
  unfold State.turnTaken
  rw [hp]

/-- The step, with the plan at hand. -/
theorem step_cons {s : State} {u : Turn} {us : List Turn} (hp : s.plan = u :: us) :
    step s = if s.turnDue || !s.canMove then actStep { s with plan := us } u.act else blockMove s := by
  unfold step machineMove
  rw [hp]

theorem step_nil {s : State} (hp : s.plan = []) : step s = blockMove s := by
  unfold step machineMove
  rw [hp]

/-- A step that takes a turn is that turn. -/
theorem step_of_turnTaken {s : State} {a : Act} (h : s.turnTaken = some a) :
    ∃ n ts, s.plan = ⟨n, a⟩ :: ts ∧ step s = actStep { s with plan := ts } a := by
  cases hp : s.plan with
  | nil => rw [turnTaken_nil hp] at h; cases h
  | cons u us =>
    rw [turnTaken_cons hp] at h
    by_cases hd : (s.turnDue || !s.canMove) = true
    · rw [if_pos hd] at h
      cases h
      exact ⟨u.after, us, rfl, by rw [step_cons hp, if_pos hd]⟩
    · rw [if_neg hd] at h
      cases h

/-- A step that takes no turn is the block's own move. -/
theorem step_of_no_turn {s : State} (h : s.turnTaken = none) : step s = blockMove s := by
  cases hp : s.plan with
  | nil => exact step_nil hp
  | cons u us =>
    rw [turnTaken_cons hp] at h
    by_cases hd : (s.turnDue || !s.canMove) = true
    · rw [if_pos hd] at h
      cases h
    · rw [step_cons hp, if_neg hd]

/-- A due first turn is taken. -/
theorem turnTaken_of_due {s : State} {n : Nat} {a : Act} {ts : List Turn} (hp : s.plan = ⟨n, a⟩ :: ts)
    (h : n = 0 ∨ s.canMove = false) : s.turnTaken = some a := by
  rw [turnTaken_cons hp]
  refine if_pos ?_
  rcases h with h | h
  · simp [State.turnDue, hp, h]
  · simp [h]

/-- Without a turn that is due, a machine that can move takes no turn. -/
theorem turnTaken_of_not_due {s : State} (h : s.turnDue = false) (hc : s.canMove = true) : s.turnTaken = none := by
  cases hp : s.plan with
  | nil => exact turnTaken_nil hp
  | cons u us => simp [turnTaken_cons hp, h, hc]

/-- Everything a step without a turn can do. -/
theorem step_next_of_no_turn {s t : State} (hn : s.turnTaken = none) (h : step s = .next t) :
    (∃ i, s.ready ∧ s.fetch = .ok i ∧ exec i s = .next t) ∨
    (∃ r, s.ready ∧ s.fetch = .error r ∧ t = (s.takeFault (causeOf r) (s.faultWordFor r)).spend 1) ∨
    (∃ b, s.run = .running ∧ s.inside = some b ∧ s.held = false ∧ t = resume s b) ∨
    (s.dmaActive = true ∧ (s.run = .idle ∨ s.held = true) ∧ t = (dmaStep s).spend 1) ∨ t = s := by
  rw [step_of_no_turn hn] at h
  unfold blockMove at h
  split at h
  · next hr =>
    unfold engineMove at h
    split at h
    · next hi =>
      unfold decodeStep at h
      split at h
      · next i hf => exact .inl ⟨i, ⟨hr, hi⟩, hf, h⟩
      · next r hf =>
        cases h
        exact .inr (.inl ⟨r, ⟨hr, hi⟩, hf, rfl⟩)
    · next b hi =>
      split_ifs at h with hh
      · cases h
        refine .inr (.inr (.inr (.inl ⟨?_, .inr hh, rfl⟩)))
        simp only [State.held, hi] at hh
        split at hh
        · cases hh
        · exact (Bool.and_eq_true _ _ ▸ hh).2
      · cases h
        exact .inr (.inr (.inl ⟨b, hr, hi, by simpa using hh, rfl⟩))
  · next hr =>
    split_ifs at h with ha
    · cases h
      exact .inr (.inr (.inr (.inl ⟨ha, .inl hr, rfl⟩)))
    · cases h
      exact .inr (.inr (.inr (.inr rfl)))

/-! ### Carrying out a command -/

/-- An engine that goes on inside its command runs its steps. -/
theorem State.goesOn.step {s : State} {b : Position} (h : s.goesOn b) : step s = .next (resume s b) := by
  have hr : s.run = .running := by
    cases hr : s.run with
    | running => rfl
    | idle =>
      have := h.inv.idle hr
      rw [h.inside] at this
      cases this
  rw [step_of_no_turn h.turn]
  simp [blockMove, hr, engineMove, h.inside, h.free]

/-- The position at which it goes on is legal. -/
theorem State.goesOn.ok {s : State} {b : Position} (h : s.goesOn b) : b.ok := (h.inv.room b h.inside).1

/-- What every step of a command keeps, the command keeps when it goes on behind a cut. -/
theorem resumed_keeps_of {i : Instr} (P : State → Prop)
    (keep : ∀ s b m ms, s.inside = some b → b.ok → b.cmd = i → b.todo = m :: ms → m.belongs i = true → P s →
      P (settle (effect (s.spend (span s m)) (span s m) b m) { gathered s b m with todo := opened s (span s m) m ++ ms }))
    {s t : State} {b : Position} (hg : s.goesOn b) (hc : b.cmd = i) (ht : step s = .next t) (h : P s) : P t := by
  rw [hg.step] at ht
  cases ht
  exact engineRun_keeps_of i P keep _ (fun b' hb' => by cases hg.inside.symm.trans hb'; exact ⟨hg.ok, hc⟩) h

/-- What every step of a command keeps, carrying it out keeps, cut short or not, from its decode or from a cut. -/
theorem carries_keeps_of (i : Instr) (hw : i.wf = true) (P : State → Prop)
    (keep : ∀ s b m ms, s.inside = some b → b.ok → b.cmd = i → b.todo = m :: ms → m.belongs i = true → P s →
      P (settle (effect (s.spend (span s m)) (span s m) b m) { gathered s b m with todo := opened s (span s m) m ++ ms }))
    {s t : State} (ht : s.carries i t) (start : P ((s.spend 1).setInside (some ⟨i, firstSteps i, 0#8, 0#8⟩)))
    (on : ∀ b, s.goesOn b → b.cmd = i → P s) : P t := by
  rcases ht with ht | ⟨b, hg, hc, ht⟩
  · exact exec_keeps_of i hw P keep ht start
  · exact resumed_keeps_of P keep hg hc ht (on b hg hc)

end Sys2Proof.Machine
end

