-- ==== Sys2Proof/Laws/Frames.lean ====
section
/-! SUPPORT. The frame of a command in memory: a byte that no stroke of the steps left touches keeps its value, also when
another agent's turn cuts the command short (00_scope R15; 41_clear R190; 42_tile_text R207; 43_bitmask_text R226;
44_curved_text R248). -/

namespace Sys2Proof.Machine

/-! ### Touching -/

/-- Fewer strokes touch no more. -/
theorem strokesTouch_mono {xs ys : List Stroke} {a : Nat} (h : ∀ q ∈ xs, q ∈ ys) (ht : strokesTouch xs a) : strokesTouch ys a :=
  ht.imp fun q hq => ⟨h q hq.1, hq.2⟩

/-- The step that a plotted point gives is a stroke there. -/
theorem stepStrokes_plotFlat {s : State} {x y : Int} {v : Cell} {a : Nat} :
    ∀ m ∈ plotFlat x y v, strokesTouch (s.stepStrokes m) a → strokesTouch [⟨x, y, v⟩] a := by
  intro m hm ht
  unfold plotFlat plotCell flatOffset at hm
  split_ifs at hm with hc
  · rw [List.mem_singleton] at hm
    subst hm
    simp only [Config.width, Config.npix, Nat.cast_ofNat] at hc ht
    obtain ⟨q, hq, -, ha⟩ := ht
    rw [State.stepStrokes, List.mem_singleton] at hq
    subst hq
    refine ⟨_, List.mem_cons_self, hc, ?_⟩
    simp only [Stroke.offset] at ha ⊢
    omega
  · cases hm

/-! ### What a step opens touches no more than the step -/

theorem matchedBefore_le (p : Config.Params) (text : Nat → Byte) {i h : Nat} (hle : i ≤ h) :
    matchedBefore p text i ≤ matchedBefore p text h := by
  induction h, hle using Nat.le_induction with
  | base => exact Nat.le_refl _
  | succ h _ ih => rw [matchedBefore_succ]; exact Nat.le_add_right_of_le ih

/-- The strokes of the matched characters behind character `i`, `n` characters having been counted before it. -/
theorem matched_split {p : Config.Params} {text : Nat → Byte} (f : Nat → Nat → List Stroke) {i len : Nat} (n : Nat) (h : i < len) :
    (List.range' i (len - i)).flatMap (fun h => f (n + (matchedBefore p text h - matchedBefore p text i)) h)
      = f n i ++ (List.range' (i + 1) (len - (i + 1))).flatMap fun h =>
          f (n + (if (p.bmLookup.idxOf? (text i)).isSome then 1 else 0)
            + (matchedBefore p text h - matchedBefore p text (i + 1))) h := by
  rw [show len - i = len - (i + 1) + 1 by omega, List.range'_succ, List.flatMap_cons, Nat.sub_self, Nat.add_zero]
  congr 1
  refine List.flatMap_congr fun k hk => ?_
  have h1 := matchedBefore_succ p text i
  have h2 := matchedBefore_le p text (List.mem_range'_1.1 hk).1
  congr 1
  omega

/-- What a step opens draws nothing that the step does not draw. -/
theorem touch_opened {s : State} {i : Instr} {m : Micro} {n a : Nat} (hb : m.belongs i = true) :
    ∀ x ∈ opened s n m, strokesTouch (s.stepStrokes x) a → strokesTouch (s.stepStrokes m) a := by
  intro x hx ht
  cases m with
  | plot off v => cases hx
  | advance => cases hx
  | stop => cases hx
  | pin _ => cases hx
  | sampleMatrix _ _ => cases hx
  | sampleJoy _ => cases hx
  | commit => cases hx
  | flush => cases hx
  | dmaWait => cases hx
  | fill c k =>
    simp only [opened, Config.npix] at hx
    split_ifs at hx
    · rw [List.mem_singleton] at hx
      subst hx
      refine strokesTouch_mono (fun q hq => ?_) ht
      rw [State.stepStrokes, List.mem_map] at hq ⊢
      obtain ⟨j, hj, rfl⟩ := hq
      have hj := List.mem_range'_1.1 hj
      exact ⟨j, List.mem_range'_1.2 (by omega), rfl⟩
    · cases hx
  | scanMode =>
    cases i <;> try cases hb
    have hb := belongsAll_opened (s := s) (n := n) (m := .scanMode) (i := .scan) rfl x hx
    obtain ⟨q, hq, -⟩ := ht
    cases x <;> first | exact absurd hq List.not_mem_nil | cases hb
  | tileChar o i =>
    cases ‹Instr› <;> try cases hb
    next o' =>
    simp only [Micro.belongs, Bool.and_eq_true, beq_iff_eq, decide_eq_true_eq] at hb
    obtain ⟨rfl, hi⟩ := hb
    have hs : s.stepStrokes (.tileChar o i)
        = tileCharStrokes s.cfg o (s.textOf o.taddr) i ++ s.stepStrokes (.tileChar o (i + 1)) := by
      simp only [State.stepStrokes]
      rw [show o.tlen.toNat - i = o.tlen.toNat - (i + 1) + 1 by omega, List.range'_succ, List.flatMap_cons]
    rw [hs]
    have hnext : x ∈ tileNext o i → strokesTouch (tileCharStrokes s.cfg o (s.textOf o.taddr) i ++ s.stepStrokes (.tileChar o (i + 1))) a := by
      unfold tileNext
      split_ifs
      · intro hx
        rw [List.mem_singleton] at hx
        subst hx
        exact strokesTouch_mono (fun q hq => List.mem_append_right _ hq) ht
      · exact fun hx => absurd hx List.not_mem_nil
    rw [tileCharStrokes_eq] at hnext ⊢
    simp only [opened, tileCharSteps] at hx
    change x ∈ (match tileGlyph s.cfg (s.textOf o.taddr i) with | some g => _ | none => _) at hx
    cases hg : tileGlyph s.cfg (s.textOf o.taddr i) with
    | none => simp only [hg] at hx hnext ⊢; exact hnext hx
    | some g =>
      simp only [hg] at hx hnext ⊢
      rcases List.mem_append.1 hx with hx | hx
      · simp only [tileScan, List.mem_flatMap, List.mem_map, List.mem_range] at hx
        obtain ⟨j, hj, k, hk, rfl⟩ := hx
        refine strokesTouch_mono (fun q hq => List.mem_append_left _ ?_) ht
        simp only [tileGlyphStrokes, List.mem_flatMap, List.mem_range]
        exact ⟨j, hj, k, hk, hq⟩
      · exact hnext hx
  | tilePixel o i g j k =>
    simp only [opened, tilePixelSteps] at hx
    split_ifs at hx with hv
    · cases hx
    · refine strokesTouch_mono (fun q hq => ?_) (stepStrokes_plotFlat x hx ht)
      have hv' : ¬ ((s.cfg.tileRom[((g / s.cfg.tileCols) * s.cfg.tileH + j) * s.cfg.tileStride + (g % s.cfg.tileCols) * s.cfg.tileW + k]?).getD 0#16 = 0#16) := by
        simpa [tilePixelOf, tileIdx, List.getD_eq_getElem?_getD] using hv
      simp only [State.stepStrokes, tilePixelStrokes]
      rw [if_neg hv']
      convert hq using 3
      · simp [tileX, tileStartX, tileFirstX, add_assoc]
      · rfl
      · by_cases h0 : o.color = 0#16 <;> simp [tileColor, tilePixelOf, tileIdx, List.getD_eq_getElem?_getD, h0]
  | bmChar o i n' =>
    cases ‹Instr› <;> try cases hb
    next o' =>
    simp only [Micro.belongs, Bool.and_eq_true, beq_iff_eq, decide_eq_true_eq] at hb
    obtain ⟨rfl, hi⟩ := hb
    have hs := matched_split (p := s.cfg) (text := s.textOf o.taddr) (bmCharStrokes s.cfg o (s.textOf o.taddr)) n' hi
    rw [show s.stepStrokes (.bmChar o i n') = _ from hs]
    simp only [opened, bmCharSteps, lookup_eq] at hx
    change x ∈ (match s.cfg.bmLookup.idxOf? (s.textOf o.taddr i) with | some g => _ | none => _) at hx
    have hnext : ∀ n, n = n' + (if (s.cfg.bmLookup.idxOf? (s.textOf o.taddr i)).isSome then 1 else 0) → x ∈ bmNext o i n →
        strokesTouch (bmCharStrokes s.cfg o (s.textOf o.taddr) n' i ++ (List.range' (i + 1) (o.tlen.toNat - (i + 1))).flatMap
          fun h => bmCharStrokes s.cfg o (s.textOf o.taddr)
            (n' + (if (s.cfg.bmLookup.idxOf? (s.textOf o.taddr i)).isSome then 1 else 0)
              + (matchedBefore s.cfg (s.textOf o.taddr) h - matchedBefore s.cfg (s.textOf o.taddr) (i + 1))) h) a := by
      intro n hn hx
      rw [← hn]
      unfold bmNext at hx
      split_ifs at hx
      · rw [List.mem_singleton] at hx
        subst hx
        exact strokesTouch_mono (fun q hq => List.mem_append_right _ hq) ht
      · cases hx
    cases hg : s.cfg.bmLookup.idxOf? (s.textOf o.taddr i) with
    | none =>
      simp only [hg] at hx
      rw [hg] at hnext
      exact hnext _ rfl hx
    | some g =>
      simp only [hg] at hx
      rcases List.mem_append.1 hx with hx | hx
      · simp only [List.mem_map, List.mem_range] at hx
        obtain ⟨r, hr, rfl⟩ := hx
        refine strokesTouch_mono (fun q hq => List.mem_append_left _ ?_) ht
        simp only [bmCharStrokes, hg, List.mem_flatMap, List.mem_range]
        exact ⟨r, hr, hq⟩
      · rw [hg] at hnext
        exact hnext _ rfl hx
  | bmRow o n' g r =>
    simp only [opened, bmRowSteps, List.mem_flatMap, List.mem_range] at hx
    obtain ⟨c, hc, hx⟩ := hx
    rw [bmInk_eq s.cfg g r c hc] at hx
    split_ifs at hx with hi
    · refine strokesTouch_mono (fun q hq => ?_) (stepStrokes_plotFlat x hx ht)
      simp only [State.stepStrokes, bmRowStrokes, List.mem_flatMap, List.mem_range]
      refine ⟨c, hc, ?_⟩
      rw [if_pos hi]
      convert hq using 3
      · simp [bmX, bmFirstX_eq, add_assoc]
      · rfl
    · cases hx
  | arcChar o st i n' =>
    cases ‹Instr› <;> try cases hb
    next o' =>
    simp only [Micro.belongs, Bool.and_eq_true, beq_iff_eq, decide_eq_true_eq] at hb
    obtain ⟨⟨rfl, -⟩, hi⟩ := hb
    have hs := matched_split (p := s.cfg) (text := s.textOf o.taddr) (arcCharStrokes s.cfg o (s.textOf o.taddr)) n' hi
    rw [show s.stepStrokes (.arcChar o st i n') = _ from hs]
    simp only [opened, arcCharSteps, lookup_eq] at hx
    change x ∈ (match s.cfg.bmLookup.idxOf? (s.textOf o.taddr i) with | some g => _ | none => _) at hx
    have hnext : ∀ n, n = n' + (if (s.cfg.bmLookup.idxOf? (s.textOf o.taddr i)).isSome then 1 else 0) → x ∈ arcNext o st i n →
        strokesTouch (arcCharStrokes s.cfg o (s.textOf o.taddr) n' i ++ (List.range' (i + 1) (o.tlen.toNat - (i + 1))).flatMap
          fun h => arcCharStrokes s.cfg o (s.textOf o.taddr)
            (n' + (if (s.cfg.bmLookup.idxOf? (s.textOf o.taddr i)).isSome then 1 else 0)
              + (matchedBefore s.cfg (s.textOf o.taddr) h - matchedBefore s.cfg (s.textOf o.taddr) (i + 1))) h) a := by
      intro n hn hx
      rw [← hn]
      unfold arcNext at hx
      split_ifs at hx
      · rw [List.mem_singleton] at hx
        subst hx
        exact strokesTouch_mono (fun q hq => List.mem_append_right _ hq) ht
      · cases hx
    cases hg : s.cfg.bmLookup.idxOf? (s.textOf o.taddr i) with
    | none =>
      simp only [hg] at hx
      rw [hg] at hnext
      exact hnext _ rfl hx
    | some g =>
      simp only [hg] at hx
      rcases List.mem_append.1 hx with hx | hx
      · simp only [List.mem_map, List.mem_range] at hx
        obtain ⟨r, hr, rfl⟩ := hx
        refine strokesTouch_mono (fun q hq => List.mem_append_left _ ?_) ht
        simp only [arcCharStrokes, hg, List.mem_flatMap, List.mem_range]
        exact ⟨r, hr, hq⟩
      · rw [hg] at hnext
        exact hnext _ rfl hx
  | arcRow o st k g r =>
    cases ‹Instr› <;> try cases hb
    next o' =>
    simp only [Micro.belongs, Bool.and_eq_true, beq_iff_eq] at hb
    simp only [opened, arcRowSteps, List.mem_flatMap, List.mem_range] at hx
    obtain ⟨c, hc, hx⟩ := hx
    rw [bmInk_eq s.cfg g r c hc] at hx
    split_ifs at hx with hi
    · rw [List.mem_singleton] at hx
      subst hx
      refine strokesTouch_mono (fun q hq => ?_) ht
      simp only [State.stepStrokes, arcRowStrokes, List.mem_flatMap, List.mem_range] at hq ⊢
      exact ⟨c, hc, by rw [if_pos hi]; exact hq⟩
    · cases hx
  | arcSin o k r c cur =>
    rw [opened, List.mem_singleton] at hx
    subst hx
    exact ht
  | arcCos o k r c cur =>
    cases ‹Instr› <;> try cases hb
    next o' =>
    simp only [Micro.belongs, Bool.and_eq_true, beq_iff_eq] at hb
    obtain ⟨rfl, hcur⟩ := hb
    rw [State.stepStrokes, arcStroke_eq, ← flooredAngle_eq, ← workingAngle_eq, ← hcur]
    exact stepStrokes_plotFlat x hx ht

/-! ### A step writes what its strokes touch -/

/-- A byte that no stroke of a step touches is kept by the step. -/
theorem ramByte_effect {s : State} {b : Position} {i : Instr} {m : Micro} {a : Nat} (hb : m.belongs i = true)
    (ht : ¬ strokesTouch (s.stepStrokes m) a) (r : State) (hm : r.mem = s.mem) (hr : r.resets = s.resets) :
    (effect r (span s m) b m).ramByte a = s.ramByte a := by
  cases m with
  | fill c k =>
    cases i <;> try cases hb
    have hsp : span s (.fill c k) ≤ 57600 - k := by
      simp only [span, State.burst, Config.npix]
      split <;> omega
    rw [effect, ramByte_fbFill, if_neg, ramByte_congr hm hr]
    rintro ⟨h1, h2⟩
    simp only [fbBase] at h1 h2
    refine ht ⟨⟨((a - 0x10000) / 2 : Nat), 0, c⟩, ?_, ⟨?_, ?_⟩, ?_⟩
    · rw [State.stepStrokes, List.mem_map]
      exact ⟨(a - 0x10000) / 2, List.mem_range'_1.2 (by omega), rfl⟩
    all_goals simp only [Stroke.offset]; omega
  | plot off v =>
    have hk : off < 57600 := by
      cases i <;> first | cases hb | exact of_decide_eq_true hb
    rw [effect, ramByte_fbWrite_other, ramByte_congr hm hr]
    all_goals
      rintro rfl
      refine ht ⟨_, List.mem_singleton_self _, ⟨?_, ?_⟩, ?_⟩ <;> simp only [Stroke.offset, fbBase] <;> omega
  | pin e => exact ramByte_congr (by simpa [effect] using hm) (by simpa [effect] using hr) a
  | sampleMatrix _ _ => exact ramByte_congr (by simpa [effect] using hm) (by simpa [effect] using hr) a
  | sampleJoy _ => exact ramByte_congr (by simpa [effect] using hm) (by simpa [effect] using hr) a
  | commit => exact ramByte_congr (by simpa [effect] using hm) (by simpa [effect] using hr) a
  | flush => exact ramByte_congr (by simpa [effect] using hm) (by simpa [effect] using hr) a
  | advance => exact ramByte_congr hm hr a
  | stop => exact ramByte_congr hm hr a
  | tileChar _ _ => exact ramByte_congr hm hr a
  | tilePixel _ _ _ _ _ => exact ramByte_congr hm hr a
  | bmChar _ _ _ => exact ramByte_congr hm hr a
  | bmRow _ _ _ _ => exact ramByte_congr hm hr a
  | arcChar _ _ _ _ => exact ramByte_congr hm hr a
  | arcRow _ _ _ _ _ => exact ramByte_congr hm hr a
  | arcSin _ _ _ _ _ => exact ramByte_congr hm hr a
  | arcCos _ _ _ _ _ => exact ramByte_congr hm hr a
  | scanMode => exact ramByte_congr hm hr a
  | dmaWait => exact ramByte_congr hm hr a

/-! ### The strokes ahead depend on the ROMs and the text only -/

theorem matchedBefore_congr {p : Config.Params} {f g : Nat → Byte} {n : Nat} (h : ∀ k < n, f k = g k) :
    matchedBefore p f n = matchedBefore p g n := by
  unfold matchedBefore
  congr 1
  exact List.filter_congr fun k hk => by rw [h k (List.mem_range.1 hk)]

/-- Two states with the same ROMs and the same text RAM draw the same. -/
theorem stepStrokes_congr {s t : State} {i : Instr} {m : Micro} (hw : i.wf = true) (hb : m.belongs i = true) (hc : t.cfg = s.cfg)
    (ht : ∀ k < 1024, t.textRead k = s.textRead k) : t.stepStrokes m = s.stepStrokes m := by
  cases m with
  | tileChar o k =>
    cases i <;> try cases hb
    next o' =>
    simp only [Micro.belongs, Bool.and_eq_true, beq_iff_eq, decide_eq_true_eq] at hb
    obtain ⟨rfl, hk⟩ := hb
    have hx : ∀ h < o.tlen.toNat, t.textOf o.taddr h = s.textOf o.taddr h := fun h hh => ht _ (by
      have := of_decide_eq_true (hw : textFits _ _ = true)
      simp only [Config.textBytes] at this; omega)
    simp only [State.stepStrokes, hc]
    refine List.flatMap_congr fun h hh => ?_
    rw [tileCharStrokes, tileCharStrokes, hx h (by have := List.mem_range'_1.1 hh; omega)]
  | bmChar o k n =>
    cases i <;> try cases hb
    next o' =>
    simp only [Micro.belongs, Bool.and_eq_true, beq_iff_eq, decide_eq_true_eq] at hb
    obtain ⟨rfl, hk⟩ := hb
    have hx : ∀ h < o.tlen.toNat, t.textOf o.taddr h = s.textOf o.taddr h := fun h hh => ht _ (by
      have := of_decide_eq_true (hw : textFits _ _ = true)
      simp only [Config.textBytes] at this; omega)
    simp only [State.stepStrokes, hc]
    refine List.flatMap_congr fun h hh => ?_
    have hh := List.mem_range'_1.1 hh
    rw [bmCharStrokes, bmCharStrokes, hx h (by omega), matchedBefore_congr (n := h) fun j hj => hx j (by omega),
      matchedBefore_congr (n := k) fun j hj => hx j (by omega)]
  | arcChar o st k n =>
    cases i <;> try cases hb
    next o' =>
    simp only [Micro.belongs, Bool.and_eq_true, beq_iff_eq, decide_eq_true_eq] at hb
    obtain ⟨⟨rfl, -⟩, hk⟩ := hb
    have hx : ∀ h < o.tlen.toNat, t.textOf o.taddr h = s.textOf o.taddr h := fun h hh => ht _ (by
      have := of_decide_eq_true (hw : textFits _ _ = true)
      simp only [Config.textBytes] at this; omega)
    simp only [State.stepStrokes, hc]
    refine List.flatMap_congr fun h hh => ?_
    have hh := List.mem_range'_1.1 hh
    rw [arcCharStrokes, arcCharStrokes, hx h (by omega), matchedBefore_congr (n := h) fun j hj => hx j (by omega),
      matchedBefore_congr (n := k) fun j hj => hx j (by omega)]
  | tilePixel o k g j l => simp only [State.stepStrokes, hc]
  | bmRow o n g r => simp only [State.stepStrokes, hc]
  | arcRow o st k g r => simp only [State.stepStrokes, hc]
  | fill _ _ => rfl
  | plot _ _ => rfl
  | arcSin _ _ _ _ _ => rfl
  | arcCos _ _ _ _ _ => rfl
  | advance => rfl
  | stop => rfl
  | pin _ => rfl
  | sampleMatrix _ _ => rfl
  | sampleJoy _ => rfl
  | commit => rfl
  | flush => rfl
  | dmaWait => rfl
  | scanMode => rfl

/-! ### The frame -/

/-- What a command keeps that misses the byte: the ROMs, the text RAM, the byte, and that the steps left miss it. -/
structure KeepsByte (s0 : State) (a : Nat) (t : State) : Prop where
  cfg  : t.cfg = s0.cfg
  text : ∀ k < 1024, t.textRead k = s0.textRead k
  byte : t.ramByte a = s0.ramByte a
  todo : ∀ b, t.inside = some b → ∀ m ∈ b.todo, ¬ strokesTouch (s0.stepStrokes m) a

/-- Every step of a command keeps it. -/
theorem KeepsByte.event {s0 : State} {a : Nat} {i : Instr} (hw : i.wf = true) (s : State) (b : Position) (m : Micro) (ms : List Micro)
    (hi : s.inside = some b) (hm : b.todo = m :: ms) (hb : m.belongs i = true) (h : KeepsByte s0 a s) :
    KeepsByte s0 a (settle (effect (s.spend (span s m)) (span s m) b m) { gathered s b m with todo := opened s (span s m) m ++ ms }) := by
  have hmiss := h.todo b hi m (by rw [hm]; exact List.mem_cons_self)
  have hcong := stepStrokes_congr hw hb h.cfg h.text
  have htext : ∀ k < 1024, (effect (s.spend (span s m)) (span s m) b m).textRead k = s0.textRead k := by
    intro k hk
    refine (ramByte_effect (s := s) hb (fun ht => ?_) (s.spend (span s m)) rfl rfl).trans (h.text k hk)
    have := strokesTouch_fb ht
    simp only [textBase] at this
    omega
  have hbyte : (effect (s.spend (span s m)) (span s m) b m).ramByte a = s0.ramByte a :=
    (ramByte_effect (s := s) hb (hcong ▸ hmiss) (s.spend (span s m)) rfl rfl).trans h.byte
  have hcfg : (effect (s.spend (span s m)) (span s m) b m).cfg = s0.cfg := by
    rw [← h.cfg]
    cases m <;> simp [effect]
  unfold settle
  split
  · exact ⟨hcfg, htext, hbyte, fun b hb => by cases hb⟩
  · refine ⟨hcfg, htext, hbyte, fun b' hb' => ?_⟩
    cases hb'
    intro x hx
    rcases List.mem_append.1 hx with hx | hx
    · intro ht
      have hox := belongsAll_opened (s := s) (n := span s m) hb x hx
      rw [← stepStrokes_congr hw hox h.cfg h.text] at ht
      exact hmiss (hcong ▸ touch_opened hb x hx ht)
    · exact h.todo b hi x (by rw [hm]; exact List.mem_cons_of_mem _ hx)

/-- A command that goes on behind a cut leaves every byte that none of the strokes ahead touches. -/
theorem resumed_byte {s t : State} {b : Position} (hg : s.goesOn b) (ht : step s = .next t) {a : Nat}
    (h : ¬ strokesTouch (s.strokesAhead b) a) : t.ramByte a = s.ramByte a := by
  refine (resumed_keeps_of (KeepsByte s a) (fun s' b' m ms hi _ _ hm hb hk => hk.event hg.ok.wf s' b' m ms hi hm hb) hg rfl ht
    ⟨rfl, fun _ _ => rfl, rfl, fun b' hb' m hm => ?_⟩).byte
  cases hg.inside.symm.trans hb'
  exact fun hx => h (strokesTouch_mono (fun q hq => List.mem_flatMap.2 ⟨m, hm, hq⟩) hx)

/-- The steps a text command begins with draw the strokes of its rule. -/
theorem strokes_firstSteps {s : State} {i : Instr} (hi : drawsText i) :
    ∀ m ∈ firstSteps i, ∀ q ∈ s.stepStrokes m, q ∈ s.strokesOf i := by
  intro m hm q hq
  rcases hi with ⟨o, rfl⟩ | ⟨o, rfl⟩ | ⟨o, rfl⟩
  · simp only [firstSteps] at hm
    split_ifs at hm <;> rw [List.mem_singleton] at hm <;> subst hm
    · cases hq
    · simpa [State.stepStrokes, State.strokesOf, tileStrokes, List.range_eq_range'] using hq
  · simp only [firstSteps] at hm
    split_ifs at hm <;> rw [List.mem_singleton] at hm <;> subst hm
    · cases hq
    · simpa [State.stepStrokes, State.strokesOf, bmStrokes, List.range_eq_range', matchedBefore] using hq
  · simp only [firstSteps] at hm
    split_ifs at hm with hc <;> rw [List.mem_singleton] at hm <;> subst hm
    · cases hq
    · rw [not_or] at hc
      rw [State.strokesOf, arcStrokes_eq _ _ _ hc.1]
      simpa [State.stepStrokes, List.range_eq_range', matchedBefore] using hq

/-- A command, cut short or not, leaves every byte that the strokes of its first steps do not touch. -/
theorem exec_byte {s t : State} {i : Instr} (hw : i.wf = true) (ht : exec i s = .next t) {a : Nat}
    (h : ∀ m ∈ firstSteps i, ¬ strokesTouch (s.stepStrokes m) a) : t.ramByte a = s.ramByte a := by
  refine (exec_keeps_of i hw (KeepsByte s a) (fun s' b' m ms hi _ _ hm hb hk => hk.event hw s' b' m ms hi hm hb) ht
    ⟨rfl, fun _ _ => rfl, rfl, fun b' hb' m hm => ?_⟩).byte
  cases hb'
  exact h m hm

end Sys2Proof.Machine
end

