-- ==== Sys2Proof/Laws/Host.lean ====
section
/-! SUPPORT. What a host access can do (20_memory R102, R105), and that it does not look at the coming turns. -/

namespace Sys2Proof.Machine

/-- Everything a host write can do. -/
theorem memWrite_some {s t : State} {addr n : Nat} {v : Word} (h : s.memWrite addr n v = some t) :
    ∃ off, s.windowOffset addr = some off ∧
      ((inRegs off = true ∧ wordAccess off n = true ∧ t = s.regWrite off v) ∨ t = s ∨
        (ramAccess off n = true ∧ t = s.ramWrite off n v)) := by
  unfold State.memWrite at h
  split at h
  · next off ho =>
    refine ⟨off, ho, ?_⟩
    unfold State.writeAt at h
    split_ifs at h with h1 h2 h3
    · cases h
      rw [Bool.and_eq_true] at h1
      exact .inl ⟨h1.1, h1.2, rfl⟩
    · cases h
      exact .inr (.inl rfl)
    · cases h
      exact .inr (.inr ⟨h3, rfl⟩)
  · cases h

theorem ramRead_congr {s t : State} (hm : t.mem = s.mem) (hr : t.resets = s.resets) (n : Nat) :
    ∀ off, t.ramRead off n = s.ramRead off n := by
  induction n with
  | zero => intro off; rfl
  | succ n ih => intro off; simp only [State.ramRead, ih, ramByte_congr hm hr]

theorem memRead_plan (s : State) (ts : List Turn) (addr n : Nat) :
    ({ s with plan := ts } : State).memRead addr n = s.memRead addr n := by
  have h : ∀ off, ({ s with plan := ts } : State).ramRead off n = s.ramRead off n := fun off =>
    ramRead_congr (s := s) (t := { s with plan := ts }) rfl rfl n off
  unfold State.memRead State.windowOffset
  split
  · next off ho =>
    simp only at ho
    simp only [ho, State.readAt, h]
    rfl
  · next ho => simp only at ho; simp only [ho]

theorem setSpeed_plan (s : State) (ts : List Turn) (n : BitVec 2) (v : Word) :
    ({ s with plan := ts } : State).setSpeed n v = { s.setSpeed n v with plan := ts } := by
  unfold State.setSpeed
  split_ifs <;> rfl

theorem writeCtrl_plan (s : State) (ts : List Turn) (v : Word) :
    ({ s with plan := ts } : State).writeCtrl v = { s.writeCtrl v with plan := ts } := by
  unfold State.writeCtrl
  split
  · unfold State.start State.setScanMode
    dsimp only
    cases s.run <;> rfl
  · rfl

theorem regWrite_plan (s : State) (ts : List Turn) (off : Nat) (v : Word) :
    ({ s with plan := ts } : State).regWrite off v = { s.regWrite off v with plan := ts } := by
  obtain ⟨r, hr⟩ : ∃ r : State, r = { s with plan := ts } := ⟨_, rfl⟩
  have key : ∀ (c : Prop) [Decidable c] (a b a' b' : State), a = { a' with plan := ts } → b = { b' with plan := ts } →
      (if c then a else b) = { (if c then a' else b') with plan := ts } := by
    intro c _ a b a' b' ha hb
    split_ifs
    · exact ha
    · exact hb
  rw [← hr]
  unfold State.regWrite
  refine key _ _ _ _ _ (hr ▸ writeCtrl_plan s ts v) ?_
  refine key _ _ _ _ _ (hr ▸ rfl) ?_
  refine key _ _ _ _ _ (hr ▸ rfl) ?_
  refine key _ _ _ _ _ (hr ▸ rfl) ?_
  refine key _ _ _ _ _ (hr ▸ rfl) ?_
  refine key _ _ _ _ _ (hr ▸ rfl) ?_
  refine key _ _ _ _ _ (hr ▸ setSpeed_plan s ts 0#2 v) ?_
  refine key _ _ _ _ _ (hr ▸ setSpeed_plan s ts 1#2 v) ?_
  refine key _ _ _ _ _ (hr ▸ setSpeed_plan s ts 2#2 v) ?_
  refine key _ _ _ _ _ (hr ▸ setSpeed_plan s ts 3#2 v) hr

theorem putBytes_plan (s : State) (ts : List Turn) (a : Nat) (bs : List Byte) :
    ({ s with plan := ts } : State).putBytes a bs = { s.putBytes a bs with plan := ts } := by
  induction bs generalizing s a with
  | nil => rfl
  | cons b bs ih => exact ih (s.putByte a b) (a + 1)

/-- A host write does not look at the coming turns. -/
theorem memWrite_plan (s : State) (ts : List Turn) (addr n : Nat) (v : Word) :
    ({ s with plan := ts } : State).memWrite addr n v = (s.memWrite addr n v).map fun t => { t with plan := ts } := by
  have hw : ({ s with plan := ts } : State).windowOffset addr = s.windowOffset addr := rfl
  unfold State.memWrite
  rw [hw]
  cases s.windowOffset addr with
  | none => rfl
  | some off =>
    simp only [State.writeAt]
    split_ifs
    · rw [regWrite_plan]; rfl
    · rfl
    · simp only [State.ramWrite, putBytes_plan]; rfl
    · rfl

/-! ### Accesses inside the window -/

theorem windowOffset_in (s : State) {off : Nat} (h : off < 0x40000) : s.windowOffset (s.cfg.base + off) = some off := by
  unfold State.windowOffset
  rw [if_pos (by simp only [windowSize]; omega)]
  congr 1
  omega

theorem hostRead_in (s : State) {off : Nat} (n : Nat) (h : off < 0x40000) : s.hostRead off n = s.readAt off n := by
  unfold State.hostRead State.memRead
  rw [windowOffset_in s h]

theorem hostWrite_in (s : State) {off : Nat} (n : Nat) (v : Word) (h : off < 0x40000) :
    s.hostWrite off n v = s.writeAt off n v := by
  unfold State.hostWrite State.memWrite
  rw [windowOffset_in s h]

theorem hostRead_reg (s : State) {off : Nat} (h : off < 0x1000) (h4 : off % 4 = 0) :
    s.hostRead off 4 = some (s.regRead off) := by
  rw [hostRead_in s 4 (by omega)]
  unfold State.readAt
  rw [if_pos (by simp [inRegs, wordAccess, h, h4])]

theorem hostWrite_reg (s : State) {off : Nat} (v : Word) (h : off < 0x1000) (h4 : off % 4 = 0) :
    s.hostWrite off 4 v = some (s.regWrite off v) := by
  rw [hostWrite_in s 4 v (by omega)]
  unfold State.writeAt
  rw [if_pos (by simp [inRegs, wordAccess, h, h4])]

end Sys2Proof.Machine
end

