-- ==== Sys2Proof/Laws/PerInstr.lean ====
section
/-! SUPPORT. Statements made per instruction: the family `EncodeShape` (30_encoding R140, R147, R148). -/

namespace Sys2Proof.Laws.EncodeShape

/-- A row of the opcode map gives the command's length, its header carries that row's code and passes its reserved-bit
mask, and as many words follow as the length says. -/
def Statement (i : Instr) : Prop :=
  (encode i).length = i.len ∧
    ∃ row ∈ opcodeMap, row.len = i.len ∧
      ∀ h ∈ (encode i).head?, h.extractLsb' 0 8 = row.code ∧ headerClean row h = true

theorem nop : Statement .nop := by
  refine ⟨rfl, ⟨.nop, 0x00#8, 1, 0xFFFFFFFF#32⟩, by decide, rfl, ?_⟩
  intro h hh
  cases hh
  exact ⟨opOf_headerWord _ _ _, by decide⟩

theorem endList : Statement .endList := by
  refine ⟨rfl, ⟨.endList, 0x01#8, 1, 0xFFFFFFFF#32⟩, by decide, rfl, ?_⟩
  intro h hh
  cases hh
  exact ⟨opOf_headerWord _ _ _, by decide⟩

theorem clear (color : Cell) : Statement (.clear color) := by
  refine ⟨rfl, ⟨.clear, 0x02#8, 1, 0x0000FFFF#32⟩, by decide, rfl, ?_⟩
  intro h hh
  cases hh
  exact ⟨opOf_headerWord _ _ _,
    (headerClean_iff _ _).2 ((masked_color (opOf_headerWord _ _ _)).2 (headerWord_reserved_uncentred _ _))⟩

theorem scan : Statement .scan := by
  refine ⟨rfl, ⟨.scan, 0x03#8, 1, 0xFFFFFFFF#32⟩, by decide, rfl, ?_⟩
  intro h hh
  cases hh
  exact ⟨opOf_headerWord _ _ _, by decide⟩

theorem flush : Statement .flush := by
  refine ⟨rfl, ⟨.flush, 0x04#8, 1, 0xFFFFFFFF#32⟩, by decide, rfl, ?_⟩
  intro h hh
  cases hh
  exact ⟨opOf_headerWord _ _ _, by decide⟩

theorem dmaWait : Statement .dmaWait := by
  refine ⟨rfl, ⟨.dmaWait, 0x05#8, 1, 0xFFFFFFFF#32⟩, by decide, rfl, ?_⟩
  intro h hh
  cases hh
  exact ⟨opOf_headerWord _ _ _, by decide⟩

theorem tileText (o : LineText) : Statement (.tileText o) := by
  refine ⟨rfl, ⟨.tileText, 0x10#8, 3, 0x0000FEFF#32⟩, by decide, rfl, ?_⟩
  intro h hh
  cases hh
  exact ⟨opOf_headerWord _ _ _,
    (headerClean_iff _ _).2 ((masked_centre (opOf_headerWord _ _ _)).2 (headerWord_reserved _ _ _))⟩

theorem bmText (o : LineText) : Statement (.bmText o) := by
  refine ⟨rfl, ⟨.bmText, 0x11#8, 3, 0x0000FEFF#32⟩, by decide, rfl, ?_⟩
  intro h hh
  cases hh
  exact ⟨opOf_headerWord _ _ _,
    (headerClean_iff _ _).2 ((masked_centre (opOf_headerWord _ _ _)).2 (headerWord_reserved _ _ _))⟩

theorem curvedText (o : ArcText) : Statement (.curvedText o) := by
  refine ⟨rfl, ⟨.curvedText, 0x12#8, 5, 0x0000FFFF#32⟩, by decide, rfl, ?_⟩
  intro h hh
  cases hh
  exact ⟨opOf_headerWord _ _ _,
    (headerClean_iff _ _).2 ((masked_color (opOf_headerWord _ _ _)).2 (headerWord_reserved_uncentred _ _))⟩

end Sys2Proof.Laws.EncodeShape
end

