-- ==== Sys2Proof/Laws/Scan.lean ====
section
/-! SUPPORT. What a scan does when nothing cuts in: its pin events and samples one after the other (45_input_scan R272 to
R274) and the registers its commit leaves (R275 to R277). -/

namespace Sys2Proof.Machine

/-! ### Pin events and samples -/

/-- The level of a pin after a sequence of events. -/
def levelAfter (q : Pin) (es : List PinEvent) (l : Bool) : Bool :=
  es.foldl (fun l e => if e.pin = q then e.level else l) l

/-- The state after the given pin events and `n` samples. -/
def State.scanned (s : State) (es : List PinEvent) (n : Nat) : State :=
  { s with
    srData := levelAfter .srData es s.srData, srClk := levelAfter .srClk es s.srClk,
    srLoad := levelAfter .srLoad es s.srLoad, pinOut := es.reverse ++ s.pinOut,
    pins := s.pins.drop n, drawn := s.drawn + (n - s.pins.length) }

theorem scanned_zero (s : State) : s.scanned [] 0 = s := by simp [State.scanned, levelAfter]

theorem pinsOut_scanned (s : State) (es : List PinEvent) (n : Nat) (e : PinEvent) :
    (s.scanned es n).pinsOut e = s.scanned (es ++ [e]) n := by
  obtain ⟨q, l⟩ := e
  cases q <;> simp [State.pinsOut, State.scanned, levelAfter]

theorem sampleLevel_scanned (s : State) (es : List PinEvent) (n : Nat) : (s.scanned es n).sampleLevel = s.drawLevel n := by
  unfold State.sampleLevel State.drawLevel State.scanned
  dsimp only
  rcases Nat.lt_or_ge n s.pins.length with h | h
  · rw [List.drop_eq_getElem_cons h, List.getElem?_eq_getElem h]
    rfl
  · rw [List.drop_eq_nil_of_le h, List.getElem?_eq_none h]
    rfl

theorem sampled_scanned (s : State) (es : List PinEvent) (n : Nat) : (s.scanned es n).sampled = s.scanned es (n + 1) := by
  unfold State.sampled State.scanned
  dsimp only
  rcases Nat.lt_or_ge n s.pins.length with h | h
  · rw [List.drop_eq_getElem_cons h]
    have : n - s.pins.length = n + 1 - s.pins.length := by omega
    rw [this]
  · rw [List.drop_eq_nil_of_le h, List.drop_eq_nil_of_le (by omega : s.pins.length ≤ n + 1)]
    have : s.drawn + (n - s.pins.length) + 1 = s.drawn + (n + 1 - s.pins.length) := by omega
    dsimp only
    rw [this]

/-- Driving pin events. -/
theorem drive_pins {s : State} (hp : s.plan = []) (qs es : List PinEvent) (n : Nat) (ms : List Micro) (r0 r1 : Byte) :
    drive (s.scanned es n) ⟨.scan, qs.map Micro.pin ++ ms, r0, r1⟩ = drive (s.scanned (es ++ qs) n) ⟨.scan, ms, r0, r1⟩ := by
  induction qs generalizing es with
  | nil => simp
  | cons q qs ih =>
    rw [List.map_cons, List.cons_append, drive_cons (s.scanned es n) _ _ _ hp (by simp [waitsForDma]) rfl]
    simp only [effect, gathered, opened, List.nil_append, pinsOut_scanned]
    rw [ih, List.append_assoc]
    rfl

/-- Driving a matrix sample. -/
theorem drive_sampleMatrix {s : State} (hp : s.plan = []) (row c : Nat) (es : List PinEvent) (n : Nat) (ms : List Micro)
    (r0 r1 : Byte) :
    drive (s.scanned es n) ⟨.scan, Micro.sampleMatrix row c :: ms, r0, r1⟩
      = drive (s.scanned es (n + 1))
          ⟨.scan, ms, if row = 0 then withSample r0 c (s.drawLevel n) else r0,
            if row = 0 then r1 else withSample r1 c (s.drawLevel n)⟩ := by
  rw [drive_cons (s.scanned es n) _ _ _ hp (by simp [waitsForDma]) rfl]
  simp only [effect, gathered, opened, List.nil_append, sampled_scanned, sampleLevel_scanned, gatherMatrix]
  split_ifs <;> rfl

/-- Driving a joystick sample. -/
theorem drive_sampleJoy {s : State} (hp : s.plan = []) (k : Nat) (es : List PinEvent) (n : Nat) (ms : List Micro)
    (r0 r1 : Byte) :
    drive (s.scanned es n) ⟨.scan, Micro.sampleJoy k :: ms, r0, r1⟩
      = drive (s.scanned es (n + 1)) ⟨.scan, ms, r0, withSample r1 k (s.drawLevel n)⟩ := by
  rw [drive_cons (s.scanned es n) _ _ _ hp (by simp [waitsForDma]) rfl]
  simp only [effect, gathered, opened, List.nil_append, sampled_scanned, sampleLevel_scanned, gatherJoy]

/-! ### The gathered masks -/

/-- The mask of the first `n` samples, sample `k` having the level `f k`. -/
def maskOf (f : Nat → Bool) : Nat → Byte
  | 0 => 0#8
  | n + 1 => withSample (maskOf f n) n (f n)

theorem withSample_bit (mask : Byte) (c k : Nat) (l : Bool) (hk : k < 8) :
    (withSample mask c l).getLsbD k = if k = c then !l else mask.getLsbD k := by
  have h1 : (1#8 <<< c).getLsbD k = decide (k = c) := by
    simp only [BitVec.getLsbD_shiftLeft, hk, decide_true, Bool.true_and, BitVec.getLsbD_one]
    by_cases h : k = c
    · subst h; simp
    · simp [h]; omega
  unfold withSample
  cases l
  · rw [if_neg (by simp), BitVec.getLsbD_or, h1]
    split_ifs with h <;> simp [h]
  · rw [if_pos rfl, BitVec.getLsbD_and, BitVec.getLsbD_not, h1]
    split_ifs with h <;> simp [h, hk]

theorem maskOf_bit (f : Nat → Bool) (n k : Nat) (hk : k < 8) :
    (maskOf f n).getLsbD k = (decide (k < n) && !f k) := by
  induction n with
  | zero => simp [maskOf]
  | succ n ih =>
    rw [maskOf, withSample_bit _ _ _ _ hk, ih]
    split_ifs with h
    · subst h; simp
    · have : (k < n + 1) ↔ (k < n) := by omega
      simp [this]

/-! ### The two wiring modes -/

/-- The pin events of column `c` before its first sample (R272). -/
def columnEvents (led : Byte) (c : Nat) : List PinEvent :=
  ((List.range 16).flatMap fun k =>
      [⟨.srData, (led ++ ~~~(1#8 <<< c)).getLsbD (15 - k)⟩, ⟨.srClk, true⟩, ⟨.srClk, false⟩])
    ++ [⟨.srLoad, true⟩, ⟨.srLoad, false⟩]

theorem columnSteps_eq (led : Byte) (c : Nat) :
    columnSteps led c = (columnEvents led c).map Micro.pin
      ++ Micro.sampleMatrix 0 c :: ([⟨.srClk, true⟩, ⟨.srClk, false⟩].map Micro.pin ++ [Micro.sampleMatrix 1 c]) := by
  simp [columnSteps, columnEvents, shiftBit, shiftWord, List.map_flatMap]

theorem matrixEvents_eq (led : Byte) :
    matrixEvents led = (List.range 8).flatMap fun c => columnEvents led c ++ [⟨.srClk, true⟩, ⟨.srClk, false⟩] := by
  simp [matrixEvents, columnEvents]

/-- Driving one matrix column. -/
theorem drive_column {s : State} (hp : s.plan = []) (led : Byte) (c : Nat) (es : List PinEvent) (ms : List Micro)
    (r0 r1 : Byte) :
    drive (s.scanned es (2 * c)) ⟨.scan, columnSteps led c ++ ms, r0, r1⟩
      = drive (s.scanned (es ++ (columnEvents led c ++ [⟨.srClk, true⟩, ⟨.srClk, false⟩])) (2 * (c + 1)))
          ⟨.scan, ms, withSample r0 c (s.drawLevel (2 * c)), withSample r1 c (s.drawLevel (2 * c + 1))⟩ := by
  rw [columnSteps_eq]
  simp only [List.append_assoc, List.cons_append]
  rw [drive_pins hp, drive_sampleMatrix hp, drive_pins hp, List.nil_append, drive_sampleMatrix hp]
  simp [Nat.mul_add]

/-- Driving the first `n` matrix columns. -/
theorem drive_columns {s : State} (hp : s.plan = []) (led : Byte) (n : Nat) (ms : List Micro) :
    drive s ⟨.scan, (List.range n).flatMap (fun c => columnSteps led c) ++ ms, 0#8, 0#8⟩
      = drive (s.scanned ((List.range n).flatMap fun c => columnEvents led c ++ [⟨.srClk, true⟩, ⟨.srClk, false⟩]) (2 * n))
          ⟨.scan, ms, maskOf (fun c => s.drawLevel (2 * c)) n, maskOf (fun c => s.drawLevel (2 * c + 1)) n⟩ := by
  induction n generalizing ms with
  | zero => simp [scanned_zero, maskOf]
  | succ n ih =>
    rw [List.range_succ, List.flatMap_append, List.append_assoc, ih, List.flatMap_singleton, drive_column hp,
      List.flatMap_append, List.flatMap_singleton]
    rfl

/-- Driving the first `n` joystick samples. -/
theorem drive_joys {s : State} (hp : s.plan = []) (n : Nat) (ms : List Micro) :
    drive s ⟨.scan, (List.range n).map Micro.sampleJoy ++ ms, 0#8, 0#8⟩
      = drive (s.scanned [] n) ⟨.scan, ms, 0#8, maskOf s.drawLevel n⟩ := by
  induction n generalizing ms with
  | zero => simp [scanned_zero, maskOf]
  | succ n ih =>
    rw [List.range_succ, List.map_append, List.append_assoc, ih]
    exact drive_sampleJoy hp n [] n ms 0#8 _

/-- Driving the commit, which completes the scan (R272, R278). -/
theorem drive_commit {s : State} (hp : s.plan = []) (r0 r1 : Byte) :
    drive s ⟨.scan, [.commit], r0, r1⟩ = complete (commitScan s r0 r1) .scan := by
  rw [drive_cons _ _ _ _ hp (by simp [waitsForDma]) rfl]
  rfl

/-! ### The commit -/

theorem setSpeed_same (s : State) (n : BitVec 2) (v : Word) : (s.setSpeed n v).speed n = v := by
  unfold State.setSpeed State.speed
  split_ifs <;> rfl

theorem setSpeed_other (s : State) {n m : BitVec 2} (v : Word) (h : m ≠ n) : (s.setSpeed n v).speed m = s.speed m := by
  have key : ∀ n : BitVec 2, n = 0#2 ∨ n = 1#2 ∨ n = 2#2 ∨ n = 3#2 := by decide
  rcases key n with rfl | rfl | rfl | rfl <;> rcases key m with rfl | rfl | rfl | rfl <;>
    first | (exact absurd rfl h) | rfl

/-- The state before the debounced edits: rows latched and the held speed edits done (R275). -/
def editedBy (s : State) (r0 r1 : Byte) : State := faster (slower (latchRows s r0 r1) r0 r1) r0 r1

theorem commitScan_eq (s : State) (r0 r1 : Byte) :
    commitScan s r0 r1
      = showSelection (releaseLatch (fireMenu (fireDown (fireUp (editedBy s r0 r1) r0 r1) r0 r1) r0 r1) r0 r1) := rfl

theorem editedBy_speed (s : State) (r0 r1 : Byte) (n : BitVec 2) :
    (editedBy s r0 r1).speed n = if n = s.sel then speedAfterEdits (s.speed n) r1 else s.speed n := by
  have hl : ∀ m, (latchRows s r0 r1).speed m = s.speed m := fun _ => rfl
  have h1 : ∀ m, (slower (latchRows s r0 r1) r0 r1).speed m
      = if m = s.sel ∧ r1.getLsbD 2 then fsub (s.speed m) 0x3E4CCCCD#32 else s.speed m := by
    intro m
    unfold slower pressed Config.btnLeft Config.speedStep
    simp only [Nat.one_ne_zero, if_false, latchRows_sel, hl]
    by_cases hb : r1.getLsbD 2 = true
    · simp only [hb, if_true, and_true]
      by_cases hm : m = s.sel
      · rw [if_pos hm, hm, setSpeed_same]
      · rw [if_neg hm, setSpeed_other _ _ hm, hl]
    · rw [if_neg hb, if_neg (fun h => hb h.2), hl]
  unfold editedBy faster pressed Config.btnRight Config.speedStep speedAfterEdits
  simp only [Nat.one_ne_zero, if_false, slower_sel, latchRows_sel]
  by_cases hb : r1.getLsbD 3 = true
  · simp only [hb, if_true]
    by_cases hn : n = s.sel
    · rw [if_pos hn, hn, setSpeed_same, h1]
      simp
    · rw [if_neg hn, setSpeed_other _ _ hn, h1]
      simp [hn]
  · simp only [hb]
    rw [if_neg (by simp), h1]
    by_cases hn : n = s.sel <;> simp [hn]

@[simp] theorem editedBy_sel (s : State) (r0 r1 : Byte) : (editedBy s r0 r1).sel = s.sel := by simp [editedBy]

@[simp] theorem editedBy_last (s : State) (r0 r1 : Byte) : (editedBy s r0 r1).last = s.last := by simp [editedBy]

@[simp] theorem editedBy_upEdge (s : State) (r0 r1 : Byte) : (editedBy s r0 r1).upEdge = s.upEdge := by simp [editedBy]

@[simp] theorem editedBy_downEdge (s : State) (r0 r1 : Byte) : (editedBy s r0 r1).downEdge = s.downEdge := by
  simp [editedBy]

@[simp] theorem editedBy_menuEdge (s : State) (r0 r1 : Byte) : (editedBy s r0 r1).menuEdge = s.menuEdge := by
  simp [editedBy]

/-- The check of up as one conditional update (R276). -/
theorem fireUp_eq (s : State) (r0 r1 : Byte) :
    fireUp s r0 r1 = if upFires s.last r1 then { s with sel := selUp s.sel, last := .up, upEdge := true } else s := by
  unfold fireUp upFires pressed Config.btnUp
  simp

/-- The check of down as one conditional update (R276). -/
theorem fireDown_eq (s : State) (r0 r1 : Byte) :
    fireDown s r0 r1
      = if r1.getLsbD 1 && s.last != .down then { s with sel := selDown s.sel, last := .down, downEdge := true } else s := by
  unfold fireDown pressed Config.btnDown
  simp

/-- The check of menu as one conditional update (R276). -/
theorem fireMenu_eq (s : State) (r0 r1 : Byte) :
    fireMenu s r0 r1
      = if r1.getLsbD 4 && s.last != .menu then
          { s.setSpeed s.sel (fneg (s.speed s.sel)) with last := .menu, menuEdge := true }
        else s := by
  unfold fireMenu pressed Config.btnMenu
  simp

theorem fireUp_last_eq (s : State) (r0 r1 : Byte) : (fireUp s r0 r1).last = lastAfterUp s.last r1 := by
  rw [fireUp_eq]
  unfold lastAfterUp
  split_ifs <;> rfl

theorem fireDown_last_eq (s : State) (r0 r1 : Byte) :
    (fireDown (fireUp s r0 r1) r0 r1).last = lastAfterDown s.last r1 := by
  rw [fireDown_eq, fireUp_last_eq]
  unfold lastAfterDown downFires
  split_ifs
  · rfl
  · exact fireUp_last_eq s r0 r1

theorem toNat_selUp (n : BitVec 2) : (selUp n).toNat = n.toNat - 1 := by revert n; decide

theorem toNat_selDown (n : BitVec 2) : (selDown n).toNat = min (n.toNat + 1) 3 := by revert n; decide

theorem fireDown_sel_eq (s : State) (r0 r1 : Byte) :
    (fireDown (fireUp s r0 r1) r0 r1).sel.toNat = selAfterScan s.sel s.last r1 := by
  rw [fireDown_eq, fireUp_last_eq]
  unfold selAfterScan downFires
  rw [fireUp_eq]
  split_ifs <;> simp [toNat_selUp, toNat_selDown]

/-- `SEL` after the commit (R276). -/
theorem commitScan_sel_eq (s : State) (r0 r1 : Byte) :
    (commitScan s r0 r1).sel.toNat = selAfterScan s.sel s.last r1 := by
  rw [commitScan_eq]
  simp only [showSelection_sel, releaseLatch_sel, fireMenu_sel]
  rw [fireDown_sel_eq]
  simp

/-- `LAST` after the commit (R276). -/
theorem commitScan_last_eq (s : State) (r0 r1 : Byte) :
    (commitScan s r0 r1).last = lastAfterScan s.last r0 r1 := by
  have hmenu : ∀ t : State, t.last = lastAfterDown s.last r1 →
      (fireMenu t r0 r1).last = if menuFires s.last r1 then .menu else lastAfterDown s.last r1 := by
    intro t ht
    rw [fireMenu_eq, ht]
    change (if menuFires s.last r1 = true then _ else t).last = _
    split_ifs
    · rfl
    · exact ht
  rw [commitScan_eq, showSelection_last]
  unfold releaseLatch lastAfterScan
  split_ifs with h0 hm
  · rfl
  · rw [hmenu _ (by rw [fireDown_last_eq, editedBy_last]), if_pos hm]
  · rw [hmenu _ (by rw [fireDown_last_eq, editedBy_last]), if_neg hm]

/-- `EVENTS.UP_EDGE` after the commit (R276). -/
theorem commitScan_upEdge_eq (s : State) (r0 r1 : Byte) :
    (commitScan s r0 r1).upEdge = (s.upEdge || upFires s.last r1) := by
  rw [commitScan_eq]
  simp only [showSelection_upEdge, releaseLatch_upEdge, fireMenu_upEdge, fireDown_upEdge]
  rw [fireUp_eq, editedBy_last]
  split_ifs with h <;> simp [h]

/-- `EVENTS.DOWN_EDGE` after the commit (R276). -/
theorem commitScan_downEdge_eq (s : State) (r0 r1 : Byte) :
    (commitScan s r0 r1).downEdge = (s.downEdge || downFires s.last r1) := by
  rw [commitScan_eq]
  simp only [showSelection_downEdge, releaseLatch_downEdge, fireMenu_downEdge]
  rw [fireDown_eq, fireUp_last_eq, editedBy_last]
  change (if downFires s.last r1 = true then _ else fireUp (editedBy s r0 r1) r0 r1).downEdge = _
  split_ifs with h <;> simp [h]

/-- `EVENTS.MENU_EDGE` after the commit (R276). -/
theorem commitScan_menuEdge_eq (s : State) (r0 r1 : Byte) :
    (commitScan s r0 r1).menuEdge = (s.menuEdge || menuFires s.last r1) := by
  rw [commitScan_eq]
  simp only [showSelection_menuEdge, releaseLatch_menuEdge]
  rw [fireMenu_eq, fireDown_last_eq, editedBy_last]
  change (if menuFires s.last r1 = true then _ else fireDown (fireUp (editedBy s r0 r1) r0 r1) r0 r1).menuEdge = _
  split_ifs with h <;> simp [h]

/-- `LED` after the commit (R277). -/
theorem commitScan_led_eq (s : State) (r0 r1 : Byte) : (commitScan s r0 r1).led = 1#8 <<< (commitScan s r0 r1).sel.toNat := by
  rw [commitScan_eq]
  rfl

/-- `SPEED[n]` after the commit (R275, R276). -/
theorem commitScan_speed_eq (s : State) (r0 r1 : Byte) (n : BitVec 2) :
    (commitScan s r0 r1).speed n = speedAfterScan s r1 n := by
  have hsp : ∀ m, (fireDown (fireUp (editedBy s r0 r1) r0 r1) r0 r1).speed m = (editedBy s r0 r1).speed m := by
    intro m
    rw [fireDown_eq, fireUp_eq]
    split_ifs <;> rfl
  have hrel : (commitScan s r0 r1).speed n
      = (fireMenu (fireDown (fireUp (editedBy s r0 r1) r0 r1) r0 r1) r0 r1).speed n := by
    rw [commitScan_eq]
    unfold showSelection releaseLatch
    split_ifs <;> rfl
  have hsel := fireDown_sel_eq (editedBy s r0 r1) r0 r1
  rw [editedBy_sel, editedBy_last] at hsel
  rw [hrel, fireMenu_eq, fireDown_last_eq, editedBy_last]
  unfold speedAfterScan
  rw [← editedBy_speed s r0 r1 n]
  by_cases hm : menuFires s.last r1 = true
  · have hm' : (r1.getLsbD 4 && lastAfterDown s.last r1 != .menu) = true := hm
    simp only [hm', if_true, hm, true_and]
    by_cases hn : n = (fireDown (fireUp (editedBy s r0 r1) r0 r1) r0 r1).sel
    · rw [if_pos (by rw [hn, hsel]), hn]
      refine (setSpeed_same _ _ _).trans ?_
      rw [hsp]
      rfl
    · have hne : n.toNat ≠ selAfterScan s.sel s.last r1 := fun h => hn (BitVec.eq_of_toNat_eq (by rw [hsel, h]))
      rw [if_neg hne]
      exact (setSpeed_other _ _ hn).trans (hsp n)
  · have hm' : ¬ (r1.getLsbD 4 && lastAfterDown s.last r1 != .menu) = true := hm
    simp only [hm', hm]
    simpa using hsp n

end Sys2Proof.Machine
end

