-- ==== Sys2Proof/Machine/Assembler.lean ====
section
/-! DEFINITION. The assembly syntax of command lists (30_encoding R151 to R153): from source lines to the words of command
RAM and the bytes of text RAM. The lexical points the rules leave open are log 20. -/

namespace Sys2Proof.Machine

/-! ### Characters and numbers -/

/-- White space inside a line. -/
def isBlank (c : Char) : Bool := c == ' ' || c == '\t'

/-- The characters without blanks at either end. -/
def trim (cs : List Char) : List Char := ((cs.dropWhile isBlank).reverse.dropWhile isBlank).reverse

/-- The value of a digit in a base of at most 16. -/
def digitIn (base : Nat) (c : Char) : Option Nat :=
  let n := c.toNat
  let v := if 48 ≤ n ∧ n ≤ 57 then n - 48 else if 65 ≤ n ∧ n ≤ 70 then n - 55 else if 97 ≤ n ∧ n ≤ 102 then n - 87 else 16
  if v < base then some v else none

/-- The number whose remaining digits are `cs`, `acc` being the value of those already read. -/
def digitsIn (base acc : Nat) : List Char → Option Nat
  | [] => some acc
  | c :: cs =>
    match digitIn base c with
    | some v => digitsIn base (acc * base + v) cs
    | none => none

/-- An unsigned number: decimal, or `0x` and hexadecimal digits. -/
def parseNat (cs : List Char) : Option Nat :=
  match cs with
  | [] => none
  | '0' :: 'x' :: ds => if ds.isEmpty then none else digitsIn 16 0 ds
  | ds => digitsIn 10 0 ds

/-- An unsigned number below a bound. -/
def parseBelow (bound : Nat) (cs : List Char) : Option Nat :=
  match parseNat cs with
  | some n => if n < bound then some n else none
  | none => none

/-- A signed integer in `[-32768, 32767]` as its 16-bit pattern (R151). -/
def parseSigned16 (cs : List Char) : Option (BitVec 16) :=
  match cs with
  | '-' :: ds =>
    match parseBelow 32769 ds with
    | some n => some (BitVec.ofInt 16 (-(n : Int)))
    | none => none
  | ds =>
    match parseBelow 32768 ds with
    | some n => some (BitVec.ofNat 16 n)
    | none => none

/-- The binary32 nearest to `n / 10^places`, ties to even (R151): one more bit than exact truncation keeps says whether
anything was cut off, so the one rounding that follows is the right one. A number beyond the largest finite value by half a
step or more gives an infinity, whose command then draws nothing (DESIGN CHOICE, log 20: R151 says only nearest). -/
def f32OfDecimal (neg : Bool) (n places : Nat) : Word :=
  let scaled := n * 2 ^ 150
  let sticky := if scaled % 10 ^ places = 0 then 0 else 1
  signed neg (roundMag (2 * (scaled / 10 ^ places) + sticky) 2)

/-- An unsigned decimal number, with or without a point, as its pattern with the given sign (R151). At least one digit
stands before the point, none need stand behind it, and there is no plus sign and no exponent (DESIGN CHOICE, log 20). -/
def parseDecimal (neg : Bool) (cs : List Char) : Option Word :=
  let whole := cs.takeWhile (· != '.')
  let fraction := (cs.dropWhile (· != '.')).drop 1
  if whole.isEmpty then none
  else
    match digitsIn 10 0 (whole ++ fraction) with
    | some n => some (f32OfDecimal neg n fraction.length)
    | none => none

/-- The angle operand: `0x` and 8 hexadecimal digits give the pattern, a decimal number its nearest binary32 (R151). -/
def parseAngle (cs : List Char) : Option Word :=
  match cs with
  | '0' :: 'x' :: ds =>
    if ds.length = 8 then
      match digitsIn 16 0 ds with
      | some n => some (BitVec.ofNat 32 n)
      | none => none
    else none
  | '-' :: ds => parseDecimal true ds
  | ds => parseDecimal false ds

/-! ### Lines -/

/-- The characters before the comment; a semicolon between quotes starts none. -/
def beforeComment (quoted : Bool) : List Char → List Char
  | [] => []
  | c :: cs =>
    if c == '"' then c :: beforeComment (!quoted) cs
    else if c == ';' && !quoted then []
    else c :: beforeComment quoted cs

/-- The pieces between the commas that stand outside parentheses; `acc` is the piece being read, last first. -/
def splitOperands (depth : Nat) (acc : List Char) : List Char → List (List Char)
  | [] => [trim acc.reverse]
  | c :: cs =>
    if c == ',' && depth == 0 then trim acc.reverse :: splitOperands 0 [] cs
    else if c == '(' then splitOperands (depth + 1) (c :: acc) cs
    else if c == ')' then splitOperands (depth - 1) (c :: acc) cs
    else splitOperands depth (c :: acc) cs

/-- A character of a label. -/
def isLabelChar (c : Char) : Bool := c.isAlphanum || c == '_'

/-- A source line: its label, its mnemonic or directive, and the rest. -/
structure SourceLine where
  label : List Char
  op    : List Char
  rest  : List Char
deriving DecidableEq, Repr

/-- A line split into its mnemonic or directive and the rest. -/
def opAndRest (label cs : List Char) : SourceLine :=
  { label := label, op := (trim cs).takeWhile (fun c => !isBlank c), rest := trim ((trim cs).dropWhile (fun c => !isBlank c)) }

/-- `[label:] MNEMONIC operands [; comment]` (R151). -/
def readLine (cs : List Char) : SourceLine :=
  let line := trim (beforeComment false cs)
  match line.dropWhile isLabelChar with
  | ':' :: body => opAndRest (line.takeWhile isLabelChar) body
  | _ => opAndRest [] line

/-- The operands of a line; none at all when nothing stands after the mnemonic. -/
def SourceLine.operands (l : SourceLine) : List (List Char) := if l.rest.isEmpty then [] else splitOperands 0 [] l.rest

/-- The characters of a quoted string as bytes, `none` unless the rest of the line is one quoted string of byte-sized
characters. -/
def quotedBytes (cs : List Char) : Option (List Byte) :=
  match cs with
  | '"' :: body =>
    match body.reverse with
    | '"' :: inside =>
      if inside.all (fun c => c.toNat < 256) then some (inside.reverse.map fun c => BitVec.ofNat 8 c.toNat) else none
    | _ => none
  | _ => none

/-! ### Operands (R151, R152) -/

/-- A label with the text operand it names (R153). -/
abbrev LabelTable := List (List Char × (BitVec 16 × BitVec 8))

/-- The `(r, g, b)` of an operand function, given what stands after its name. -/
def parseRgb (cs : List Char) : Option (Byte × Byte × Byte) :=
  match cs with
  | '(' :: body =>
    match body.reverse with
    | ')' :: inside =>
      match (splitOperands 0 [] inside.reverse).map (parseBelow 256) with
      | [some r, some g, some b] => some (BitVec.ofNat 8 r, BitVec.ofNat 8 g, BitVec.ofNat 8 b)
      | _ => none
    | _ => none
  | _ => none

/-- A colour: a number in `[0, 0xFFFF]`, `rgb565(r, g, b)` or `rgb565s(r, g, b)` (R151, R152). -/
def parseColor (cs : List Char) : Option Cell :=
  match cs with
  | 'r' :: 'g' :: 'b' :: '5' :: '6' :: '5' :: 's' :: args => (parseRgb args).map fun c => rgb565s c.1 c.2.1 c.2.2
  | 'r' :: 'g' :: 'b' :: '5' :: '6' :: '5' :: args => (parseRgb args).map fun c => rgb565 c.1 c.2.1 c.2.2
  | _ => (parseBelow 65536 cs).map fun n => BitVec.ofNat 16 n

/-- A text operand: `taddr:tlen` or the label of an `.ascii` directive (R151). -/
def parseText (labels : LabelTable) (cs : List Char) : Option (BitVec 16 × BitVec 8) :=
  match labels.find? (fun e => e.1 == cs) with
  | some e => some e.2
  | none =>
    match parseBelow 65536 (trim (cs.takeWhile (· != ':'))), parseBelow 256 (trim ((cs.dropWhile (· != ':')).drop 1)) with
    | some a, some n => some (BitVec.ofNat 16 a, BitVec.ofNat 8 n)
    | _, _ => none

/-- The operands of `TILE_TEXT` and `BM_TEXT` (R151). -/
def parseLineText (labels : LabelTable) (args : List (List Char)) : Option LineText :=
  match args with
  | x :: y :: t :: c :: flags =>
    match parseSigned16 x, parseSigned16 y, parseText labels t, parseColor c with
    | some x, some y, some t, some c =>
      if flags = [] then some { x := x, y := y, taddr := t.1, tlen := t.2, color := c, cen := false }
      else if flags = ["CENTER".toList] then some { x := x, y := y, taddr := t.1, tlen := t.2, color := c, cen := true }
      else none
    | _, _, _, _ => none
  | _ => none

/-- The operands of `CURVED_TEXT` (R151). -/
def parseArcText (labels : LabelTable) (args : List (List Char)) : Option ArcText :=
  match args with
  | [x, y, t, c, a, r] =>
    match parseSigned16 x, parseSigned16 y, parseText labels t, parseColor c, parseAngle a, parseSigned16 r with
    | some x, some y, some t, some c, some a, some r =>
      some { cx := x, cy := y, taddr := t.1, tlen := t.2, color := c, angle := a, radius := r }
    | _, _, _, _, _, _ => none
  | _ => none

/-- The commands a line assembles to (R151, R152): `CLEAR` without operand is `CLEAR 0` and `FLUSH_SYNC` is `FLUSH` then
`DMA_WAIT`. -/
def assembleCommand (labels : LabelTable) (op : List Char) (args : List (List Char)) : Option (List Instr) :=
  if op = "NOP".toList then (if args = [] then some [.nop] else none)
  else if op = "END".toList then (if args = [] then some [.endList] else none)
  else if op = "SCAN".toList then (if args = [] then some [.scan] else none)
  else if op = "FLUSH".toList then (if args = [] then some [.flush] else none)
  else if op = "DMA_WAIT".toList then (if args = [] then some [.dmaWait] else none)
  else if op = "FLUSH_SYNC".toList then (if args = [] then some [.flush, .dmaWait] else none)
  else if op = "CLEAR".toList then
    match args with
    | [] => some [.clear 0#16]
    | [c] => (parseColor c).map fun c => [.clear c]
    | _ => none
  else if op = "TILE_TEXT".toList then (parseLineText labels args).map fun o => [.tileText o]
  else if op = "BM_TEXT".toList then (parseLineText labels args).map fun o => [.bmText o]
  else if op = "CURVED_TEXT".toList then (parseArcText labels args).map fun o => [.curvedText o]
  else none

/-! ### Assembly (R153) -/

/-- What is assembled so far: the place of the next command word and of the next text byte, and what stands where. -/
structure Image where
  cmdAt  : Nat
  textAt : Nat
  words  : List (Nat × Word)
  bytes  : List (Nat × Byte)
deriving DecidableEq, Repr

/-- Data at successive places. -/
def placed {α : Type} (at' : Nat) : List α → List (Nat × α)
  | [] => []
  | x :: xs => (at', x) :: placed (at' + 1) xs

/-- The image with command words placed. -/
def Image.putWords (m : Image) (ws : List Word) : Image :=
  { m with cmdAt := m.cmdAt + ws.length, words := m.words ++ placed m.cmdAt ws }

/-- The image with text bytes placed. -/
def Image.putBytes (m : Image) (bs : List Byte) : Image :=
  { m with textAt := m.textAt + bs.length, bytes := m.bytes ++ placed m.textAt bs }

/-- A directive or a command added to the image, `none` for a line that is neither. -/
def assembleLine (labels : LabelTable) (m : Image) (l : SourceLine) : Option Image :=
  if l.op = [] then some m
  else if l.op = ".cmd".toList then (parseNat l.rest).map fun n => { m with cmdAt := n }
  else if l.op = ".textat".toList then (parseNat l.rest).map fun n => { m with textAt := n }
  else if l.op = ".ascii".toList then (quotedBytes l.rest).map fun bs => m.putBytes bs
  else if l.op = ".word".toList then (parseBelow (2 ^ 32) l.rest).map fun n => m.putWords [BitVec.ofNat 32 n]
  else (assembleCommand labels l.op l.operands).map fun is => m.putWords (is.flatMap encode)

/-- The lines assembled in order. -/
def assembleLines (labels : LabelTable) (m : Image) : List SourceLine → Option Image
  | [] => some m
  | l :: ls =>
    match assembleLine labels m l with
    | some m' => assembleLines labels m' ls
    | none => none

/-- The labels of the `.ascii` directives with their text operands `a:len` (R153), where the fields of `w2` can hold them
(R143); `textAt` is the place of the next byte. -/
def asciiLabels (textAt : Nat) : List SourceLine → LabelTable
  | [] => []
  | l :: ls =>
    if l.op = ".textat".toList then asciiLabels ((parseNat l.rest).getD textAt) ls
    else if l.op = ".ascii".toList then
      match quotedBytes l.rest with
      | some bs =>
        if textAt < 65536 ∧ bs.length < 256 then
          (l.label, (BitVec.ofNat 16 textAt, BitVec.ofNat 8 bs.length)) :: asciiLabels (textAt + bs.length) ls
        else asciiLabels (textAt + bs.length) ls
      | none => asciiLabels textAt ls
    else asciiLabels textAt ls

/-- The image of a source text, line by line; `none` when a line is not of the syntax (R151 to R153). Before any `.cmd` or
`.textat` line, commands go from word 0 and text from byte 0 on (DESIGN CHOICE, log 20: R153 gives no default). -/
def assemble (source : List (List Char)) : Option Image :=
  let lines := source.map readLine
  assembleLines ((asciiLabels 0 lines).filter fun e => e.1 != []) { cmdAt := 0, textAt := 0, words := [], bytes := [] } lines

/-! ### Boot (70_reset_and_hazards R365) -/

/-- A write by the host that is due at once. -/
def hostWriteTurn (p : Config.Params) (off n : Nat) (v : Word) : Turn := ⟨0, .hostWrite (p.base + off) n v⟩

/-- The host's boot writes in the order of R365: the texts and the command list, `CL_BASE`, `CTRL.SCAN_MODE` with bit 0
clear, the settings it wants (offset and value: `IE`, `SEL`, `SPEEDn`), and the start. -/
def bootTurns (p : Config.Params) (m : Image) (clBase : BitVec 10) (joystick : Bool) (settings : List (Nat × Word)) :
    List Turn :=
  (m.bytes.map fun e => hostWriteTurn p (textBase + e.1) 1 (e.2.setWidth 32))
    ++ (m.words.map fun e => hostWriteTurn p (cmdBase + 4 * e.1) 4 e.2)
    ++ [hostWriteTurn p 0x010 4 (clBase.setWidth 32), hostWriteTurn p 0x004 4 (if joystick then 2#32 else 0#32)]
    ++ (settings.map fun e => hostWriteTurn p e.1 4 e.2)
    ++ [hostWriteTurn p 0x004 4 (if joystick then 3#32 else 1#32)]

end Sys2Proof.Machine
end

