-- ==== Sys2Proof/Tests/Slice0.lean ====
section
/-! SUPPORT. Tests: expected results come from spec/95_test_vectors.md (the vector's name stands before each) or are written
out from the encoding tables; then one witness for the hypotheses of each statement. -/

namespace Sys2Proof.Machine.Tests

set_option Elab.async false

/-! ### Fixtures -/

/-- The font fixtures of 95_test_vectors section 2. -/
def fixture : Config.Params :=
  { base := 0x40000,
    bmLookup := [0x41#8, 0x49#8, 0x4A#8, 0x23#8],
    bmRom :=
      [0x18#8, 0x80#8, 0x01#8, 0xFF#8] ++ List.replicate 6 0#8 ++ [0x24#8] ++ List.replicate 9 0#8
        ++ [0x42#8] ++ List.replicate 9 0#8 ++ [0x7E#8] ++ List.replicate 9 0#8 ++ [0x42#8] ++ List.replicate 9 0#8
        ++ [0x42#8] ++ List.replicate 9 0#8 ++ [0x42#8] ++ List.replicate 9 0#8
        ++ [0x00#8, 0x00#8, 0x01#8] ++ List.replicate 7 0#8,
    tileW := 2, tileH := 2, tileStart := 0x21, tileCols := 2, tileCount := 4, tileStride := 4,
    tileRom :=
      [0x1111#16, 0#16, 0x2222#16, 0x2223#16, 0#16, 0x1112#16, 0#16, 0x2224#16,
       0x3333#16, 0x3334#16, 0#16, 0#16, 0x3335#16, 0x3336#16, 0#16, 0x4444#16] }

/-- The block just after reset with the fixtures. -/
def s0 : State := { State.reset with cfg := fixture }

/-- Text RAM bytes from an address on. -/
def withText (a : Nat) (bs : List Byte) (s : State) : State := s.putBytes (0x2000 + a) bs

/-- A running engine between commands at `CP` with command words there. -/
def running (cp : Nat) (ws : List Word) (s : State) : State :=
  { s.putWords cp ws with run := .running, cp := BitVec.ofNat 11 cp }

/-- The next state, or the state given where the step stops. -/
def after (s : State) (o : Host.Outcome State Fault Refusal) : State :=
  match o with
  | .next t => t
  | .fault _ => s
  | .refused _ => s

/-- The next state, if there is one. -/
def nextOf (o : Host.Outcome State Fault Refusal) : Option State :=
  match o with
  | .next t => some t
  | .fault _ => none
  | .refused _ => none

/-- The fault, if there is one. -/
def faultOf (o : Host.Outcome State Fault Refusal) : Option Fault :=
  match o with
  | .next _ => none
  | .fault f => some f
  | .refused _ => none

/-- The framebuffer cells written since reset, by rising index. -/
def cells : List Host.Cell → List (Nat × Cell)
  | (a, lo) :: (_, hi) :: m => if 0x10000 ≤ a then ((a - 0x10000) / 2, hi ++ lo) :: cells m else cells m
  | _ => []

/-- The framebuffer cells a command writes. -/
def drawn (i : Instr) (s : State) : List (Nat × Cell) :=
  cells ((after s (exec i s)).mem.filter fun e => 0x10000 ≤ e.1)

/-- What a scan leaves: `BTN`, `SEL`, `LAST`, `EVENTS` and `LED`. -/
def shown (s : State) : Word × BitVec 2 × Control × Word × Byte := (s.regRead 0x030, s.sel, s.last, s.eventsWord, s.led)

/-- A joystick scan with the given samples. -/
def joystick (levels : List Bool) (s : State) : State :=
  after s (exec .scan { s with scanMode := true, pins := levels })

/-- A matrix scan with the given samples. -/
def matrix (levels : List Bool) (s : State) : State :=
  after s (exec .scan { s with scanMode := false, pins := levels })

/-- A host write of a register. -/
def wr (off : Nat) (v : Word) (s : State) : State := (s.hostWrite off 4 v).getD s

/-! ### Well-formedness: an ill-formed term for each check -/

theorem test_wf_tileText : (Instr.tileText ⟨0, 0, 1020, 5, 0, false⟩).wf = false := by decide

theorem test_wf_bmText : (Instr.bmText ⟨0, 0, 0xFFFF, 1, 0, false⟩).wf = false := by decide

theorem test_wf_curvedText : (Instr.curvedText ⟨0, 0, 770, 255, 0, 0, 0⟩).wf = false := by decide

theorem test_wf_boundary :
    (Instr.tileText ⟨0, 0, 1020, 4, 0, false⟩).wf = true ∧ (Instr.bmText ⟨0, 0, 1024, 0, 0, false⟩).wf = true ∧
      (Instr.curvedText ⟨0, 0, 769, 255, 0, 0, 0⟩).wf = true := by decide

theorem test_cfg_fixture : fixture.wf = true := by decide +kernel

theorem test_cfg_base : ({ fixture with base := 0x20000 }).wf = false := by decide +kernel

theorem test_cfg_lookup : ({ fixture with bmLookup := [] }).wf = false := by decide +kernel

theorem test_cfg_bmRom : ({ fixture with bmRom := List.replicate 79 0#8 }).wf = false := by decide +kernel

theorem test_cfg_tileW : ({ fixture with tileW := 0 }).wf = false := by decide +kernel

theorem test_cfg_tileH : ({ fixture with tileH := 0 }).wf = false := by decide +kernel

theorem test_cfg_tileStart : ({ fixture with tileStart := 256 }).wf = false := by decide +kernel

theorem test_cfg_tileCols : ({ fixture with tileCols := 0 }).wf = false := by decide +kernel

theorem test_cfg_tileCount : ({ fixture with tileCount := 0 }).wf = false := by decide +kernel

theorem test_cfg_tileStride : ({ fixture with tileStride := 3 }).wf = false := by decide +kernel

theorem test_cfg_tileRom : ({ fixture with tileCount := 5 }).wf = false := by decide +kernel

/-! ### Decode: words written out from the encoding tables (E1 to E13, F2, F5, F7) -/

theorem test_decode_control :
    decode [0x00000000#32] = .ok .nop ∧ decode [0x00000001#32] = .ok .endList ∧ decode [0x00000003#32] = .ok .scan ∧
      decode [0x00000004#32] = .ok .flush ∧ decode [0x00000005#32] = .ok .dmaWait := by decide

theorem test_decode_clear : decode [0xF8000002#32] = .ok (.clear 0xF800#16) := by decide

theorem test_decode_tileText :
    decode [0x00000110#32, 0x006E0078#32, 0x00020000#32] = .ok (.tileText ⟨120, 110, 0, 2, 0, true⟩) := by decide

theorem test_decode_bmText :
    decode [0xFFFF0011#32, 0x00070005#32, 0x00010000#32] = .ok (.bmText ⟨5, 7, 0, 1, 0xFFFF, false⟩) ∧
      decode [0x00000011#32, 0xFFFFFFFF#32, 0x00010000#32] = .ok (.bmText ⟨-1, -1, 0, 1, 0, false⟩) := by decide

theorem test_decode_curvedText :
    decode [0x00F80012#32, 0x00780078#32, 0x00050000#32, 0x43340000#32, 0x00000064#32]
        = .ok (.curvedText ⟨120, 120, 0, 5, 0x00F8, 0x43340000, 100⟩) ∧
      decode [0x00000012#32, 0x80007FFF#32, 0x00000000#32, 0x7FC00000#32, 0x00008000#32]
        = .ok (.curvedText ⟨32767, -32768, 0, 0, 0, 0x7FC00000, -32768⟩) := by decide

theorem test_decode_illegal :
    decode [0x00000006#32] = .error .illegalOpcode ∧ decode [0x0000000F#32] = .error .illegalOpcode ∧
      decode [0x00000013#32] = .error .illegalOpcode ∧ decode [0xFFFF00FF#32] = .error .illegalOpcode := by decide

theorem test_decode_reserved :
    decode [0x00000100#32] = .error .reservedField ∧ decode [0x00010001#32] = .error .reservedField ∧
      decode [0xF8000102#32] = .error .reservedField ∧ decode [0x12340003#32] = .error .reservedField ∧
      decode [0x00000210#32, 0, 0] = .error .reservedField ∧
      decode [0x00000112#32, 0, 0x000503FC#32, 0, 0] = .error .reservedField ∧
      decode [0x00000010#32, 0, 0x01000000#32] = .error .reservedField ∧
      decode [0x00000012#32, 0, 0, 0, 0x00010000#32] = .error .reservedField := by decide

theorem test_decode_ranges :
    decode [] = .error .headerOverrun ∧ decode [0x00000010#32, 0] = .error .operandOverrun ∧
      decode [0x00000011#32, 0, 0x000503FC#32] = .error .textRange ∧
      decode [0x00000011#32, 0, 0x000403FC#32] = .ok (.bmText ⟨0, 0, 1020, 4, 0, false⟩) := by decide

theorem test_opcodeMap_disjoint :
    opcodeMap.Pairwise fun x y =>
      x.code.setWidth 32 &&& (x.mask &&& y.mask) ≠ y.code.setWidth 32 &&& (x.mask &&& y.mask) := by
  decide +kernel

theorem test_tableWord :
    decodeTableWord 32 0x00000001 = some .endList ∧
      decodeTableWord 96 (0x00000110 + 0x006E0078 * 2 ^ 32 + 0x00020000 * 2 ^ 64)
        = some (.tileText ⟨120, 110, 0, 2, 0, true⟩) := by decide +kernel

/-! ### The host places an instruction -/

theorem test_withFetchWord_clear :
    step (State.reset.withFetchWord 32 0xF8000002)
      = exec (.clear 0xF800#16) (State.reset.withFetchWord 32 0xF8000002) := by rfl

theorem test_withFetchWord_runs :
    (after s0 (step (s0.withFetchWord 32 0x00000001))).done = true ∧
      (after s0 (step (s0.withFetchWord 160 0x00000012))).cp = 5#11 := by decide +kernel

/-! ### NOP, END, CLEAR (C1, C2, C4, K1) -/

theorem test_nop_C1 : exec .nop { s0 with cp := 7#11 } = .next { s0 with cp := 8#11 } := by rfl

theorem test_end_C2 :
    exec .endList { s0 with run := .running, cp := 12#11 } = .next { s0 with cp := 12#11, done := true } := by rfl

theorem test_clear_order :
    drawn (.clear 0xF800#16) { s0 with plan := [⟨3, .dma⟩] } = [(0, 0xF800#16), (1, 0xF800#16)] := by decide +kernel

/-! ### TILE_TEXT (T4, T6, T7, T9) -/

theorem test_tileText_T4 :
    drawn (.tileText ⟨0, 0, 0, 4, 0, false⟩) (withText 0 [0x21#8, 0x22#8, 0x23#8, 0x24#8] s0)
      = [(0, 0x1111#16), (2, 0x2222#16), (3, 0x2223#16), (4, 0x3333#16), (5, 0x3334#16), (241, 0x1112#16),
         (243, 0x2224#16), (244, 0x3335#16), (245, 0x3336#16), (247, 0x4444#16)] := by decide +kernel

theorem test_tileText_T5_T6_T7_T9 :
    drawn (.tileText ⟨0, 0, 0, 5, 0, false⟩) (withText 0 [0x20#8, 0x20#8, 0x25#8, 0x20#8, 0x21#8] s0)
        = [(8, 0x1111#16), (249, 0x1112#16)] ∧
      drawn (.tileText ⟨100, 5, 0, 1, 0xABCD, true⟩) (withText 0 [0x21#8] s0)
        = [(1299, 0xABCD#16), (1540, 0xABCD#16)] ∧
      drawn (.tileText ⟨-1, 1, 0, 1, 0, false⟩) (withText 0 [0x23#8] s0)
        = [(239, 0x3333#16), (240, 0x3334#16), (479, 0x3335#16), (480, 0x3336#16)] ∧
      drawn (.tileText ⟨239, 239, 0, 1, 0, false⟩) (withText 0 [0x23#8] s0) = [(57599, 0x3333#16)] := by decide +kernel

/-! ### BM_TEXT (B1, B2, B5, B7, B9) -/

theorem test_bmText_B2_B7 :
    drawn (.bmText ⟨0, 0, 0, 3, 0x1234, false⟩) (withText 0 [0x49#8, 0x5A#8, 0x49#8] s0)
        = [(0, 0x1234#16), (8, 0x1234#16)] ∧
      drawn (.bmText ⟨0, 3, 0, 2, 7, true⟩) (withText 0 [0x49#8, 0x5A#8] s0) = [(832, 7#16)] := by decide +kernel

theorem test_bmText_B5_B9 :
    drawn (.bmText ⟨236, 0, 0, 1, 5, false⟩) (withText 0 [0x23#8] s0)
        = (List.range 8).map (fun c => (236 + c, 5#16)) ∧
      drawn (.bmText ⟨1, 1, 0, 1, 0, false⟩) (withText 0 [0x49#8] s0) = [(241, 0#16)] := by decide +kernel

/-! ### CURVED_TEXT (V4b, V5, V8, V10, V13, V17) -/

theorem test_curvedText_V5_V8 :
    drawn (.curvedText ⟨120, 120, 0, 3, 0xF800, 0x43340000, 100⟩) (withText 0 [0x49#8, 0x5A#8, 0x49#8] s0)
        = [(4920, 0xF800#16), (5383, 0xF800#16)] ∧
      drawn (.curvedText ⟨120, 120, 0, 1, 0xF800, 0x43340000, 100⟩) (withText 0 [0x4A#8] s0)
        = [(5170, 0xF800#16), (8289, 0xF800#16)] := by decide +kernel

theorem test_curvedText_V4b_V10_V13_V17 :
    drawn (.curvedText ⟨120, 120, 0, 1, 0xF800, 0x43160000, 1⟩) (withText 0 [0x49#8] s0) = [(28679, 0xF800#16)] ∧
      (drawn (.curvedText ⟨120, 120, 0, 1, 0xF800, 0x43348000, 100⟩) (withText 0 [0x23#8] s0)).map Prod.fst
        = [4920, 4922, 4923, 4925, 4927, 4929, 5170] ∧
      drawn (.curvedText ⟨120, 120, 0, 1, 0xF800, 0xB3D6BF95, 100⟩) (withText 0 [0x49#8] s0) = [(52920, 0xF800#16)] ∧
      drawn (.curvedText ⟨120, 120, 0, 1, 0xF800, 0x7F800000, 100⟩) (withText 0 [0x49#8] s0) = [] := by decide +kernel

/-! ### SCAN (S-J8, S-J9, S-M2, S-M4) -/

theorem test_scan_joystick_J8_J9 :
    shown (joystick [false, false, true, true, true] { s0 with sel := 1#2 })
        = (0x0300#32, 1#2, .down, 0x3#32, 0x02#8) ∧
      shown (joystick [true, false, true, true, false] s0) = (0x1200#32, 1#2, .menu, 0x6#32, 0x02#8) ∧
      (joystick [true, false, true, true, false] s0).speed1 = 0x41000000#32 ∧
      (joystick [true, true, false, false, true] { s0 with speed0 := 0xC0FBB035#32 }).speed0 = 0xC0FBB036#32 := by
  decide +kernel

theorem test_scan_matrix_M2_M4 :
    shown (matrix ([true, false] ++ List.replicate 8 true ++ [false] ++ List.replicate 5 true) s0)
        = (0x0120#32, 0#2, .up, 0x1#32, 0x01#8) ∧
      (((matrix (List.replicate 16 true) { s0 with led := 0x08#8 }).pinSeq.drop 364).take 48).filterMap
          (fun e => if e.pin = .srData then some e.level else none)
        = [false, false, false, false, true, false, false, false, false, true, true, true, true, true, true, true] := by
  decide +kernel

/-! ### FLUSH, DMA_WAIT and the transfer (D1, D2, D3, D5, D7) -/

theorem test_flush_D1 :
    exec .flush { s0 with cp := 9#11 }
      = .next { s0 with cp := 10#11, dmaActive := true, dispOut := [.win 0 0 239 239] } := by rfl

theorem test_dmaWait_D6_D7 :
    exec .dmaWait s0 = .next { s0 with cp := 1#11 } ∧
      exec .dmaWait { s0 with dmaActive := true }
        = .next { s0 with dmaActive := true, inside := some ⟨.dmaWait, [.dmaWait], 0#8, 0#8⟩ } := ⟨by rfl, by rfl⟩

theorem test_dma_D2_D3 :
    (after s0 (step { (s0.fbWrite 0 0x00F8#16) with dmaActive := true })).dispSeq = [.byte 0xF8#8, .byte 0x00#8] ∧
      (after s0 (step { (s0.fbWrite 57599 0x1234#16) with dmaActive := true, dmaIdx := 57599#17 })).statusWord
        = 0x08#32 := by decide +kernel

/-! ### Faults (F1, F3, F4, F5, F9) -/

theorem test_fault_F1_F3 :
    nextOf (step (running 1022 [0x00000010#32] s0))
        = some { running 1022 [0x00000010#32] s0 with
            run := .idle, fault := true, faultCause := .clOverrun, faultCp := 1022#11, faultWord := 0x00000010#32 } ∧
      nextOf (step { s0 with run := .running, cp := 1024#11 })
        = some { s0 with cp := 1024#11, fault := true, faultCause := .clOverrun, faultCp := 1024#11 } := by
  decide +kernel

theorem test_fault_F5_F9 :
    (after s0 (step (running 0 [0x00000011#32, 0#32, 0x000503FC#32] s0))).regRead 0x018 = 4#32 ∧
      (wr 0x008 0x10#32 (after s0 (step (running 0 [0x00000101#32] s0)))).statusWord = 0#32 ∧
      (wr 0x008 0x10#32 (after s0 (step (running 0 [0x00000101#32] s0)))).regRead 0x018 = 3#32 := by decide +kernel

/-! ### Registers and accesses (H1 to H9) -/

theorem test_registers_H1_H2 :
    s0.hostRead 0x000 4 = some 0x56534731#32 ∧ s0.hostRead 0x050 4 = some 0xC1200000#32 ∧
      s0.hostRead 0x05C 4 = some 0x41200000#32 ∧ s0.hostRead 0x024 4 = some 0#32 := by decide +kernel

theorem test_registers_H3_H4_H6 :
    (wr 0x008 0x04#32 { s0 with done := true, dmaDone := true }).statusWord = 0x08#32 ∧
      (wr 0x004 0x3#32 s0).regRead 0x004 = 0x2#32 ∧ (wr 0x004 0x3#32 s0).run = .running ∧
      (wr 0x038 0xFFFFFFFF#32 s0).sel = 3#2 := by decide +kernel

theorem test_accesses_H7_H8_H9 :
    s0.hostWrite 0x03000 4 0x12345678#32 = some s0 ∧
      ((s0.hostWrite 0x10000 4 0x1234BEEF#32).map fun t => (t.fbRead 0, t.fbRead 1)) = some (0xBEEF#16, 0x1234#16) ∧
      s0.hostRead 0x10002 4 = none ∧ s0.hostRead 0x04000 4 = none ∧ s0.memRead 0x3FFFF 1 = none := by decide +kernel

theorem test_busError_stops :
    faultOf (step { s0 with plan := [⟨0, .hostRead 0x50002 4⟩] }) = some (.hostBusError 0x50002 4) := by
  decide +kernel

theorem test_reset_keeps_nothing :
    (after s0 (step { s0 with
      plan := [⟨0, .reset⟩], run := .running, inside := some ⟨.clear 1#16, [.fill 1#16 9], 0#8, 0#8⟩ }))
      = { s0 with resets := 1 } := by decide +kernel

/-! ### Numerics (N1 to N13) -/

theorem test_numerics_rounding :
    fround 0x3F000000#32 = 1 ∧ fround 0xBF000000#32 = -1 ∧ fround 0x3FC00000#32 = 2 ∧ fround 0x401FFFFF#32 = 2 ∧
      fround 0xC0200000#32 = -3 ∧ ffloor 0xBF000000#32 = -1 := by decide +kernel

theorem test_numerics_arithmetic :
    fsub (f32 (-10)) 0x3E4CCCCD#32 = 0xC1233333#32 ∧
      fadd (fadd (fadd (f32 0) 0x3E4CCCCD#32) 0x3E4CCCCD#32) 0x3E4CCCCD#32 = 0x3F19999A#32 ∧
      fsub 0x7FC00001#32 0x3E4CCCCD#32 = 0x7FC00000#32 ∧ fsub 0xFF800000#32 0x3E4CCCCD#32 = 0xFF800000#32 ∧
      fneg 0x7FC00000#32 = 0xFFC00000#32 := by decide +kernel

theorem test_sine_table :
    sinRom 1 = 0x3C8EF859#32 ∧ sinRom 179 = 0x3C8EF859#32 ∧ sinRom 181 = 0xBC8EF859#32 ∧ sinRom 45 = 0x3F3504F3#32 ∧
      sinRom 300 = 0xBF5DB3D7#32 ∧ sinRom 91 = 0x3F7FF605#32 ∧ sinRom 270 = 0xBF800000#32 := by decide +kernel

theorem test_colors :
    rgb565 255 128 0 = 0xFC00#16 ∧ rgb565 8 4 8 = 0x0821#16 ∧ rgb565s 255 128 0 = 0x00FC#16 ∧
      rgb565s 0 255 0 = 0xE007#16 := by decide +kernel

/-! ### The assembler (E1, P3) -/

theorem test_assemble_E1 :
    assemble ["msg: .ascii \"HELLO\"".toList,
        "CURVED_TEXT 120, 120, msg, rgb565s(255,0,0), 180.0, 100 ; R154".toList]
      = some {
          cmdAt := 5, textAt := 5,
          words := [(0, 0x00F80012#32), (1, 0x00780078#32), (2, 0x00050000#32), (3, 0x43340000#32), (4, 0x00000064#32)],
          bytes := [(0, 0x48#8), (1, 0x45#8), (2, 0x4C#8), (3, 0x4C#8), (4, 0x4F#8)] } := by decide +kernel

/-- The fixture block with the boot turns of a list that holds an `END` at word 0. -/
def booting : State := { s0 with plan := bootTurns fixture ⟨1, 0, [(0, 0x00000001#32)], []⟩ 0#10 true [(0x00C, 4#32)] }

theorem test_boot_R365 :
    (nextOf (Sys2Proof.core.run 6 booting)).map (fun t => (t.statusWord, t.scanMode, t.irq)) = some (4#32, true, true) := by
  decide +kernel

/-! ### Witnesses: a concrete state and operands that meet the hypotheses of each statement -/

theorem exists_next {o : Host.Outcome State Fault Refusal} (p : State → Bool) (h : (nextOf o).any p = true) :
    ∃ t, o = .next t ∧ p t = true := by
  cases o with
  | next t => exact ⟨t, rfl, h⟩
  | fault _ => cases h
  | refused _ => cases h

/-- The invariant of a state whose engine is between commands. -/
theorem inv_between {s : State} (hc : s.cfg = fixture) (hm : memWf s.mem) (hcp : s.cp.toNat ≤ 1024) (hi : s.inside = none)
    (hd : s.dmaIdx.toNat < 57600) (hl : s.led = 0#8 ∨ ∃ n < 4, s.led = 1#8 <<< n) : Inv s :=
  { cfg := by rw [hc]; exact test_cfg_fixture,
    mem := hm,
    cp := hcp,
    room := fun b hb => (by rw [hi] at hb; cases hb),
    idle := fun _ => hi,
    dma := hd.le,
    transfer := fun _ => hd,
    led := hl }

theorem test_inv_s0 : Inv s0 :=
  inv_between rfl memWf_reset (by decide) rfl (by decide) (.inl rfl)

/-- A command list whose word 0 is the given one, about to be decoded. -/
def ready (w : Word) : State := running 0 [w] s0

theorem test_inv_ready (w : Word) : Inv (ready w) :=
  inv_between rfl
    (memWf_putBytes (s := s0) (a := 0x1000) (bs := bytesOfWord w)
      (fun k hk => by have : k < 4 := hk; interval_cases k <;> decide) memWf_reset)
    (by change (BitVec.ofNat 11 0).toNat ≤ 1024; decide) rfl (by change (0#17).toNat < 57600; decide) (.inl rfl)

/-- A running engine inside a command, with coming turns. -/
def within (b : Position) (ts : List Turn) : State := { s0 with run := .running, inside := some b, plan := ts }

theorem inv_within {b : Position} {ts : List Turn} (ho : b.ok) (hl : b.cmd.len ≤ 1024) : Inv (within b ts) :=
  { cfg := test_cfg_fixture,
    mem := memWf_reset,
    cp := by change (0#11).toNat ≤ 1024; decide,
    room := fun b' hb => (by cases hb; exact ⟨ho, by change (0#11).toNat + _ ≤ _; simpa using hl⟩),
    idle := fun h => (by cases h),
    dma := by change (0#17).toNat ≤ 57600; decide,
    transfer := fun h => (by cases h),
    led := .inl rfl }

/-- A scan about to commit. -/
def commitAhead : Position := ⟨.scan, [.commit], 0#8, 1#8⟩

theorem ok_commitAhead : commitAhead.ok :=
  ⟨rfl, List.cons_ne_nil _ _, fun m hm => (by rw [List.mem_singleton.1 hm]; rfl), fun h => (by cases h),
    fun _ => .inr ⟨[], rfl, by simp, by simp⟩⟩

/-- A scan with a pin event still before its commit. -/
def pinAhead : Position := ⟨.scan, [.pin ⟨.srClk, true⟩, .commit], 0#8, 1#8⟩

theorem ok_pinAhead : pinAhead.ok :=
  ⟨rfl, List.cons_ne_nil _ _, (by decide), fun h => (by cases h), fun _ => .inr ⟨[.pin ⟨.srClk, true⟩], rfl, by simp, by simp⟩⟩

/-- A `CLEAR` before its last write. -/
def fillAhead : Position := ⟨.clear 7#16, [.fill 7#16 57599], 0#8, 0#8⟩

theorem ok_fillAhead : fillAhead.ok :=
  ⟨rfl, List.cons_ne_nil _ _, fun m hm => (by rw [List.mem_singleton.1 hm]; decide), fun h => (by cases h), fun h => (by cases h)⟩

/-- A `BM_TEXT` before its last write. -/
def plotAhead : Position := ⟨.bmText ⟨5, 7, 0, 1, 0xFFFF, false⟩, [.plot 1685 0xFFFF#16], 0#8, 0#8⟩

theorem ok_plotAhead : plotAhead.ok :=
  ⟨rfl, List.cons_ne_nil _ _, fun m hm => (by rw [List.mem_singleton.1 hm]; decide), fun h => (by cases h), fun h => (by cases h)⟩

theorem test_witness_encodingRoundTrip :
    (Instr.tileText ⟨0xFFFF, 0x8000, 769, 255, 0xFFFF, true⟩).wf = true ∧
      (Instr.bmText ⟨0, 0, 1024, 0, 1, false⟩).wf = true ∧
      (Instr.curvedText ⟨1, 2, 1023, 1, 3, 0x7FC00000, 0x8000⟩).wf = true := by decide

theorem test_witness_decodedWords :
    decode [0x00000112#32, 0#32, 0#32, 0#32, 0#32] ≠ .ok .nop ∧
      decode [0x00000011#32, 0#32, 0x000403FC#32, 7#32] = .ok (.bmText ⟨0, 0, 1020, 4, 0, false⟩) := by decide

/-- A `CURVED_TEXT` that ends at the last word of command RAM. -/
def lastArc : ArcText := ⟨120, 120, 0, 1, 0x00F8, 0x43340000, 100⟩

theorem test_witness_stepRuns :
    let s := { running 1019 (encode (.curvedText lastArc)) s0 with plan := [⟨1, .dma⟩] }
    s.ready ∧ s.turnDue = false ∧ (Instr.curvedText lastArc).wf = true ∧
      s.cp.toNat + (Instr.curvedText lastArc).len ≤ 1024 ∧
      ∀ k < (Instr.curvedText lastArc).len,
        (encode (.curvedText lastArc))[k]? = some (s.cmdRead (s.cp.toNat + k)) := by decide +kernel

theorem test_witness_decodeFaults :
    (running 1024 [] s0).faultAt = some (.clOverrun, 0#32) ∧
      (running 1023 [0xFFFF00FF#32] s0).faultAt = some (.illegalOpcode, 0xFFFF00FF#32) ∧
      (running 1022 [0x00000010#32] s0).faultAt = some (.clOverrun, 0x00000010#32) ∧
      (running 0 [0x00000101#32] s0).faultAt = some (.reservedField, 0x00000101#32) ∧
      (running 0 [0x00000011#32, 0#32, 0x000503FC#32] s0).faultAt = some (.textRange, 0x00000011#32) ∧
      (running 1023 [0x00000000#32] s0).faultAt = none ∧
      (running 1023 [0x00000000#32] s0).ready ∧ (running 1023 [0x00000000#32] s0).turnDue = false := by decide +kernel

theorem test_witness_faultRegisters :
    (∃ t, step { ready 0x00000101#32 with plan := [⟨2, .reset⟩] } = .next t ∧ decide (t.faultCause ≠ .none) = true) ∧
      ({ ready 0x00000101#32 with plan := [⟨2, .reset⟩] } : State).turnTaken = none ∧
      ∃ t, step { s0 with plan := [⟨0, .reset⟩], faultWord := 1#32 } = .next t ∧ decide (t.faultWord ≠ 1#32) = true :=
  ⟨exists_next _ (by decide +kernel), by decide, exists_next _ (by decide +kernel)⟩

theorem test_witness_start :
    (0x3#32).getLsbD 0 = true ∧ s0.run = .idle ∧ (ready 0#32).run = .running := ⟨by decide, rfl, rfl⟩

theorem test_witness_quiet : s0.quiet ∧ s0.dmaActive = false ∧ s0.scanMode = false := ⟨rfl, rfl, rfl⟩

theorem test_witness_quietOthers :
    ({ s0 with scanMode := true } : State).quiet ∧ ({ s0 with scanMode := true } : State).scanMode = true :=
  ⟨rfl, rfl⟩

theorem test_witness_frames :
    (∃ t, exec .nop { s0 with plan := [⟨1, .reset⟩] } = .next t ∧ decide (t.inside ≠ none) = true) ∧
      (∃ t, exec .endList s0 = .next t ∧ t.done = true) ∧
      (∃ t, exec .flush s0 = .next t ∧ t.dmaActive = true) ∧
      (∃ t, exec .dmaWait { s0 with dmaActive := true } = .next t ∧ decide (t.inside ≠ none) = true) ∧
      (∃ t, exec (.clear 1#16) { s0 with plan := [⟨2, .dma⟩] } = .next t ∧ decide (t.mem ≠ []) = true) ∧
      ∃ t, exec .scan { s0 with scanMode := true, pins := [true, false, true, true, true] } = .next t ∧
        decide (t.pins = [] ∧ t.led ≠ 0#8) = true :=
  ⟨exists_next _ (by decide +kernel), exists_next _ (by decide +kernel), exists_next _ (by decide +kernel),
    exists_next _ (by decide +kernel), exists_next _ (by decide +kernel), exists_next _ (by decide +kernel)⟩

theorem test_witness_frameOfDrawing :
    (∃ t, exec (.bmText ⟨5, 7, 0, 1, 0xFFFF, false⟩) (withText 0 [0x49#8] s0) = .next t ∧
        decide ((withText 0 [0x49#8] s0).strokesOf (.bmText ⟨5, 7, 0, 1, 0xFFFF, false⟩) = [⟨5, 7, 0xFFFF⟩]) = true) ∧
      (Instr.bmText ⟨5, 7, 0, 1, 0xFFFF, false⟩).wf = true ∧
      ¬ strokesTouch [⟨5, 7, 0xFFFF⟩] (0x10000 + 2 * 1686) :=
  ⟨exists_next _ (by decide +kernel), by decide, by
    rintro ⟨q, hq, -, h⟩
    rw [List.mem_singleton.1 hq] at h
    revert h
    decide⟩

theorem test_witness_clearOrder :
    (0 < 57600 ∧ ({ s0 with plan := [⟨1, .dma⟩] } : State).plan = ⟨0 + 1, .dma⟩ :: []) ∧
      (57599 < 57600 ∧ ({ s0 with plan := [⟨57600, .reset⟩] } : State).plan = ⟨57599 + 1, .reset⟩ :: []) :=
  ⟨⟨by decide, rfl⟩, ⟨by decide, rfl⟩⟩

theorem test_witness_tileSkips :
    let s := withText 0 [0x20#8, 0x25#8, 0x00#8] s0
    s.quiet ∧ (Instr.tileText ⟨0, 0, 0, 3, 0, false⟩).wf = true ∧
      (∀ i < 3, (s.textOf 0 i).toNat ≤ 0x20 ∨ (s.textOf 0 i).toNat < s.cfg.tileStart ∨
        s.cfg.tileStart + s.cfg.tileCount ≤ (s.textOf 0 i).toNat) := by decide +kernel

theorem test_witness_tileSkipsBelow :
    let s := withText 0 [0x21#8] { s0 with cfg := { fixture with tileStart := 0x30 } }
    s.quiet ∧ 0x20 < (s.textOf 0 0).toNat ∧ (s.textOf 0 0).toNat < s.cfg.tileStart := by decide +kernel

theorem test_witness_unmatched :
    let s := withText 0 [0x5A#8, 0x20#8] s0
    s.quiet ∧ (Instr.bmText ⟨0, 0, 0, 2, 0, false⟩).wf = true ∧ (Instr.curvedText ⟨0, 0, 0, 2, 0, 0, 0⟩).wf = true ∧
      ∀ i < 2, s.textOf 0 i ∉ s.cfg.bmLookup := by decide +kernel

theorem test_witness_angleless :
    (0x7FC00000#32).extractLsb' 23 8 = 0xFF#8 ∧ (0xFF800000#32).extractLsb' 23 8 = 0xFF#8 := by decide

theorem test_witness_orientation :
    (360 - arcFloor ⟨0, 0, 0, 1, 0, 0, 100⟩ 0 0) % 360 = 0 ∧ (360 - arcFloor lastArc 0 1) % 360 = 180 ∧ 7 < 8 := by
  decide +kernel

theorem test_witness_closedForm :
    ((16777215 : Int).natAbs < 2 ^ 24 ∧ ((16777215 : Int) - 10 * ((1 / 2 : Nat) : Int)).natAbs < 2 ^ 24 ∧
        0x4B7FFFFF#32 = f32 16777215) ∧
      ((-725 : Int).natAbs < 2 ^ 24 ∧ ((-725 : Int) - 10 * ((255 / 2 : Nat) : Int)).natAbs < 2 ^ 24 ∧
        0xC4354000#32 = f32 (-725)) ∧ 254 < 255 ∧ 7 < 8 := by decide +kernel

theorem test_witness_closedFormValues :
    arcFloor ⟨0, 0, 0, 255, 0, 0xC4354000, 100⟩ 254 7 = (-725 - 10 * 127) % 360 + 10 * 254 + 6 ∧
      arcFloor ⟨0, 0, 0, 1, 0, 0x4B7FFFFF, 100⟩ 0 0 = 16777215 % 360 := by decide +kernel

theorem test_witness_scanOtherSpeeds :
    ∃ t, exec .scan { s0 with scanMode := true, pins := [true, false, true, true, false] } = .next t ∧
      decide (3#2 ≠ s0.sel ∧ 3#2 ≠ t.sel) = true := exists_next _ (by decide +kernel)

theorem test_witness_scanCut :
    (within pinAhead [⟨1, .dma⟩]).goesOn pinAhead ∧ pinAhead.cmd = .scan ∧
      ∃ t, step (within pinAhead [⟨1, .dma⟩]) = .next t ∧ decide (t.inside ≠ none ∧ t.srClk = true) = true :=
  ⟨⟨inv_within ok_pinAhead (by decide), rfl, by decide, by decide⟩, rfl, exists_next _ (by decide +kernel)⟩

theorem test_witness_clearGoesOn :
    (within fillAhead [⟨9, .reset⟩]).goesOn fillAhead ∧ fillAhead.cmd = .clear 7#16 ∧
      ∃ t, step (within fillAhead [⟨9, .reset⟩]) = .next t ∧ (t.fbRead 57599 == 7#16) = true :=
  ⟨⟨inv_within ok_fillAhead (by decide), rfl, by decide, by decide⟩, rfl, exists_next _ (by decide +kernel)⟩

theorem test_witness_textGoesOn :
    (within plotAhead []).goesOn plotAhead ∧ (∃ t, step (within plotAhead []) = .next t ∧ (t.fbRead 1685 == 0xFFFF#16) = true) ∧
      ¬ strokesTouch ((within plotAhead []).strokesAhead plotAhead) (0x10000 + 2 * 1686) :=
  ⟨⟨inv_within ok_plotAhead (by decide), rfl, by decide, by decide⟩, exists_next _ (by decide +kernel), by
    rintro ⟨q, hq, -, h⟩
    have hq : q ∈ [(⟨1685, 0, 0xFFFF#16⟩ : Stroke)] := hq
    rw [List.mem_singleton.1 hq] at h
    revert h
    decide⟩

theorem test_witness_controlGoesOn :
    (within ⟨.nop, [.advance], 0#8, 0#8⟩ []).goesOn ⟨.nop, [.advance], 0#8, 0#8⟩ ∧
      (within ⟨.endList, [.stop], 0#8, 0#8⟩ []).goesOn ⟨.endList, [.stop], 0#8, 0#8⟩ ∧
      (within ⟨.flush, [.flush], 0#8, 0#8⟩ []).goesOn ⟨.flush, [.flush], 0#8, 0#8⟩ ∧
      (within ⟨.dmaWait, [.dmaWait], 0#8, 0#8⟩ []).goesOn ⟨.dmaWait, [.dmaWait], 0#8, 0#8⟩ :=
  ⟨⟨inv_within (firstSteps_ok .nop rfl _ _) (by decide), rfl, rfl, rfl⟩,
    ⟨inv_within (firstSteps_ok .endList rfl _ _) (by decide), rfl, rfl, rfl⟩,
    ⟨inv_within (firstSteps_ok .flush rfl _ _) (by decide), rfl, rfl, rfl⟩,
    ⟨inv_within (firstSteps_ok .dmaWait rfl _ _) (by decide), rfl, rfl, rfl⟩⟩

theorem test_witness_inputRegisters :
    (Inv (within commitAhead []) ∧
        ∃ t, step (within commitAhead []) = .next t ∧ decide (t.row1 ≠ (within commitAhead []).row1) = true) ∧
      (Inv (ready 0x00000003#32) ∧
        ∃ t, step { ready 0x00000003#32 with scanMode := true, pins := List.replicate 5 true } = .next t ∧
          decide (t.led ≠ 0#8) = true) :=
  ⟨⟨inv_within ok_commitAhead (by decide), exists_next _ (by decide +kernel)⟩,
    ⟨test_inv_ready _, exists_next _ (by decide +kernel)⟩⟩

theorem test_witness_held :
    let s := { s0 with
      run := .running, dmaActive := true, dmaIdx := 57599#17, inside := some ⟨.flush, [.flush], 0#8, 0#8⟩ }
    s.quiet ∧ s.dmaActive = true ∧ s.dmaIdx.toNat < 57600 ∧ s.run = .running ∧
      s.inside = some ⟨.flush, [.flush], 0#8, 0#8⟩ := by decide +kernel

theorem test_witness_dmaStep :
    let s := { s0 with dmaActive := true }
    (s.dmaIdx.toNat < 57600 ∧ s.plan = [] ∧ s.run = .idle) ∧
      ({ s with plan := [⟨0, .dma⟩], dmaIdx := 57599#17 } : State).plan = ⟨0, .dma⟩ :: [] ∧
      (57599#17).toNat < 57600 ∧
      ({ s0 with plan := [⟨0, .dma⟩], dmaIdx := 57600#17 } : State).dmaActive = false := by decide +kernel

theorem test_witness_display :
    Inv s0 ∧ DispInv s0 ∧ DispInv { s0 with dispOut := [.win 0 0 239 239], dmaActive := true } ∧
      ∃ t, step (ready 0x00000004#32) = .next t ∧ decide (t.dispOut = [.win 0 0 239 239]) = true :=
  ⟨test_inv_s0, .inl ⟨rfl, rfl, rfl⟩, .inr ⟨rfl, by decide, by decide⟩, exists_next _ (by decide +kernel)⟩

theorem test_witness_hostTurn :
    let s := { s0 with plan := [⟨0, .hostRead 0x40000 4⟩] }
    s.plan = ⟨0, .hostRead 0x40000 4⟩ :: [] ∧ s.memRead 0x40000 4 = some 0x56534731#32 ∧
      (s.memWrite 0x42000 1 7#32).isSome = true := by decide +kernel

theorem test_witness_registerOffsets :
    (∀ w ∈ [9, 11, 17, 19, 24, 0x3FF], w < 0x400 ∧ 0x24 ≤ 4 * w ∧ (4 * w < 0x30 ∨ 0x44 ≤ 4 * w) ∧
        (4 * w < 0x50 ∨ 0x60 ≤ 4 * w)) ∧ (0x2#32).getLsbD 0 = false := by decide

theorem test_witness_readOnly :
    (∀ off ∈ [0x000, 0x014, 0x05C + 4, 0xFFC], off % 4 = 0 ∧ off < 0x1000 ∧
        off ∉ [0x004, 0x008, 0x00C, 0x010, 0x038, 0x040, 0x050, 0x054, 0x058, 0x05C]) ∧
      (∀ off ∈ [0x3000, 0x359C], off % 4 = 0 ∧ 0x3000 ≤ off ∧ off < 0x35A0) := by decide

theorem test_witness_busErrors :
    (∀ off ∈ [0x000, 0x2FFF, 0x35A0, 0x3FFFF], off < 0x40000 ∧ (off < 0x3000 ∨ 0x35A0 ≤ off)) ∧
      s0.hostRead 0x1FFE 2 = none ∧ s0.hostRead 0x3000 4 ≠ none ∧ s0.hostRead 0x35A0 4 = none ∧
      s0.hostWrite 0x2FFC 4 0#32 = none ∧ s0.hostWrite 0x2C1FE 4 0#32 = none := by decide +kernel

theorem test_witness_ramAccesses :
    ∀ x ∈ [(0x1000, 4), (0x1FFC, 4), (0x2000, 1), (0x23FF, 1), (0x23FE, 2), (0x10000, 4), (0x2C1FE, 2)],
      isRam x.1 = true ∧ x.2 ∈ hostWidths x.1 ∧ x.1 % x.2 = 0 := by decide

theorem test_witness_framebuffer :
    ∃ t, s0.hostWrite (0x10000 + 2 * 57599) 2 ((0xBEEF#16).setWidth 32) = some t :=
  Option.isSome_iff_exists.1 (by decide +kernel)

theorem test_witness_sticky :
    (Inv (ready 0x00000001#32) ∧ ∃ t, step (ready 0x00000001#32) = .next t ∧ t.done = true) ∧
      (Inv (ready 0x00000006#32) ∧ ∃ t, step (ready 0x00000006#32) = .next t ∧ t.fault = true) ∧
      ∃ t, step { s0 with dmaActive := true, dmaIdx := 57599#17 } = .next t ∧ t.dmaDone = true :=
  ⟨⟨test_inv_ready _, exists_next _ (by decide +kernel)⟩, ⟨test_inv_ready _, exists_next _ (by decide +kernel)⟩,
    exists_next _ (by decide +kernel)⟩

theorem test_witness_nan :
    isNaN 0x7FC00001#32 = true ∧ isInf 0x7F800000#32 = true ∧ isInf 0xFF800000#32 = true ∧
      fsign 0x7F800000#32 ≠ fsign 0xFF800000#32 ∧ (0x80000000#32).extractLsb' 0 31 = 0#31 := by decide +kernel

theorem test_witness_tie :
    isNaN 0x4B800000#32 = false ∧ isInf 0x4B800000#32 = false ∧ isNaN (f32 1) = false ∧ isInf (f32 1) = false ∧
      isNaN 0x4B800001#32 = false ∧ isInf 0x4B800001#32 = false ∧
      |fval 0x4B800000#32 + fval (f32 1)| < overflowAt * 2 ^ 0 ∧
      fval 0x4B800001#32 - (fval 0x4B800000#32 + fval (f32 1)) = unitsPerOne ∧
      fval (fadd 0x4B800000#32 (f32 1)) - (fval 0x4B800000#32 + fval (f32 1)) = -unitsPerOne := by decide +kernel

/-- The largest finite value and the half step above it, at which a sum and a difference overflow and the next smaller
addend does not; and a product on either side (R18). -/
theorem test_witness_overflow :
    fval 0x7F7FFFFF#32 + fval 0x73000000#32 = overflowAt ∧ fadd 0x7F7FFFFF#32 0x73000000#32 = 0x7F800000#32 ∧
      fval 0x7F7FFFFF#32 + fval 0x72FFFFFF#32 < overflowAt ∧ fadd 0x7F7FFFFF#32 0x72FFFFFF#32 = 0x7F7FFFFF#32 ∧
      fval 0xFF7FFFFF#32 - fval 0x73000000#32 = -overflowAt ∧ fsub 0xFF7FFFFF#32 0x73000000#32 = 0xFF800000#32 ∧
      fsub 0xFF7FFFFF#32 0x72FFFFFF#32 = 0xFF7FFFFF#32 := by decide +kernel

theorem test_witness_overflowMul :
    overflowAt * 2 ^ 149 ≤ |fval 0xDF800000#32 * fval 0x5F800000#32| ∧ fmul 0xDF800000#32 0x5F800000#32 = 0xFF800000#32 ∧
      |fval 0xDF000000#32 * fval 0x5F800000#32| < overflowAt * 2 ^ 149 ∧
      fmul 0xDF000000#32 0x5F800000#32 = 0xFF000000#32 := by decide +kernel

theorem test_witness_resetTurn :
    ({ ready 3#32 with plan := [⟨0, .reset⟩] } : State).plan = ⟨0, .reset⟩ :: [] ∧ PinInv s0 :=
  ⟨rfl, rfl, rfl, rfl⟩

theorem test_witness_steps :
    (Inv (ready 0xF8000002#32) ∧ PinInv (ready 0xF8000002#32)) ∧
      ∃ t, step { ready 0xF8000002#32 with plan := [⟨2, .dma⟩] } = .next t ∧
        (t.fbRead 0 == 0xF800#16 && decide (t.mem.length = 6)) = true :=
  ⟨⟨test_inv_ready _, ⟨rfl, rfl, rfl⟩⟩, exists_next _ (by decide +kernel)⟩

/-- A `CLEAR` cut after its decode, a transfer in progress: the DMA agent's turn is due between two steps of the engine. -/
def racing : State := { within fillAhead [⟨0, .dma⟩] with dmaActive := true }

theorem test_witness_onlyTheHost :
    (Inv racing ∧ racing.turnTaken = some .dma ∧ racing.run = .running ∧
        ∃ t, step racing = .next t ∧ (t.dmaIdx == 1#17) = true) ∧
      (Inv (ready 0x00070002#32) ∧
        ({ ready 0x00070002#32 with plan := [⟨2, .hostWrite 0x41000 4 1#32⟩] } : State).turnTaken = none ∧
        ∃ t, step { ready 0x00070002#32 with plan := [⟨2, .hostWrite 0x41000 4 1#32⟩] } = .next t ∧
          (t.fbRead 0 == 7#16) = true) ∧
      s0.run = .idle ∧ ∃ t, step s0 = .next t :=
  ⟨⟨{ inv_within ok_fillAhead (ts := []) (by decide) with idle := fun h => (by cases h), transfer := fun _ => (by decide) },
      by decide, rfl, exists_next _ (by decide +kernel)⟩,
    ⟨test_inv_ready _, by decide +kernel, exists_next _ (by decide +kernel)⟩, rfl, ⟨_, rfl⟩⟩

theorem test_witness_roms : (∃ t, step s0 = .next t) ∧ 359 < 360 ∧ s0.hostRead (0x3000 + 4 * 359) 4 = some (sinRom 359) :=
  ⟨⟨_, rfl⟩, by decide, by decide +kernel⟩

theorem test_witness_resume :
    let s := { ready 0xF8000002#32 with plan := [⟨3, .dma⟩] }
    s.run = .running ∧
      (∃ v, exec (.clear 0xF800#16) s = .next v ∧ (decide (v.inside ≠ none) && !v.held) = true) ∧
      ∃ v, exec .nop s = .next v ∧ decide (v.inside = none) = true :=
  ⟨rfl, exists_next _ (by decide +kernel), exists_next _ (by decide +kernel)⟩

theorem test_witness_busErrorTurns :
    let s := { s0 with plan := [⟨7, .hostWrite 0x44000 4 1#32⟩] }
    s.turnTaken = some (.hostWrite 0x44000 4 1#32) ∧ s.memWrite 0x44000 4 1#32 = none ∧
      faultOf (step s) = some (.hostBusError 0x44000 4) ∧
      faultOf (step { ready 0#32 with plan := [⟨7, .hostRead 0x44000 4⟩] }) = none := by decide +kernel

end Sys2Proof.Machine.Tests
end

section
/-! SUPPORT. The invariant of the machine (Safety), move by move: what decode promises of the command it gives, what one engine
event, one step of the DMA agent and one host write do to the fields the invariant speaks of. -/

namespace Sys2Proof.Machine

/-! ### What decode promises -/

/-- The last two checks of R171 let only well-formed commands pass. -/
theorem accept_ok {clean : Bool} {i j : Instr} (h : accept clean j = .ok i) : j = i ∧ i.wf = true := by
  unfold accept at h
  split_ifs at h with _ hw
  cases h
  exact ⟨rfl, hw⟩

theorem decodeRow_ok {row : OpRow} {h : Word} {ws : List Word} {i : Instr} (hd : decodeRow row h ws = .ok i) :
    i.wf = true ∧ i.len ≤ ws.length + 1 := by
  have accepted : ∀ {clean : Bool} {j : Instr}, accept clean j = .ok i → j.len ≤ ws.length + 1 →
      i.wf = true ∧ i.len ≤ ws.length + 1 := by
    intro clean j ha hl
    obtain ⟨rfl, hw⟩ := accept_ok ha
    exact ⟨hw, hl⟩
  unfold decodeRow at hd
  split at hd
  any_goals exact accepted hd (by simp [Instr.len])
  all_goals cases hd

/-- A command that decode gives is well formed, and its words were all there (R146, R171). -/
theorem decode_ok {ws : List Word} {i : Instr} (h : decode ws = .ok i) : i.wf = true ∧ i.len ≤ ws.length := by
  unfold decode at h
  split at h
  · cases h
  · split at h
    · cases h
    · split_ifs at h
      exact decodeRow_ok h

theorem len_pos (i : Instr) : 0 < i.len := by cases i <;> exact Nat.succ_pos _

/-- The command fetched at `CP` is well formed and lies inside command RAM (R171). -/
theorem fetch_ok {s : State} {i : Instr} (h : s.fetch = .ok i) : i.wf = true ∧ s.cp.toNat + i.len ≤ 1024 := by
  obtain ⟨hw, hl⟩ := decode_ok h
  rw [fetchWords_length] at hl
  have := len_pos i
  exact ⟨hw, by omega⟩

/-! ### Engine events -/

/-- Only the step of `END` touches `RUN` (R40, R176). -/
theorem effect_run {m : Micro} (h : m ≠ .stop) (s : State) (n : Nat) (b : Position) : (effect s n b m).run = s.run := by
  cases m with
  | stop => exact absurd rfl h
  | commit => exact commitScan_run _ _ _
  | pin e => exact State.pinsOut_run _ _
  | sampleMatrix _ _ => exact State.sampled_run _
  | sampleJoy _ => exact State.sampled_run _
  | _ => rfl

/-- The DMA registers stay, or a `FLUSH` sets the index to 0 (R58, R301). -/
theorem effect_dma (s : State) (n : Nat) (b : Position) (m : Micro) :
    (effect s n b m).dmaIdx = 0#17 ∨
      ((effect s n b m).dmaIdx = s.dmaIdx ∧ (effect s n b m).dmaActive = s.dmaActive) := by
  cases m with
  | flush => exact .inl rfl
  | commit => exact .inr ⟨commitScan_dmaIdx _ _ _, commitScan_dmaActive _ _ _⟩
  | pin e => exact .inr ⟨State.pinsOut_dmaIdx _ _, State.pinsOut_dmaActive _ _⟩
  | sampleMatrix _ _ => exact .inr ⟨State.sampled_dmaIdx _, State.sampled_dmaActive _⟩
  | sampleJoy _ => exact .inr ⟨State.sampled_dmaIdx _, State.sampled_dmaActive _⟩
  | _ => exact .inr ⟨rfl, rfl⟩

/-- `LED` stays, or a commit lights one selection (R54, R277). -/
theorem effect_led (s : State) (n : Nat) (b : Position) (m : Micro) :
    (effect s n b m).led = s.led ∨ ∃ k < 4, (effect s n b m).led = 1#8 <<< k := by
  cases m with
  | commit => exact .inr ⟨_, BitVec.isLt _, commitScan_led_eq s b.r0 b.r1⟩
  | pin e => exact .inl (State.pinsOut_led _ _)
  | sampleMatrix _ _ => exact .inl (State.sampled_led _)
  | sampleJoy _ => exact .inl (State.sampled_led _)
  | _ => exact .inl rfl

theorem settle_cases (s : State) (b : Position) :
    (b.todo = [] ∧ settle s b = complete s b.cmd) ∨ (b.todo ≠ [] ∧ settle s b = s.setInside (some b)) := by
  cases hm : b.todo with
  | nil => exact .inl ⟨rfl, settle_nil s b hm⟩
  | cons m ms => exact .inr ⟨List.cons_ne_nil _ _, settle_cons s b hm⟩

theorem cpAdvance_le_len (i : Instr) : cpAdvance i ≤ i.len := by cases i <;> simp [cpAdvance, Instr.len]

theorem complete_cp_le (s : State) (i : Instr) : (complete s i).cp.toNat ≤ s.cp.toNat + i.len := by
  have h := cpAdvance_le_len i
  have h1 : (complete s i).cp.toNat = (s.cp.toNat + cpAdvance i % 2 ^ 11) % 2 ^ 11 := by
    simp only [complete, BitVec.toNat_add, BitVec.toNat_ofNat]
  have h2 := Nat.mod_le (s.cp.toNat + cpAdvance i % 2 ^ 11) (2 ^ 11)
  have h3 := Nat.mod_le (cpAdvance i) (2 ^ 11)
  omega

/-- `CP` after an event: the same as long as the command goes on, at most its length further when it completes (R173). -/
theorem engineEvent_cp {s : State} {b : Position} (hb : s.inside = some b) :
    ((engineEvent s).inside ≠ none ∧ (engineEvent s).cp = s.cp) ∨
      ((engineEvent s).inside = none ∧ (engineEvent s).cp.toNat ≤ s.cp.toNat + b.cmd.len) := by
  cases hm : b.todo with
  | nil =>
    have he : engineEvent s = complete (s.spend 1) b.cmd := by simp only [engineEvent, hb, hm]
    rw [he]
    exact .inr ⟨rfl, complete_cp_le _ _⟩
  | cons m ms =>
    rw [engineEvent_eq hb hm]
    rcases settle_cases (effect (s.spend (span s m)) (span s m) b m)
      { gathered s b m with todo := opened s (span s m) m ++ ms } with ⟨_, he⟩ | ⟨_, he⟩ <;> rw [he]
    · refine .inr ⟨rfl, ?_⟩
      simpa using complete_cp_le (effect (s.spend (span s m)) (span s m) b m) (gathered s b m).cmd
    · exact .inl ⟨Option.some_ne_none _, by simp⟩

theorem belongs_stop {i : Instr} (h : Micro.belongs i .stop = true) : i = .endList := by
  cases i with
  | endList => rfl
  | _ => cases h

/-- An engine that is idle after an event has completed `END` (R176). -/
theorem engineEvent_idle {s : State} {b : Position} (hb : s.inside = some b) (ho : b.ok) (hr : s.run = .running)
    (h : (engineEvent s).run = .idle) : (engineEvent s).inside = none := by
  obtain ⟨m, ms, hm⟩ := List.exists_cons_of_ne_nil ho.todo
  rw [engineEvent_eq hb hm] at h ⊢
  by_cases hs : m = .stop
  · subst hs
    have hbel := ho.belongs .stop (by rw [hm]; exact List.mem_cons_self)
    obtain rfl : ms = [] := by
      have := ho.ending (belongs_stop hbel)
      rw [hm] at this
      exact (List.cons.inj this).2
    rfl
  · rw [settle_run, effect_run hs, State.spend_run, hr] at h
    cases h

/-- One engine event keeps the invariant. -/
theorem Inv.engineEvent {s : State} {b : Position} (hb : s.inside = some b) (h : Inv s) : Inv (engineEvent s) := by
  obtain ⟨ho, hroom⟩ := h.room b hb
  have hrun : s.run = .running := by
    cases hr : s.run with
    | running => rfl
    | idle => exact absurd (hb.symm.trans (h.idle hr)) (Option.some_ne_none _)
  obtain ⟨m, ms, hm⟩ := List.exists_cons_of_ne_nil ho.todo
  have hbel : m.belongs b.cmd = true := ho.belongs m (by rw [hm]; exact List.mem_cons_self)
  have he := engineEvent_eq hb hm
  have hcp := engineEvent_cp hb
  have hdma := effect_dma (s.spend (span s m)) (span s m) b m
  have hled := effect_led (s.spend (span s m)) (span s m) b m
  refine ⟨by rw [engineEvent_cfg]; exact h.cfg, ?_, ?_, ?_, engineEvent_idle hb ho hrun, ?_, ?_, ?_⟩
  · rw [he, settle_mem]
    exact memWf_effect hbel h.mem _ rfl
  · rcases hcp with ⟨_, hcp⟩ | ⟨_, hcp⟩
    · exact hcp ▸ h.cp
    · omega
  · intro b' hb'
    obtain ⟨ho', hcmd⟩ := ok_engineEvent hb ho b' hb'
    rcases hcp with ⟨_, hcp⟩ | ⟨hn, _⟩
    · exact ⟨ho', by rw [hcp, hcmd]; exact hroom⟩
    · exact absurd (hb'.symm.trans hn) (Option.some_ne_none _)
  · rw [he, settle_dmaIdx]
    rcases hdma with hi | ⟨hi, _⟩ <;> rw [hi]
    · exact Nat.zero_le _
    · exact h.dma
  · rw [he, settle_dmaIdx, settle_dmaActive]
    intro ha
    rcases hdma with hi | ⟨hi, hact⟩ <;> rw [hi]
    · exact Nat.succ_pos _
    · exact h.transfer (hact ▸ ha)
  · rw [he, settle_led]
    rcases hled with hl | hl
    · exact hl ▸ h.led
    · exact .inr hl

/-! ### The other moves -/

/-- The invariant speaks of eight fields only. -/
theorem Inv.of_eq {s t : State} (h : Inv s) (cfg : t.cfg = s.cfg) (mem : memWf t.mem) (cp : t.cp = s.cp)
    (inside : t.inside = s.inside) (run : t.run = s.run) (dmaIdx : t.dmaIdx = s.dmaIdx)
    (dmaActive : t.dmaActive = s.dmaActive) (led : t.led = s.led) : Inv t where
  cfg := cfg ▸ h.cfg
  mem := mem
  cp := cp ▸ h.cp
  room := by rw [inside, cp]; exact h.room
  idle := by rw [inside, run]; exact h.idle
  dma := dmaIdx ▸ h.dma
  transfer := by rw [dmaActive, dmaIdx]; exact h.transfer
  led := led ▸ h.led

theorem Inv.spend {s : State} (h : Inv s) (n : Nat) : Inv (s.spend n) :=
  h.of_eq rfl h.mem rfl rfl rfl rfl rfl rfl

/-- A command that was fetched stands at a legal position with room behind `CP` (R171). -/
theorem Inv.begin {s : State} {i : Instr} (hr : s.ready) (hf : s.fetch = .ok i) (h : Inv s) :
    Inv ((s.spend 1).setInside (some ⟨i, firstSteps i, 0#8, 0#8⟩)) := by
  obtain ⟨hw, hl⟩ := fetch_ok hf
  refine { h.spend 1 with room := fun b hb => ?_, idle := fun hi => ?_ }
  · cases hb
    exact ⟨firstSteps_ok i hw _ _, hl⟩
  · exact absurd (hr.1.symm.trans hi) Run.noConfusion

/-- A fault leaves an engine between commands idle (R322). -/
theorem Inv.takeFault {s : State} (hr : s.ready) (h : Inv s) (c : Cause) (w : Word) : Inv (s.takeFault c w) :=
  { h with idle := fun _ => hr.2 }

/-- The step of the DMA agent keeps its index in range and ends the transfer at the last cell (R58, R302). -/
theorem Inv.dmaStep {s : State} (h : Inv s) : Inv (dmaStep s) := by
  by_cases ha : s.dmaActive = true
  · have hlt := h.transfer ha
    have hidx : (s.dmaIdx + 1#17).toNat = s.dmaIdx.toNat + 1 := by
      rw [BitVec.toNat_add, BitVec.toNat_ofNat]
      omega
    have hstep : Machine.dmaStep s = advanceTransfer (emitCell s) := if_pos ha
    have hdma : (Machine.dmaStep s).dmaIdx.toNat = s.dmaIdx.toNat + 1 := by
      rw [hstep, advanceTransfer_dmaIdx, emitCell_dmaIdx, hidx]
    refine ⟨by simpa using h.cfg, by simpa using h.mem, by simpa using h.cp, by simpa using h.room, by simpa using h.idle,
      by omega, fun hact => ?_, by simpa using h.led⟩
    rw [hdma]
    rw [hstep, advanceTransfer, emitCell_dmaIdx] at hact
    split_ifs at hact with hlast
    simp only [Config.npix] at hlast
    omega
  · rwa [Machine.dmaStep, if_neg ha]

/-- A start begins at a word of command RAM, with no command left over (R42, R170). -/
theorem Inv.start {s : State} (h : Inv s) : Inv s.start := by
  unfold State.start
  split
  · next hr =>
    refine { h with cp := ?_, room := fun b hb => ?_, idle := fun hi => ?_ }
    · have := s.clBase.isLt
      rw [BitVec.toNat_setWidth]
      omega
    · exact absurd (hb.symm.trans (h.idle hr)) (Option.some_ne_none _)
    · cases hi
  · exact h

theorem Inv.setSpeed {s : State} (h : Inv s) (n : BitVec 2) (v : Word) : Inv (s.setSpeed n v) :=
  h.of_eq (by simp) (by simpa using h.mem) (by simp) (by simp) (by simp) (by simp) (by simp) (by simp)

theorem Inv.writeCtrl {s : State} (h : Inv s) (v : Word) : Inv (s.writeCtrl v) := by
  have hm : Inv (s.setScanMode (v.getLsbD 1)) := h.of_eq rfl h.mem rfl rfl rfl rfl rfl rfl
  unfold State.writeCtrl
  split
  · exact hm.start
  · exact hm

theorem Inv.regWrite {s : State} (h : Inv s) (off : Nat) (v : Word) : Inv (s.regWrite off v) :=
  have same : ∀ t : State, t.cfg = s.cfg → t.mem = s.mem → t.cp = s.cp → t.inside = s.inside → t.run = s.run →
      t.dmaIdx = s.dmaIdx → t.dmaActive = s.dmaActive → t.led = s.led → Inv t :=
    fun _ cfg mem => h.of_eq cfg (mem ▸ h.mem)
  State.regWrite_ind Inv s off v (h.writeCtrl v) (same _ rfl rfl rfl rfl rfl rfl rfl rfl) (same _ rfl rfl rfl rfl rfl rfl rfl rfl)
    (same _ rfl rfl rfl rfl rfl rfl rfl rfl) (same _ rfl rfl rfl rfl rfl rfl rfl rfl) (same _ rfl rfl rfl rfl rfl rfl rfl rfl)
    (fun k => h.setSpeed k v) h

theorem Inv.memWrite {s t : State} {addr n : Nat} {v : Word} (h : Inv s) (hw : s.memWrite addr n v = some t) : Inv t := by
  obtain ⟨off, -, ⟨-, -, rfl⟩ | rfl | ⟨ha, rfl⟩⟩ := memWrite_some hw
  · exact h.regWrite off v
  · exact h
  · exact h.of_eq (by simp) (memWf_ramWrite v ha h.mem) (by simp) (by simp) (by simp) (by simp) (by simp) (by simp)

/-- A reset gives an idle engine between commands and empty RAMs; the configuration stays (R360 to R363). -/
theorem inv_resetStep {s : State} (h : s.cfg.wf = true) : Inv s.resetStep where
  cfg := h
  mem := memWf_reset
  cp := Nat.zero_le _
  room := fun _ hb => by cases hb
  idle := fun _ => rfl
  dma := Nat.zero_le _
  transfer := fun ha => by cases ha
  led := .inl rfl

theorem Inv.actStep {s t : State} {a : Act} (h : Inv s) (ha : actStep s a = .next t) : Inv t := by
  rcases actStep_next ha with ⟨_, _, _, _, _, rfl⟩ | ⟨_, _, _, _, hw⟩ | ⟨_, rfl⟩ | ⟨_, rfl⟩
  · exact h.of_eq rfl h.mem rfl rfl rfl rfl rfl rfl
  · exact h.memWrite hw
  · exact h.dmaStep
  · exact inv_resetStep h.cfg

/-! ### The statements -/

/-- Settles O53: each kind of move that a step can be keeps the invariant. -/
theorem everyStepKeepsTheInvariant : Obligations.EveryStepKeepsTheInvariant := by
  intro s t hs hstep
  refine step_keeps Inv ?event ?start ?fault ?dma ?turn hstep hs
  case event => exact fun s b hb _ h => h.engineEvent hb
  case start => exact fun s i hr hf h => h.begin hr hf
  case fault => exact fun s r hr _ h => (h.takeFault hr _ _).spend 1
  case dma => exact fun s h => h.dmaStep.spend 1
  case turn =>
    intro s u ts t _ ha h
    exact Inv.actStep (s := { s with plan := ts }) (h.of_eq rfl h.mem rfl rfl rfl rfl rfl rfl) ha

/-- The board is well formed by construction (R9; log 6). -/
theorem board_wf : Config.board.wf = true := by
  unfold Config.board
  split_ifs with h
  · exact h
  · decide +kernel

theorem inv_reset : Inv State.reset :=
  (inv_resetStep (s := State.reset) board_wf).of_eq rfl memWf_reset rfl rfl rfl rfl rfl rfl

/-- Settles O52: at reset nothing is in progress, nothing is written and nothing was sent. -/
theorem resetMeetsTheInvariants : Obligations.ResetMeetsTheInvariants :=
  ⟨inv_reset, .inl ⟨rfl, rfl, rfl⟩, rfl, rfl, rfl⟩

end Sys2Proof.Machine
end

section
/-! SUPPORT. The results of the three text commands (42_tile_text R202, 43_bitmask_text R222, 44_curved_text R242) and the
frames of the four drawing commands (00_scope R15, 41_clear R190). -/

namespace Sys2Proof.Machine

/-! ### The results of the text commands -/

/-- A completed command that has only drawn strokes. -/
theorem complete_drawStrokes (s : State) (qs : List Stroke) (i : Instr) :
    complete (s.drawStrokes qs) i
      = { s with inside := none, cp := s.cp + BitVec.ofNat 11 (cpAdvance i), mem := (s.drawStrokes qs).mem } := by
  rw [drawStrokes_eq]
  rfl

/-- A command whose steps, driven to their end, draw a list of strokes. -/
theorem exec_of_drive {s : State} {i : Instr} {qs : List Stroke} (hp : s.plan = []) (hw : i.wf = true)
    (hd : drive s ⟨i, firstSteps i, 0#8, 0#8⟩ = drive (s.drawStrokes qs) ⟨i, [], 0#8, 0#8⟩) :
    exec i s = .next
      { s with inside := none, cp := s.cp + BitVec.ofNat 11 (cpAdvance i), mem := (s.drawStrokes qs).mem } := by
  rw [exec_eq_launch, launch_quiet i _ s hp (firstSteps_ok i hw 0#8 0#8).todo, hd, drive_nil, complete_drawStrokes]

/-- The step that only advances `CP` draws nothing. -/
theorem drive_advance {s : State} (hp : s.plan = []) (i : Instr) (r0 r1 : Byte) :
    drive s ⟨i, [.advance], r0, r1⟩ = drive (s.drawStrokes []) ⟨i, [], r0, r1⟩ :=
  drive_cons s _ .advance [] hp (fun h => by cases h) rfl

/-- A text that is read from the state it is drawn in. -/
theorem drawing_self {s : State} (hp : s.plan = []) (taddr : BitVec 16) (len : Nat) :
    Drawing s.cfg taddr len (s.textOf taddr) s :=
  ⟨hp, rfl, fun _ _ => rfl⟩

theorem textFits_le {taddr : BitVec 16} {tlen : BitVec 8} (h : textFits taddr tlen = true) :
    taddr.toNat + tlen.toNat ≤ 1024 := of_decide_eq_true h

theorem toNat_pos_of_ne_zero {n : BitVec 8} (h : n ≠ 0#8) : 0 < n.toNat :=
  Nat.pos_of_ne_zero fun h0 => h (BitVec.eq_of_toNat_eq h0)

/-- A text is driven over its characters, and an empty one draws nothing (R209, R228, R252). -/
theorem drive_characters {s : State} {i : Instr} {tlen : BitVec 8} {first : Micro} {strokes : Nat → List Stroke} (hp : s.plan = [])
    (h : 0 < tlen.toNat → drive s ⟨i, [first], 0#8, 0#8⟩
      = drive (s.drawStrokes ((List.range' 0 tlen.toNat).flatMap strokes)) ⟨i, [], 0#8, 0#8⟩) :
    drive s ⟨i, if tlen = 0#8 then [.advance] else [first], 0#8, 0#8⟩
      = drive (s.drawStrokes ((List.range tlen.toNat).flatMap strokes)) ⟨i, [], 0#8, 0#8⟩ := by
  split_ifs with h0
  · rw [h0]
    exact drive_advance hp _ _ _
  · rw [List.range_eq_range']
    exact h (toNat_pos_of_ne_zero h0)

theorem drive_tileText {s : State} (o : LineText) (hp : s.plan = []) (hl : o.taddr.toNat + o.tlen.toNat ≤ 1024) :
    drive s ⟨.tileText o, firstSteps (.tileText o), 0#8, 0#8⟩
      = drive (s.drawStrokes (tileStrokes s.cfg o (s.textOf o.taddr))) ⟨.tileText o, [], 0#8, 0#8⟩ :=
  drive_characters hp fun hpos => drive_tileChars hl _ _ _ 0 s (Nat.zero_add _) hpos (drawing_self hp _ _)

theorem drive_bmText {s : State} (o : LineText) (hp : s.plan = []) (hl : o.taddr.toNat + o.tlen.toNat ≤ 1024) :
    drive s ⟨.bmText o, firstSteps (.bmText o), 0#8, 0#8⟩
      = drive (s.drawStrokes (bmStrokes s.cfg o (s.textOf o.taddr))) ⟨.bmText o, [], 0#8, 0#8⟩ :=
  drive_characters hp fun hpos => drive_bmChars hl _ _ _ 0 s (Nat.zero_add _) hpos (drawing_self hp _ _)

theorem drive_curvedText {s : State} (o : ArcText) (hp : s.plan = []) (hl : o.taddr.toNat + o.tlen.toNat ≤ 1024) :
    drive s ⟨.curvedText o, firstSteps (.curvedText o), 0#8, 0#8⟩
      = drive (s.drawStrokes (arcStrokes s.cfg o (s.textOf o.taddr))) ⟨.curvedText o, [], 0#8, 0#8⟩ := by
  by_cases ha : angleless o = true
  · have hq : arcStrokes s.cfg o (s.textOf o.taddr) = [] := if_pos (by simpa [angleless] using ha)
    have hf : firstSteps (.curvedText o) = [.advance] := if_pos (.inl ha)
    rw [hf, hq]
    exact drive_advance hp _ _ _
  · have hf : firstSteps (.curvedText o) = if o.tlen = 0#8 then [.advance] else [.arcChar o (startAngle o) 0 0] := by
      simp only [firstSteps, ha, Bool.false_eq_true, false_or]
    rw [arcStrokes_eq _ _ _ ha, hf]
    exact drive_characters hp fun hpos => drive_arcChars hl _ _ _ 0 s (Nat.zero_add _) hpos (drawing_self hp _ _)

/-- Settles O13: the characters are driven one after the other, each drawing its strokes. -/
theorem tileTextDrawsItsStrokes : Obligations.TileTextDrawsItsStrokes := fun _ o hp hw =>
  exec_of_drive hp hw (drive_tileText o hp (textFits_le hw))

/-- Settles O14: as O13, with the count of matched characters as the rule takes it. -/
theorem bmTextDrawsItsStrokes : Obligations.BmTextDrawsItsStrokes := fun _ o hp hw =>
  exec_of_drive hp hw (drive_bmText o hp (textFits_le hw))

/-- Settles O15: as O14; without an angle the command has only the step that advances `CP`. -/
theorem curvedTextDrawsItsStrokes : Obligations.CurvedTextDrawsItsStrokes := fun _ o hp hw =>
  exec_of_drive hp hw (drive_curvedText o hp (textFits_le hw))

/-! ### The frames of the drawing commands -/

/-- `t` is `s` but for memory, `CP`, the position and the plan. -/
def State.drawnTo (s t : State) : Prop := t = { s with inside := t.inside, cp := t.cp, plan := t.plan, mem := t.mem }

theorem State.drawnTo.trans {s t u : State} (h : s.drawnTo t) (h' : t.drawnTo u) : s.drawnTo u := by
  unfold State.drawnTo at h'
  refine h'.trans ?_
  rw [h]

theorem drawnTo_settle (s : State) (b : Position) : s.drawnTo (settle s b) := by
  rcases settle_cases s b with ⟨_, h⟩ | ⟨_, h⟩ <;> rw [h] <;> rfl

/-- A command that draws. -/
def draws (i : Instr) : Prop := (∃ color, i = .clear color) ∨ drawsText i

/-- A step of a drawing command writes nothing but memory (R15). -/
theorem drawnTo_effect {i : Instr} {m : Micro} (hi : draws i) (hb : m.belongs i = true) (s : State) (n : Nat) (b : Position) :
    s.drawnTo (effect s n b m) := by
  cases m with
  | stop | pin _ | sampleMatrix _ _ | sampleJoy _ | commit | flush =>
    rcases hi with ⟨_, rfl⟩ | ⟨_, rfl⟩ | ⟨_, rfl⟩ | ⟨_, rfl⟩ <;> cases hb
  | _ => rfl

theorem carries_drawnTo {s t : State} {i : Instr} (hi : draws i) (hw : i.wf = true) (ht : s.carries i t) : s.drawnTo t := by
  refine carries_keeps_of i hw s.drawnTo (fun u b m ms _ _ _ _ hb hu => ?_) ht rfl (fun _ _ _ => rfl)
  have hspend : u.drawnTo (u.spend (span u m)) := rfl
  exact ((hu.trans hspend).trans (drawnTo_effect hi hb _ _ b)).trans (drawnTo_settle _ _)

/-- `CLEAR`, begun or resumed, writes framebuffer bytes only (R190). -/
theorem ramByte_clear {s t : State} {color : Cell} (ht : s.carries (.clear color) t) {a : Nat}
    (ha : a < 0x10000 ∨ 0x2C200 ≤ a) : t.ramByte a = s.ramByte a := by
  have outside : ∀ qs, ¬ strokesTouch qs a := fun qs h => by
    have := strokesTouch_fb h
    omega
  rcases ht with ht | ⟨b, hg, _, ht⟩
  · exact exec_byte rfl ht fun m _ => outside _
  · exact resumed_byte hg ht (outside _)

/-- Settles O21: a drawing command's steps change memory only, and in it only what their strokes touch. -/
theorem frameOfDrawingCommands : Obligations.FrameOfDrawingCommands := by
  intro s t
  refine ⟨fun color ht => ⟨carries_drawnTo (.inl ⟨color, rfl⟩) rfl ht, fun a => ramByte_clear ht⟩,
    fun i hi hw => ⟨fun ht => carries_drawnTo (.inr hi) hw ht, fun ht a hmiss => ?_⟩,
    fun b hg ht a hmiss => resumed_byte hg ht hmiss⟩
  exact exec_byte hw ht fun m hm htouch => hmiss (strokesTouch_mono (strokes_firstSteps hi m hm) htouch)

end Sys2Proof.Machine
end

section
/-! SUPPORT. The binary32 operations against their exact results (00_scope R18 to R21): invalid operations, floor and round, and
rounding to nearest with ties to even. -/

namespace Sys2Proof.Machine

/-! ### Invalid operations -/

theorem isNaN_of_isInf {a : Word} (h : isInf a = true) : isNaN a = false := by
  unfold isInf at h
  unfold isNaN
  simp_all

/-- Both zeros have magnitude 0. -/
theorem fmag_zero {b : Word} (h : b.extractLsb' 0 31 = 0#31) : isNaN b = false ∧ isInf b = false ∧ fmag b = 0 := by
  have hm : b.toNat % 2 ^ 31 = 0 := by
    have := congrArg BitVec.toNat h
    simpa [BitVec.extractLsb'_toNat] using this
  have he : fexp b = 0 := by rw [fexp_eq]; omega
  have hf : ffrac b = 0 := by rw [ffrac_eq]; omega
  simp [isNaN, isInf, fmag, he, hf]

theorem fadd_nan {a b : Word} (h : isNaN a = true ∨ isNaN b = true) : fadd a b = canonicalNaN := by
  unfold fadd
  rw [if_pos (by simpa using h)]

theorem fsub_nan {a b : Word} (h : isNaN a = true ∨ isNaN b = true) : fsub a b = canonicalNaN := by
  unfold fsub
  rw [if_pos (by simpa using h)]

theorem fmul_nan {a b : Word} (h : isNaN a = true ∨ isNaN b = true) : fmul a b = canonicalNaN := by
  unfold fmul
  dsimp only
  rw [if_pos (by simpa using h)]

/-- The sum of opposite infinities is invalid (R19). -/
theorem fadd_opposite_infinities {a b : Word} (ha : isInf a = true) (hb : isInf b = true) (hs : fsign a ≠ fsign b) :
    fadd a b = canonicalNaN := by
  simp [fadd, isNaN_of_isInf ha, isNaN_of_isInf hb, ha, hb, hs]

theorem fsub_equal_infinities {a b : Word} (ha : isInf a = true) (hb : isInf b = true) (hs : fsign a = fsign b) :
    fsub a b = canonicalNaN := by
  have hsub : fsub a b = fadd a (fneg b) := by simp [fsub, isNaN_of_isInf ha, isNaN_of_isInf hb]
  rw [hsub]
  exact fadd_opposite_infinities ha (by rw [isInf_fneg, hb]) (by rw [fsign_fneg, hs]; cases fsign b <;> decide)

/-- An infinity times a zero is invalid, in either order (R19). -/
theorem fmul_infinity_zero {a b : Word} (ha : isInf a = true) (hb : b.extractLsb' 0 31 = 0#31) :
    fmul a b = canonicalNaN ∧ fmul b a = canonicalNaN := by
  obtain ⟨hn, hi, hm⟩ := fmag_zero hb
  simp [fmul, isNaN_of_isInf ha, hn, hi, ha, hm]

/-- Settles O47: the invalid operations one by one. -/
theorem canonicalNan : Obligations.CanonicalNan :=
  ⟨fun _ => rfl, fun _ _ h => ⟨fadd_nan h, fsub_nan h, fmul_nan h⟩, fun _ _ => fsub_equal_infinities,
    fun _ _ => fadd_opposite_infinities, fun _ _ => fmul_infinity_zero⟩

/-! ### Floor and round -/

theorem ffloor_bounds (a : Word) : ffloor a * 2 ^ 149 ≤ fval a ∧ fval a < (ffloor a + 1) * 2 ^ 149 := by
  have hpos : (0 : Int) < 2 ^ 149 := by positivity
  have hu : (unitsPerOne : Int) = 2 ^ 149 := rfl
  unfold ffloor
  rw [hu]
  exact ⟨Int.ediv_mul_le _ hpos.ne', Int.lt_ediv_add_one_mul_self _ hpos⟩

/-- The magnitude of `fround`: one half is added and the fraction is cut off (R21). -/
def roundedMag (a : Word) : Nat := (2 * fmag a + unitsPerOne) / (2 * unitsPerOne)

theorem fround_eq (a : Word) : fround a = if fsign a then -(roundedMag a : Int) else (roundedMag a : Int) := rfl

theorem roundedMag_bounds (a : Word) :
    2 * (roundedMag a * 2 ^ 149) ≤ 2 * fmag a + 2 ^ 149 ∧ 2 * fmag a < 2 * (roundedMag a * 2 ^ 149) + 2 ^ 149 := by
  have h1 := Nat.div_add_mod (2 * fmag a + unitsPerOne) (2 * unitsPerOne)
  have h2 := Nat.mod_lt (2 * fmag a + unitsPerOne) (y := 2 * unitsPerOne) (by decide)
  have h3 : 2 * unitsPerOne * roundedMag a = 2 * (roundedMag a * 2 ^ 149) := by
    rw [show unitsPerOne = 2 ^ 149 from rfl]
    ring
  rw [show (2 * fmag a + unitsPerOne) / (2 * unitsPerOne) = roundedMag a from rfl, h3] at h1
  have hu : unitsPerOne = 2 ^ 149 := rfl
  omega

/-- The distance of `fround` from the exact value is that of the magnitudes. -/
theorem abs_fround_sub (a : Word) :
    |2 * (fround a * 2 ^ 149 - fval a)| = |2 * ((roundedMag a : Int) * 2 ^ 149 - (fmag a : Int))| := by
  rw [fround_eq]
  unfold fval
  split_ifs
  · rw [← abs_neg]
    congr 1
    ring
  · rfl

theorem abs_fround (a : Word) : |fround a * 2 ^ 149| = (roundedMag a : Int) * 2 ^ 149 := by
  have h : |fround a| = roundedMag a := by
    rw [fround_eq]
    split_ifs <;> simp
  rw [abs_mul, h, abs_of_nonneg (by positivity)]

theorem abs_fval (a : Word) : |fval a| = fmag a := by
  rw [Int.abs_eq_natAbs, fval_natAbs]

/-- Settles O48: both follow from what division by `2^149` leaves over. -/
theorem floorAndRound : Obligations.FloorAndRound := by
  intro a _ _
  have hb : 2 * ((roundedMag a : Int) * 2 ^ 149) ≤ 2 * (fmag a : Int) + 2 ^ 149 ∧
      2 * (fmag a : Int) < 2 * ((roundedMag a : Int) * 2 ^ 149) + 2 ^ 149 := by
    exact_mod_cast roundedMag_bounds a
  obtain ⟨hlo, hhi⟩ := hb
  refine ⟨ffloor_bounds a, ?_, ?_⟩
  · rw [abs_fround_sub, abs_le]
    constructor <;> linarith
  · rw [abs_fround_sub, abs_fround, abs_fval]
    intro htie
    rcases (abs_eq (by positivity)).1 htie with h | h
    · have hpos : (0 : Int) < 2 ^ 149 := by positivity
      linarith
    · linarith

/-! ### Rounding to nearest -/

theorem roundMag_le (m k : Nat) : roundMag m k ≤ 0x7F800000 := by
  rw [roundMag_eq]
  exact min_le_right _ _

/-- The finite range of R18, over signed exact results. -/
theorem roundMag_natAbs_lt_iff (v : Int) (k : Nat) : roundMag v.natAbs k < 0x7F800000 ↔ |v| < overflowAt * 2 ^ k := by
  have h : ((2 ^ 25 - 1) * 2 ^ 252 * 2 ^ k : Nat) = overflowAt * 2 ^ k := by
    unfold overflowAt
    push_cast
    norm_num
  rw [roundMag_lt_iff, Int.abs_eq_natAbs, ← h, Nat.cast_lt]

/-- A pattern with the sign of the exact result and its rounded magnitude is the rounded result. -/
theorem roundedFrom_signed {v : Int} {neg : Bool} (k : Nat) (hn : v ≠ 0 → neg = decide (v < 0)) :
    roundedFrom (signed neg (roundMag v.natAbs k)) v k := by
  constructor
  · intro hover
    have hbig : roundMag v.natAbs k = 0x7F800000 :=
      le_antisymm (roundMag_le _ _) (not_lt.1 fun h => absurd ((roundMag_natAbs_lt_iff v k).1 h) (not_lt.2 hover))
    have hv : v ≠ 0 := by
      rintro rfl
      have : (0 : Int) < overflowAt * 2 ^ k := mul_pos (by decide) (by positivity)
      rw [abs_zero] at hover
      omega
    rw [hbig, hn hv]
    by_cases hlt : v < 0
    · rw [if_pos hlt, decide_eq_true hlt]
      rfl
    · rw [if_neg hlt, decide_eq_false hlt]
      rfl
  · intro hfin
    obtain ⟨hnan, hinf⟩ := finite_signed neg ((roundMag_natAbs_lt_iff v k).2 hfin)
    exact ⟨hnan, hinf, fun c _ _ => signed_nearest neg hn hinf c⟩

theorem roundedFrom_fadd {a b : Word} (ha : finite a) (hb : finite b) : roundedFrom (fadd a b) (fval a + fval b) 0 := by
  obtain ⟨neg, hn, heq⟩ := fadd_finite ha hb
  rw [heq]
  exact roundedFrom_signed 0 hn

theorem roundedFrom_fsub {a b : Word} (ha : finite a) (hb : finite b) : roundedFrom (fsub a b) (fval a - fval b) 0 := by
  rw [fsub_eq ha hb, sub_eq_add_neg, ← fval_fneg]
  exact roundedFrom_fadd ha (finite_fneg hb)

theorem fsign_of_fval_ne {a : Word} (h : fval a ≠ 0) : fsign a = decide (fval a < 0) := by
  unfold fval at h ⊢
  split_ifs at h ⊢ with hs
  · rw [hs, decide_eq_true (by omega)]
  · rw [decide_eq_false (by omega)]
    simpa using hs

/-- The sign of a product that is not zero. -/
theorem fsign_product {a b : Word} (h : fval a * fval b ≠ 0) : (fsign a != fsign b) = decide (fval a * fval b < 0) := by
  obtain ⟨ha, hb⟩ := mul_ne_zero_iff.1 h
  rw [fsign_of_fval_ne ha, fsign_of_fval_ne hb]
  rcases lt_or_gt_of_ne ha with ha | ha <;> rcases lt_or_gt_of_ne hb with hb | hb
  · simp [ha, hb, (mul_pos_of_neg_of_neg ha hb).not_gt]
  · simp [ha, hb.not_gt, mul_neg_of_neg_of_pos ha hb]
  · simp [ha.not_gt, hb, mul_neg_of_pos_of_neg ha hb]
  · simp [ha.not_gt, hb.not_gt, (mul_pos ha hb).not_gt]

theorem fmul_finite {a b : Word} (ha : finite a) (hb : finite b) :
    fmul a b = signed (fsign a != fsign b) (roundMag (fval a * fval b).natAbs 149) := by
  obtain ⟨han, hai⟩ := ha
  obtain ⟨hbn, hbi⟩ := hb
  simp [fmul, han, hai, hbn, hbi, Int.natAbs_mul, fval_natAbs]

theorem roundedFrom_fmul {a b : Word} (ha : finite a) (hb : finite b) : roundedFrom (fmul a b) (fval a * fval b) 149 := by
  rw [fmul_finite ha hb]
  exact roundedFrom_signed 149 fsign_product

/-- Settles O49: each operation gives the sign and the rounded magnitude of its exact result. -/
theorem operationsRoundToNearestEven : Obligations.OperationsRoundToNearestEven := fun _ _ han hai hbn hbi =>
  ⟨roundedFrom_fadd ⟨han, hai⟩ ⟨hbn, hbi⟩, roundedFrom_fsub ⟨han, hai⟩ ⟨hbn, hbi⟩, roundedFrom_fmul ⟨han, hai⟩ ⟨hbn, hbi⟩⟩

end Sys2Proof.Machine
end

section
/-! SUPPORT. What no step changes (00_scope R8, 10_state R61 to R68, 70_reset_and_hazards R362; log 6). -/

namespace Sys2Proof.Machine

theorem memWrite_cfg {s t : State} {addr n : Nat} {v : Word} (h : s.memWrite addr n v = some t) : t.cfg = s.cfg := by
  obtain ⟨off, -, ⟨-, -, rfl⟩ | rfl | ⟨-, rfl⟩⟩ := memWrite_some h
  · exact State.regWrite_cfg s off v
  · rfl
  · exact State.ramWrite_cfg s off n v

/-- No turn of another agent changes the configuration, a reset included (R362). -/
theorem actStep_cfg {s t : State} {a : Act} (h : actStep s a = .next t) : t.cfg = s.cfg := by
  rcases actStep_next h with ⟨_, _, _, _, _, rfl⟩ | ⟨_, _, _, _, hw⟩ | ⟨_, rfl⟩ | ⟨_, rfl⟩
  · rfl
  · exact memWrite_cfg hw
  · exact dmaStep_cfg s
  · rfl

theorem step_cfg {s t : State} (h : step s = .next t) : t.cfg = s.cfg := by
  refine step_keeps (fun u => u.cfg = s.cfg) ?event ?start ?fault ?dma ?turn h rfl
  case event => exact fun u b _ _ hu => (engineEvent_cfg u).trans hu
  case start => exact fun u i _ _ hu => hu
  case fault => exact fun u r _ _ hu => hu
  case dma => exact fun u hu => (dmaStep_cfg u).trans hu
  case turn => exact fun u n ts v _ ha hu => (actStep_cfg ha).trans hu

/-- The sine ROM as the host reads it (R61, R100). -/
theorem hostRead_sin (s : State) {a : Nat} (h : a < 360) : s.hostRead (0x3000 + 4 * a) 4 = some (sinRom a) := by
  have hregs : inRegs (0x3000 + 4 * a) = false := decide_eq_false (by omega)
  have hsin : inSin (0x3000 + 4 * a) = true := by
    simp only [inSin, sinBase, Config.sinN, Bool.and_eq_true, decide_eq_true_eq]
    omega
  have hword : wordAccess (0x3000 + 4 * a) 4 = true := by
    simp only [wordAccess, BEq.rfl, Bool.true_and, beq_iff_eq]
    omega
  rw [hostRead_in s 4 (by omega)]
  simp [State.readAt, hregs, hsin, hword]

/-- Settles O56: every kind of move keeps the configuration, and the sine ROM is a constant. -/
theorem romsNeverChange : Obligations.RomsNeverChange := fun s => ⟨fun _ => step_cfg, fun _ => hostRead_sin s⟩

end Sys2Proof.Machine
end

section
/-! SUPPORT. The register page word by word (10_state R44 to R57; 20_memory R100, R102), the sine table's symmetries (R62, R63)
and the interrupt line (R59). -/

namespace Sys2Proof.Machine

/-! ### Reads -/

/-- A read of a word of the register page returns the register there. -/
theorem hostRead_of_regRead {s : State} {off : Nat} {w : Word} (h : s.regRead off = w) (hlt : off < 0x1000 := by decide)
    (h4 : off % 4 = 0 := by decide) : s.hostRead off 4 = some w := h ▸ hostRead_reg s hlt h4

/-- A field at bit 0 with zeros above it. -/
theorem setWidth_eq_zero_append {w : Nat} (n : Nat) (x : BitVec w) : x.setWidth (n + w) = 0#n ++ x := by
  apply BitVec.eq_of_toNat_eq
  have hx := x.isLt
  have hw : 2 ^ w ≤ 2 ^ (n + w) := Nat.pow_le_pow_right (by decide) (by omega)
  rw [BitVec.toNat_append, BitVec.toNat_setWidth, Nat.mod_eq_of_lt (by omega)]
  simp

/-- The fields of `STATUS` at their positions (R47). -/
theorem statusBits : ∀ busy dmaBusy done dmaDone fault : Bool,
    bitAt busy 0 ||| bitAt dmaBusy 1 ||| bitAt done 2 ||| bitAt dmaDone 3 ||| bitAt fault 4
      = 0#27 ++ BitVec.ofBool fault ++ BitVec.ofBool dmaDone ++ BitVec.ofBool done ++ BitVec.ofBool dmaBusy
          ++ BitVec.ofBool busy := by decide

/-- The enables of `IE` at their positions (R48). -/
theorem ieBits : ∀ done dmaDone fault : Bool,
    bitAt done 2 ||| bitAt dmaDone 3 ||| bitAt fault 4
      = 0#27 ++ BitVec.ofBool fault ++ BitVec.ofBool dmaDone ++ BitVec.ofBool done ++ 0#2 := by decide

/-- The flags of `EVENTS` at their positions (R56). -/
theorem eventBits : ∀ up down menu : Bool,
    bitAt up 0 ||| bitAt down 1 ||| bitAt menu 2
      = 0#29 ++ BitVec.ofBool menu ++ BitVec.ofBool down ++ BitVec.ofBool up := by decide

/-- `SCAN_MODE` at its position (R46). -/
theorem scanModeBit : ∀ mode : Bool, bitAt mode 1 = 0#30 ++ BitVec.ofBool mode ++ 0#1 := by decide

/-- The two rows of `BTN` at their positions (R53). -/
theorem rowBits (row0 row1 : Byte) : row0.setWidth 32 ||| (row1.setWidth 32 <<< 8) = 0#16 ++ row1 ++ row0 := by
  apply BitVec.eq_of_getLsbD_eq
  intro i hi
  have happ : BitVec.getLsbD (0#16 ++ row1 ++ row0) i
      = if i < 8 then row0.getLsbD i else if i - 8 < 8 then row1.getLsbD (i - 8) else (0#16).getLsbD (i - 8 - 8) := by
    rw [BitVec.getLsbD_append, BitVec.getLsbD_append]
  refine Eq.trans ?_ happ.symm
  simp only [BitVec.getLsbD_or, BitVec.getLsbD_shiftLeft, BitVec.getLsbD_setWidth, BitVec.getLsbD_zero]
  grind

theorem speedIndex_cases : ∀ n : BitVec 2, n = 0#2 ∨ n = 1#2 ∨ n = 2#2 ∨ n = 3#2 := by decide

theorem regRead_speed (s : State) (n : BitVec 2) : s.regRead (0x050 + 4 * n.toNat) = s.speed n := by
  rcases speedIndex_cases n with rfl | rfl | rfl | rfl <;> rfl

/-- Behind `FAULT_WORD`, what the table of R44 does not list reads as 0. -/
theorem regRead_unlisted (s : State) {off : Nat} (h : 0x24 ≤ off) (h1 : off < 0x30 ∨ 0x44 ≤ off)
    (h2 : off < 0x50 ∨ 0x60 ≤ off) : s.regRead off = 0#32 := by
  unfold State.regRead
  iterate 18 rw [if_neg (by omega)]

/-- Settles O37: each register's read value, field by field. -/
theorem registerReadValues : Obligations.RegisterReadValues := by
  intro s
  refine ⟨hostRead_of_regRead rfl, hostRead_of_regRead (scanModeBit _), hostRead_of_regRead (statusBits _ _ _ _ _),
    hostRead_of_regRead (ieBits _ _ _), hostRead_of_regRead (setWidth_eq_zero_append 22 s.clBase),
    hostRead_of_regRead (setWidth_eq_zero_append 21 s.cp), hostRead_of_regRead (setWidth_eq_zero_append 29 s.faultCause.code),
    hostRead_of_regRead (setWidth_eq_zero_append 21 s.faultCp), hostRead_of_regRead rfl, hostRead_of_regRead (rowBits _ _),
    hostRead_of_regRead (setWidth_eq_zero_append 24 s.led), hostRead_of_regRead (setWidth_eq_zero_append 30 s.sel),
    hostRead_of_regRead (setWidth_eq_zero_append 30 s.last.code), hostRead_of_regRead (eventBits _ _ _), fun n => ?speed,
    fun w hw h h1 h2 => hostRead_of_regRead (regRead_unlisted s h h1 h2) (by omega) (by omega)⟩
  case speed =>
    have := n.isLt
    exact hostRead_of_regRead (regRead_speed s n) (by omega) (by omega)

/-! ### Writes -/

/-- A write of a word of the register page is the register's write. -/
theorem hostWrite_of_regWrite {s t : State} {off : Nat} {v : Word} (h : s.regWrite off v = t)
    (hlt : off < 0x1000 := by decide) (h4 : off % 4 = 0 := by decide) : s.hostWrite off 4 v = some t :=
  h ▸ hostWrite_reg s v hlt h4

theorem regWrite_speed (s : State) (n : BitVec 2) (v : Word) : s.regWrite (0x050 + 4 * n.toNat) v = s.setSpeed n v := by
  rcases speedIndex_cases n with rfl | rfl | rfl | rfl <;> rfl

/-- The speed file after a write of one entry (R57). -/
theorem setSpeed_eq (s : State) (n : BitVec 2) (v : Word) :
    s.setSpeed n v = { s with
      speed0 := if n = 0#2 then v else s.speed0, speed1 := if n = 1#2 then v else s.speed1,
      speed2 := if n = 2#2 then v else s.speed2, speed3 := if n = 3#2 then v else s.speed3 } := by
  rcases speedIndex_cases n with rfl | rfl | rfl | rfl <;> rfl

/-- Without bit 0, a write of `CTRL` only stores `SCAN_MODE` (R46). -/
theorem writeCtrl_no_start (s : State) {v : Word} (h : v.getLsbD 0 = false) :
    s.writeCtrl v = { s with scanMode := v.getLsbD 1 } := by
  unfold State.writeCtrl
  rw [h]
  rfl

/-- Settles O38: each storing register's write, as its definition has it. -/
theorem registerWritesStore : Obligations.RegisterWritesStore := by
  intro s v
  refine ⟨fun h0 => hostWrite_of_regWrite (writeCtrl_no_start s h0), hostWrite_of_regWrite rfl, hostWrite_of_regWrite ?base,
    hostWrite_of_regWrite ?sel, fun n => ?speed⟩
  case base => exact congrArg s.setClBase (BitVec.setWidth_eq_extractLsb' (by decide))
  case sel => exact congrArg s.setSel (BitVec.setWidth_eq_extractLsb' (by decide))
  case speed =>
    have := n.isLt
    exact hostWrite_of_regWrite ((regWrite_speed s n v).trans (setSpeed_eq s n v)) (by omega) (by omega)

/-- A sticky bit after a write: a 1 clears it (R44). -/
theorem clearedBy : ∀ sticky one : Bool, (sticky && !one) = if one then false else sticky := by decide

/-- Settles O39: every flag of the two registers is masked by its own bit of the written word. -/
theorem stickyBitsClearByOnes : Obligations.StickyBitsClearByOnes := by
  intro s v
  simp only [← clearedBy]
  exact ⟨hostWrite_of_regWrite rfl, hostWrite_of_regWrite rfl⟩

/-- A register that is not writable ignores a write (R44). -/
theorem regWrite_readOnly (s : State) (v : Word) {off : Nat}
    (h : off ∉ [0x004, 0x008, 0x00C, 0x010, 0x038, 0x040, 0x050, 0x054, 0x058, 0x05C]) : s.regWrite off v = s := by
  simp only [List.mem_cons, List.not_mem_nil, or_false, not_or] at h
  simp only [State.regWrite, h, if_false]

/-- A word write into the sine ROM is accepted and ignored (R102; log 8). -/
theorem hostWrite_sin (s : State) (v : Word) {off : Nat} (h4 : off % 4 = 0) (hlo : 0x3000 ≤ off) (hhi : off < 0x35A0) :
    s.hostWrite off 4 v = some s := by
  have hregs : inRegs off = false := decide_eq_false (by omega)
  have hsin : sinWrite off 4 = true := by
    simp only [sinWrite, inSin, sinBase, Config.sinN, BEq.rfl, Bool.or_true, Bool.true_and, Bool.and_eq_true,
      decide_eq_true_eq]
    omega
  rw [hostWrite_in s 4 v (by omega)]
  simp [State.writeAt, hregs, hsin]

/-- Settles O40: no arm of the register write is taken, and the sine ROM's arm keeps the state. -/
theorem readOnlyWritesAreIgnored : Obligations.ReadOnlyWritesAreIgnored := fun s v _ h4 =>
  ⟨fun hlt h => hostWrite_of_regWrite (regWrite_readOnly s v h) hlt h4, hostWrite_sin s v h4⟩

/-! ### The sine table and the interrupt line -/

/-- Settles O44: the cosine's index by definition, the symmetries by comparing the words of the table. -/
theorem sineTableSymmetry : Obligations.SineTableSymmetry :=
  ⟨fun _ => rfl, by decide +kernel, by decide +kernel, rfl, rfl, rfl⟩

/-- Settles O45: the line is the disjunction of the enabled sticky bits. -/
theorem interruptLineLevel : Obligations.InterruptLineLevel := by
  intro s
  simp only [State.irq, Bool.or_eq_true, Bool.and_eq_true, or_assoc]

end Sys2Proof.Machine
end

section
/-! SUPPORT. What a step leaves unchanged (10_state R47 to R54, R69, R70): the fault registers, the scanner's registers and the
sticky bits change by their own agent only, and the two output sequences only grow. -/

namespace Sys2Proof.Machine

/-! ### Whose step it is -/

/-- Everything a step that takes another agent's turn can do. An ignored write of the host stands under its reads, with
nothing read. -/
theorem step_next_of_turn {s t : State} {a : Act} (hn : s.turnTaken = some a) (h : step s = .next t) :
    ∃ u : State, (∃ ts, u = { s with plan := ts }) ∧
      ((∃ reads, t = { u with busOut := reads }) ∨ (∃ off v, t = u.regWrite off v) ∨ (∃ off n v, t = u.ramWrite off n v) ∨
        (a = .dma ∧ t = dmaStep u) ∨ (a = .reset ∧ t = u.resetStep)) := by
  obtain ⟨_, ts, -, he⟩ := step_of_turnTaken hn
  refine ⟨{ s with plan := ts }, ⟨ts, rfl⟩, ?_⟩
  rcases actStep_next (he ▸ h) with ⟨_, _, _, -, -, ht⟩ | ⟨_, n, v, -, hw⟩ | hdma | hreset
  · exact .inl ⟨_, ht⟩
  · obtain ⟨off, -, ⟨-, -, ht⟩ | ht | ⟨-, ht⟩⟩ := memWrite_some hw
    · exact .inr (.inl ⟨off, v, ht⟩)
    · exact .inl ⟨_, ht⟩
    · exact .inr (.inr (.inl ⟨off, n, v, ht⟩))
  · exact .inr (.inr (.inr (.inl hdma)))
  · exact .inr (.inr (.inr (.inr hreset)))

/-- The engine of `s` is inside the command, or decodes it next (R71, R171). -/
def State.takesUp (s : State) (i : Instr) : Prop :=
  (∃ b, s.inside = some b ∧ b.cmd = i) ∨ (s.ready ∧ s.fetch = .ok i)

/-- Everything a step without a turn can do, the invariant holding: carry out a command, fault, move the DMA agent, or
nothing. -/
theorem step_next_of_inv {s t : State} (hs : Inv s) (hn : s.turnTaken = none) (h : step s = .next t) :
    (∃ i, i.wf = true ∧ s.takesUp i ∧ s.carries i t) ∨
    (∃ r, s.ready ∧ s.fetch = .error r ∧ t = (s.takeFault (causeOf r) (s.faultWordFor r)).spend 1) ∨
    (s.dmaActive = true ∧ (s.run = .idle ∨ s.held = true) ∧ t = (dmaStep s).spend 1) ∨ t = s := by
  rcases step_next_of_no_turn hn h with ⟨i, hr, hf, he⟩ | hfault | ⟨b, -, hb, hheld, -⟩ | hmove
  · exact .inl ⟨i, (fetch_ok hf).1, .inr ⟨hr, hf⟩, .inl he⟩
  · exact .inr (.inl hfault)
  · exact .inl ⟨b.cmd, (hs.room b hb).1.wf, .inl ⟨b, hb, rfl⟩, .inr ⟨b, ⟨hs, hb, hheld, hn⟩, rfl, h⟩⟩
  · exact .inr (.inr hmove)

/-! ### The fault registers and the scanner's registers -/

/-- `FAULT_CAUSE`, `FAULT_CP` and `FAULT_WORD` (R49 to R51). -/
def State.faultRegs (s : State) : Cause × BitVec 11 × Word := (s.faultCause, s.faultCp, s.faultWord)

/-- `BTN`, `LED` and `LAST` (R52 to R54). -/
def State.scanRegs (s : State) : Byte × Byte × Byte × Control := (s.row0, s.row1, s.led, s.last)

theorem dmaStep_faultRegs (s : State) : (dmaStep s).faultRegs = s.faultRegs := by simp [State.faultRegs]

theorem dmaStep_scanRegs (s : State) : (dmaStep s).scanRegs = s.scanRegs := by simp [State.scanRegs]

/-- Of the turns of the other agents only a reset writes a fault register or a register of the scanner. -/
theorem turn_keeps_regs {s t : State} {a : Act} (hn : s.turnTaken = some a) (h : step s = .next t) :
    a = .reset ∨ (t.faultRegs = s.faultRegs ∧ t.scanRegs = s.scanRegs) := by
  obtain ⟨u, ⟨ts, rfl⟩, ⟨_, rfl⟩ | ⟨_, _, rfl⟩ | ⟨_, _, _, rfl⟩ | ⟨-, rfl⟩ | ⟨rfl, -⟩⟩ := step_next_of_turn hn h
  · exact .inr ⟨rfl, rfl⟩
  · exact .inr ⟨by simp [State.faultRegs], by simp [State.scanRegs]⟩
  · exact .inr ⟨by simp [State.faultRegs], by simp [State.scanRegs]⟩
  · exact .inr ⟨dmaStep_faultRegs _, dmaStep_scanRegs _⟩
  · exact .inl rfl

theorem engineRun_faultRegs (n : Nat) (s : State) : (engineRun n s).faultRegs = s.faultRegs := by
  simp only [State.faultRegs, engineRun_faultCause, engineRun_faultCp, engineRun_faultWord]

/-- Settles O6: the engine's runs, the DMA agent and the host leave the fault registers alone. -/
theorem faultRegistersOnlyByFaults : Obligations.FaultRegistersOnlyByFaults := by
  intro s t h hne
  change t.faultRegs ≠ s.faultRegs at hne
  cases hn : s.turnTaken with
  | some a =>
    obtain rfl := (turn_keeps_regs hn h).resolve_right fun hk => hne hk.1
    exact .inl rfl
  | none =>
    rcases step_next_of_no_turn hn h with ⟨i, -, -, he⟩ | ⟨r, hr, hf, -⟩ | ⟨b, -, -, -, rfl⟩ | ⟨-, -, rfl⟩ | rfl
    · rw [exec_eq_launch] at he
      cases he
      exact absurd (engineRun_faultRegs _ _) hne
    · exact .inr ⟨rfl, hr, r, hf⟩
    · exact absurd (engineRun_faultRegs _ _) hne
    · exact absurd (dmaStep_faultRegs s) hne
    · exact absurd rfl hne

/-- Only the commit writes the scanner's registers (R278). -/
theorem effect_scanRegs {m : Micro} (h : m ≠ .commit) (s : State) (n : Nat) (b : Position) :
    (effect s n b m).scanRegs = s.scanRegs := by
  cases m with
  | commit => exact absurd rfl h
  | pin e => simp [effect, State.scanRegs]
  | sampleMatrix _ _ => simp [effect, State.scanRegs]
  | sampleJoy _ => simp [effect, State.scanRegs]
  | _ => rfl

theorem settle_scanRegs (s : State) (b : Position) : (settle s b).scanRegs = s.scanRegs := by
  simp only [State.scanRegs, settle_row0, settle_row1, settle_led, settle_last]

theorem belongs_commit {i : Instr} (h : Micro.belongs i .commit = true) : i = .scan := by
  cases i with
  | scan => rfl
  | _ => cases h

/-- The commit is the last step of its scan (R272, R278). -/
theorem todo_of_commit {b : Position} {ms : List Micro} (ho : b.ok) (hm : b.todo = .commit :: ms) : ms = [] := by
  have hb : Micro.belongs b.cmd .commit = true := ho.belongs _ (by rw [hm]; exact List.mem_cons_self)
  have hs := belongs_commit hb
  -- the number of steps and the state `scanTail_opened` speaks of do not matter here
  rcases scanTail_opened (s := State.reset) (n := 0) (hm ▸ ho.scan hs) (hs ▸ hb) with ⟨-, h⟩ | ⟨h, -⟩
  · exact h
  · exact absurd rfl h

/-- A command keeps the scanner's registers, but for a scan that has ended. -/
theorem carries_scanRegs {s t : State} {i : Instr} (hw : i.wf = true) (ht : s.carries i t) :
    t.scanRegs = s.scanRegs ∨ (t.inside = none ∧ i = .scan) := by
  refine carries_keeps_of i hw (fun u => u.scanRegs = s.scanRegs ∨ (u.inside = none ∧ i = .scan)) ?_ ht (.inl rfl)
    (fun _ _ _ => .inl rfl)
  intro u b m ms hb ho _ hm hbel hu
  replace hu : u.scanRegs = s.scanRegs := hu.resolve_right fun h => by rw [hb] at h; cases h.1
  by_cases hc : m = .commit
  · subst hc
    obtain rfl := todo_of_commit ho hm
    exact .inr ⟨rfl, belongs_commit hbel⟩
  · exact .inl ((settle_scanRegs _ _).trans ((effect_scanRegs hc _ _ _).trans hu))

/-- Settles O28: of the block's own moves only the end of a scan, of the turns only a reset writes the scanner's registers. -/
theorem inputRegistersOnlyByScan : Obligations.InputRegistersOnlyByScan := by
  intro s t hs h hne
  change t.scanRegs ≠ s.scanRegs at hne
  cases hn : s.turnTaken with
  | some a =>
    obtain rfl := (turn_keeps_regs hn h).resolve_right fun hk => hne hk.2
    exact .inl rfl
  | none =>
    rcases step_next_of_inv hs hn h with ⟨i, hw, hup, hc⟩ | ⟨r, -, -, rfl⟩ | ⟨-, -, rfl⟩ | rfl
    · obtain ⟨hin, rfl⟩ := (carries_scanRegs hw hc).resolve_left hne
      exact .inr ⟨rfl, hin, hup⟩
    · exact absurd rfl hne
    · exact absurd (dmaStep_scanRegs s) hne
    · exact absurd rfl hne

/-! ### The sticky bits of `STATUS` -/

/-- A bit that is set only if it was set before is not newly set. -/
theorem not_newly_set {old new : Bool} {p : Prop} (h : new = true → old = true) (hnew : new = true) (hold : old = false) : p :=
  absurd (hold.symm.trans (h hnew)) Bool.false_ne_true

/-- No host write of a register sets a sticky bit (R47). -/
theorem regWrite_sticky (s : State) (off : Nat) (v : Word) :
    ((s.regWrite off v).done = true → s.done = true) ∧ ((s.regWrite off v).dmaDone = true → s.dmaDone = true) ∧
      ((s.regWrite off v).fault = true → s.fault = true) := by
  refine State.regWrite_ind
    (fun t => (t.done = true → s.done = true) ∧ (t.dmaDone = true → s.dmaDone = true) ∧ (t.fault = true → s.fault = true))
    s off v ?ctrl ?status ⟨id, id, id⟩ ⟨id, id, id⟩ ⟨id, id, id⟩ ⟨id, id, id⟩ ?speed ⟨id, id, id⟩
  case ctrl => simp
  case status => simp +contextual [State.writeStatus]
  case speed => simp

/-- A step of the DMA agent that sets `DMA_DONE` has sent the last cell and ends the transfer (R302). -/
theorem dmaStep_sets_dmaDone {s : State} (h : (dmaStep s).dmaDone = true) (h0 : s.dmaDone = false) :
    s.dmaActive = true ∧ s.dmaIdx.toNat + 1 = 57600 ∧ (dmaStep s).dmaActive = false := by
  unfold dmaStep advanceTransfer at h ⊢
  split_ifs at h ⊢ with ha hlast
  · exact ⟨ha, hlast, rfl⟩
  · exact not_newly_set id h h0
  · exact not_newly_set id h h0

/-- Only the step of `END` sets `DONE` (R176). -/
theorem effect_done {m : Micro} (h : m ≠ .stop) (s : State) (n : Nat) (b : Position) : (effect s n b m).done = s.done := by
  cases m with
  | stop => exact absurd rfl h
  | commit => exact commitScan_done _ _ _
  | pin e => exact State.pinsOut_done _ _
  | sampleMatrix _ _ => exact State.sampled_done _
  | sampleJoy _ => exact State.sampled_done _
  | _ => rfl

/-- A command keeps `DONE`, but for `END` (R47). -/
theorem carries_done {s t : State} {i : Instr} (hw : i.wf = true) (ht : s.carries i t) : t.done = s.done ∨ i = .endList := by
  refine carries_keeps_of i hw (fun u => u.done = s.done ∨ i = .endList) ?_ ht (.inl rfl) (fun _ _ _ => .inl rfl)
  intro u b m ms _ _ _ _ hbel hu
  by_cases hm : m = .stop
  · subst hm
    exact .inr (belongs_stop hbel)
  · exact hu.imp_left fun hu => by rw [settle_done, effect_done hm, State.spend_done, hu]

/-- A command sets neither `DMA_DONE` nor `FAULT` (R302, R322). -/
theorem carries_dmaDone_fault {s t : State} {i : Instr} (hw : i.wf = true) (ht : s.carries i t) :
    t.dmaDone = s.dmaDone ∧ t.fault = s.fault :=
  carries_keeps_of i hw (fun u => u.dmaDone = s.dmaDone ∧ u.fault = s.fault)
    (fun u b m ms _ _ _ _ _ hu => by simpa using hu) ht ⟨rfl, rfl⟩ (fun _ _ _ => ⟨rfl, rfl⟩)

/-- A turn sets neither `DONE` nor `FAULT`, and `DMA_DONE` only as the DMA agent's. -/
theorem turn_sticky {s t : State} {a : Act} (hn : s.turnTaken = some a) (h : step s = .next t) :
    (t.done = true → s.done = true) ∧ (t.fault = true → s.fault = true) ∧
      (t.dmaDone = true → s.dmaDone = false →
        a = .dma ∧ s.dmaActive = true ∧ s.dmaIdx.toNat + 1 = 57600 ∧ t.dmaActive = false) := by
  obtain ⟨u, ⟨ts, rfl⟩, ⟨_, rfl⟩ | ⟨off, v, rfl⟩ | ⟨_, _, _, rfl⟩ | ⟨rfl, rfl⟩ | ⟨-, rfl⟩⟩ := step_next_of_turn hn h
  · exact ⟨id, id, not_newly_set id⟩
  · obtain ⟨hd, hdma, hf⟩ := regWrite_sticky { s with plan := ts } off v
    exact ⟨hd, hf, not_newly_set hdma⟩
  · exact ⟨by simp, by simp, not_newly_set (by simp)⟩
  · exact ⟨by simp, by simp, fun ht h0 => ⟨rfl, dmaStep_sets_dmaDone ht h0⟩⟩
  · exact ⟨nofun, nofun, nofun⟩

/-- Settles O46: a turn sets at most `DMA_DONE`, a command at most `DONE`, a fault `FAULT` and the DMA agent `DMA_DONE`. -/
theorem stickyStatusSources : Obligations.StickyStatusSources := by
  intro s t hs h
  cases hn : s.turnTaken with
  | some a =>
    obtain ⟨hd, hf, hdma⟩ := turn_sticky hn h
    refine ⟨not_newly_set hd, fun ht h0 => ?_, not_newly_set hf⟩
    obtain ⟨rfl, hlast⟩ := hdma ht h0
    exact ⟨.inl rfl, hlast⟩
  | none =>
    rcases step_next_of_inv hs hn h with ⟨i, hw, hup, hc⟩ | ⟨r, hr, hf, rfl⟩ | ⟨-, hmove, rfl⟩ | rfl
    · obtain ⟨hdma, hf⟩ := carries_dmaDone_fault hw hc
      refine ⟨fun ht h0 => ⟨rfl, ?_⟩, not_newly_set hdma.symm.trans, not_newly_set hf.symm.trans⟩
      rcases carries_done hw hc with hd | rfl
      · exact not_newly_set hd.symm.trans ht h0
      · exact hup
    · exact ⟨not_newly_set id, not_newly_set id, fun _ _ => ⟨rfl, hr, r, hf⟩⟩
    · exact ⟨not_newly_set (by simp), fun ht h0 => ⟨.inr ⟨rfl, hmove⟩, dmaStep_sets_dmaDone ht h0⟩, not_newly_set (by simp)⟩
    · exact ⟨not_newly_set id, not_newly_set id, not_newly_set id⟩

/-! ### The output sequences -/

/-- From `s` to `t` events were added to the two output sequences, and the output pins followed theirs (R69, R70). -/
structure State.outputsTo (s t : State) : Prop where
  disp   : s.dispOut <:+ t.dispOut
  pins   : s.pinOut <:+ t.pinOut
  levels : PinInv s → PinInv t

theorem State.outputsTo.trans {s t u : State} (h : s.outputsTo t) (h' : t.outputsTo u) : s.outputsTo u :=
  ⟨h.disp.trans h'.disp, h.pins.trans h'.pins, h'.levels ∘ h.levels⟩

/-- A move that drives no pin. -/
theorem outputsTo_of_pins_eq {s t : State} (disp : s.dispOut <:+ t.dispOut) (pins : t.pinOut = s.pinOut)
    (data : t.srData = s.srData) (clk : t.srClk = s.srClk) (load : t.srLoad = s.srLoad) : s.outputsTo t where
  disp := disp
  pins := pins ▸ List.suffix_refl _
  levels := by
    unfold PinInv
    rw [pins, data, clk, load]
    exact id

/-- The output sequences and the levels of the output pins (R69, R70). -/
def State.outputs (s : State) : List DispEvent × List PinEvent × Bool × Bool × Bool :=
  (s.dispOut, s.pinOut, s.srData, s.srClk, s.srLoad)

/-- A move that sends nothing and drives no pin. -/
theorem outputsTo_of_eq {s t : State} (h : t.outputs = s.outputs) : s.outputsTo t := by
  simp only [State.outputs, Prod.mk.injEq] at h
  obtain ⟨disp, pins, data, clk, load⟩ := h
  exact outputsTo_of_pins_eq (disp ▸ List.suffix_refl _) pins data clk load

/-- A pin event takes its pin to its level (R17). -/
theorem outputsTo_pinsOut (s : State) (e : PinEvent) : s.outputsTo (s.pinsOut e) where
  disp := by rw [State.pinsOut_dispOut]
  pins := by rw [State.pinsOut_pinOut]; exact List.suffix_cons _ _
  levels := by
    rintro ⟨hdata, hclk, hload⟩
    obtain ⟨q, l⟩ := e
    cases q with
    | srData => exact ⟨rfl, hclk, hload⟩
    | srClk => exact ⟨hdata, rfl, hload⟩
    | srLoad => exact ⟨hdata, hclk, rfl⟩

theorem outputsTo_effect (s : State) (n : Nat) (b : Position) (m : Micro) : s.outputsTo (effect s n b m) := by
  cases m with
  | pin e => exact outputsTo_pinsOut s e
  | flush => exact outputsTo_of_pins_eq (List.suffix_cons _ _) rfl rfl rfl rfl
  | commit | sampleMatrix _ _ | sampleJoy _ => exact outputsTo_of_eq (by simp [effect, State.outputs])
  | _ => exact outputsTo_of_eq rfl

theorem outputsTo_settle (s : State) (b : Position) : s.outputsTo (settle s b) :=
  outputsTo_of_eq (by simp [State.outputs])

theorem outputsTo_engineEvent {s : State} {b : Position} (hb : s.inside = some b) : s.outputsTo (engineEvent s) := by
  cases hm : b.todo with
  | nil =>
    have he : engineEvent s = complete (s.spend 1) b.cmd := by simp only [engineEvent, hb, hm]
    rw [he]
    exact outputsTo_of_eq rfl
  | cons m ms =>
    rw [engineEvent_eq hb hm]
    have hspend : s.outputsTo (s.spend (span s m)) := outputsTo_of_eq rfl
    exact (hspend.trans (outputsTo_effect _ _ b m)).trans (outputsTo_settle _ _)

theorem outputsTo_engineRun (n : Nat) (s : State) : s.outputsTo (engineRun n s) :=
  engineRun_keeps s.outputsTo (fun _ _ hb _ _ hu => hu.trans (outputsTo_engineEvent hb)) n (outputsTo_of_eq rfl)

/-- The step of the DMA agent sends the two bytes of a cell or nothing (R302). -/
theorem outputsTo_dmaStep (s : State) : s.outputsTo (dmaStep s) := by
  refine outputsTo_of_pins_eq ?_ (by simp) (by simp) (by simp) (by simp)
  unfold dmaStep
  split_ifs
  · rw [advanceTransfer_dispOut, emitCell_dispOut]
    exact (List.suffix_cons _ _).trans (List.suffix_cons _ _)
  · exact List.suffix_refl _

/-- Every step but a reset only adds to the outputs. -/
theorem step_outputsTo {s t : State} (h : step s = .next t) : s.turnTaken = some .reset ∨ s.outputsTo t := by
  cases hn : s.turnTaken with
  | some a =>
    obtain ⟨u, ⟨ts, rfl⟩, ⟨_, rfl⟩ | ⟨_, _, rfl⟩ | ⟨_, _, _, rfl⟩ | ⟨-, rfl⟩ | ⟨rfl, -⟩⟩ := step_next_of_turn hn h
    · exact .inr (outputsTo_of_eq rfl)
    · exact .inr (outputsTo_of_eq (by simp [State.outputs]))
    · exact .inr (outputsTo_of_eq (by simp [State.outputs]))
    · exact .inr (State.outputsTo.trans (t := { s with plan := ts })
        (outputsTo_of_eq rfl) (outputsTo_dmaStep _))
    · exact .inl rfl
  | none =>
    right
    rcases step_next_of_no_turn hn h with ⟨i, -, -, he⟩ | ⟨r, -, -, rfl⟩ | ⟨b, -, -, -, rfl⟩ | ⟨-, -, rfl⟩ | rfl
    · rw [exec_eq_launch] at he
      cases he
      exact State.outputsTo.trans (t := (s.spend 1).setInside (some ⟨i, firstSteps i, 0#8, 0#8⟩))
        (outputsTo_of_eq rfl) (outputsTo_engineRun _ _)
    · exact outputsTo_of_eq rfl
    · exact outputsTo_engineRun _ s
    · exact (outputsTo_dmaStep s).trans (outputsTo_of_eq rfl)
    · exact outputsTo_of_eq rfl

/-- A reset takes the output pins to 0 and empties their sequence (R363). -/
theorem pinInv_of_reset {s t : State} (hn : s.turnTaken = some .reset) (h : step s = .next t) : PinInv t := by
  obtain ⟨_, _, -, he⟩ := step_of_turnTaken hn
  rw [he] at h
  cases h
  exact ⟨rfl, rfl, rfl⟩

/-- Settles O54: a reset sets every pin to 0 with no events, and any other step drives a pin together with its event. -/
theorem outputPinsFollowTheirEvents : Obligations.OutputPinsFollowTheirEvents := fun _ _ hs h =>
  (step_outputsTo h).elim (fun hn => pinInv_of_reset hn h) fun ho => ho.levels hs

/-- Settles O55: the events a step adds stand in front of those there were. -/
theorem outputsOnlyGrow : Obligations.OutputsOnlyGrow := by
  intro s t h
  refine (step_outputsTo h).imp_right fun ho => ?_
  obtain ⟨ds, hd⟩ := ho.disp
  obtain ⟨ps, hp⟩ := ho.pins
  exact ⟨ds, ps, hd.symm, hp.symm⟩

end Sys2Proof.Machine
end

section
/-! SUPPORT. Decode takes the words of the encoder back (30_encoding R141 to R149), so a step runs the command whose words stand
at `CP` (40_engine R171). -/

namespace Sys2Proof

/-- A header of the encoder names the row of its code (R141, R147). -/
theorem opRow?_headerWord (code : Byte) (cen : Bool) (color : Cell) :
    opRow? (headerWord code cen color) = opcodeMap.find? fun row => row.code == code := by
  simp only [opRow?, opOf_headerWord]

theorem encodeShape : ∀ i : Instr, Laws.EncodeShape.Statement i
  | .nop => Laws.EncodeShape.nop
  | .endList => Laws.EncodeShape.endList
  | .clear color => Laws.EncodeShape.clear color
  | .scan => Laws.EncodeShape.scan
  | .flush => Laws.EncodeShape.flush
  | .dmaWait => Laws.EncodeShape.dmaWait
  | .tileText o => Laws.EncodeShape.tileText o
  | .bmText o => Laws.EncodeShape.bmText o
  | .curvedText o => Laws.EncodeShape.curvedText o

/-- The header of an encoding passes the mask of the row that its code names (R148). -/
theorem headerClean_encode {i : Instr} {h : Word} {ws : List Word} {row : OpRow} (he : encode i = h :: ws)
    (hrow : opRow? h = some row) : headerClean row h = true := by
  obtain ⟨-, row', hmem, -, hhead⟩ := encodeShape i
  obtain ⟨hcode, hclean⟩ := hhead h (by rw [he]; rfl)
  have hcode' : row.code = h.extractLsb' 0 8 := by simpa using List.find?_some hrow
  have hinj : ∀ r ∈ opcodeMap, ∀ r' ∈ opcodeMap, r.code = r'.code → r = r' := by decide
  rwa [hinj row (List.mem_of_find?_eq_some hrow) row' hmem (hcode'.trans hcode)]

/-- Decode of an encoding comes down to the operands of its row. -/
theorem decode_encode_of_row {i : Instr} {h : Word} {ws : List Word} {row : OpRow} (rest : List Word)
    (he : encode i = h :: ws) (hrow : opRow? h = some row) (hl : row.len ≤ ws.length + 1)
    (hd : headerClean row h = true → decodeRow row h (ws ++ rest) = .ok i) : decode (encode i ++ rest) = .ok i := by
  have hlen : ¬ (ws ++ rest).length + 1 < row.len := by
    rw [List.length_append]
    omega
  rw [he]
  simp only [List.cons_append, decode, hrow, hlen, if_false]
  exact hd (headerClean_encode he hrow)

theorem accept_wf {clean : Bool} {i j : Instr} (hc : clean = true) (hj : j = i) (h : i.wf = true) : accept clean j = .ok i := by
  simp [accept, hc, hj, h]

/-- Decode of an encoding, whatever follows it, gives the command back (R141 to R149). -/
theorem decode_encode {i : Instr} (hw : i.wf = true) (rest : List Word) : decode (encode i ++ rest) = .ok i := by
  cases i with
  | nop => exact decode_encode_of_row rest rfl (opRow?_headerWord _ _ _) le_rfl fun hc => accept_wf hc rfl hw
  | endList => exact decode_encode_of_row rest rfl (opRow?_headerWord _ _ _) le_rfl fun hc => accept_wf hc rfl hw
  | clear color =>
    exact decode_encode_of_row rest rfl (opRow?_headerWord _ _ _) le_rfl fun hc =>
      accept_wf hc (by simp) hw
  | scan => exact decode_encode_of_row rest rfl (opRow?_headerWord _ _ _) le_rfl fun hc => accept_wf hc rfl hw
  | flush => exact decode_encode_of_row rest rfl (opRow?_headerWord _ _ _) le_rfl fun hc => accept_wf hc rfl hw
  | dmaWait => exact decode_encode_of_row rest rfl (opRow?_headerWord _ _ _) le_rfl fun hc => accept_wf hc rfl hw
  | tileText o =>
    exact decode_encode_of_row rest rfl (opRow?_headerWord _ _ _) le_rfl fun hc =>
      accept_wf (by simp [hc]) (by simp [lineTextOf]) hw
  | bmText o =>
    exact decode_encode_of_row rest rfl (opRow?_headerWord _ _ _) le_rfl fun hc =>
      accept_wf (by simp [hc]) (by simp [lineTextOf]) hw
  | curvedText o =>
    exact decode_encode_of_row rest rfl (opRow?_headerWord _ _ _) le_rfl fun hc =>
      accept_wf (by simp [hc]) (by simp [arcTextOf]) hw

end Sys2Proof

namespace Sys2Proof.Machine

theorem len_le_maxLen (i : Instr) : i.len ≤ 5 := by cases i <;> simp [Instr.len]

/-- Settles O4: the words decode reads begin with the encoding of the command. -/
theorem stepRunsTheDecodedCommand : Obligations.StepRunsTheDecodedCommand := by
  intro s i hr hd hw hfit hwords
  have htake : s.fetchWords.take (encode i).length = encode i :=
    fetchWords_take (by rw [encode_length]; exact len_le_maxLen i) (by rwa [encode_length]) (by rwa [encode_length])
  have hfetch : s.fetch = .ok i := by
    rw [State.fetch, ← List.take_append_drop (encode i).length s.fetchWords, htake]
    exact decode_encode hw _
  rw [step_ready hr hd, decodeStep, hfetch]

end Sys2Proof.Machine
end

section
/-! SUPPORT. Commands that another agent's turn cuts short (20_memory R110, 40_engine R172): the writes of `CLEAR` up to the cut
(41_clear R191), and the run that goes on behind it. -/

namespace Sys2Proof.Machine

/-- A `CLEAR` cut after its first `k` writes stands at cell `k`. -/
theorem launch_clear_cut {s : State} {color : Cell} {k : Nat} {a : Act} {ts : List Turn} (hk : k < 57600) (hpos : 0 < k)
    (hp : s.plan = ⟨k + 1, a⟩ :: ts) :
    launch (.clear color) [.fill color 0] s
      = (({ s with plan := ⟨0, a⟩ :: ts } : State).fbFill 0 k color).setInside
          (some ⟨.clear color, [.fill color k], 0#8, 0#8⟩) := by
  obtain ⟨u, hu⟩ : ∃ u : State, u = (s.spend 1).setInside (some ⟨.clear color, [.fill color 0], 0#8, 0#8⟩) := ⟨_, rfl⟩
  have hplan : u.plan = ⟨k, a⟩ :: ts := by rw [hu]; simp [hp, spendPlan]
  have hin : u.inside = some ⟨.clear color, [.fill color 0], 0#8, 0#8⟩ := by rw [hu]; rfl
  have hdue : u.turnDue = false := by simp [State.turnDue, hplan, hpos.ne']
  have hheld : u.held = false := by simp [State.held, hin, waitsForDma]
  have hspan : span u (.fill color 0) = k := by simp [span, State.burst, hplan]; omega
  have hopen : opened u k (.fill color 0) = [.fill color k] := by simp [opened, hk]
  have hrun : launch (.clear color) [.fill color 0] s = engineRun 1 u := by rw [hu]; rfl
  rw [hrun, engineRun_pos hin hdue hheld, engineRun, engineEvent_eq hin rfl, hspan, hopen]
  have hspend : u.spend k = ({ s with plan := ⟨0, a⟩ :: ts } : State).setInside u.inside := by
    rw [State.spend, show spendPlan u.plan k = ⟨0, a⟩ :: ts by simp [hplan, spendPlan], hu]
    rfl
  rw [hspend, effect_setInside, settle_setInside]
  exact settle_cons _ _ rfl

/-- Settles O12: before the first write nothing is written; else the run stops behind the `k`-th write. -/
theorem clearWritesInRisingOrder : Obligations.ClearWritesInRisingOrder := by
  intro s color k a ts hk hp
  rcases Nat.eq_zero_or_pos k with rfl | hpos
  · have hdue : (s.spend 1).turnDue = true := by simp [State.turnDue, hp, spendPlan]
    have hlaunch := launch_due (.clear color) [.fill color 0] s hdue
    refine ⟨_, congrArg Host.Outcome.next hlaunch, ?_, rfl, Option.some_ne_none _, nofun, fun i _ => rfl⟩
    simp [hp, spendPlan]
  · refine ⟨_, congrArg Host.Outcome.next (launch_clear_cut hk hpos hp), rfl, rfl, Option.some_ne_none _, ?_, ?_⟩
    · intro i hi
      exact (fbRead_fbFill s 0 k i color).trans (if_pos (by omega))
    · intro i hi
      exact (fbRead_fbFill s 0 k i color).trans (if_neg (by omega))

/-! ### Resumption -/

theorem firstSteps_ne_nil (i : Instr) : firstSteps i ≠ [] := by
  cases i <;> simp only [firstSteps] <;> (try split_ifs) <;> exact List.cons_ne_nil _ _

theorem belongsAll_firstSteps (i : Instr) : belongsAll i (firstSteps i) := by
  intro m hm
  cases i with
  | tileText o | bmText o | curvedText o =>
    simp only [firstSteps] at hm
    split_ifs at hm <;> rw [List.mem_singleton.1 hm] <;>
      simp_all [Micro.belongs, Nat.pos_iff_ne_zero, ← BitVec.toNat_inj]
  | _ => rw [List.mem_singleton.1 hm]; simp [Micro.belongs]

/-- Inside the command `i` the engine is running, and `END` has its one step left (R40, R176). -/
def State.underWay (i : Instr) (s : State) : Prop :=
  ∀ b, s.inside = some b → s.run = .running ∧ belongsAll i b.todo ∧ (i = .endList → b.todo = [.stop])

theorem underWay_between {i : Instr} {s : State} (h : s.inside = none) : s.underWay i := fun b hb => by
  rw [h] at hb
  cases hb

theorem State.underWay.event {i : Instr} {s : State} {b : Position} (h : s.underWay i) (hb : s.inside = some b) :
    (engineEvent s).underWay i := by
  obtain ⟨hr, hbel, hend⟩ := h b hb
  cases hm : b.todo with
  | nil => exact underWay_between (by simp only [engineEvent, hb, hm, complete])
  | cons m ms =>
    rw [engineEvent_eq hb hm]
    rcases settle_cases (effect (s.spend (span s m)) (span s m) b m)
      { gathered s b m with todo := opened s (span s m) m ++ ms } with ⟨-, he⟩ | ⟨hne, he⟩ <;> rw [he]
    · exact underWay_between rfl
    · have hbm : m.belongs i = true := hbel m (by rw [hm]; exact List.mem_cons_self)
      have hstop : i ≠ .endList := by
        intro hi
        have := hend hi
        rw [hm] at this
        cases this
        exact hne rfl
      have hrun : m ≠ .stop := fun hs => hstop (belongs_stop (hs ▸ hbm))
      rintro b' ⟨⟩
      refine ⟨(effect_run hrun _ _ _).trans hr, ?_, fun hi => absurd hi hstop⟩
      exact belongsAll_append (belongsAll_opened hbm) fun x hx => hbel x (by rw [hm]; exact List.mem_cons_of_mem _ hx)

/-- Without a coming turn, a cut command goes on to the end of the uncut one. -/
theorem step_calm_of_cut {s : State} {b : Position} (hr : s.run = .running) (hb : s.inside = some b) (hh : s.held = false) :
    step s.calm = .next (finish s) := by
  have hheld : s.calm.held = false := hh
  rw [step_inside (s := s.calm) hr hb rfl, hheld, finish, posWork, hb]
  rfl

/-- Settles O59: the cut run and the run that goes on behind it end where the uncut run ends. -/
theorem cutCommandsResume : Obligations.CutCommandsResume := by
  intro s u v i hr hu hv
  rw [exec_eq_launch] at hu hv
  obtain ⟨p, hp⟩ : ∃ p : State, p = (s.spend 1).setInside (some ⟨i, firstSteps i, 0#8, 0#8⟩) := ⟨_, rfl⟩
  have hu' : finish p = u := by
    rw [hp]
    exact Host.Outcome.next.inj hu
  have hv' : v = engineRun (work s.cfg (firstSteps i)) p := by
    rw [hp]
    exact (Host.Outcome.next.inj hv).symm
  have hstep : p.atStep := by
    rw [hp]
    rintro b ⟨⟩
    exact firstSteps_ne_nil i
  have hway : v.underWay i := by
    rw [hv']
    refine engineRun_keeps (State.underWay i) (fun _ _ hb _ _ h => h.event hb) _ ?_
    rw [hp]
    rintro b ⟨⟩
    exact ⟨hr, belongsAll_firstSteps i, fun hi => by rw [hi]; rfl⟩
  have hfin : finish v = u := by
    rw [hv', (finish_run _ p hstep).1, hu']
  refine ⟨fun hin => ?_, fun hin hh => ?_⟩
  · rw [← hfin]
    exact (engineRun_between (s := v.calm) hin _).symm
  · obtain ⟨b, hb⟩ := Option.ne_none_iff_exists'.1 hin
    rw [← hfin]
    exact step_calm_of_cut (hway b hb).1 hb hh

end Sys2Proof.Machine
end

section
/-! SUPPORT. The frame of `SCAN`, begun or resumed, cut short or not (45_input_scan R270, R272, R278). -/

namespace Sys2Proof.Machine

/-- `t` is `s` but for the output pins, the draws, the position and the plan: what a scan writes before its commit (R278). -/
def State.sampledTo (s t : State) : Prop :=
  t = { s with
    srData := t.srData, srClk := t.srClk, srLoad := t.srLoad, pinOut := t.pinOut,
    pins := t.pins, drawn := t.drawn, inside := t.inside, plan := t.plan }

/-- `t` is `s` but for what a scan may write (R270). -/
def State.scannedTo (s t : State) : Prop :=
  t = { s with
    row0 := t.row0, row1 := t.row1, led := t.led, sel := t.sel, last := t.last,
    upEdge := t.upEdge, downEdge := t.downEdge, menuEdge := t.menuEdge,
    speed0 := t.speed0, speed1 := t.speed1, speed2 := t.speed2, speed3 := t.speed3,
    srData := t.srData, srClk := t.srClk, srLoad := t.srLoad, pinOut := t.pinOut,
    pins := t.pins, drawn := t.drawn, inside := t.inside, cp := t.cp, plan := t.plan }

theorem State.sampledTo.trans {s t u : State} (h : s.sampledTo t) (h' : t.sampledTo u) : s.sampledTo u := by
  unfold State.sampledTo at h'
  refine h'.trans ?_
  rw [h]

theorem State.sampledTo.scannedTo {s t : State} (h : s.sampledTo t) : s.scannedTo t := by
  unfold State.sampledTo at h
  rw [h]
  rfl

theorem State.sampledTo.speed {s t : State} (h : s.sampledTo t) (n : BitVec 2) : t.speed n = s.speed n := by
  unfold State.sampledTo at h
  rw [h]
  rfl

theorem State.sampledTo.sel {s t : State} (h : s.sampledTo t) : t.sel = s.sel := by
  unfold State.sampledTo at h
  rw [h]

/-- A step of a scan before its commit drives a pin, takes a sample, or reads the mode (R272). -/
theorem sampledTo_effect {m : Micro} (hb : m.belongs .scan = true) (hm : m ≠ .commit) (s : State) (n : Nat) (b : Position) :
    s.sampledTo (effect s n b m) := by
  cases m with
  | scanMode => rfl
  | commit => exact absurd rfl hm
  | pin e => cases e with | mk q l => cases q <;> rfl
  | sampleMatrix _ _ | sampleJoy _ =>
    simp only [effect, State.sampled]
    split <;> rfl
  | _ => cases hb

/-- The commit of a scan that has sampled, together with the completion. -/
theorem scannedTo_commit {s u : State} (h : s.sampledTo u) (r0 r1 : Byte) :
    s.scannedTo (complete (commitScan u r0 r1) .scan) := by
  unfold State.sampledTo at h
  rw [h]
  apply State.ext <;> simp

/-- The commit leaves every speed alone that neither the old nor the new selection names (R275, R276). -/
theorem commitScan_speed_other (s : State) (r0 r1 : Byte) {n : BitVec 2} (hold : n ≠ s.sel)
    (hnew : n ≠ (commitScan s r0 r1).sel) : (commitScan s r0 r1).speed n = s.speed n := by
  have hne : n.toNat ≠ selAfterScan s.sel s.last r1 := by
    rw [← commitScan_sel_eq s r0 r1]
    exact fun h => hnew (BitVec.eq_of_toNat_eq h)
  simp [commitScan_speed_eq, speedAfterScan, hold, hne]

theorem scanTail_ne_nil {ms : List Micro} (h : scanTail ms) : ms ≠ [] := by
  rcases h with h | ⟨xs, h, -, -⟩ <;> rw [h] <;> simp

/-- How far a scan has come: it has sampled only, or it has ended with its commit (R278). -/
def State.scanReached (s t : State) : Prop :=
  s.sampledTo t ∨ (t.inside = none ∧ s.scannedTo t ∧ ∀ n, n ≠ s.sel → n ≠ t.sel → t.speed n = s.speed n)

/-- The commit completes a scan that has sampled. -/
theorem scanReached_commit {s u : State} {b : Position} (hu : s.sampledTo u) (hcmd : b.cmd = .scan) :
    s.scanReached (settle (effect u 1 b .commit) { b with todo := [] }) := by
  rw [settle_nil _ _ rfl]
  dsimp only [effect]
  rw [hcmd]
  refine .inr ⟨rfl, scannedTo_commit hu b.r0 b.r1, fun n hold hnew => ?_⟩
  rw [← hu.sel] at hold
  exact (commitScan_speed_other u b.r0 b.r1 hold hnew).trans (hu.speed n)

theorem carries_scanReached {s t : State} (ht : s.carries .scan t) : s.scanReached t := by
  refine carries_keeps_of .scan rfl s.scanReached ?_ ht (.inl rfl) (fun _ _ _ => .inl rfl)
  intro u b m ms hb ho hcmd hm hbel hu
  replace hu : s.sampledTo u := hu.resolve_right fun h => by rw [hb] at h; cases h.1
  have hspend : s.sampledTo (u.spend (span u m)) := hu.trans rfl
  by_cases hc : m = .commit
  · subst hc
    obtain rfl := todo_of_commit ho hm
    exact scanReached_commit hspend hcmd
  · have hleft : scanTail (opened u (span u m) m ++ ms) :=
      ((scanTail_opened (hm ▸ ho.scan hcmd) hbel).resolve_left fun h => hc h.1).2
    obtain ⟨x, xs, hx⟩ := List.exists_cons_of_ne_nil (scanTail_ne_nil hleft)
    rw [settle_cons _ _ hx]
    exact .inl ((hspend.trans (sampledTo_effect hbel hc _ _ b)).trans rfl)

/-- Settles O27: until its commit a scan has only sampled, and the commit is its last step. -/
theorem frameOfScan : Obligations.FrameOfScan := by
  intro s t ht
  rcases carries_scanReached ht with h | ⟨hin, h, hspeed⟩
  · exact ⟨h.scannedTo, fun n _ _ => h.speed n, fun _ => h⟩
  · exact ⟨h, hspeed, fun hne => absurd hin hne⟩

end Sys2Proof.Machine
end

section
/-! SUPPORT. The host's accesses to the window (20_memory R100 to R108): which are bus errors and that only those stop the machine,
and what an access to a RAM reads and writes. -/

namespace Sys2Proof.Machine

/-! ### Turns of the host -/

/-- Settles O36: a due turn is the step, and an access does not look at the coming turns. -/
theorem hostTurnIsOneAccess : Obligations.HostTurnIsOneAccess := by
  intro s addr n ts
  refine ⟨fun w hp hr => ?_, fun v t hp hw => ?_⟩
  · rw [step_turn hp (.inl rfl), actStep, memRead_plan, hr]
  · rw [step_turn hp (.inl rfl), actStep, memWrite_plan, hw]
    rfl

/-- The engine, the DMA agent and an idle block always have a next state (R321). -/
theorem blockMove_next (s : State) : ∃ t, blockMove s = .next t := by
  unfold blockMove engineMove decodeStep
  split
  · split
    · split
      · exact ⟨_, exec_eq_launch _ s⟩
      · exact ⟨_, rfl⟩
    · split <;> exact ⟨_, rfl⟩
  · split <;> exact ⟨_, rfl⟩

/-- The turn taken, if any, is a host access that is a bus error, and the fault names it (R102; log 7). -/
def State.busErrorOf (s : State) (taken : Option Act) (f : Fault) : Prop :=
  ∃ addr k, f = .hostBusError addr k ∧
    ((taken = some (.hostRead addr k) ∧ s.memRead addr k = none) ∨
      ∃ v, taken = some (.hostWrite addr k v) ∧ s.memWrite addr k v = none)

theorem busErrorOf_hostRead (s : State) (addr n : Nat) (f : Fault) :
    s.busErrorOf (some (.hostRead addr n)) f ↔ f = .hostBusError addr n ∧ s.memRead addr n = none := by
  constructor
  · rintro ⟨_, _, rfl, ⟨⟨⟩, h⟩ | ⟨_, ⟨⟩, _⟩⟩
    exact ⟨rfl, h⟩
  · rintro ⟨rfl, h⟩
    exact ⟨addr, n, rfl, .inl ⟨rfl, h⟩⟩

theorem busErrorOf_hostWrite (s : State) (addr n : Nat) (v : Word) (f : Fault) :
    s.busErrorOf (some (.hostWrite addr n v)) f ↔ f = .hostBusError addr n ∧ s.memWrite addr n v = none := by
  constructor
  · rintro ⟨_, _, rfl, ⟨⟨⟩, _⟩ | ⟨_, ⟨⟩, h⟩⟩
    exact ⟨rfl, h⟩
  · rintro ⟨rfl, h⟩
    exact ⟨addr, n, rfl, .inr ⟨v, rfl, h⟩⟩

/-- A turn never refuses, and faults exactly as a host access that is a bus error. -/
theorem actStep_stops (s : State) (ts : List Turn) (a : Act) :
    (∀ r, actStep { s with plan := ts } a ≠ .refused r) ∧
      ∀ f, actStep { s with plan := ts } a = .fault f ↔ s.busErrorOf (some a) f := by
  cases a with
  | hostRead addr n =>
    simp only [busErrorOf_hostRead, actStep, memRead_plan]
    cases s.memRead addr n with
    | none => exact ⟨nofun, fun f => by simp [eq_comm]⟩
    | some v => exact ⟨nofun, fun f => by simp⟩
  | hostWrite addr n v =>
    simp only [busErrorOf_hostWrite, actStep, memWrite_plan]
    cases s.memWrite addr n v with
    | none => exact ⟨nofun, fun f => by simp [eq_comm]⟩
    | some t => exact ⟨nofun, fun f => by simp⟩
  | dma | reset => exact ⟨nofun, fun f => by simp [actStep, State.busErrorOf]⟩

/-- Settles O60: the block's own move always has a next state, and a turn that has none is a host access. -/
theorem onlyBusErrorsStop : Obligations.OnlyBusErrorsStop := by
  intro s
  change (∀ r, step s ≠ .refused r) ∧ ∀ f, step s = .fault f ↔ s.busErrorOf s.turnTaken f
  cases hn : s.turnTaken with
  | none =>
    obtain ⟨t, ht⟩ := blockMove_next s
    rw [step_of_no_turn hn, ht]
    exact ⟨nofun, fun f => by simp [State.busErrorOf]⟩
  | some a =>
    obtain ⟨_, ts, -, he⟩ := step_of_turnTaken hn
    rw [he]
    exact actStep_stops s ts a

/-! ### Which accesses are bus errors -/

theorem inRegs_iff {off : Nat} : inRegs off = true ↔ off < 0x1000 := decide_eq_true_iff

theorem inCmd_iff {off : Nat} : inCmd off = true ↔ 0x1000 ≤ off ∧ off < 0x2000 := by simp [inCmd]

theorem inText_iff {off : Nat} : inText off = true ↔ 0x2000 ≤ off ∧ off < 0x2400 := by simp [inText]

theorem inSin_iff {off : Nat} : inSin off = true ↔ 0x3000 ≤ off ∧ off < 0x35A0 := by simp [inSin]

theorem inFb_iff {off : Nat} : inFb off = true ↔ 0x10000 ≤ off ∧ off < 0x2C200 := by simp [inFb]

/-- The widths of R100, region by region. -/
theorem mem_hostWidths {off n : Nat} :
    n ∈ hostWidths off ↔
      (inRegs off = true ∧ n = 4) ∨ (inSin off = true ∧ n = 4) ∨ (inCmd off = true ∧ n = 4) ∨
        (inText off = true ∧ (n = 1 ∨ n = 2 ∨ n = 4)) ∨ (inFb off = true ∧ (n = 2 ∨ n = 4)) := by
  rw [inRegs_iff, inSin_iff, inCmd_iff, inText_iff, inFb_iff]
  unfold hostWidths
  split_ifs <;> simp only [List.mem_cons, List.not_mem_nil, or_false, false_iff] <;> omega

theorem wordAccess_iff {off n : Nat} : wordAccess off n = true ↔ n = 4 ∧ off % n = 0 := by
  unfold wordAccess
  rw [Bool.and_eq_true, beq_iff_eq, beq_iff_eq]
  exact and_congr_right fun h => by rw [h]

theorem ramAccess_iff {off n : Nat} :
    ramAccess off n = true ↔ off % n = 0 ∧
      ((inCmd off = true ∧ n = 4) ∨ (inText off = true ∧ (n = 1 ∨ n = 2 ∨ n = 4)) ∨ (inFb off = true ∧ (n = 2 ∨ n = 4))) := by
  simp only [ramAccess, Bool.and_eq_true, Bool.or_eq_true, beq_iff_eq, or_assoc]

/-- One of the model's regions takes the access (R100, R102). -/
def regionTakes (off n : Nat) : Prop :=
  (inRegs off = true ∧ wordAccess off n = true) ∨ (inSin off = true ∧ wordAccess off n = true) ∨ ramAccess off n = true

/-- An aligned access of a width that R100 lists is one that a region takes. -/
theorem listed_iff {off n : Nat} : (n ∈ hostWidths off ∧ off % n = 0) ↔ regionTakes off n := by
  rw [regionTakes, mem_hostWidths, wordAccess_iff, ramAccess_iff]
  constructor
  · rintro ⟨h | h | h, ha⟩
    · exact .inl ⟨h.1, h.2, ha⟩
    · exact .inr (.inl ⟨h.1, h.2, ha⟩)
    · exact .inr (.inr ⟨ha, h⟩)
  · rintro (⟨hr, hn, ha⟩ | ⟨hr, hn, ha⟩ | ⟨ha, h⟩)
    · exact ⟨.inl ⟨hr, hn⟩, ha⟩
    · exact ⟨.inr (.inl ⟨hr, hn⟩), ha⟩
    · exact ⟨.inr (.inr h), ha⟩

theorem readAt_none_iff (s : State) (off n : Nat) : s.readAt off n = none ↔ ¬ regionTakes off n := by
  unfold State.readAt regionTakes
  simp only [Bool.and_eq_true]
  split_ifs with hreg hsin hram
  · simp [hreg]
  · simp [hsin]
  · simp [hram]
  · simp [hreg, hsin, hram]

theorem sinWrite_outside {off : Nat} (n : Nat) (h : inSin off = false) : sinWrite off n = false := by
  simp [sinWrite, h]

theorem writeAt_none_iff (s : State) {off : Nat} (n : Nat) (v : Word) (h : inSin off = false) :
    s.writeAt off n v = none ↔ ¬ regionTakes off n := by
  unfold State.writeAt regionTakes
  simp only [Bool.and_eq_true, sinWrite_outside n h, h, Bool.false_eq_true, false_and, false_or, if_false]
  split_ifs with hreg hram
  · simp [hreg]
  · simp [hram]
  · simp [hreg, hram]

/-- Settles O41: the accesses that no region takes are those that R100 does not list. -/
theorem busErrors : Obligations.BusErrors := by
  intro s off n v hoff
  rw [hostRead_in s n hoff, hostWrite_in s n v hoff, listed_iff]
  refine ⟨readAt_none_iff s off n, fun hsin => writeAt_none_iff s n v ?_⟩
  rw [← Bool.not_eq_true, inSin_iff]
  omega

/-! ### Accesses to a RAM -/

theorem isRam_iff {off : Nat} : isRam off = true ↔ inCmd off = true ∨ inText off = true ∨ inFb off = true := by
  simp only [isRam, inCmd, inText, inFb, Bool.or_eq_true, or_assoc]

/-- A listed, aligned access to a RAM is the RAM's own. -/
theorem ramAccess_of_listed {off n : Nat} (hr : isRam off = true) (hn : n ∈ hostWidths off) (ha : off % n = 0) :
    ramAccess off n = true ∧ inRegs off = false ∧ inSin off = false := by
  rw [isRam_iff, inCmd_iff, inText_iff, inFb_iff] at hr
  have hregs : inRegs off = false := by
    rw [← Bool.not_eq_true, inRegs_iff]
    omega
  have hsin : inSin off = false := by
    rw [← Bool.not_eq_true, inSin_iff]
    omega
  exact ⟨by simpa [regionTakes, hregs, hsin] using listed_iff.1 ⟨hn, ha⟩, hregs, hsin⟩

theorem listed_width {off n : Nat} (h : n ∈ hostWidths off) : n ≤ 4 := by
  have := mem_hostWidths.1 h
  omega

theorem isRam_lt {off : Nat} (h : isRam off = true) : off < 0x40000 := by
  rw [isRam_iff, inCmd_iff, inText_iff, inFb_iff] at h
  omega

theorem hostRead_ram (s : State) {off n : Nat} (hr : isRam off = true) (hn : n ∈ hostWidths off) (ha : off % n = 0) :
    s.hostRead off n = some (s.ramRead off n) := by
  obtain ⟨hram, hregs, hsin⟩ := ramAccess_of_listed hr hn ha
  rw [hostRead_in s n (isRam_lt hr)]
  simp [State.readAt, hregs, hsin, hram]

theorem hostWrite_ram (s : State) {off n : Nat} (v : Word) (hr : isRam off = true) (hn : n ∈ hostWidths off) (ha : off % n = 0) :
    s.hostWrite off n v = some (s.ramWrite off n v) := by
  obtain ⟨hram, hregs, hsin⟩ := ramAccess_of_listed hr hn ha
  rw [hostWrite_in s n v (isRam_lt hr)]
  simp [State.writeAt, hregs, sinWrite_outside n hsin, hram]

/-- A byte after successive byte writes. -/
theorem ramByte_putBytes (s : State) (a c : Nat) (bs : List Byte) :
    (s.putBytes a bs).ramByte c = if a ≤ c then (bs[c - a]?).getD (s.ramByte c) else s.ramByte c := by
  induction bs generalizing s a with
  | nil => simp [State.putBytes]
  | cons b bs ih =>
    rw [State.putBytes, ih, ramByte_putByte]
    rcases Nat.lt_trichotomy c a with h | rfl | h
    · rw [if_neg (by omega), if_neg (by omega), if_neg (by omega)]
    · simp
    · have hsub : c - a = (c - (a + 1)) + 1 := by omega
      rw [if_pos (by omega), if_neg (by omega), if_pos (by omega), hsub, List.getElem?_cons_succ]

theorem putBytes_eq (s : State) (a : Nat) (bs : List Byte) : s.putBytes a bs = { s with mem := (s.putBytes a bs).mem } := by
  induction bs generalizing s a with
  | nil => rfl
  | cons b bs ih => exact ih (s.putByte a b) (a + 1)

theorem bytesOfWord_getElem? (v : Word) {k : Nat} (h : k < 4) : (bytesOfWord v)[k]? = some (v.extractLsb' (8 * k) 8) := by
  interval_cases k <;> rfl

theorem ramByte_ramWrite (s : State) (off n : Nat) (v : Word) {k : Nat} (hk : k < n) (hn : n ≤ 4) :
    (s.ramWrite off n v).ramByte (off + k) = v.extractLsb' (8 * k) 8 := by
  rw [State.ramWrite, ramByte_putBytes, if_pos (Nat.le_add_right _ _), Nat.add_sub_cancel_left, List.getElem?_take_of_lt hk,
    bytesOfWord_getElem? v (by omega), Option.getD_some]

theorem ramByte_ramWrite_other (s : State) (off n : Nat) (v : Word) {a : Nat} (h : a < off ∨ off + n ≤ a) :
    (s.ramWrite off n v).ramByte a = s.ramByte a := by
  rw [State.ramWrite, ramByte_putBytes]
  split_ifs with hle
  · rw [List.getElem?_take, if_neg (by omega), Option.getD_none]
  · rfl

/-! ### Words and bytes -/

/-- A word shifted up by a byte, with a byte below it. -/
theorem toNat_shift_or (x : Word) (b : Byte) (h : x.toNat < 2 ^ 24) :
    ((x <<< 8) ||| b.setWidth 32).toNat = 2 ^ 8 * x.toNat + b.toNat := by
  have hb := b.isLt
  rw [BitVec.toNat_or, BitVec.toNat_shiftLeft, BitVec.toNat_setWidth, Nat.mod_eq_of_lt (by omega : b.toNat < 2 ^ 32),
    Nat.shiftLeft_eq, Nat.mod_eq_of_lt (by omega), Nat.mul_comm, Nat.two_pow_add_eq_or_of_lt hb]

theorem extract_lowByte (x : Word) (b : Byte) : ((x <<< 8) ||| b.setWidth 32).extractLsb' (8 * 0) 8 = b := by
  ext j hj
  have hj32 : j < 32 := by omega
  simp [hj, hj32, BitVec.getLsbD_eq_getElem]

theorem extract_higherByte (x : Word) (b : Byte) {k : Nat} (hk : k < 3) :
    ((x <<< 8) ||| b.setWidth 32).extractLsb' (8 * (k + 1)) 8 = x.extractLsb' (8 * k) 8 := by
  ext j hj
  have hlt : 8 * (k + 1) + j < 32 := by omega
  have hge : ¬ 8 * (k + 1) + j < 8 := by omega
  have hsub : 8 * (k + 1) + j - 8 = 8 * k + j := by omega
  have hb : b.getLsbD (8 * (k + 1) + j) = false := BitVec.getLsbD_of_ge _ _ (by omega)
  simp only [BitVec.getElem_extractLsb', BitVec.getLsbD_or, BitVec.getLsbD_shiftLeft, BitVec.getLsbD_setWidth, hlt, hge, hsub, hb,
    decide_true, decide_false, Bool.not_false, Bool.true_and, Bool.and_false, Bool.or_false]

theorem ramRead_lt (s : State) (off : Nat) {n : Nat} (hn : n ≤ 4) : (s.ramRead off n).toNat < 256 ^ n := by
  induction n generalizing off with
  | zero => exact Nat.one_pos
  | succ n ih =>
    have hx := ih (off + 1) (by omega)
    have hb := (s.ramByte off).isLt
    have hpow : 256 ^ n ≤ 256 ^ 3 := Nat.pow_le_pow_right (by decide) (by omega)
    rw [State.ramRead, toNat_shift_or _ _ (by omega), Nat.pow_succ]
    omega

/-- The bytes of a RAM read are those that stand there (R103). -/
theorem ramRead_byte (s : State) (off : Nat) {n k : Nat} (hn : n ≤ 4) (hk : k < n) :
    (s.ramRead off n).extractLsb' (8 * k) 8 = s.ramByte (off + k) := by
  induction n generalizing off k with
  | zero => omega
  | succ n ih =>
    rw [State.ramRead]
    cases k with
    | zero => exact extract_lowByte _ _
    | succ k =>
      rw [extract_higherByte _ _ (by omega), ih (off + 1) (by omega) (by omega), show off + 1 + k = off + (k + 1) by omega]

/-- Settles O42: a listed access to a RAM is `ramWrite` or `ramRead`, which go byte by byte. -/
theorem ramAccessesAreLittleEndian : Obligations.RamAccessesAreLittleEndian := by
  intro s off n v hr hn ha
  have h4 := listed_width hn
  refine ⟨⟨s.ramWrite off n v, hostWrite_ram s v hr hn ha, putBytes_eq s off _, fun k hk => ramByte_ramWrite s off n v hk h4,
    fun a h => ramByte_ramWrite_other s off n v h⟩, s.ramRead off n, hostRead_ram s hr hn ha,
    fun k hk => ramRead_byte s off h4 hk, ramRead_lt s off h4⟩

/-- Two words of `n` bytes are equal when their bytes are. -/
theorem word_eq_of_bytes {v w : Word} {n : Nat} (hv : v.toNat < 256 ^ n) (hw : w.toNat < 256 ^ n)
    (h : ∀ k < n, v.extractLsb' (8 * k) 8 = w.extractLsb' (8 * k) 8) : v = w := by
  have high : ∀ x : Word, x.toNat < 256 ^ n → ∀ j, 8 * n ≤ j → x.getLsbD j = false := fun x hx j hj => by
    refine Nat.testBit_lt_two_pow (lt_of_lt_of_le hx ?_)
    rw [show (256 : Nat) = 2 ^ 8 from rfl, ← Nat.pow_mul]
    exact Nat.pow_le_pow_right (by decide) hj
  apply BitVec.eq_of_getLsbD_eq
  intro j _
  rcases Nat.lt_or_ge j (8 * n) with hj | hj
  · have hbit := congrArg (fun b => b.getLsbD (j % 8)) (h (j / 8) (by omega))
    have hdiv : 8 * (j / 8) + j % 8 = j := Nat.div_add_mod j 8
    simpa [Nat.mod_lt, hdiv] using hbit
  · rw [high v hv j hj, high w hw j hj]

theorem dmaStep_iterate (k : Nat) (s : State) : (dmaStep^[k] s).mem = s.mem ∧ (dmaStep^[k] s).resets = s.resets := by
  induction k with
  | zero => exact ⟨rfl, rfl⟩
  | succ k ih =>
    rw [Function.iterate_succ_apply']
    exact ⟨(dmaStep_mem _).trans ih.1, (dmaStep_resets _).trans ih.2⟩

/-- Settles O43: the DMA agent writes no memory, and a read of the two bytes written gives them back. -/
theorem framebufferWriteThenRead : Obligations.FramebufferWriteThenRead := by
  intro s t i c hi ht k
  have hr : isRam (0x10000 + 2 * i) = true := isRam_fb (by simp) (by simp; omega)
  have hn : 2 ∈ hostWidths (0x10000 + 2 * i) := mem_hostWidths.2 (by rw [inFb_iff]; omega)
  have ha : (0x10000 + 2 * i) % 2 = 0 := by omega
  rw [hostWrite_ram s _ hr hn ha] at ht
  cases ht
  obtain ⟨hm, hres⟩ := dmaStep_iterate k (s.ramWrite (0x10000 + 2 * i) 2 (c.setWidth 32))
  rw [hostRead_ram _ hr hn ha, ramRead_congr hm hres]
  congr 1
  refine word_eq_of_bytes (ramRead_lt _ _ (by decide)) ?_ fun k hk => ?_
  · rw [BitVec.toNat_setWidth]
    have := c.isLt
    omega
  · rw [ramRead_byte _ _ (by decide) hk, ramByte_ramWrite _ _ _ _ hk (by decide)]

end Sys2Proof.Machine
end

section
/-! SUPPORT. Who writes memory (20_memory R113, R115; 46_display_dma R305): of the turns only the host's writes and a reset, of the
block's own moves only a command, and that in the framebuffer only. -/

namespace Sys2Proof.Machine

/-- A host read and a step of the DMA agent leave the RAMs alone (R105, R305). -/
theorem turn_mem {s t : State} {a : Act} (hn : s.turnTaken = some a) (h : step s = .next t) (hreset : a ≠ .reset)
    (hwrite : ∀ addr k v, a ≠ .hostWrite addr k v) : t.mem = s.mem ∧ t.resets = s.resets := by
  obtain ⟨_, ts, -, he⟩ := step_of_turnTaken hn
  rcases actStep_next (he ▸ h) with ⟨_, _, _, -, -, rfl⟩ | ⟨addr, k, v, ha, -⟩ | ⟨-, rfl⟩ | ⟨ha, -⟩
  · exact ⟨rfl, rfl⟩
  · exact absurd ha (hwrite addr k v)
  · exact ⟨dmaStep_mem _, dmaStep_resets _⟩
  · exact absurd ha hreset

/-- Strokes do not reach command RAM and text RAM (R15, R100). -/
theorem not_strokesTouch_below {a : Nat} (ha : a < 0x10000) (qs : List Stroke) : ¬ strokesTouch qs a := fun h => by
  have := strokesTouch_fb h
  omega

/-- Without a turn, the step carries out a command of a running engine, which leaves every byte below the framebuffer, or leaves
all of memory. -/
theorem own_move_mem {s t : State} (hs : Inv s) (hn : s.turnTaken = none) (h : step s = .next t) :
    (s.run = .running ∧ s.held = false ∧ ∀ a, a < 0x10000 → t.ramByte a = s.ramByte a) ∨
      (t.mem = s.mem ∧ t.resets = s.resets) := by
  rcases step_next_of_no_turn hn h with ⟨i, hr, hf, he⟩ | ⟨r, -, -, rfl⟩ | ⟨b, hr, hb, hheld, -⟩ | ⟨-, -, rfl⟩ | rfl
  · refine .inl ⟨hr.1, by simp [State.held, hr.2], fun a ha => ?_⟩
    exact exec_byte (fetch_ok hf).1 he fun _ _ => not_strokesTouch_below ha _
  · exact .inr ⟨rfl, rfl⟩
  · exact .inl ⟨hr, hheld, fun a ha => resumed_byte ⟨hs, hb, hheld, hn⟩ h (not_strokesTouch_below ha _)⟩
  · exact .inr ⟨dmaStep_mem s, dmaStep_resets s⟩
  · exact .inr ⟨rfl, rfl⟩

/-- Settles O57: a turn that is neither a host write nor a reset leaves memory, and a command draws in the framebuffer only. -/
theorem onlyTheHostWritesCommandAndTextRam : Obligations.OnlyTheHostWritesCommandAndTextRam := by
  intro s t hs h hreset hwrite
  cases hn : s.turnTaken with
  | some a =>
    obtain ⟨hm, hr⟩ := turn_mem hn h (fun ha => hreset (ha ▸ hn)) fun addr k v ha => hwrite addr k v (ha ▸ hn)
    exact ⟨fun a _ => ramByte_congr hm hr a, fun _ => hm⟩
  | none =>
    rcases own_move_mem hs hn h with ⟨hrun, hheld, hbytes⟩ | ⟨hm, hr⟩
    · refine ⟨hbytes, fun hstill => ?_⟩
      simp [hrun, hheld] at hstill
    · exact ⟨fun a _ => ramByte_congr hm hr a, fun _ => hm⟩

end Sys2Proof.Machine
end

section
/-! SUPPORT. The encoder takes the words of decode back (30_encoding R141 to R149): with the reserved bits 0, the fields that decode
reads from a word are all of it. -/

namespace Sys2Proof

/-! ### Headers that pass their mask -/

/-- A field inside a field that is 0 is 0. -/
theorem extract_eq_zero_of_within {h : Word} {lo n lo' n' : Nat} (hz : h.extractLsb' lo n = 0#n) (hlo : lo ≤ lo')
    (hhi : lo' + n' ≤ lo + n) : h.extractLsb' lo' n' = 0#n' := by
  refine extract_eq_zero.2 fun k hk => ?_
  have hbit := extract_eq_zero.1 hz (lo' - lo + k) (by omega)
  rwa [show lo + (lo' - lo + k) = lo' + k by omega] at hbit

section Header

variable {row : OpRow} {h : Word} (hop : h.extractLsb' 0 8 = row.code) (hc : headerClean row h = true)
include hop hc

/-- A clean header with a colour and the centre flag is made of its code and these two (R141, R148). -/
theorem headerWord_of_clean_centred (hm : row.mask = 0x0000FEFF#32) : headerWord row.code (cenOf h) (colorOf h) = h := by
  rw [headerClean_iff, hm, masked_centre hop] at hc
  exact hop ▸ headerWord_fields h hc

/-- A clean header with a colour is made of its code and the colour (R141, R148). -/
theorem headerWord_of_clean_colored (hm : row.mask = 0x0000FFFF#32) : headerWord row.code false (colorOf h) = h := by
  rw [headerClean_iff, hm, masked_color hop] at hc
  have hcen : cenOf h = false := extract_eq_zero.1 hc 0 (by omega)
  have hfields := headerWord_fields h (extract_eq_zero_of_within hc (by omega) (by omega))
  rwa [hop, hcen] at hfields

/-- A clean header without operand fields is made of its code (R141, R148). -/
theorem headerWord_of_clean_plain (hm : row.mask = 0xFFFFFFFF#32) : headerWord row.code false 0#16 = h := by
  rw [headerClean_iff, hm, masked_plain hop] at hc
  have hcen : cenOf h = false := extract_eq_zero.1 hc 0 (by omega)
  have hcolor : colorOf h = 0#16 := extract_eq_zero_of_within hc (by omega) (by omega)
  have hfields := headerWord_fields h (extract_eq_zero_of_within hc (by omega) (by omega))
  rwa [hop, hcen, hcolor] at hfields

end Header

theorem textWord_of_clean {w : Word} (hc : textWordClean w = true) : textWord (lowHalf w) (tlenOf w) = w :=
  textWord_fields (eq_of_beq hc)

theorem radiusWord_of_clean {w : Word} (hc : radiusWordClean w = true) : radiusWord (lowHalf w) = w :=
  radiusWord_fields (eq_of_beq hc)

/-! ### The words of a decoded command -/

/-- The three words of a text command, from the operands read from them (R141 to R143). -/
theorem lineText_words {row : OpRow} {h w1 w2 : Word} (hop : h.extractLsb' 0 8 = row.code) (hm : row.mask = 0x0000FEFF#32)
    (hc : (headerClean row h && textWordClean w2) = true) :
    [headerWord row.code (cenOf h) (colorOf h), coordWord (lowHalf w1) (highHalf w1), textWord (lowHalf w2) (tlenOf w2)]
      = [h, w1, w2] := by
  obtain ⟨hh, ht⟩ := Bool.and_eq_true_iff.1 hc
  rw [headerWord_of_clean_centred hop hh hm, coordWord_fields, textWord_of_clean ht]

/-- The five words of `CURVED_TEXT`, from the operands read from them (R141 to R145). -/
theorem arcText_words {row : OpRow} {h w1 w2 w4 : Word} (w3 : Word) (hop : h.extractLsb' 0 8 = row.code)
    (hm : row.mask = 0x0000FFFF#32) (hc : (headerClean row h && textWordClean w2 && radiusWordClean w4) = true) :
    [headerWord row.code false (colorOf h), coordWord (lowHalf w1) (highHalf w1), textWord (lowHalf w2) (tlenOf w2), w3,
      radiusWord (lowHalf w4)] = [h, w1, w2, w3, w4] := by
  obtain ⟨hht, hr⟩ := Bool.and_eq_true_iff.1 hc
  obtain ⟨hh, ht⟩ := Bool.and_eq_true_iff.1 hht
  rw [headerWord_of_clean_colored hop hh hm, coordWord_fields, textWord_of_clean ht, radiusWord_of_clean hr]

theorem accept_clean {clean : Bool} {i j : Instr} (h : accept clean j = .ok i) : clean = true := by
  unfold accept at h
  split_ifs at h with hc
  exact hc

/-- An accepted command begins the words when its encoding, the reserved bits being 0, is words that they begin with. -/
theorem encode_prefix_of_accept {clean : Bool} {i j : Instr} {l ws : List Word} (hd : accept clean j = .ok i)
    (he : clean = true → encode j = l) (hl : l <+: ws) : encode i <+: ws := by
  obtain ⟨rfl, -⟩ := Machine.accept_ok hd
  rwa [he (accept_clean hd)]

/-- A command that a row of the opcode map gives is encoded in the words it was read from (R147, R148). The cases are the rows
in the map's order; a text command is read only where all its operand words stand. -/
theorem encode_prefix_of_decodeRow {row : OpRow} {h : Word} {ws : List Word} {i : Instr} (hmem : row ∈ opcodeMap)
    (hop : h.extractLsb' 0 8 = row.code) (hd : decodeRow row h ws = .ok i) : encode i <+: h :: ws := by
  have plain : ∀ {j : Instr}, accept (headerClean row h) j = .ok i → row.mask = 0xFFFFFFFF#32 →
      encode j = [headerWord row.code false 0#16] → encode i <+: h :: ws := fun ha hm he =>
    encode_prefix_of_accept ha (fun hc => he.trans (congrArg ([·]) (headerWord_of_clean_plain hop hc hm))) ⟨ws, rfl⟩
  simp only [opcodeMap, List.mem_cons, List.not_mem_nil, or_false] at hmem
  rcases hmem with rfl | rfl | rfl | rfl | rfl | rfl | rfl | rfl | rfl
  · exact plain hd rfl rfl
  · exact plain hd rfl rfl
  · exact encode_prefix_of_accept hd (fun hc => congrArg ([·]) (headerWord_of_clean_colored hop hc rfl)) ⟨ws, rfl⟩
  · exact plain hd rfl rfl
  · exact plain hd rfl rfl
  · exact plain hd rfl rfl
  · match ws, hd with
    | w1 :: w2 :: rest, hd => exact encode_prefix_of_accept hd (fun hc => lineText_words hop rfl hc) ⟨rest, rfl⟩
  · match ws, hd with
    | w1 :: w2 :: rest, hd => exact encode_prefix_of_accept hd (fun hc => lineText_words hop rfl hc) ⟨rest, rfl⟩
  · match ws, hd with
    | w1 :: w2 :: w3 :: w4 :: rest, hd =>
      exact encode_prefix_of_accept hd (fun hc => arcText_words w3 hop rfl hc) ⟨rest, rfl⟩

/-- The words a command is decoded from begin with its encoding (R141 to R149). -/
theorem encode_prefix_of_decode {ws : List Word} {i : Instr} (hd : decode ws = .ok i) : encode i <+: ws := by
  unfold decode at hd
  split at hd
  case h_1 => cases hd
  case h_2 h rest =>
    split at hd
    case h_1 => cases hd
    case h_2 row hrow =>
      split_ifs at hd
      have hop : row.code = h.extractLsb' 0 8 := by simpa using List.find?_some hrow
      exact encode_prefix_of_decodeRow (List.mem_of_find?_eq_some hrow) hop.symm hd

/-! ### The obligations -/

/-- Settles O1: a header of the encoder names its row, and every word gives back the fields it was made of. -/
theorem encodingRoundTrip : Obligations.EncodingRoundTrip := fun _ rest hw => decode_encode hw rest

/-- Settles O2: the words begin with the encoding, whose length is that of the command. -/
theorem decodedWordsAreTheEncoding : Obligations.DecodedWordsAreTheEncoding := by
  intro ws i hd
  obtain ⟨hw, hl⟩ := Machine.decode_ok hd
  refine ⟨hw, hl, ?_⟩
  rw [← encode_length]
  exact (List.prefix_iff_eq_take.1 (encode_prefix_of_decode hd)).symm

/-- Settles O3: closed words, decoded and encoded by evaluation. -/
theorem writtenWordsDecode : Obligations.WrittenWordsDecode := by
  unfold Obligations.WrittenWordsDecode
  decide

end Sys2Proof
end

section
/-! SUPPORT. The start of a run (40_engine R170) and the commands that take no more than one step when nothing cuts in (R175, R176;
46_display_dma R301, R306). -/

namespace Sys2Proof.Machine

/-! ### The start -/

/-- An idle engine starts at `CL_BASE` (R170). -/
theorem start_idle {s : State} (h : s.run = .idle) : s.start = { s with run := .running, cp := s.clBase.setWidth 11 } := by
  rw [State.start, h]

/-- A running engine ignores a start (R170). -/
theorem start_running {s : State} (h : s.run = .running) : s.start = s := by
  rw [State.start, h]

/-- With bit 0, a write of `CTRL` stores `SCAN_MODE` and starts the engine (R46). -/
theorem writeCtrl_start (s : State) {v : Word} (h : v.getLsbD 0 = true) :
    s.writeCtrl v = (s.setScanMode (v.getLsbD 1)).start := if_pos h

/-- Settles O7: the write of `CTRL` is the store of `SCAN_MODE` and then the start. -/
theorem startSetsCpAndRun : Obligations.StartSetsCpAndRun := by
  intro s v hv
  have hctrl := writeCtrl_start s hv
  exact ⟨fun hr => hostWrite_of_regWrite (hctrl.trans (start_idle hr)),
    fun hr => hostWrite_of_regWrite (hctrl.trans (start_running hr))⟩

/-! ### Commands of one step -/

/-- A position with one step left that opens no other and is not held completes in that step. -/
theorem drive_last {s : State} {b : Position} {m : Micro} (hp : s.plan = []) (hw : waitsForDma m = true → s.dmaActive = false)
    (hb : b.todo = [m]) (ho : opened s (span s m) m = []) : drive s b = complete (effect s (span s m) b m) b.cmd := by
  rw [drive_cons s b m [] hp hw hb, ho, List.append_nil, drive_nil, gathered_cmd]

/-- A command of one step that opens no other and is not held completes in that step. -/
theorem exec_one_step {s : State} {i : Instr} {m : Micro} (hp : s.plan = []) (hf : firstSteps i = [m])
    (hw : waitsForDma m = true → s.dmaActive = false) (ho : opened s (span s m) m = []) :
    exec i s = .next (complete (effect s (span s m) ⟨i, [m], 0#8, 0#8⟩ m) i) := by
  rw [exec_eq_launch, hf, launch_quiet i [m] s hp (List.cons_ne_nil _ _), drive_last hp hw rfl ho]

/-- Settles O8: the one step of `NOP` does nothing but complete. -/
theorem nopOnlyAdvances : Obligations.NopOnlyAdvances := fun _ hp =>
  exec_one_step (m := .advance) hp rfl nofun rfl

/-- Settles O9: the one step of `END` stops the engine, and `END` completes with `CP` moved on by 0. -/
theorem endStopsAndKeepsCp : Obligations.EndStopsAndKeepsCp := by
  intro s hp
  have hstop := exec_one_step (i := .endList) (m := .stop) hp rfl nofun rfl
  have hcp : s.cp + BitVec.ofNat 11 (cpAdvance .endList) = s.cp := BitVec.add_zero _
  simpa only [complete, effect, hcp] using hstop

end Sys2Proof.Machine
end

section
/-! SUPPORT. The rest of a transfer (46_display_dma R302, R303, R308), and the `FLUSH` that waits for its end (40_engine R177, R300,
R311). -/

namespace Sys2Proof.Machine

/-! ### The DMA agent's step -/

/-- A step of the DMA agent in a transfer: a cell goes out, and the last cell ends the transfer (R302). -/
theorem dmaStep_active {s : State} (h : s.dmaActive = true) :
    dmaStep s = { s with
      dmaActive := !decide (s.dmaIdx.toNat + 1 = 57600), dmaDone := s.dmaDone || decide (s.dmaIdx.toNat + 1 = 57600),
      dmaIdx := s.dmaIdx + 1#17,
      dispOut := .byte (cellHi (s.fbRead s.dmaIdx.toNat)) :: .byte (cellLo (s.fbRead s.dmaIdx.toNat)) :: s.dispOut } := by
  have hstep : dmaStep s = advanceTransfer (emitCell s) := if_pos h
  rw [hstep, advanceTransfer, emitCell_dmaIdx]
  split_ifs with hlast
  · have hlast' : s.dmaIdx.toNat + 1 = 57600 := hlast
    simp only [hlast', decide_true, Bool.not_true, Bool.or_true]
    rfl
  · have hlast' : ¬ s.dmaIdx.toNat + 1 = 57600 := hlast
    simp only [hlast', decide_false, Bool.not_false, Bool.or_false, ← h]
    rfl

/-! ### A transfer under way -/

/-- The state after the next `k` cells of a transfer are sent (R302). -/
def State.sentCells (s : State) (k : Nat) : State :=
  { s with
    dmaActive := decide (s.dmaIdx.toNat + k < 57600), dmaDone := s.dmaDone || decide (s.dmaIdx.toNat + k = 57600),
    dmaIdx := s.dmaIdx + BitVec.ofNat 17 k, dispOut := (s.cellBytes s.dmaIdx.toNat k).reverse ++ s.dispOut }

theorem sentCells_zero {s : State} (ha : s.dmaActive = true) (hlt : s.dmaIdx.toNat < 57600) : s.sentCells 0 = s := by
  simp [State.sentCells, State.cellBytes, hlt, hlt.ne, ← ha]

theorem sentCells_dmaActive {s : State} {k : Nat} (h : s.dmaIdx.toNat + k < 57600) : (s.sentCells k).dmaActive = true :=
  decide_eq_true h

/-- The bytes of one cell more, newest first (R302, R304). -/
theorem cellBytes_succ_reverse (s : State) (lo n : Nat) :
    (s.cellBytes lo (n + 1)).reverse
      = .byte (cellHi (s.fbRead (lo + n))) :: .byte (cellLo (s.fbRead (lo + n))) :: (s.cellBytes lo n).reverse := by
  rw [State.cellBytes, List.range_succ, List.flatMap_append, List.flatMap_singleton, List.reverse_append]
  rfl

/-- One step of the DMA agent sends the next cell (R302). -/
theorem dmaStep_sentCells {s : State} {k : Nat} (h : s.dmaIdx.toNat + k < 57600) :
    dmaStep (s.sentCells k) = s.sentCells (k + 1) := by
  have hidx : (s.sentCells k).dmaIdx.toNat = s.dmaIdx.toNat + k := by
    simp only [State.sentCells, BitVec.toNat_add, BitVec.toNat_ofNat]
    omega
  rw [dmaStep_active (sentCells_dmaActive h), hidx]
  simp only [State.sentCells, State.mk.injEq, true_and, and_true]
  refine ⟨?done, ?active, ?idx, ?out⟩
  case done => simp [h.ne, Nat.add_assoc]
  case active =>
    rw [← decide_not, decide_eq_decide]
    omega
  case idx => rw [BitVec.add_assoc, BitVec.ofNat_add]
  case out => rw [cellBytes_succ_reverse]; rfl

/-! ### Runs -/

/-- A run of `n` steps and more along a sequence of states, each of them the step of the one before. -/
theorem run_along {f : Nat → State} {n : Nat} (h : ∀ k < n, step (f k) = .next (f (k + 1))) (m : Nat) :
    Sys2Proof.core.run (n + m) (f 0) = Sys2Proof.core.run m (f n) := by
  induction n generalizing m with
  | zero => rw [Nat.zero_add]
  | succ n ih =>
    rw [Nat.add_assoc, ih (fun k hk => h k (by omega)), Nat.add_comm 1 m, run_succ (h n (by omega))]

/-- While only the DMA agent moves, the run sends the rest of the transfer cell by cell. -/
theorem run_transfer {s : State} (ha : s.dmaActive = true) (hlt : s.dmaIdx.toNat < 57600)
    (hstep : ∀ k < 57600 - s.dmaIdx.toNat, step (s.sentCells k) = .next (dmaStep (s.sentCells k))) (m : Nat) :
    Sys2Proof.core.run (57600 - s.dmaIdx.toNat + m) s = Sys2Proof.core.run m (s.sentCells (57600 - s.dmaIdx.toNat)) := by
  have hrun := run_along (f := s.sentCells) (fun k hk => (hstep k hk).trans (congrArg _ (dmaStep_sentCells (by omega)))) m
  rwa [sentCells_zero ha hlt] at hrun

/-- All cells are sent: the transfer is over (R302, R308). -/
theorem sentCells_all {s : State} (hlt : s.dmaIdx.toNat < 57600) :
    s.sentCells (57600 - s.dmaIdx.toNat) = { s with
      dmaActive := false, dmaDone := true, dmaIdx := 57600#17,
      dispOut := (s.cellBytes s.dmaIdx.toNat (57600 - s.dmaIdx.toNat)).reverse ++ s.dispOut } := by
  have hsum : s.dmaIdx.toNat + (57600 - s.dmaIdx.toNat) = 57600 := by omega
  have hidx : s.dmaIdx + BitVec.ofNat 17 (57600 - s.dmaIdx.toNat) = 57600#17 := by
    apply BitVec.eq_of_toNat_eq
    simp only [BitVec.toNat_add, BitVec.toNat_ofNat]
    omega
  simp [State.sentCells, hsum, hidx]

/-- Settles O33: while the engine is idle each step is the DMA agent's, up to the last cell. -/
theorem transferSendsEveryCell : Obligations.TransferSendsEveryCell := by
  intro s hp hr ha hlt
  refine (run_transfer ha hlt (fun k hk => ?_) 0).trans ?_
  · have hact := sentCells_dmaActive (s := s) (k := k) (by omega)
    rw [step_idle (s := s.sentCells k) hr (turnDue_quiet hp) (.inl hact), if_pos hact,
      spend_quiet (by rw [dmaStep_plan]; exact hp)]
  · rw [run_zero, sentCells_all hlt]

/-! ### The held `FLUSH` -/

/-- An engine that goes on inside its command is driven from where it stands. -/
theorem resume_eq_drive {s : State} {b : Position} (hb : s.inside = some b) (hne : b.todo ≠ []) : resume s b = drive s b := by
  obtain ⟨m, ms, hm⟩ := List.exists_cons_of_ne_nil hne
  have hs : s.setInside (some b) = s := by rw [State.setInside, ← hb]
  rw [resume, drive, settle_cons s b hm, hs]

/-- A `FLUSH` with its step ahead and no transfer in progress begins its own transfer and completes (R301). -/
theorem step_flush {s : State} {r0 r1 : Byte} (hp : s.plan = []) (hr : s.run = .running)
    (hb : s.inside = some ⟨.flush, [.flush], r0, r1⟩) (ha : s.dmaActive = false) :
    step s = .next (complete (beginTransfer s) .flush) := by
  have hheld : s.held = false := by simp [State.held, hb, ha]
  rw [step_inside hr hb (turnDue_quiet hp), hheld, resume_eq_drive hb (List.cons_ne_nil _ _), drive_last hp (fun _ => ha) rfl rfl]
  rfl

/-- Settles O34: while `FLUSH` is held each step is the DMA agent's; behind the last cell it takes its own step. -/
theorem heldFlushStartsAfterTheTransfer : Obligations.HeldFlushStartsAfterTheTransfer := by
  intro s r0 r1 hp hr hb ha hlt
  refine (run_transfer ha hlt (fun k hk => ?_) 1).trans ?_
  · have hact := sentCells_dmaActive (s := s) (k := k) (by omega)
    have hheld : (s.sentCells k).held = true := by
      have hb' : (s.sentCells k).inside = some ⟨.flush, [.flush], r0, r1⟩ := hb
      simp [State.held, hb', hact, waitsForDma]
    rw [step_inside (s := s.sentCells k) hr hb (turnDue_quiet hp), if_pos hheld,
      spend_quiet (by rw [dmaStep_plan]; exact hp)]
  · have hall := sentCells_all hlt
    have hover : (s.sentCells (57600 - s.dmaIdx.toNat)).dmaActive = false := by rw [hall]
    refine (run_succ (step_flush (s := s.sentCells _) hp hr hb hover) 0).trans ?_
    rw [run_zero, hall]
    rfl

end Sys2Proof.Machine
end

section
/-! SUPPORT. The frames of `NOP`, `END`, `FLUSH` and `DMA_WAIT`, begun or resumed, cut short or not (20_memory R110; 40_engine R175,
R176; 46_display_dma R301, R306), and the completion of every command (40_engine R172, R173, R177). -/

namespace Sys2Proof.Machine

/-! ### The frames of the control commands -/

/-- `t` is `s` but for the position, `CP` and the plan: what every command may change (R71, R173). -/
def State.movedTo (s t : State) : Prop := t = { s with inside := t.inside, cp := t.cp, plan := t.plan }

/-- As `movedTo`, but for `RUN` and `STATUS.DONE` too: what `END` may change (R176). -/
def State.stoppedTo (s t : State) : Prop :=
  t = { s with inside := t.inside, cp := t.cp, plan := t.plan, run := t.run, done := t.done }

/-- As `movedTo`, but for the DMA agent and `DISP_OUT` too: what `FLUSH` may change (R301). -/
def State.flushedTo (s t : State) : Prop :=
  t = { s with
    inside := t.inside, cp := t.cp, plan := t.plan, dmaActive := t.dmaActive, dmaIdx := t.dmaIdx, dispOut := t.dispOut }

theorem State.movedTo.trans {s t u : State} (h : s.movedTo t) (h' : t.movedTo u) : s.movedTo u := by
  unfold State.movedTo at h'
  refine h'.trans ?_
  rw [h]

theorem State.stoppedTo.trans {s t u : State} (h : s.stoppedTo t) (h' : t.stoppedTo u) : s.stoppedTo u := by
  unfold State.stoppedTo at h'
  refine h'.trans ?_
  rw [h]

theorem State.flushedTo.trans {s t u : State} (h : s.flushedTo t) (h' : t.flushedTo u) : s.flushedTo u := by
  unfold State.flushedTo at h'
  refine h'.trans ?_
  rw [h]

theorem State.movedTo.stoppedTo {s t : State} (h : s.movedTo t) : s.stoppedTo t := by
  unfold State.movedTo at h
  rw [h]
  rfl

theorem State.movedTo.flushedTo {s t : State} (h : s.movedTo t) : s.flushedTo t := by
  unfold State.movedTo at h
  rw [h]
  rfl

theorem movedTo_settle (s : State) (b : Position) : s.movedTo (settle s b) := by
  rcases settle_cases s b with ⟨_, h⟩ | ⟨_, h⟩ <;> rw [h] <;> rfl

/-- A command that neither draws nor scans. -/
def controls (i : Instr) : Prop := i = .nop ∨ i = .endList ∨ i = .flush ∨ i = .dmaWait

/-- Such a command has no step but the one it begins with. -/
theorem belongs_controls {i : Instr} {m first : Micro} (hi : controls i) (hf : firstSteps i = [first])
    (h : m.belongs i = true) : m = first := by
  rcases hi with rfl | rfl | rfl | rfl <;> cases hf <;> cases m <;> first | rfl | cases h

/-- Such a command, carried out, stays in a relation that chains, that leaves the position, `CP` and the plan free, and that the
effect of the command's one step keeps to. -/
theorem carries_related {R : State → State → Prop} {i : Instr} {first : Micro} (hi : controls i) (hf : firstSteps i = [first])
    (trans : ∀ {a b c}, R a b → R b c → R a c) (moved : ∀ {a b}, a.movedTo b → R a b)
    (own : ∀ a n b, R a (effect a n b first)) {s t : State} (ht : s.carries i t) : R s t := by
  have hw : i.wf = true := by rcases hi with rfl | rfl | rfl | rfl <;> rfl
  refine carries_keeps_of i hw (R s) (fun u b m ms _ _ _ _ hb hu => ?_) ht (moved rfl) fun _ _ _ => moved rfl
  have hspend : R u (u.spend (span u m)) := moved rfl
  obtain rfl := belongs_controls hi hf hb
  exact trans (trans (trans hu hspend) (own _ _ b)) (moved (movedTo_settle _ _))

/-- Settles O10: the effect of each command's one step stays in the command's frame. -/
theorem frameOfControlCommands : Obligations.FrameOfControlCommands := by
  intro s t
  refine ⟨?nop, ?endList, ?flush, ?dmaWait⟩
  case nop => exact carries_related (R := State.movedTo) (.inl rfl) rfl .trans id fun _ _ _ => rfl
  case endList =>
    exact carries_related (R := State.stoppedTo) (.inr (.inl rfl)) rfl .trans State.movedTo.stoppedTo fun _ _ _ => rfl
  case flush =>
    exact carries_related (R := State.flushedTo) (.inr (.inr (.inl rfl))) rfl .trans State.movedTo.flushedTo fun _ _ _ => rfl
  case dmaWait => exact carries_related (R := State.movedTo) (.inr (.inr (.inr rfl))) rfl .trans id fun _ _ _ => rfl

/-! ### Every command completes -/

/-- The steps a command begins with wait for the DMA agent in `FLUSH` and `DMA_WAIT` only (R300, R306). -/
theorem waits_firstSteps {i : Instr} (h : ¬ (i = .flush ∨ i = .dmaWait)) : ∀ m ∈ firstSteps i, waitsForDma m = false := by
  intro m hm
  cases i with
  | flush => exact absurd (.inl rfl) h
  | dmaWait => exact absurd (.inr rfl) h
  | tileText o | bmText o | curvedText o =>
    simp only [firstSteps] at hm
    split_ifs at hm <;> rw [List.mem_singleton.1 hm] <;> rfl
  | _ => rw [List.mem_singleton.1 hm]; rfl

/-- A command that begins while the DMA agent is idle, or that does not wait for it, is held nowhere. -/
theorem free_begin {s : State} {i : Instr} (h : i = .flush ∨ i = .dmaWait → s.dmaActive = false) :
    ((s.spend 1).setInside (some ⟨i, firstSteps i, 0#8, 0#8⟩)).free := by
  rintro b ⟨⟩
  by_cases hi : i = .flush ∨ i = .dmaWait
  · refine .inr ?_
    rcases hi with rfl | rfl
    · exact ⟨_, rfl, h (.inl rfl)⟩
    · exact ⟨_, rfl, h (.inr rfl)⟩
  · exact .inl (waits_firstSteps hi)

/-- Inside the command `i` the engine has not moved `CP` on from `cp`; behind it, by the command's advance (R173). -/
def State.cpFrom (cp : BitVec 11) (i : Instr) (s : State) : Prop :=
  (∀ b, s.inside = some b → b.cmd = i ∧ s.cp = cp) ∧ (s.inside = none → s.cp = cp + BitVec.ofNat 11 (cpAdvance i))

/-- An engine step moves `CP` only when it completes the command (R173). -/
theorem State.cpFrom.event {cp : BitVec 11} {i : Instr} {s : State} {b : Position} (hb : s.inside = some b)
    (h : s.cpFrom cp i) : (engineEvent s).cpFrom cp i := by
  obtain ⟨rfl, rfl⟩ := h.1 b hb
  have completed : ∀ u : State, u.cp = s.cp → (complete u b.cmd).cpFrom s.cp b.cmd := fun u hu =>
    ⟨nofun, fun _ => by rw [complete_cp, hu]⟩
  cases hm : b.todo with
  | nil =>
    have he : engineEvent s = complete (s.spend 1) b.cmd := by simp only [engineEvent, hb, hm]
    rw [he]
    exact completed _ rfl
  | cons m ms =>
    rw [engineEvent_eq hb hm]
    rcases settle_cases (effect (s.spend (span s m)) (span s m) b m)
      { gathered s b m with todo := opened s (span s m) m ++ ms } with ⟨-, he⟩ | ⟨-, he⟩ <;> rw [he]
    · rw [gathered_cmd]
      exact completed _ (effect_cp _ _ _ _)
    · refine ⟨?_, nofun⟩
      rintro b' ⟨⟩
      exact ⟨gathered_cmd s b m, effect_cp _ _ _ _⟩

theorem launch_cpFrom (i : Instr) (ms : List Micro) (s : State) : (launch i ms s).cpFrom s.cp i := by
  refine launch_keeps (State.cpFrom s.cp i) (fun _ _ hb _ h => h.event hb) i ms s ⟨?_, nofun⟩
  rintro b ⟨⟩
  exact ⟨rfl, rfl⟩

/-- A command that begins while nothing cuts in and nothing holds it runs to its end (R177). -/
theorem launch_done {s : State} {i : Instr} (hp : s.plan = []) (hdma : i = .flush ∨ i = .dmaWait → s.dmaActive = false) :
    (launch i (firstSteps i) s).inside = none := by
  have hplan : ((s.spend 1).setInside (some ⟨i, firstSteps i, 0#8, 0#8⟩)).plan = [] := by simp [hp, spendPlan]
  refine engineRun_done _ _ hplan ?_ (free_begin hdma) le_rfl
  rintro b ⟨⟩
  exact firstSteps_ne_nil i

theorem cpAdvance_eq (i : Instr) : cpAdvance i = if i = .endList then 0 else i.len := by
  cases i <;> simp [cpAdvance, Instr.len]

/-- Settles O58: nothing holds the command, so its run ends, and only its completion has moved `CP`. -/
theorem commandsComplete : Obligations.CommandsComplete := by
  intro s i hp hdma
  have hdone := launch_done hp hdma
  refine ⟨_, exec_eq_launch i s, hdone, engineRun_fault _ _, ?_⟩
  rw [(launch_cpFrom i (firstSteps i) s).2 hdone, cpAdvance_eq]

end Sys2Proof.Machine
end

section
/-! SUPPORT. The checks of decode in the order of the rule (40_engine R171; 60_exceptions R320 to R324): what decode rejects is what
the first failing check names. -/

namespace Sys2Proof

/-- Why a result of decode is a rejection, `none` for a command. -/
def rejection (r : Except Reject Instr) : Option Reject :=
  match r with
  | .ok _ => none
  | .error e => some e

/-- The last two checks, reserved bits before the text range (R171). -/
def rejectionOf (h w2 w4 : Word) : Option Reject :=
  if Machine.reservedSet h w2 w4 then some .reservedField else if Machine.textOut h w2 then some .textRange else none

/-! ### The opcode and the length -/

/-- The lengths of the opcode map are those of the opcodes (R147). -/
theorem opcodeMap_len : ∀ op : Byte, (opcodeMap.find? fun row => row.code == op).map OpRow.len = Machine.opLen op := by
  decide

theorem opLen_eq (h : Word) : Machine.opLen (h.extractLsb' 0 8) = (opRow? h).map OpRow.len := (opcodeMap_len _).symm

/-! ### The reserved bits and the text range -/

section Header

variable {row : OpRow} {h : Word} (hop : h.extractLsb' 0 8 = row.code)
include hop

/-- The header check of a command without operand words is the reserved-bit check (R147, R148). -/
theorem headerClean_short (w2 w4 : Word) (hmem : row ∈ opcodeMap) (hl : row.len = 1) :
    headerClean row h = !Machine.reservedSet h w2 w4 := by
  have hrow : ∀ row ∈ opcodeMap, row.len = 1 → (row.code = 0x02#8 ∧ row.mask = 0x0000FFFF#32) ∨
      (row.code ≠ 0x02#8 ∧ row.code ≠ 0x10#8 ∧ row.code ≠ 0x11#8 ∧ row.code ≠ 0x12#8 ∧ row.mask = 0xFFFFFFFF#32) := by decide
  rw [Bool.eq_iff_iff, headerClean_iff]
  rcases hrow row hmem hl with ⟨hc, hm⟩ | ⟨h02, h10, h11, h12, hm⟩
  · rw [hm, masked_color hop]
    simp [Machine.reservedSet, hop, hc]
  · rw [hm, masked_plain hop]
    simp [Machine.reservedSet, hop, h02, h10, h11, h12]

/-- The reserved-bit check of `TILE_TEXT` and `BM_TEXT` (R141, R143). -/
theorem lineText_clean (w2 w4 : Word) (hc : row.code = 0x10#8 ∨ row.code = 0x11#8) (hm : row.mask = 0x0000FEFF#32) :
    (headerClean row h && textWordClean w2) = !Machine.reservedSet h w2 w4 := by
  rw [Bool.eq_iff_iff, Bool.and_eq_true, headerClean_iff, hm, masked_centre hop]
  rcases hc with hc | hc <;> simp [Machine.reservedSet, hop, hc, textWordClean]

/-- The reserved-bit check of `CURVED_TEXT` (R141, R143, R145). -/
theorem arcText_clean (w2 w4 : Word) (hc : row.code = 0x12#8) (hm : row.mask = 0x0000FFFF#32) :
    (headerClean row h && textWordClean w2 && radiusWordClean w4) = !Machine.reservedSet h w2 w4 := by
  rw [Bool.eq_iff_iff, Bool.and_eq_true, Bool.and_eq_true, headerClean_iff, hm, masked_color hop]
  simp [Machine.reservedSet, hop, hc, textWordClean, radiusWordClean, and_assoc]

theorem textOut_short (w2 : Word) (hmem : row ∈ opcodeMap) (hl : row.len = 1) : Machine.textOut h w2 = false := by
  have hrow : ∀ row ∈ opcodeMap, row.len = 1 → row.code.toNat < 0x10 := by decide
  simp [Machine.textOut, hop, hrow row hmem hl]

theorem textFits_eq (w2 : Word) (hc : 0x10 ≤ row.code.toNat) :
    textFits (lowHalf w2) (tlenOf w2) = !Machine.textOut h w2 := by
  have hfits : textFits (lowHalf w2) (tlenOf w2) = true ↔ (w2.extractLsb' 0 16).toNat + (w2.extractLsb' 16 8).toNat ≤ 1024 :=
    decide_eq_true_iff
  rw [Bool.eq_iff_iff, hfits]
  simp [Machine.textOut, hop, hc]

end Header

/-! ### The row's checks -/

/-- Acceptance rejects as the last two checks do. -/
theorem rejection_accept {clean : Bool} {i : Instr} {h w2 w4 : Word} (hc : clean = !Machine.reservedSet h w2 w4)
    (ht : i.wf = !Machine.textOut h w2) : rejection (accept clean i) = rejectionOf h w2 w4 := by
  unfold accept rejectionOf
  rw [hc, ht]
  cases Machine.reservedSet h w2 w4 <;> cases Machine.textOut h w2 <;> rfl

/-- A row whose operand words all stand there rejects as the last two checks do. The cases are the rows in the map's order. -/
theorem rejection_decodeRow {row : OpRow} {h w2 w4 : Word} {ws : List Word} (hmem : row ∈ opcodeMap)
    (hop : h.extractLsb' 0 8 = row.code) (h2 : 3 ≤ row.len → ws[1]? = some w2) (h4 : 5 ≤ row.len → ws[3]? = some w4) :
    rejection (decodeRow row h ws) = rejectionOf h w2 w4 := by
  have short : ∀ {j : Instr}, row.len = 1 → j.wf = true → rejection (accept (headerClean row h) j) = rejectionOf h w2 w4 :=
    fun hl hj => rejection_accept (headerClean_short hop w2 w4 hmem hl) (by rw [hj, textOut_short hop w2 hmem hl]; rfl)
  have hrows := hmem
  simp only [opcodeMap, List.mem_cons, List.not_mem_nil, or_false] at hrows
  rcases hrows with rfl | rfl | rfl | rfl | rfl | rfl | rfl | rfl | rfl
  · exact short rfl rfl
  · exact short rfl rfl
  · exact short rfl rfl
  · exact short rfl rfl
  · exact short rfl rfl
  · exact short rfl rfl
  · match ws, h2 (by decide) with
    | w1 :: w2 :: rest, rfl => exact rejection_accept (lineText_clean hop w2 w4 (.inl rfl) rfl) (textFits_eq hop w2 (by decide))
  · match ws, h2 (by decide) with
    | w1 :: w2 :: rest, rfl => exact rejection_accept (lineText_clean hop w2 w4 (.inr rfl) rfl) (textFits_eq hop w2 (by decide))
  · match ws, h2 (by decide), h4 (by decide) with
    | w1 :: w2 :: w3 :: w4 :: rest, rfl, rfl =>
      exact rejection_accept (arcText_clean hop w2 w4 rfl rfl) (textFits_eq hop w2 (by decide))

end Sys2Proof

namespace Sys2Proof.Machine

/-- The words decode reads from a `CP` inside command RAM: the header and what follows it (R171). -/
theorem fetchWords_cons {s : State} (h : s.cp.toNat < 1024) :
    ∃ rest, s.fetchWords = s.cmdRead s.cp.toNat :: rest ∧ rest.length + 1 = min 5 (1024 - s.cp.toNat) ∧
      ∀ k, k + 1 < min 5 (1024 - s.cp.toNat) → rest[k]? = some (s.cmdRead (s.cp.toNat + (k + 1))) := by
  have hget := fetchWords_getElem? s
  have hlen := fetchWords_length s
  cases hw : s.fetchWords with
  | nil =>
    rw [hw, List.length_nil] at hlen
    omega
  | cons w rest =>
    rw [hw] at hget hlen
    have hhead := hget 0
    rw [if_pos (by omega)] at hhead
    cases hhead
    exact ⟨rest, rfl, hlen, fun k hk => (hget (k + 1)).trans (if_pos hk)⟩

/-- The fault at `CP` is the rejection of decode with its cause and word (R171, R320). -/
theorem faultAt_eq (s : State) : s.faultAt = (rejection s.fetch).map fun r => (causeOf r, s.faultWordFor r) := by
  unfold State.faultAt
  by_cases hcp : 1024 ≤ s.cp.toNat
  · have hnil : s.fetchWords = [] := List.length_eq_zero_iff.1 (by rw [fetchWords_length]; omega)
    rw [if_pos hcp, State.fetch, hnil]
    rfl
  obtain ⟨rest, hfetch, hlen, hrest⟩ := fetchWords_cons (Nat.lt_of_not_le hcp)
  rw [if_neg hcp, State.fetch, hfetch, decode, opLen_eq]
  cases hrow : opRow? (s.cmdRead s.cp.toNat) with
  | none => rfl
  | some row =>
    have hmem : row ∈ opcodeMap := List.mem_of_find?_eq_some hrow
    have hop : row.code = (s.cmdRead s.cp.toNat).extractLsb' 0 8 := by simpa using List.find?_some hrow
    have hmax : ∀ row ∈ opcodeMap, row.len ≤ 5 := by decide
    have hrow5 := hmax row hmem
    by_cases hshort : rest.length + 1 < row.len
    · have hover : 1024 < s.cp.toNat + row.len := by omega
      simp [hshort, hover, rejection, causeOf, State.faultWordFor]
    · have hfits : ¬ 1024 < s.cp.toNat + row.len := by omega
      have hrej := rejection_decodeRow hmem hop.symm (fun h3 => hrest 1 (by omega)) (fun h5 => hrest 3 (by omega))
      simp only [Option.map_some, hfits, hshort, if_false, hrej, rejectionOf]
      split_ifs <;> rfl

/-- Settles O5: decode rejects by the first failing check, and what it accepts is encoded in the words it reads. -/
theorem decodeFaultsOrRuns : Obligations.DecodeFaultsOrRuns := by
  intro s hr hd
  rw [step_ready hr hd, decodeStep, faultAt_eq]
  cases hf : s.fetch with
  | error r =>
    refine ⟨?_, nofun⟩
    rintro c w ⟨⟩
    rfl
  | ok i =>
    obtain ⟨hw, hfit⟩ := fetch_ok hf
    have hlen := len_le_maxLen i
    refine ⟨nofun, fun _ => ⟨i, hw, hfit, fun k hk => ?_, rfl⟩⟩
    obtain ⟨rest, happ⟩ := encode_prefix_of_decode hf
    have hget := fetchWords_getElem? s k
    rwa [if_pos (by omega), ← happ, List.getElem?_append_left (by rwa [encode_length])] at hget

end Sys2Proof.Machine
end

section
/-! SUPPORT. The result of `CLEAR` when nothing cuts in (41_clear R190, R191). -/

namespace Sys2Proof.Machine

/-- With no turn ahead, the one step of `CLEAR` writes every cell of the framebuffer at once (R191). -/
theorem span_fill_quiet {s : State} (hp : s.plan = []) (color : Cell) : span s (.fill color 0) = Config.npix :=
  burst_quiet hp _

/-- With no turn ahead, `CLEAR` fills the whole framebuffer and completes. -/
theorem exec_clear_quiet {s : State} (hp : s.plan = []) (color : Cell) :
    exec (.clear color) s = .next (complete (s.fbFill 0 Config.npix color) (.clear color)) := by
  have hspan := span_fill_quiet hp color
  have hopen : opened s (span s (.fill color 0)) (.fill color 0) = [] := by rw [hspan]; rfl
  rw [exec_one_step (m := .fill color 0) hp rfl nofun hopen, hspan]
  rfl

/-- Settles O11: the command is one fill, whose cells read as the colour and whose bytes are those of the framebuffer. -/
theorem clearFillsTheFramebuffer : Obligations.ClearFillsTheFramebuffer := by
  intro s color hp
  refine ⟨_, exec_clear_quiet hp color, rfl, ?cells, ?outside⟩
  case cells =>
    intro i hi
    exact (fbRead_fbFill s 0 57600 i color).trans (if_pos (by omega))
  case outside =>
    intro a ha
    exact (ramByte_fbFill s 0 57600 color a).trans (if_neg (by simp only [fbBase]; omega))

end Sys2Proof.Machine
end

section
/-! SUPPORT. The characters for which `TILE_TEXT` draws nothing (42_tile_text R203, R204, R208, R209). -/

namespace Sys2Proof.Machine

/-- A space, a control code or a code without a tile has no strokes (R203, R204, R208). -/
theorem tileCharStrokes_eq_nil {p : Config.Params} (o : LineText) {text : Nat → Byte} {i : Nat}
    (h : (text i).toNat ≤ 0x20 ∨ (text i).toNat < p.tileStart ∨ p.tileStart + p.tileCount ≤ (text i).toNat) :
    tileCharStrokes p o text i = [] :=
  if_neg (by omega)

/-- A text without a drawn character has no strokes, the empty text among them (R209). -/
theorem tileStrokes_eq_nil {p : Config.Params} {o : LineText} {text : Nat → Byte}
    (h : ∀ i < o.tlen.toNat, (text i).toNat ≤ 0x20 ∨ (text i).toNat < p.tileStart ∨ p.tileStart + p.tileCount ≤ (text i).toNat) :
    tileStrokes p o text = [] :=
  List.flatMap_eq_nil_iff.2 fun i hi => tileCharStrokes_eq_nil o (h i (List.mem_range.1 hi))

/-- Settles O16: by O13 the command draws its strokes, and this text has none. -/
theorem tileTextSkipsSpacesAndUnknownCodes : Obligations.TileTextSkipsSpacesAndUnknownCodes := by
  intro s o hp hw hskip
  rw [tileTextDrawsItsStrokes s o hp hw, tileStrokes_eq_nil hskip, drawStrokes_nil]

end Sys2Proof.Machine
end

section
/-! SUPPORT. The characters for which the lookup-driven commands draw nothing (43_bitmask_text R223, R228; 44_curved_text
R243, R252). -/

namespace Sys2Proof.Machine

variable {p : Config.Params} {text : Nat → Byte}

/-- A character outside the lookup string has no strokes in `BM_TEXT` (R223). -/
theorem bmCharStrokes_eq_nil (o : LineText) (n : Nat) {i : Nat} (h : text i ∉ p.bmLookup) :
    bmCharStrokes p o text n i = [] := by
  rw [bmCharStrokes, List.idxOf?_eq_none_iff.2 h]

/-- A character outside the lookup string has no strokes in `CURVED_TEXT` (R243). -/
theorem arcCharStrokes_eq_nil (o : ArcText) (k : Nat) {i : Nat} (h : text i ∉ p.bmLookup) :
    arcCharStrokes p o text k i = [] := by
  rw [arcCharStrokes, List.idxOf?_eq_none_iff.2 h]

/-- A `BM_TEXT` without a matched character has no strokes, the empty text among them (R228). -/
theorem bmStrokes_eq_nil {o : LineText} (h : ∀ i < o.tlen.toNat, text i ∉ p.bmLookup) : bmStrokes p o text = [] :=
  List.flatMap_eq_nil_iff.2 fun i hi => bmCharStrokes_eq_nil o _ (h i (List.mem_range.1 hi))

/-- A `CURVED_TEXT` without a matched character has no strokes: one without an angle has none at all (R240), and any other
only those of its characters (R252). -/
theorem arcStrokes_eq_nil {o : ArcText} (h : ∀ i < o.tlen.toNat, text i ∉ p.bmLookup) : arcStrokes p o text = [] := by
  unfold arcStrokes
  split
  · rfl
  · exact List.flatMap_eq_nil_iff.2 fun i hi => arcCharStrokes_eq_nil o _ (h i (List.mem_range.1 hi))

/-- Settles O17: by O14 and O15 the two commands draw their strokes, and these texts have none. -/
theorem unmatchedCharactersDrawNothing : Obligations.UnmatchedCharactersDrawNothing := by
  refine fun s hp => ⟨fun o hw hskip => ?bm, fun o hw hskip => ?arc⟩
  case bm => rw [bmTextDrawsItsStrokes s o hp hw, bmStrokes_eq_nil hskip, drawStrokes_nil]
  case arc => rw [curvedTextDrawsItsStrokes s o hp hw, arcStrokes_eq_nil hskip, drawStrokes_nil]

end Sys2Proof.Machine
end

section
/-! SUPPORT. `CURVED_TEXT` in exact values (44_curved_text R240, R251, R253): the binary32 operations on integers, and the
patterns between which a rounded result lies; from them the floored angles and the positions at two table indices. -/

namespace Sys2Proof.Machine

/-! ### Rounding keeps the side of a pattern's value -/

/-- A rounded result does not pass a pattern that lies above the exact value. -/
theorem fval_le_of_roundedFrom {x c : Word} {v : Int} {k : Nat} (hx : roundedFrom x v k) (hr : |v| < overflowAt * 2 ^ k)
    (hc : finite c) (h : v ≤ fval c * 2 ^ k) : fval x ≤ fval c := by
  obtain ⟨-, -, hnear⟩ := hx.2 hr
  have hd := (hnear c hc.1 hc.2).1
  rw [abs_of_nonneg (sub_nonneg.2 h)] at hd
  have hle : fval x * 2 ^ k ≤ fval c * 2 ^ k := by linarith [le_abs_self (fval x * 2 ^ k - v)]
  exact le_of_mul_le_mul_right hle (by positivity)

/-- A rounded result does not pass a pattern that lies below the exact value. -/
theorem le_fval_of_roundedFrom {x c : Word} {v : Int} {k : Nat} (hx : roundedFrom x v k) (hr : |v| < overflowAt * 2 ^ k)
    (hc : finite c) (h : fval c * 2 ^ k ≤ v) : fval c ≤ fval x := by
  obtain ⟨-, -, hnear⟩ := hx.2 hr
  have hd := (hnear c hc.1 hc.2).1
  rw [abs_of_nonpos (sub_nonpos.2 h)] at hd
  have hle : fval c * 2 ^ k ≤ fval x * 2 ^ k := by linarith [neg_abs_le (fval x * 2 ^ k - v)]
  exact le_of_mul_le_mul_right hle (by positivity)

/-! ### Patterns of integers -/

/-- The pattern is finite and its exact value is the integer `n`. -/
def hasInt (a : Word) (n : Int) : Prop := finite a ∧ fval a = n * 2 ^ 149

theorem hasInt_f32 {n : Int} (h : n.natAbs < 2 ^ 24) : hasInt (f32 n) n := fval_f32 h

/-- The units of an integer. -/
theorem natAbs_units (n : Int) : (n * 2 ^ 149).natAbs = n.natAbs * 2 ^ 149 := by
  rw [Int.natAbs_mul]
  rfl

theorem hasInt.fmag {a : Word} {n : Int} (h : hasInt a n) : fmag a = n.natAbs * 2 ^ 149 := by
  rw [← fval_natAbs, h.2, natAbs_units]

theorem hasInt.fsign {a : Word} {n : Int} (h : hasInt a n) (hn : n ≠ 0) : fsign a = decide (n < 0) := by
  have hv := h.2
  rw [fsign_of_fval_ne (by omega), decide_eq_decide]
  omega

theorem hasInt_fadd {a b : Word} {n m : Int} (ha : hasInt a n) (hb : hasInt b m) (h : (n + m).natAbs < 2 ^ 24) :
    hasInt (fadd a b) (n + m) := by
  have hv : fval a + fval b = (n + m) * 2 ^ 149 := by rw [ha.2, hb.2, add_mul]
  have := fval_fadd ha.1 hb.1 h (e := 149) (by decide) (by rw [hv, natAbs_units])
  rwa [hv] at this

theorem hasInt_fsub {a b : Word} {n m : Int} (ha : hasInt a n) (hb : hasInt b m) (h : (n - m).natAbs < 2 ^ 24) :
    hasInt (fsub a b) (n - m) := by
  have hv : fval a - fval b = (n - m) * 2 ^ 149 := by rw [ha.2, hb.2, sub_mul]
  have := fval_fsub ha.1 hb.1 h (e := 149) (by decide) (by rw [hv, natAbs_units])
  rwa [hv] at this

/-- An integer below 2^24 in magnitude lies in the finite range. -/
theorem units_in_range {n : Int} (h : n.natAbs < 2 ^ 24) (k : Nat) : |n * 2 ^ 149 * 2 ^ k| < overflowAt * 2 ^ k := by
  have hn : |n * 2 ^ 149| < overflowAt := by
    rw [Int.abs_eq_natAbs, natAbs_units, overflowAt]
    omega
  rw [abs_mul, abs_of_nonneg (by positivity : (0 : Int) ≤ 2 ^ k)]
  exact mul_lt_mul_of_pos_right hn (by positivity)

/-- A product that is a pattern's integer is exact. -/
theorem hasInt_fmul {a b : Word} {n m : Int} (ha : hasInt a n) (hb : hasInt b m) (h : (n * m).natAbs < 2 ^ 24) :
    hasInt (fmul a b) (n * m) := by
  obtain ⟨hc, hcv⟩ := hasInt_f32 h
  have hv : fval a * fval b = fval (f32 (n * m)) * 2 ^ 149 := by
    rw [ha.2, hb.2, hcv]
    ring
  have hx := roundedFrom_fmul ha.1 hb.1
  have hr : |fval a * fval b| < overflowAt * 2 ^ 149 := by
    rw [hv, hcv]
    exact units_in_range h 149
  obtain ⟨hnan, hinf, -⟩ := hx.2 hr
  have heq := le_antisymm (fval_le_of_roundedFrom hx hr hc hv.le) (le_fval_of_roundedFrom hx hr hc hv.ge)
  exact ⟨⟨hnan, hinf⟩, heq.trans hcv⟩

/-- The exact remainder has the sign of the dividend (R20). -/
theorem hasInt_ffmod {a b : Word} {n m : Int} (ha : hasInt a n) (hb : hasInt b m) (h : (n.tmod m).natAbs < 2 ^ 24) :
    hasInt (ffmod a b) (n.tmod m) := by
  have hmag : fmag a % fmag b = (n.tmod m * 2 ^ 149).natAbs := by
    rw [ha.fmag, hb.fmag, Nat.mul_mod_mul_right, natAbs_units, Int.natAbs_tmod]
  have hsign : n.tmod m * 2 ^ 149 ≠ 0 → fsign a = decide (n.tmod m * 2 ^ 149 < 0) := by
    intro hne
    have hndvd : ¬ m ∣ n := fun hdvd => hne (by rw [Int.tmod_eq_zero_of_dvd hdvd, zero_mul])
    have hneg : n.tmod m < 0 ↔ n < 0 := by
      rw [← Int.sign_eq_neg_one_iff_neg, Int.sign_tmod, if_neg hndvd, Int.sign_eq_neg_one_iff_neg]
    rw [ha.fsign (fun h0 => hndvd (h0 ▸ dvd_zero m)), decide_eq_decide]
    omega
  rw [ffmod, hmag]
  exact fval_signed_exact _ hsign h (e := 149) (by decide) (natAbs_units _)

/-- The comparison with zero (R22); `-0.0` is not below it. -/
theorem hasInt.fltZero {a : Word} {n : Int} (h : hasInt a n) : fltZero a = decide (n < 0) := by
  rw [Machine.fltZero, h.1.1, h.fmag]
  rcases eq_or_ne n 0 with rfl | hn
  · simp
  · simp [h.fsign hn, hn]

/-- An integer rounds to itself (R21). -/
theorem hasInt.fround {a : Word} {n : Int} (h : hasInt a n) : fround a = n := by
  have hb := roundedMag_bounds a
  rw [h.fmag] at hb
  have hm : roundedMag a = n.natAbs := by omega
  have hv := h.2
  rw [fround_eq, hm]
  unfold fval at hv
  rw [h.fmag] at hv
  split_ifs at hv ⊢ <;> omega

/-- The floor lies where the value lies (R21). -/
theorem ffloor_eq_of_bounds {a : Word} {n : Int} (hlo : n * 2 ^ 149 ≤ fval a) (hhi : fval a < (n + 1) * 2 ^ 149) :
    ffloor a = n := by
  obtain ⟨h1, h2⟩ := ffloor_bounds a
  omega

/-! ### Without an angle -/

/-- Every pattern with the exponent field 0xFF is that of a NaN or an infinity (R19). -/
theorem angleless_of_exponent {o : ArcText} (h : o.angle.extractLsb' 23 8 = 0xFF#8) : angleless o = true := by
  have he : fexp o.angle = 0xFF := congrArg BitVec.toNat h
  simp only [angleless, isNaN, isInf, he]
  cases h0 : ffrac o.angle == 0 <;> simp [bne, h0]

/-- Settles O18: the one step of the command advances `CP`. -/
theorem nanOrInfiniteAngleDrawsNothing : Obligations.NanOrInfiniteAngleDrawsNothing := fun _ _ hp hangle =>
  exec_one_step (m := .advance) hp (if_pos (.inl (angleless_of_exponent hangle))) nofun rfl

/-! ### Orientation -/

theorem rowRadius_eq (o : ArcText) (r : Nat) : rowRadius o r = o.radius.toInt - 2 * r := by
  simp [rowRadius]

theorem rowRadius_small (o : ArcText) {r : Nat} (hr : r < 8) : (rowRadius o r).natAbs < 2 ^ 16 := by
  have hlt := BitVec.two_mul_toInt_lt (x := o.radius)
  have hle := BitVec.le_two_mul_toInt (x := o.radius)
  rw [rowRadius_eq]
  omega

/-- Where the table holds integers, a pixel is off the centre by their multiples of the row's radius (R247). -/
theorem arcStroke_of_hasInt {o : ArcText} {k r c : Nat} {p q : Int} (hr : r < 8)
    (hp : hasInt (sinRom (sineIndex (arcFloor o k c))) p) (hq : hasInt (sinRom (cosineIndex (arcFloor o k c))) q)
    (hp1 : p.natAbs ≤ 1) (hq1 : q.natAbs ≤ 1) :
    arcStroke o k r c
      = ⟨o.cx.toInt + p * (o.radius.toInt - 2 * r), o.cy.toInt + q * (o.radius.toInt - 2 * r), o.color⟩ := by
  have hR := rowRadius_small o hr
  have hprod {n : Int} (h1 : n.natAbs ≤ 1) : (n * rowRadius o r).natAbs < 2 ^ 24 := by
    have hle := Nat.mul_le_mul_right (rowRadius o r).natAbs h1
    rw [Int.natAbs_mul]
    omega
  have hrad : hasInt (f32 (rowRadius o r)) (rowRadius o r) := hasInt_f32 (by omega)
  rw [arcStroke_eq, arcX, arcY, (hasInt_fmul hp hrad (hprod hp1)).fround, (hasInt_fmul hq hrad (hprod hq1)).fround,
    rowRadius_eq]

/-- The table at the four quarter turns (R62). -/
theorem sinRom_quarters :
    hasInt (sinRom 0) 0 ∧ hasInt (sinRom 90) 1 ∧ hasInt (sinRom 180) 0 ∧ hasInt (sinRom 270) (-1) := by
  unfold hasInt finite
  decide +kernel

/-- Settles O19: the sines of the two indices are 0, and their cosines 1 and -1. -/
theorem curvedOrientation : Obligations.CurvedOrientation := by
  intro o k r c hr
  obtain ⟨h0, h90, h180, h270⟩ := sinRom_quarters
  constructor <;> intro hi
  · have hs : sineIndex (arcFloor o k c) = 0 := by rw [sineIndex, hi]; rfl
    have hc : cosineIndex (arcFloor o k c) = 90 := by rw [cosineIndex, hs]
    rw [arcStroke_of_hasInt hr (hs ▸ h0) (hc ▸ h90) (by decide) (by decide)]
    simp
  · have hs : sineIndex (arcFloor o k c) = 180 := by rw [sineIndex, hi]; rfl
    have hc : cosineIndex (arcFloor o k c) = 270 := by rw [cosineIndex, hs]
    rw [arcStroke_of_hasInt hr (hs ▸ h180) (hc ▸ h270) (by decide) (by decide)]
    simp [sub_eq_add_neg]

/-! ### The closed form of the floored angle -/

/-- The remainder with the sign of the dividend, taken up by one turn where it is negative, is the Euclidean one (R241). -/
theorem tmod_turn (n : Int) : (if n.tmod 360 < 0 then n.tmod 360 + 360 else n.tmod 360) = n % 360 := by
  have hpos := Int.emod_nonneg n (b := 360) (by decide)
  have hlt := Int.emod_lt_of_pos n (b := 360) (by decide)
  rw [Int.tmod_eq_emod]
  split_ifs <;> omega

theorem natAbs_tmod_lt (n : Int) : (n.tmod 360).natAbs < 360 := by
  rw [Int.natAbs_tmod]
  exact Nat.mod_lt _ (by decide)

/-- The angle of a number of character slots (R241, R242). -/
theorem hasInt_slots {j : Nat} (h : j ≤ 255) : hasInt (f32 ((10 * j : Nat) : Int)) (10 * j) := by
  rw [Nat.cast_mul]
  exact hasInt_f32 (by omega)

/-- The start angle of an integer base angle is computed without rounding (R241, R251). -/
theorem hasInt_arcStart {o : ArcText} {b : Int} (hb : b.natAbs < 2 ^ 24) (ho : o.angle = f32 b)
    (hs : (b - 10 * ((o.tlen.toNat / 2 : Nat) : Int)).natAbs < 2 ^ 24) :
    hasInt (arcStart o) ((b - 10 * ((o.tlen.toNat / 2 : Nat) : Int)) % 360) := by
  have h360 : hasInt (f32 360) 360 := hasInt_f32 (by decide)
  have hlen : o.tlen.toNat / 2 ≤ 255 := by omega
  have hS0 := hasInt_fsub (hasInt_f32 hb) (hasInt_slots hlen) hs
  generalize b - 10 * ((o.tlen.toNat / 2 : Nat) : Int) = n at *
  have hsmall := natAbs_tmod_lt n
  have hS := hasInt_ffmod hS0 h360 (by omega)
  rw [arcStart, ho, ← tmod_turn, hS.fltZero]
  simp only [decide_eq_true_eq]
  split_ifs with hneg
  · exact hasInt_fadd hS h360 (by omega)
  · exact hS

theorem arcCur_succ (o : ArcText) (c : Nat) : arcCur o (c + 1) = fadd (arcCur o c) (f32 1) := by
  rw [← workingAngle_eq, workingAngle, workingAngle_eq]

/-- Every column adds one degree (R249). -/
theorem hasInt_arcCur {o : ArcText} {s : Int} (h : hasInt (arcStart o) s) (h0 : 0 ≤ s) (hs : s < 360) {c : Nat}
    (hc : c ≤ 8) : hasInt (arcCur o c) (s + c) := by
  induction c with
  | zero => simpa [arcCur] using h
  | succ c ih =>
    rw [arcCur_succ, Nat.cast_succ, ← add_assoc]
    exact hasInt_fadd (ih (by omega)) (hasInt_f32 (by decide)) (by omega)

/-- The skew of the columns: none at column 0, behind it from a sixteenth of a degree to one degree (R245). -/
theorem colSkew_bounds : hasInt (fmul (f32 (0 : Nat)) 0x3DCCCCCD#32) 0 ∧ ∀ c < 8, 0 < c →
    finite (fmul (f32 (c : Nat)) 0x3DCCCCCD#32) ∧ 2 ^ 145 ≤ fval (fmul (f32 (c : Nat)) 0x3DCCCCCD#32) ∧
      fval (fmul (f32 (c : Nat)) 0x3DCCCCCD#32) ≤ 2 ^ 149 := by
  unfold hasInt finite
  decide +kernel

/-- A sixteenth below a small positive integer there is a pattern. -/
theorem exists_sixteenth_below {n : Int} (h1 : 1 ≤ n) (hn : n < 2 ^ 16) :
    ∃ c, finite c ∧ fval c = (16 * n - 1) * 2 ^ 145 :=
  ⟨_, fval_signed_exact false (fun _ => (decide_eq_false (by omega)).symm) (s := (16 * n - 1).natAbs) (by omega)
    (by decide : 145 ≤ 252) (by omega)⟩

/-- An integer less a skew between a sixteenth and one floors to the integer below: rounding passes neither that integer nor
the pattern a sixteenth below the first one. -/
theorem ffloor_fsub_skew {a d : Word} {n : Int} (ha : hasInt a n) (h1 : 1 ≤ n) (hn : n < 2 ^ 16) (hd : finite d)
    (hlo : 2 ^ 145 ≤ fval d) (hhi : fval d ≤ 2 ^ 149) : ffloor (fsub a d) = n - 1 := by
  obtain ⟨hbelow, hbelowv⟩ := hasInt_f32 (n := n - 1) (by omega)
  obtain ⟨c, hnear, hnearv⟩ := exists_sixteenth_below h1 hn
  have hx := roundedFrom_fsub ha.1 hd
  have hr : |fval a - fval d| < overflowAt * 2 ^ 0 := by
    rw [ha.2, overflowAt, abs_lt]
    omega
  have hle := le_fval_of_roundedFrom hx hr hbelow (by rw [hbelowv, ha.2]; omega)
  have hge := fval_le_of_roundedFrom hx hr hnear (by rw [hnearv, ha.2]; omega)
  exact ffloor_eq_of_bounds (by omega) (by omega)

/-- Settles O20: the angle before the skew is exact, and the skew takes the floor down by one from column 1 on. -/
theorem curvedClosedForm : Obligations.CurvedClosedForm := by
  intro o b k c hb ho hs hk hc
  have hstart := hasInt_arcStart hb ho hs
  generalize b - 10 * ((o.tlen.toNat / 2 : Nat) : Int) = n at *
  have hangle : hasInt (fadd (arcCur o c) (f32 ((10 * k : Nat) : Int))) (n % 360 + c + 10 * k) :=
    hasInt_fadd (hasInt_arcCur hstart (by omega) (by omega) (by omega)) (hasInt_slots hk.le) (by omega)
  obtain ⟨hzero, hskew⟩ := colSkew_bounds
  rw [arcFloor]
  rcases Nat.eq_zero_or_pos c with rfl | hpos
  · have hx := hasInt_fsub hangle hzero (by omega)
    rw [ffloor_eq_of_bounds (n := n % 360 + 10 * k) (by rw [hx.2]; omega) (by rw [hx.2]; omega)]
    simp
  · obtain ⟨hfin, hlo, hhi⟩ := hskew c hc hpos
    rw [ffloor_fsub_skew hangle (by omega) (by omega) hfin hlo hhi]
    omega

end Sys2Proof.Machine
end

section
/-! SUPPORT. The result of `SCAN` when nothing cuts in (45_input_scan R272 to R277): the pin events and samples of the wiring mode
it reads, and then its one commit. -/

namespace Sys2Proof.Machine

/-! ### The whole command -/

/-- With no turn ahead, a scan is driven through the steps of the mode it reads first (R272, R278). -/
theorem exec_scan_quiet {s : State} (hp : s.plan = []) :
    exec .scan s = .next (drive s ⟨.scan, scanSteps s, 0#8, 0#8⟩) := by
  rw [exec_eq_launch, firstSteps, launch_quiet .scan _ s hp (List.cons_ne_nil _ _), drive_cons s _ .scanMode [] hp nofun rfl]
  simp only [effect, gathered, opened, List.append_nil]

/-- In matrix mode the commit follows eight columns of two samples each (R272, R273). -/
theorem exec_scan_matrix {s : State} (hp : s.plan = []) (hm : s.scanMode = false) :
    exec .scan s = .next (complete
      (commitScan (s.scanned (matrixEvents s.led) 16)
        (maskOf (fun c => s.drawLevel (2 * c)) 8) (maskOf (fun c => s.drawLevel (2 * c + 1)) 8)) .scan) := by
  have hsteps : scanSteps s = (List.range 8).flatMap (fun c => columnSteps s.led c) ++ [.commit] := by
    simp [scanSteps, hm, Config.matrixCols]
  rw [exec_scan_quiet hp, hsteps, drive_columns hp, ← matrixEvents_eq, drive_commit (s := s.scanned _ _) hp]

/-- In joystick mode the commit follows five samples into row 1 (R272, R274). -/
theorem exec_scan_joystick {s : State} (hp : s.plan = []) (hm : s.scanMode = true) :
    exec .scan s = .next (complete (commitScan (s.scanned [] 5) 0#8 (maskOf s.drawLevel 5)) .scan) := by
  have hsteps : scanSteps s = (List.range 5).map Micro.sampleJoy ++ [.commit] := by
    simp [scanSteps, hm, Config.joyPins]
  rw [exec_scan_quiet hp, hsteps, drive_joys hp, drive_commit (s := s.scanned _ _) hp]

/-- In either mode a scan ends with the commit of some row masks, after pin events and samples only (R278). -/
theorem exec_scan_commits {s : State} (hp : s.plan = []) :
    ∃ es n r0 r1, exec .scan s = .next (complete (commitScan (s.scanned es n) r0 r1) .scan) := by
  cases hm : s.scanMode with
  | false => exact ⟨_, _, _, _, exec_scan_matrix hp hm⟩
  | true => exact ⟨_, _, _, _, exec_scan_joystick hp hm⟩

/-! ### Rows and pins -/

/-- A mask holds the inverted levels of its samples. -/
theorem maskOf_bit_sampled (f : Nat → Bool) {n k : Nat} (hn : n ≤ 8) (hk : k < n) : (maskOf f n).getLsbD k = !f k := by
  rw [maskOf_bit f n k (by omega), decide_eq_true hk, Bool.true_and]

/-- A mask has no bit past its samples. -/
theorem maskOf_bit_past (f : Nat → Bool) {n k : Nat} (hk : n ≤ k) : (maskOf f n).getLsbD k = false := by
  rcases Nat.lt_or_ge k 8 with h | h
  · rw [maskOf_bit f n k h, decide_eq_false (by omega), Bool.false_and]
  · exact BitVec.getLsbD_of_ge _ _ h

/-- Settles O22: the commit keeps the pins and draws of the eight columns, and latches the masks of their even and odd samples. -/
theorem matrixScanRowsAndPins : Obligations.MatrixScanRowsAndPins := by
  refine ⟨fun led => by simp [matrixEvents], fun s hp hm => ⟨_, exec_scan_matrix hp hm, rfl, ?_⟩⟩
  simp only [complete_cp, complete_pinOut, complete_pins, complete_drawn, complete_row0, complete_row1,
    commitScan_cp, commitScan_pinOut, commitScan_pins, commitScan_drawn, commitScan_row0, commitScan_row1]
  exact ⟨rfl, rfl, rfl, rfl, fun _ => maskOf_bit_sampled _ le_rfl, fun _ => maskOf_bit_sampled _ le_rfl⟩

/-- Settles O23: the commit keeps the pins and draws of the five samples, and latches their mask as row 1. -/
theorem joystickScanRows : Obligations.JoystickScanRows := by
  intro s hp hm
  refine ⟨_, exec_scan_joystick hp hm, rfl, ?_⟩
  rw [complete_cp, complete_pinOut, complete_srData, complete_srClk, complete_srLoad, complete_pins, complete_drawn,
    complete_row0, complete_row1, commitScan_cp, commitScan_pinOut, commitScan_srData, commitScan_srClk, commitScan_srLoad,
    commitScan_pins, commitScan_drawn, commitScan_row0, commitScan_row1]
  exact ⟨rfl, rfl, rfl, rfl, rfl, rfl, rfl, rfl, fun _ => maskOf_bit_sampled _ (by decide), fun _ => maskOf_bit_past _⟩

/-! ### The commit -/

/-- Settles O24: the commit computes the speeds from the rows it latches. -/
theorem scanEditsSpeeds : Obligations.ScanEditsSpeeds := by
  intro s hp
  obtain ⟨es, n, r0, r1, h⟩ := exec_scan_commits hp
  refine ⟨_, h, fun m => ?_⟩
  rw [complete_row1, commitScan_row1]
  exact commitScan_speed_eq (s.scanned es n) r0 r1 m

/-- Settles O25: the commit debounces the controls in the rows it latches, against the latch from before the scan. -/
theorem scanDebouncesEdits : Obligations.ScanDebouncesEdits := by
  intro s hp
  obtain ⟨es, n, r0, r1, h⟩ := exec_scan_commits hp
  refine ⟨_, h, ?_⟩
  rw [complete_row0, complete_row1, commitScan_row0, commitScan_row1]
  exact ⟨commitScan_sel_eq _ r0 r1, commitScan_last_eq _ r0 r1, commitScan_upEdge_eq _ r0 r1,
    commitScan_downEdge_eq _ r0 r1, commitScan_menuEdge_eq _ r0 r1⟩

/-- Each selection lights one of the four low bits (R277). -/
theorem oneBit_of_selection : ∀ n : BitVec 2, 1#8 <<< n.toNat = 0x01#8 ∨ 1#8 <<< n.toNat = 0x02#8 ∨
    1#8 <<< n.toNat = 0x04#8 ∨ 1#8 <<< n.toNat = 0x08#8 := by decide

/-- Settles O26: the last act of the commit shows the selection, which has four values. -/
theorem scanShowsTheSelection : Obligations.ScanShowsTheSelection := by
  intro s hp
  obtain ⟨es, n, r0, r1, h⟩ := exec_scan_commits hp
  refine ⟨_, h, ?_⟩
  rw [complete_led, complete_sel, commitScan_led_eq]
  exact ⟨rfl, oneBit_of_selection _⟩

end Sys2Proof.Machine
end

section
/-! SUPPORT. `FLUSH`, `DMA_WAIT` and the DMA agent (46_display_dma R300 to R306): the two commands with and without a transfer in
progress, one step of the transfer, and the framing of the display output (R303, R311). -/

namespace Sys2Proof.Machine

/-! ### With no transfer in progress -/

/-- Settles O29: the one step of `FLUSH` begins the transfer and completes. -/
theorem flushStartsATransfer : Obligations.FlushStartsATransfer := fun _ hp ha =>
  exec_one_step (m := .flush) hp rfl (fun _ => ha) rfl

/-- Settles O30: the one step of `DMA_WAIT` does nothing but complete. -/
theorem dmaWaitWithoutTransferAdvances : Obligations.DmaWaitWithoutTransferAdvances := fun _ hp ha =>
  exec_one_step (m := .dmaWait) hp rfl (fun _ => ha) rfl

/-! ### The hold -/

/-- A step that waits for the DMA agent is held while a transfer is in progress (R300, R306). -/
theorem held_of_waits {s : State} {b : Position} {m : Micro} {ms : List Micro} (hb : s.inside = some b) (hm : b.todo = m :: ms)
    (hw : waitsForDma m = true) (ha : s.dmaActive = true) : s.held = true := by
  simp [State.held, hb, hm, hw, ha]

/-- An engine that is not held waits for no transfer in progress. -/
theorem not_active_of_not_held {s : State} {b : Position} {m : Micro} {ms : List Micro} (hb : s.inside = some b)
    (hm : b.todo = m :: ms) (hheld : s.held = false) (hw : waitsForDma m = true) : s.dmaActive = false := by
  cases ha : s.dmaActive with
  | false => rfl
  | true => exact absurd (hheld.symm.trans (held_of_waits hb hm hw ha)) Bool.false_ne_true

/-- A held engine does not run. -/
theorem engineRun_held {s : State} (h : s.held = true) (n : Nat) : engineRun n s = s := by
  cases n with
  | zero => rfl
  | succ n =>
    rw [engineRun]
    split
    · rfl
    · rw [h, Bool.or_true, if_pos rfl]

/-- A command that waits for the DMA agent and begins during a transfer is held at its first step. -/
theorem exec_held {s : State} {i : Instr} {m : Micro} (hp : s.plan = []) (hf : firstSteps i = [m])
    (hw : waitsForDma m = true) (ha : s.dmaActive = true) :
    exec i s = .next (s.setInside (some ⟨i, [m], 0#8, 0#8⟩)) := by
  rw [exec_eq_launch, hf, launch, spend_quiet hp, resume,
    engineRun_held (held_of_waits (State.setInside_inside _ _) rfl hw (by simpa using ha))]

/-- While the engine is held and no turn comes, the step is the DMA agent's (R300, R306; log 3). -/
theorem step_held {s : State} {b : Position} (hp : s.plan = []) (hr : s.run = .running) (hb : s.inside = some b)
    (hheld : s.held = true) : step s = .next (dmaStep s) := by
  rw [step_inside hr hb (turnDue_quiet hp), if_pos hheld, spend_quiet (by rw [dmaStep_plan]; exact hp)]

/-- In a transfer, a step of the DMA agent sends one cell. -/
theorem dmaStep_eq_sentCells {s : State} (ha : s.dmaActive = true) (hlt : s.dmaIdx.toNat < 57600) :
    dmaStep s = s.sentCells 1 := by
  have hstep := dmaStep_sentCells (s := s) (k := 0) hlt
  rwa [sentCells_zero ha hlt] at hstep

/-- Settles O31: both commands are held at their one step, and the held engine leaves the move to the DMA agent. -/
theorem flushAndWaitAreHeld : Obligations.FlushAndWaitAreHeld := by
  intro s hp ha hlt
  refine ⟨exec_held hp rfl rfl ha, exec_held hp rfl rfl ha, fun m hm cmd r0 r1 hr hb => ?_⟩
  refine ⟨s.sentCells 1, ?_, rfl, rfl, rfl, rfl, rfl⟩
  have hw : waitsForDma m = true := by rcases hm with rfl | rfl <;> rfl
  rw [step_held hp hr hb (held_of_waits hb rfl hw ha), dmaStep_eq_sentCells ha hlt]

/-! ### One step of a transfer -/

/-- Without a transfer the DMA agent has no step (R302; log 21). -/
theorem dmaStep_inactive {s : State} (h : s.dmaActive = false) : dmaStep s = s := by
  rw [dmaStep, h, if_neg Bool.false_ne_true]

/-- A due turn of the DMA agent is its step behind the turn (log 1). -/
theorem step_dma_turn {s : State} {ts : List Turn} (hp : s.plan = ⟨0, .dma⟩ :: ts) :
    step s = .next (dmaStep { s with plan := ts }) := step_turn hp (.inl rfl)

/-- With the engine idle and no turn coming, the step of a transfer is the DMA agent's (R302; log 3). -/
theorem step_idle_active {s : State} (hp : s.plan = []) (hr : s.run = .idle) (ha : s.dmaActive = true) :
    step s = .next (dmaStep s) := by
  rw [step_idle hr (turnDue_quiet hp) (.inl ha), if_pos ha, spend_quiet (by rw [dmaStep_plan]; exact hp)]

/-- Settles O32: as a turn and from idle the step is the DMA agent's own, on the plan behind it. -/
theorem dmaStepEmitsOneCell : Obligations.DmaStepEmitsOneCell := by
  refine fun s ts => ⟨fun ha _ hmove => ?active, fun ha hp => ?inactive⟩
  case active =>
    have hstep : step s = .next (dmaStep { s with plan := ts }) := by
      rcases hmove with hp | ⟨hp, rfl, hr⟩
      · exact step_dma_turn hp
      · rw [step_idle_active hp hr ha, ← hp]
    rw [hstep, dmaStep_active (s := { s with plan := ts }) ha]
    rfl
  case inactive => rw [step_dma_turn hp, dmaStep_inactive (s := { s with plan := ts }) ha]

/-! ### The framing of the display output -/

/-- A full-screen window may stand first and behind a whole transfer (R300, R303). -/
theorem dispFrame_win {es : List DispEvent} (h : dispFrame es = some none ∨ dispFrame es = some (some 115200)) :
    dispFrame (.win 0 0 239 239 :: es) = some (some 0) := by
  rcases h with h | h <;> simp [dispFrame, h]

/-- The two bytes of a cell may stand behind those of fewer cells than a transfer has (R302, R303). -/
theorem dispFrame_cell {es : List DispEvent} {n : Nat} (h : dispFrame es = some (some (2 * n))) (hn : n < 57600) (lo hi : Byte) :
    dispFrame (.byte hi :: .byte lo :: es) = some (some (2 * (n + 1))) := by
  have hlo : 2 * n < 115200 := by omega
  have hhi : 2 * n + 1 < 115200 := by omega
  simp [dispFrame, h, hlo, hhi, Nat.mul_add]

/-- The invariant speaks of three fields only. -/
theorem DispInv.of_eq {s t : State} (h : DispInv s) (out : t.dispOut = s.dispOut) (active : t.dmaActive = s.dmaActive)
    (idx : t.dmaIdx = s.dmaIdx) : DispInv t := by
  unfold DispInv
  rw [out, active, idx]
  exact h

/-- With no transfer in progress, nothing was ever sent or the last transfer is whole (R303). -/
theorem DispInv.whole {s : State} (h : DispInv s) (ha : s.dmaActive = false) :
    dispFrame s.dispOut = some none ∨ dispFrame s.dispOut = some (some 115200) := by
  rcases h with ⟨hout, -, -⟩ | ⟨hout, hle, hact⟩
  · exact .inl hout
  · have hlast : ¬ s.dmaIdx.toNat < 57600 := fun hlt => absurd (ha.symm.trans (hact.2 hlt)) Bool.false_ne_true
    have hall : 2 * s.dmaIdx.toNat = 115200 := by omega
    exact .inr (hall ▸ hout)

/-- In a transfer, the bytes of the cells below `DMA_IDX` have followed the window (R302). -/
theorem DispInv.partway {s : State} (h : DispInv s) (ha : s.dmaActive = true) :
    dispFrame s.dispOut = some (some (2 * s.dmaIdx.toNat)) ∧ s.dmaIdx.toNat < 57600 := by
  rcases h with ⟨-, hidle, -⟩ | ⟨hout, -, hact⟩
  · exact absurd (hidle.symm.trans ha) Bool.false_ne_true
  · exact ⟨hout, hact.1 ha⟩

/-- A transfer begins behind a whole one (R300, R301). -/
theorem DispInv.beginTransfer {s : State} (h : DispInv s) (ha : s.dmaActive = false) : DispInv (beginTransfer s) :=
  have hstart : (0#17).toNat < 57600 := by decide
  .inr ⟨dispFrame_win (h.whole ha), hstart.le, iff_of_true rfl hstart⟩

/-- A step of the DMA agent sends the cell at `DMA_IDX`, and the last cell ends the transfer (R302, R303). -/
theorem DispInv.dmaStep {s : State} (h : DispInv s) : DispInv (dmaStep s) := by
  cases ha : s.dmaActive with
  | false => rwa [dmaStep_inactive ha]
  | true =>
    obtain ⟨hout, hlt⟩ := h.partway ha
    have hidx : (s.dmaIdx + 1#17).toNat = s.dmaIdx.toNat + 1 := by
      rw [BitVec.toNat_add, BitVec.toNat_ofNat]
      omega
    rw [dmaStep_active ha, DispInv]
    refine .inr ?_
    dsimp only
    rw [hidx, Bool.not_eq_true', decide_eq_false_iff_not]
    exact ⟨dispFrame_cell hout hlt _ _, by omega, by omega⟩

/-- Of the engine's steps only that of `FLUSH` touches the display output and the DMA agent. -/
theorem DispInv.effect {s : State} (h : DispInv s) {m : Micro} (hw : waitsForDma m = true → s.dmaActive = false) (n : Nat)
    (b : Position) : DispInv (effect s n b m) := by
  cases m with
  | flush => exact h.beginTransfer (hw rfl)
  | commit | pin _ | sampleMatrix _ _ | sampleJoy _ =>
    exact h.of_eq (by simp [Machine.effect]) (by simp [Machine.effect]) (by simp [Machine.effect])
  | _ => exact h.of_eq rfl rfl rfl

/-- A step of an engine that is not held keeps the framing. -/
theorem DispInv.engineEvent {s : State} {b : Position} (h : DispInv s) (hb : s.inside = some b) (hheld : s.held = false) :
    DispInv (engineEvent s) := by
  cases hm : b.todo with
  | nil =>
    have he : Machine.engineEvent s = complete (s.spend 1) b.cmd := by simp only [Machine.engineEvent, hb, hm]
    rw [he]
    exact h.of_eq rfl rfl rfl
  | cons m ms =>
    rw [engineEvent_eq hb hm]
    have hspend : DispInv (s.spend (span s m)) := h.of_eq rfl rfl rfl
    have heffect := hspend.effect (not_active_of_not_held hb hm hheld) (span s m) b
    exact heffect.of_eq (settle_dispOut _ _) (settle_dmaActive _ _) (settle_dmaIdx _ _)

/-- No host write touches the display output or the DMA agent (R44, R105). -/
theorem DispInv.memWrite {s t : State} {addr n : Nat} {v : Word} (h : DispInv s) (hw : s.memWrite addr n v = some t) :
    DispInv t := by
  obtain ⟨off, -, ⟨-, -, rfl⟩ | rfl | ⟨-, rfl⟩⟩ := memWrite_some hw
  · exact h.of_eq (State.regWrite_dispOut _ _ _) (State.regWrite_dmaActive _ _ _) (State.regWrite_dmaIdx _ _ _)
  · exact h
  · exact h.of_eq (State.ramWrite_dispOut _ _ _ _) (State.ramWrite_dmaActive _ _ _ _) (State.ramWrite_dmaIdx _ _ _ _)

/-- A turn of another agent keeps the framing; a reset empties the output (R363). -/
theorem DispInv.actStep {s t : State} {a : Act} (h : DispInv s) (ha : actStep s a = .next t) : DispInv t := by
  rcases actStep_next ha with ⟨_, _, _, _, _, rfl⟩ | ⟨_, _, _, _, hw⟩ | ⟨_, rfl⟩ | ⟨_, rfl⟩
  · exact h.of_eq rfl rfl rfl
  · exact h.memWrite hw
  · exact h.dmaStep
  · exact .inl ⟨rfl, rfl, rfl⟩

/-- Settles O35: each kind of move that a step can be keeps the framing. -/
theorem displayOutputStaysFramed : Obligations.DisplayOutputStaysFramed := by
  intro s t _ hs hstep
  refine step_keeps DispInv ?event ?start ?fault ?dma ?turn hstep hs
  case event => exact fun s b hb hheld h => h.engineEvent hb hheld
  case start => exact fun s i _ _ h => h.of_eq rfl rfl rfl
  case fault => exact fun s r _ _ h => h.of_eq rfl rfl rfl
  case dma => exact fun s h => h.dmaStep.of_eq rfl rfl rfl
  case turn =>
    intro s u ts t _ ha h
    exact DispInv.actStep (s := { s with plan := ts }) (h.of_eq rfl rfl rfl) ha

end Sys2Proof.Machine
end

section
/-! Reset (70_reset_and_hazards R360, R361, R363): the reset turn is one step from any state, and what stands at reset. -/

namespace Sys2Proof.Machine

/-! ### The reset turn -/

/-- A due reset turn is the reset step, on the plan behind it (R360; log 1). -/
theorem step_reset_turn {s : State} {ts : List Turn} (hp : s.plan = ⟨0, .reset⟩ :: ts) :
    step s = .next { s with plan := ts }.resetStep := step_turn hp (.inl rfl)

/-- Behind a reset no byte is listed, so each reads as the free value of the new reset (R361; log 4). -/
theorem ramByte_resetStep (s : State) (a : Nat) : s.resetStep.ramByte a = Config.ramAtReset (s.resets + 1) a := rfl

/-- Settles O51: the step of the due turn is `State.resetStep`, whatever the engine or a transfer was doing. -/
theorem resetFromAnywhere : Obligations.ResetFromAnywhere := fun s ts hp =>
  ⟨{ s with plan := ts }.resetStep, step_reset_turn hp, rfl, ramByte_resetStep { s with plan := ts }⟩

/-! ### The reset values -/

theorem reset_statusWord : State.reset.statusWord = 0#32 := rfl

theorem reset_ieWord : State.reset.ieWord = 0#32 := rfl

theorem reset_eventsWord : State.reset.eventsWord = 0#32 := rfl

/-- Settles O50: the fields have their values by definition, and the four registers are read through the host's port. -/
theorem resetValues : Obligations.ResetValues := by
  have hid : State.reset.hostRead 0x000 4 = some 0x56534731#32 := hostRead_of_regRead rfl
  have hstatus : State.reset.hostRead 0x008 4 = some 0#32 := hostRead_of_regRead reset_statusWord
  have hie : State.reset.hostRead 0x00C 4 = some 0#32 := hostRead_of_regRead reset_ieWord
  have hevents : State.reset.hostRead 0x040 4 = some 0#32 := hostRead_of_regRead reset_eventsWord
  exact ⟨rfl, rfl, rfl, hid, rfl, hstatus, hie, rfl, rfl, rfl, rfl, rfl, rfl, rfl, rfl, hevents, rfl, rfl, rfl, rfl, rfl,
    rfl, rfl, rfl, rfl, rfl, rfl, rfl, rfl⟩

end Sys2Proof.Machine
end
